-- ==== Sys2Proof/Word.lean ====
section
/-! DEFINITION. The widths the T648's fields have, and the numbers that name its parts. -/

namespace Sys2Proof

/-- A word of the memory link: 32 bits (scope file, "Words, bits and addresses"). -/
abbrev Word := BitVec 32

/-- A two-byte field of a management frame, and the width of the sequence and lost counts. -/
abbrev Half := BitVec 16

/-- A byte of a management frame, and the width of a generation number. -/
abbrev Byte := BitVec 8

/-- A watch entry's index, 0 to 63 (R1). -/
abbrev EntryIndex := Fin 64

/-- A channel's number, 0 to 7 (R78). -/
abbrev ChannelIndex := Fin 8

/-- A transit slot's number, 0 to 31, which is its tag downstream (R138, R139). -/
abbrev SlotIndex := Fin 32

/-- A requesting agent's number on the upstream link, 0 to 31 (R128). -/
abbrev Source := Fin 32

end Sys2Proof
end

