-- ==== Sys2Proof/Config.lean ====
section
/-! DEFINITION. The numbers the manual fixes for the part. The manual leaves no value of the part
open that the machine would go on with, so there is no free value here. -/

namespace Sys2Proof.Config

/-- Capture records in the pool (R56). -/
def poolSize : Nat := 128

/-- Transit slots in the ring (R138). -/
def ringSize : Nat := 32

/-- Bytes of a service window: 16 words (R87). -/
def windowBytes : Nat := 64

/-- Tick divider after power-on reset and FULL (R127). -/
def defaultDivider : Half := 100

/-- Response timeout in ticks after power-on reset and FULL (R127, R167). -/
def defaultTimeout : Half := 1000

/-- Fault mask after power-on reset: every flag but POWER_ON (R194, section 12.4). -/
def defaultFaultMask : BitVec 7 := 0x7E

/-- Quota after power-on reset and FULL (R66, R78). -/
def defaultQuota : Byte := 16

/-- Watermark after power-on reset and FULL (R78). -/
def defaultWatermark : Byte := 1

end Sys2Proof.Config
end

