-- ==== Sys2Proof/Syntax.lean ====
section
/-! DEFINITION. The commands of the T648: one constructor of `Instr` for each row of
spec/opcode_table.json, with the operands that the event carries at the part's interfaces. -/

namespace Sys2Proof

/-- One data word of a WRITE with its four byte enables, bit k for byte k (R128, section 12.1). -/
structure WriteWord where
  data    : Word
  enables : BitVec 4
  deriving DecidableEq, Repr

/-- What a request asks for. A READ gives its length field; a WRITE carries its data words, and its
length is their number (R128). -/
inductive Payload where
  | read  (length : BitVec 4)
  | write (words : List WriteWord)
  deriving DecidableEq, Repr

/-- A request on the upstream port (R128). -/
structure Request where
  source  : Source
  address : Word
  payload : Payload
  deriving DecidableEq, Repr

/-- A response on the downstream port (R130, section 12.1): the tag, the two-bit status field, and
the eight data lanes of one block, of which a response to a READ uses as many as the read's length. -/
structure DownResponse where
  tag    : SlotIndex
  status : BitVec 2
  data   : Vector Word 8
  deriving DecidableEq, Repr

/-- The argument fields of WATCH_DEFINE, each at its width in the frame (section 12.3). -/
structure WatchDefineArgs where
  index      : Byte
  address    : Word
  enableMask : Word
  riseMask   : Word
  fallMask   : Word
  mode       : Byte
  channel    : Byte
  reconcile  : Byte
  threshold  : Half
  deriving DecidableEq, Repr

/-- The argument fields of CHANNEL_DEFINE, each at its width in the frame (section 12.3). -/
structure ChannelDefineArgs where
  channel         : Byte
  windowPresent   : Byte
  windowBase      : Word
  permitted       : Word
  quota           : Byte
  watermark       : Byte
  holdoff         : Half
  claimDeadline   : Half
  serviceDeadline : Half
  fallback        : Byte
  deriving DecidableEq, Repr

/-- The commands: every row of the opcode table, in the table's order. `coversTick`, off where it is not
given, says of a row that can restart a timer at its last tick that it falls together with that tick, is
taken first, and that no expiry comes of that tick (R85, R117, R119, R120, R165; log entry 23). -/
inductive Instr where
  /-- RESET_N falls or is held low (R197). -/
  | resetNFall
  /-- RESET_N rises (R192). -/
  | resetNRise
  /-- A tick period ends (R111). `order` is the order in which the environment lets expiries that
  fall on this one tick be taken: the channels it names first, then the others ascending (R68). -/
  | tick (order : List ChannelIndex)
  /-- The tick that expires a channel's hold-off timer reaches that timer (R85). -/
  | holdoffExpiry (channel : ChannelIndex)
  /-- The tick that expires a channel's claim timer reaches that timer (R116). -/
  | claimDeadlineExpiry (channel : ChannelIndex)
  /-- The tick that expires a channel's service timer reaches that timer (R118). -/
  | serviceDeadlineExpiry (channel : ChannelIndex)
  /-- The tick that expires the downstream response timer reaches that timer (R159). -/
  | responseTimerExpiry
  /-- The fabric offers a request at the upstream port, and the arbiter may grant it a slot (R133). -/
  | requestAccept (request : Request) (coversTick : Bool := false)
  /-- A READ of the given length at word 0 of the channel's window (R91). -/
  | claim (source : Source) (channel : ChannelIndex) (length : BitVec 4)
      (coversTick : Bool := false)
  /-- A READ of length 2 at word 2 of the channel's window (R95). -/
  | collect (source : Source) (channel : ChannelIndex)
  /-- A READ of length 6 at word 8 of the channel's window (R96). -/
  | record (source : Source) (channel : ChannelIndex) (coversTick : Bool := false)
  /-- A WRITE of length 1 at word 4 of the channel's window with all byte enables on (R97). -/
  | returnService (source : Source) (channel : ChannelIndex) (count : Word)
      (coversTick : Bool := false)
  /-- Any other access to the channel's window, at a word of it and of any shape (R89). -/
  | refusedWindowAccess (source : Source) (channel : ChannelIndex) (firstWord : Fin 16)
      (payload : Payload)
  /-- The arbiter grants a free slot to the priming queue (R44). -/
  | primingIssue
  /-- Memory takes the request the downstream port presents (R141). -/
  | downstreamSend
  /-- Memory returns a response (R143). -/
  | downstreamResponse (response : DownResponse) (coversTick : Bool := false)
  /-- The fabric takes the head slot's response (R147). -/
  | slotLeave
  /-- The FULL scope applies at the end of the drain (R201). -/
  | scopeFullApply
  /-- The KEEP_CONFIG scope applies at the end of the drain (R202). -/
  | scopeKeepConfigApply
  /-- Management command 0x10 reaches its execution point (R178). -/
  | watchDefine (args : WatchDefineArgs)
  /-- Management command 0x11 (R179). -/
  | watchRelease (index : Byte)
  /-- Management command 0x12 (R180). -/
  | watchQuery (index : Byte)
  /-- Management command 0x20 (R181). -/
  | channelDefine (args : ChannelDefineArgs)
  /-- Management command 0x21 (R182). -/
  | channelEnable (channel : Byte)
  /-- Management command 0x22 with the purge byte it carries (R104, R183). -/
  | channelDisable (channel : Byte) (purge : Byte)
  /-- Management command 0x22 with purge byte 1 (R105). -/
  | channelDisablePurge (channel : Byte)
  /-- Management command 0x23 (R184). -/
  | channelReinstate (channel : Byte)
  /-- Management command 0x24 (R185). -/
  | channelQuery (channel : Byte)
  /-- Management command 0x30 (R186). -/
  | timingSet (divider : Half) (timeout : Half)
  /-- Management command 0x31 (R187). -/
  | faultMaskSet (mask : Byte)
  /-- Management command 0x38 (R188). -/
  | statusQuery
  /-- Management command 0x39 (R189). -/
  | faultCollect
  /-- Management command 0x3A (R190). -/
  | linkResume
  /-- Management command 0x3F (R191). -/
  | deviceReset (scope : Byte)
  /-- A command byte that names no command (R173). -/
  | unknownCommand (code : Byte)
  /-- Chip select rises before the command executes, after the bits given are sampled (R171). -/
  | frameDiscard (bits : List Bool)
  /-- Chip select rises after the bits given are sampled behind the execution point (R172). -/
  | frameCutAfterExecution (bits : List Bool)
  /-- Chip select falls, and the bits given are sampled before the next command (R168).
With none given it is the fall alone. -/
  | frameBegin (bits : List Bool := [])
  deriving DecidableEq, Repr

end Sys2Proof
end

