-- ==== Sys2Proof/Machine/State.lean ====
section
/-! DEFINITION. Everything the manual gives the part to hold, as plain data, and its value after
power-on reset. Each structure's docstrings cite the rule that names the field. -/

namespace Sys2Proof.Machine

/-- Why the part would stop. No rule of the manual stops the part: every event is taken, ignored or
answered, so there is no fault and the type is empty. -/
inductive Fault where
  deriving DecidableEq, Repr

/-- Why a command has no meaning here. -/
inductive Refusal where
  /-- Raised by `exec` for a row that has no meaning yet; no row is left so. Safe. -/
  | notModelled (mnemonic : String)
  deriving DecidableEq, Repr

/-! ### Watch entries (chapter 1) -/

/-- The state of a watch entry (R1). -/
inductive EntryState where
  | free | priming | armed | repriming
  deriving DecidableEq, Repr

/-- The reporting mode of an entry (R1, R2). -/
inductive Mode where
  | flag | record | count
  deriving DecidableEq, Repr

/-- A watch entry (R1). An absent field holds 0, as it is reported. -/
structure Entry where
  state      : EntryState
  address    : Word
  enableMask : Word
  riseMask   : Word
  fallMask   : Word
  mode       : Mode
  channel    : ChannelIndex
  reconcile  : Bool
  threshold  : Half
  count      : Half
  shadow     : Word
  pendingMask : Word
  generation : Byte
  deriving DecidableEq, Repr

/-! ### Capture records (chapter 4) -/

/-- Which deadline a lapse missed (R58, R121). -/
inductive LapseCause where
  | claim | service
  deriving DecidableEq, Repr

/-- What an evaluation hands to record creation (R31). -/
structure Change where
  entry      : EntryIndex
  generation : Byte
  old        : Word
  new        : Word
  mask       : Word
  deriving DecidableEq, Repr

/-- A record's kind with the fields that kind has (R58, R59). -/
inductive RecordBody where
  | transition (source : Source) (change : Change)
  | unseen (change : Change)
  | count (source : Option Source) (change : Change)
  | lapse (channel : ChannelIndex) (cause : LapseCause)
  deriving DecidableEq, Repr

/-- A capture record (R58). Whether it is QUEUED or HANDED is the list that holds it. -/
structure Record where
  body       : RecordBody
  sequence   : Half
  timestamp  : Word
  redelivery : BitVec 3
  deriving DecidableEq, Repr

/-! ### Channels (chapter 5) -/

/-- A tick timer: stopped, or running with the ticks still to come (R113). -/
inductive Timer where
  | stopped
  | running (ticks : Nat)
  deriving DecidableEq, Repr

/-- The state of a channel (R81). -/
inductive ChannelState where
  | disabled | idle | holdoff | alerting | inService | lapsed
  deriving DecidableEq, Repr

/-- The configuration CHANNEL_DEFINE writes (R78). -/
structure ChannelConfig where
  windowBase      : Option Word
  permitted       : Word
  quota           : Byte
  watermark       : Byte
  holdoff         : Half
  claimDeadline   : Half
  serviceDeadline : Half
  fallback        : Option ChannelIndex
  deriving DecidableEq, Repr

/-- A channel: its configuration and its dynamic state (R79), with its queue in two parts, HANDED
in front and QUEUED behind (R69), and the level of its alert line (R81). -/
structure Channel where
  config       : ChannelConfig
  state        : ChannelState
  alert        : Bool
  handed       : List Record
  queued       : List Record
  pendingSet   : List EntryIndex
  overflow     : Bool
  nextSequence : Half
  lost         : Half
  lapses       : Byte
  refused      : Byte
  reclaims     : Byte
  overRetire   : Bool
  holdoffTimer : Timer
  claimTimer   : Timer
  serviceTimer : Timer
  deriving DecidableEq, Repr

/-! ### The transit ring and the two memory ports (chapters 7 and 8) -/

/-- The status of an upstream response (R130). -/
inductive Status where
  | okay | fault | refused
  deriving DecidableEq, Repr

/-- An upstream response: a status and, for a READ, data words (R130). -/
structure UpResponse where
  status : Status
  data   : List Word
  deriving DecidableEq, Repr

/-- Where a downstream request comes from (R129). -/
inductive Origin where
  | source (source : Source)
  | priming
  deriving DecidableEq, Repr

/-- A request sent on the downstream port (R129). -/
structure DownRequest where
  tag     : SlotIndex
  origin  : Origin
  address : Word
  payload : Payload
  deriving DecidableEq, Repr

/-- A slot in use, with the fields its condition and its transaction need (R138). The first two
constructors are OUTSTANDING slots with their sent indication, the last two COMPLETE ones. -/
inductive Slot where
  | forwarded (request : Request) (sent : Bool)
  | primingRead (entry : EntryIndex) (generation : Byte) (address : Word) (sent : Bool)
  | answered (source : Source) (isWrite : Bool) (address : Word) (length : Nat)
      (response : UpResponse)
  | primingDone (entry : EntryIndex) (generation : Byte) (address : Word)
  deriving DecidableEq, Repr

/-- The state of the downstream link (R153). -/
inductive LinkState where
  | active | stalled
  deriving DecidableEq, Repr

/-! ### The device, the fault unit and the management port (chapters 9 and 10) -/

/-- The scope of a DEVICE_RESET (R191). -/
inductive Scope where
  | full | keepConfig
  deriving DecidableEq, Repr

/-- The device state (R192). RESET is the level of RESET_N; DRAINING keeps the chosen scope. -/
inductive DeviceState where
  | reset
  | running
  | draining (scope : Scope)
  deriving DecidableEq, Repr

/-- The result codes of a command (R174). -/
inductive ResultCode where
  | ok | badCommand | busy | badIndex | badValue | wrongState | duplicate | overlap
  deriving DecidableEq, Repr

/-- The position the current frame has reached, with what the port holds there (R168, R170): no
frame (chip select high, or a select that began none), then the six positions. The command byte is
held from its taking on, the argument bytes until the command executes, and the result and the
response bytes from there until they are shifted out. -/
inductive FramePhase where
  | noFrame
  | command
  | arguments (code : Byte) (taken : List Byte)
  | turnaround (code : Byte) (result : ResultCode) (response : List Byte)
  | result (code : Byte) (result : ResultCode) (response : List Byte)
  | response (code : Byte) (left : List Byte)
  | trailing (code : Byte)
  deriving DecidableEq, Repr

/-- The management port (R168): the level of chip select, the position of the frame, the bits sampled
of the byte in progress, the first sampled first, and the bits shifted out since chip select fell,
which are the model's own field. -/
structure ManagementPort where
  selectLow : Bool
  phase     : FramePhase
  bits      : List Bool
  shifted   : List Bool
  deriving DecidableEq, Repr

/-! ### The tick -/

/-- What a tick reaches: a channel with its three timers (R79), or the downstream port with its
response timer (R158). -/
inductive TickOwner where
  | channel (c : ChannelIndex)
  | port
  deriving DecidableEq, Repr

/-! ### The whole part -/

/-- The state of the T648, and the queue of commands waiting to be taken. -/
structure State where
  /-- The commands waiting, first in, first out (the model's own field). -/
  pending         : List Instr
  device          : DeviceState
  entries         : Vector Entry 64
  primingQueue    : List EntryIndex
  freeRecords     : Nat
  channels        : Vector Channel 8
  tickCounter     : Word
  tickDivider     : Half
  /-- CLK periods of the tick period in progress: the divider as it stood when the period began (R112). -/
  tickPeriod      : Half
  /-- Where the tick of the present instant has been taken ahead of its TICK: what is started there from
  now on has the tick after it as its first (R114). The model's own field (log entry 22). -/
  tickTaken       : List TickOwner
  responseTimeout : Half
  /-- The slots in use, from the head to the slot before the tail (R139). -/
  ring            : List Slot
  /-- The slot number of the head (R139). -/
  head            : SlotIndex
  link            : LinkState
  responseTimer   : Timer
  /-- The seven fault flags at their bits of section 12.4 (R193). -/
  faultFlags      : BitVec 7
  faultMask       : BitVec 7
  /-- FAULT_N: true when the line is asserted, that is driven low (R195). -/
  faultLine       : Bool
  management      : ManagementPort
  /-- The response last sent on the upstream port (R147). -/
  upstreamOut     : Option UpResponse
  /-- The request memory last took on the downstream port (R141). -/
  downstreamOut   : Option DownRequest
  deriving DecidableEq, Repr

/-- An entry after power-on reset (R16). -/
def Entry.powerOn : Entry where
  state := .free
  address := 0
  enableMask := 0
  riseMask := 0
  fallMask := 0
  mode := .flag
  channel := 0
  reconcile := false
  threshold := 0
  count := 0
  shadow := 0
  pendingMask := 0
  generation := 0

/-- A channel's configuration after power-on reset and FULL (R78). -/
def ChannelConfig.powerOn : ChannelConfig where
  windowBase := none
  permitted := 0
  quota := Config.defaultQuota
  watermark := Config.defaultWatermark
  holdoff := 0
  claimDeadline := 0
  serviceDeadline := 0
  fallback := none

/-- A channel after power-on reset and FULL (R109). -/
def Channel.powerOn : Channel where
  config := .powerOn
  state := .disabled
  alert := false
  handed := []
  queued := []
  pendingSet := []
  overflow := false
  nextSequence := 0
  lost := 0
  lapses := 0
  refused := 0
  reclaims := 0
  overRetire := false
  holdoffTimer := .stopped
  claimTimer := .stopped
  serviceTimer := .stopped

/-- The part right after power-on reset: RESET_N has risen, the device is RUNNING, and every block
holds its power-on values (R197, with R16, R53, R76, R109, R127, R152, R167, R176). -/
def State.reset : State where
  pending := []
  device := .running
  entries := Vector.replicate 64 .powerOn
  primingQueue := []
  freeRecords := Config.poolSize
  channels := Vector.replicate 8 .powerOn
  tickCounter := 0
  tickDivider := Config.defaultDivider
  tickPeriod := Config.defaultDivider
  tickTaken := []
  responseTimeout := Config.defaultTimeout
  ring := []
  head := 0
  link := .active
  responseTimer := .stopped
  faultFlags := 1
  faultMask := Config.defaultFaultMask
  faultLine := false
  management := { selectLow := false, phase := .noFrame, bits := [], shifted := [] }
  upstreamOut := none
  downstreamOut := none

end Sys2Proof.Machine
end

