-- ==== Sys2Proof/Machine/Flags.lean ====
section
/-! DEFINITION. The device fault flags, the fault mask and the fault line (chapter 10), and the
saturating counters (R64, R72, R108). -/

namespace Sys2Proof.Machine

/-- The seven device fault flags (R193). -/
inductive FaultFlag where
  | powerOn | softReset | stall | order | late | lapseLost | mgmtFrame
  deriving DecidableEq, Repr

/-- A flag's bit in the flags byte and in the mask (section 12.4). -/
def faultBit : FaultFlag → BitVec 7
  | .powerOn   => 0x01
  | .softReset => 0x02
  | .stall     => 0x04
  | .order     => 0x08
  | .late      => 0x10
  | .lapseLost => 0x20
  | .mgmtFrame => 0x40

/-- Whether FAULT_N is asserted: a flag is set whose enable in the mask is on (R195). -/
def lineFor (flags mask : BitVec 7) : Bool :=
  flags &&& mask != 0

/-- Leaves the flags as given, and the line as R195 decides it in the same step. -/
def State.withFaults (s : State) (flags : BitVec 7) : State :=
  { s with faultFlags := flags, faultLine := lineFor flags s.faultMask }

/-- Stores the fault mask, and the line follows it at once (R187, R195). -/
def State.withFaultMask (s : State) (mask : BitVec 7) : State :=
  { s with faultMask := mask, faultLine := lineFor s.faultFlags mask }

/-- A cause sets its flag, or leaves it set (R193). -/
def State.raise (s : State) (f : FaultFlag) : State :=
  s.withFaults (s.faultFlags ||| faultBit f)

/-- Whether a flag is set. -/
def State.faultSet (s : State) (f : FaultFlag) : Bool :=
  s.faultFlags &&& faultBit f != 0

/-- A counter of the part advances by one and stays at its largest value (R64, R72, R108). -/
def saturate {n : Nat} (c : BitVec n) : BitVec n :=
  if c = BitVec.allOnes n then c else c + 1

end Sys2Proof.Machine
end

