-- ==== Sys2Proof/Machine/Operands.lean ====
section
/-! DEFINITION. The forms in which state crosses the part's interfaces: request shapes, window
words, management arguments and response bytes (chapter 12, R128 to R134, R168 to R174, R206 to
R208). -/

namespace Sys2Proof.Machine

/-! ### Requests and responses on the memory link -/

/-- Whether a payload is a WRITE's. -/
def isWrite : Payload → Bool
  | .read _  => false
  | .write _ => true

/-- A request's length in words (R128). -/
def payloadLength : Payload → Nat
  | .read n   => n.toNat
  | .write ws => ws.length

/-- The word offset of an address within its aligned 32-byte block, 0 to 7 (R134). -/
def blockOffset (a : Word) : Nat :=
  (a.toNat / 4) % 8

/-- The three grounds of R134, on the address and the length alone. -/
def malformed (r : Request) : Bool :=
  r.address.toNat % 4 != 0
    || payloadLength r.payload == 0 || 8 < payloadLength r.payload
    || 8 < blockOffset r.address + payloadLength r.payload

/-- As many zero words as a READ's length gives; none for a WRITE (R130). -/
def zeroWords : Payload → List Word
  | .read n  => List.replicate n.toNat 0
  | .write _ => []

/-- A response with zero data, whose status is not OKAY (R130). -/
def blankResponse (st : Status) (p : Payload) : UpResponse :=
  { status := st, data := zeroWords p }

/-- A downstream status of OKAY; every other encoding is taken as FAULT (R130, R206). -/
def isOkay (r : DownResponse) : Bool :=
  r.status == 0

/-- The data words of a response to a READ of `n` words, in word order (R130). -/
def responseWords (n : Nat) (r : DownResponse) : List Word :=
  r.data.toList.take n

/-- The upstream response fixed from a valid downstream response: OKAY with the data memory
returned, or FAULT with zero data (R144, R145). -/
def passedBack (p : Payload) (r : DownResponse) : UpResponse :=
  if isOkay r then
    match p with
    | .read n  => { status := .okay, data := responseWords n.toNat r }
    | .write _ => { status := .okay, data := [] }
  else blankResponse .fault p

/-- The byte address of word `k` of a request at `a` (chapter 1.2). -/
def wordAddress (a : Word) (k : Nat) : Word :=
  a + BitVec.ofNat 32 (4 * k)

/-- The words of a list with their byte addresses, from `a` upward. -/
def withAddresses {α : Type} (a : Word) (l : List α) : List (Word × α) :=
  l.zipIdx.map fun p => (wordAddress a p.2, p.1)

/-- The mask of a byte-enable group: byte k is all ones where enable k is on (R22). -/
def byteMask (be : BitVec 4) : Word :=
  (if be[0] then 0x000000FF else 0) ||| (if be[1] then 0x0000FF00 else 0) |||
  (if be[2] then 0x00FF0000 else 0) ||| (if be[3] then 0xFF000000 else 0)

/-- The shadow with the enabled bytes of the written word merged in (R22). -/
def merge (shadow : Word) (w : WriteWord) : Word :=
  (w.data &&& byteMask w.enables) ||| (shadow &&& ~~~byteMask w.enables)

/-- A word of a write is touched when at least one of its byte enables is on (R6). -/
def touched (w : WriteWord) : Bool :=
  w.enables != 0

/-- The kind bit of a request (section 12.1). -/
def kindBit (p : Payload) : BitVec 1 :=
  if isWrite p then 1 else 0

/-- The six-bit origin field (section 12.1). -/
def originField : Origin → BitVec 6
  | .source n => BitVec.ofNat 6 n.val
  | .priming  => 0x20

/-- The two-bit status field of an upstream response (section 12.1). -/
def statusField : Status → BitVec 2
  | .okay    => 0
  | .fault   => 1
  | .refused => 2

/-! ### The service window -/

/-- The four accesses a channel serves (R88); a RETURN carries its retire count. -/
inductive WindowAccess where
  | claim (length : Nat)
  | collect
  | record
  | returnService (count : Word)
  deriving DecidableEq, Repr

/-- Which access a request at a window word is, by its kind, first word, length and byte enables;
none where it matches none of the four rows of R88. -/
def recognise (firstWord : Nat) (p : Payload) : Option WindowAccess :=
  match p with
  | .read n =>
    if firstWord = 0 ∧ (n = 1 ∨ n = 2) then some (.claim n.toNat)
    else if firstWord = 2 ∧ n = 2 then some .collect
    else if firstWord = 8 ∧ n = 6 then some .record
    else none
  | .write [w] =>
    if firstWord = 4 ∧ w.enables = 0xF then some (.returnService w.data) else none
  | .write _ => none

/-- A value placed in a word with its lowest bit at bit `k`. -/
def field {n : Nat} (k : Nat) (v : BitVec n) : Word :=
  v.setWidth 32 <<< k

/-- A flag as a bit. -/
def flagBit (b : Bool) : BitVec 1 :=
  if b then 1 else 0

/-- The channel state encoding of section 12.4. -/
def channelStateCode : ChannelState → BitVec 3
  | .disabled  => 0
  | .idle      => 1
  | .holdoff   => 2
  | .alerting  => 3
  | .inService => 4
  | .lapsed    => 5

/-- The mode encoding of section 12.4. -/
def modeCode : Mode → BitVec 2
  | .flag   => 0
  | .record => 1
  | .count  => 2

/-- Word 0 of the CLAIM summary, of a channel as it stands before the CLAIM (R94, section 12.2). -/
def summaryWord0 (c : Channel) : Word :=
  field 0 (channelStateCode c.state) ||| field 3 (flagBit c.overflow) |||
  field 4 (flagBit (c.state = .lapsed)) ||| field 8 (BitVec.ofNat 8 c.queued.length) |||
  field 16 (BitVec.ofNat 8 c.handed.length) ||| field 24 (BitVec.ofNat 7 c.pendingSet.length)

/-- Word 1 of the CLAIM summary (R94, section 12.2). -/
def summaryWord1 (c : Channel) : Word :=
  field 0 c.lost ||| field 16 c.nextSequence

/-- Word 0 of a COLLECT result for a member of the pending set (R95, section 12.2). -/
def collectWord0 (i : EntryIndex) (e : Entry) : Word :=
  field 0 (flagBit true) ||| field 8 (BitVec.ofNat 6 i.val) ||| field 16 e.generation |||
  field 24 (modeCode e.mode)

/-- The source field of a record with its source-present bit (R58, section 12.2). -/
def sourceBits : Option Source → Word
  | none   => 0
  | some n => field 7 (flagBit true) ||| field 8 (BitVec.ofNat 5 n.val)

/-- Words 2 to 5 of a record made for an entry (section 12.2). -/
def changeWords (c : Change) : List Word :=
  [field 0 (BitVec.ofNat 6 c.entry.val) ||| field 8 c.generation, c.old, c.new, c.mask]

/-- The kind and source bits of word 0 of a record (section 12.2). -/
def bodyBits : RecordBody → Word
  | .transition n _ => field 0 (1 : BitVec 3) ||| sourceBits (some n)
  | .unseen _       => field 0 (2 : BitVec 3)
  | .count n _      => field 0 (3 : BitVec 3) ||| sourceBits n
  | .lapse _ _      => field 0 (4 : BitVec 3)

/-- Words 2 to 5 of a record (section 12.2). -/
def bodyWords : RecordBody → List Word
  | .transition _ c => changeWords c
  | .unseen c       => changeWords c
  | .count _ c      => changeWords c
  | .lapse c cause  =>
    [field 16 (BitVec.ofNat 3 c.val) ||| field 20 (flagBit (cause = .service)), 0, 0, 0]

/-- The six words a RECORD returns for a record (R70, section 12.2). -/
def recordWords (r : Record) : List Word :=
  (bodyBits r.body ||| field 4 r.redelivery ||| field 16 r.sequence) :: r.timestamp ::
    bodyWords r.body

/-! ### The management frame -/

/-- The fourteen commands of R169. -/
inductive Command where
  | watchDefine | watchRelease | watchQuery
  | channelDefine | channelEnable | channelDisable | channelReinstate | channelQuery
  | timingSet | faultMaskSet | statusQuery | faultCollect | linkResume | deviceReset
  deriving DecidableEq, Repr

/-- All of them, in the order of R169. -/
def allCommands : List Command :=
  [.watchDefine, .watchRelease, .watchQuery, .channelDefine, .channelEnable, .channelDisable,
   .channelReinstate, .channelQuery, .timingSet, .faultMaskSet, .statusQuery, .faultCollect,
   .linkResume, .deviceReset]

/-- The command codes of section 12.3. -/
def commandCode : Command → Byte
  | .watchDefine      => 0x10
  | .watchRelease     => 0x11
  | .watchQuery       => 0x12
  | .channelDefine    => 0x20
  | .channelEnable    => 0x21
  | .channelDisable   => 0x22
  | .channelReinstate => 0x23
  | .channelQuery     => 0x24
  | .timingSet        => 0x30
  | .faultMaskSet     => 0x31
  | .statusQuery      => 0x38
  | .faultCollect     => 0x39
  | .linkResume       => 0x3A
  | .deviceReset      => 0x3F

/-- The number of argument bytes of a command (R169). -/
def argumentCount : Command → Nat
  | .watchDefine      => 22
  | .watchRelease     => 1
  | .watchQuery       => 1
  | .channelDefine    => 19
  | .channelEnable    => 1
  | .channelDisable   => 2
  | .channelReinstate => 1
  | .channelQuery     => 1
  | .timingSet        => 4
  | .faultMaskSet     => 1
  | .statusQuery      => 0
  | .faultCollect     => 0
  | .linkResume       => 0
  | .deviceReset      => 1

/-- The number of response bytes of a command (R169). -/
def responseCount : Command → Nat
  | .watchDefine      => 1
  | .watchRelease     => 1
  | .watchQuery       => 34
  | .channelDefine    => 0
  | .channelEnable    => 0
  | .channelDisable   => 0
  | .channelReinstate => 0
  | .channelQuery     => 29
  | .timingSet        => 0
  | .faultMaskSet     => 0
  | .statusQuery      => 10
  | .faultCollect     => 1
  | .linkResume       => 0
  | .deviceReset      => 0

/-- The command a command byte names, none where it names none (R173). -/
def commandOf (code : Byte) : Option Command :=
  allCommands.find? fun c => commandCode c == code

/-- Argument bytes of the command a byte names; an unknown command has none (R173). -/
def argumentsOf (code : Byte) : Nat :=
  match commandOf code with
  | some c => argumentCount c
  | none   => 0

/-- The result codes of section 12.3. -/
def resultByte : ResultCode → Byte
  | .ok         => 0x01
  | .badCommand => 0x81
  | .busy       => 0x82
  | .badIndex   => 0x83
  | .badValue   => 0x84
  | .wrongState => 0x85
  | .duplicate  => 0x86
  | .overlap    => 0x87

/-- A four-byte field, most significant byte first (section 12.3). -/
def wordBytes (w : Word) : List Byte :=
  [w.extractLsb' 24 8, w.extractLsb' 16 8, w.extractLsb' 8 8, w.extractLsb' 0 8]

/-- A two-byte field, most significant byte first (section 12.3). -/
def halfBytes (h : Half) : List Byte :=
  [h.extractLsb' 8 8, h.extractLsb' 0 8]

/-- The argument bytes of WATCH_DEFINE (section 12.3). -/
def watchDefineBytes (a : WatchDefineArgs) : List Byte :=
  [a.index] ++ wordBytes a.address ++ wordBytes a.enableMask ++ wordBytes a.riseMask ++
  wordBytes a.fallMask ++ [a.mode, a.channel, a.reconcile] ++ halfBytes a.threshold

/-- The argument bytes of CHANNEL_DEFINE (section 12.3). -/
def channelDefineBytes (a : ChannelDefineArgs) : List Byte :=
  [a.channel, a.windowPresent] ++ wordBytes a.windowBase ++ wordBytes a.permitted ++
  [a.quota, a.watermark] ++ halfBytes a.holdoff ++ halfBytes a.claimDeadline ++
  halfBytes a.serviceDeadline ++ [a.fallback]

/-- The argument bytes of TIMING_SET (section 12.3). -/
def timingSetBytes (divider timeout : Half) : List Byte :=
  halfBytes divider ++ halfBytes timeout

/-- An off-or-on argument: 0 or 1, every other byte outside its values (section 12.4, R207). -/
def onOff (b : Byte) : Option Bool :=
  if b = 0 then some false else if b = 1 then some true else none

/-- A mode argument (section 12.4, R207). -/
def modeOf (b : Byte) : Option Mode :=
  if b = 0 then some .flag else if b = 1 then some .record
  else if b = 2 then some .count else none

/-- A scope argument (section 12.4, R207). -/
def scopeOf (b : Byte) : Option Scope :=
  if b = 0 then some .full else if b = 1 then some .keepConfig else none

/-- An entry index argument, none above 63 (R1, R207). -/
def entryOf (b : Byte) : Option EntryIndex :=
  if h : b.toNat < 64 then some ⟨b.toNat, h⟩ else none

/-- A channel argument, none above 7 (R178, R207). -/
def channelOf (b : Byte) : Option ChannelIndex :=
  if h : b.toNat < 8 then some ⟨b.toNat, h⟩ else none

/-- A fallback argument of a channel: another channel, or 0xFF for none; no value for the channel
itself and for 8 to 0xFE (section 12.4, R181, R207). -/
def fallbackOf (self : ChannelIndex) (b : Byte) : Option (Option ChannelIndex) :=
  if b = 0xFF then some none
  else match channelOf b with
    | some f => if f = self then none else some (some f)
    | none   => none

/-- The entry state encoding of section 12.4. -/
def entryStateCode : EntryState → Byte
  | .free      => 0
  | .priming   => 1
  | .armed     => 2
  | .repriming => 3

/-- The priming indication of R15. -/
inductive PrimingIndication where
  | none | queued | inFlight
  deriving DecidableEq, Repr

/-- Its encoding in section 12.4. -/
def indicationCode : PrimingIndication → Byte
  | .none     => 0
  | .queued   => 1
  | .inFlight => 2

/-- The fallback encoding of section 12.4. -/
def fallbackCode : Option ChannelIndex → Byte
  | none   => 0xFF
  | some f => BitVec.ofNat 8 f.val

/-- A value that is present only under a condition, and returned as 0 otherwise (R15, R208). -/
def presentIf {n : Nat} (b : Bool) (v : BitVec n) : BitVec n :=
  if b then v else 0

/-- The 34 response bytes of WATCH_QUERY (R180, section 12.3). -/
def entryBytes (e : Entry) (p : PrimingIndication) : List Byte :=
  let defined := e.state != .free
  let counts := defined && e.mode == .count
  let shadowed := e.state == .armed || e.state == .repriming
  [entryStateCode e.state, e.generation, indicationCode p] ++
  wordBytes (presentIf defined e.address) ++ wordBytes (presentIf defined e.enableMask) ++
  wordBytes (presentIf defined e.riseMask) ++ wordBytes (presentIf defined e.fallMask) ++
  [presentIf defined ((modeCode e.mode).setWidth 8), presentIf defined (BitVec.ofNat 8 e.channel.val),
   presentIf defined ((flagBit e.reconcile).setWidth 8)] ++
  halfBytes (presentIf counts e.threshold) ++ halfBytes (presentIf counts e.count) ++
  wordBytes (presentIf shadowed e.shadow) ++ wordBytes (presentIf defined e.pendingMask)

/-- The 29 response bytes of CHANNEL_QUERY (R185, section 12.3). -/
def channelBytes (c : Channel) : List Byte :=
  [(channelStateCode c.state).setWidth 8,
   (flagBit c.overflow).setWidth 8 ||| (flagBit c.overRetire).setWidth 8 <<< 1 |||
     (flagBit c.config.windowBase.isSome).setWidth 8 <<< 2,
   BitVec.ofNat 8 c.queued.length, BitVec.ofNat 8 c.handed.length,
   BitVec.ofNat 8 c.pendingSet.length] ++
  halfBytes c.lost ++ halfBytes c.nextSequence ++ [c.lapses, c.refused, c.reclaims] ++
  wordBytes (c.config.windowBase.getD 0) ++ wordBytes c.config.permitted ++
  [c.config.quota, c.config.watermark] ++ halfBytes c.config.holdoff ++
  halfBytes c.config.claimDeadline ++ halfBytes c.config.serviceDeadline ++
  [fallbackCode c.config.fallback]

/-- The device state encoding of section 12.4; RESET is never reported (R192). -/
def deviceCode : DeviceState → Byte
  | .reset      => 0
  | .running    => 1
  | .draining _ => 2

/-- The link state encoding of section 12.4. -/
def linkCode : LinkState → Byte
  | .active  => 0
  | .stalled => 1

/-- The 10 response bytes of STATUS_QUERY (R188, section 12.3). -/
def statusBytes (s : State) : List Byte :=
  [deviceCode s.device, linkCode s.link, BitVec.ofNat 8 (Config.ringSize - s.ring.length),
   BitVec.ofNat 8 s.freeRecords, BitVec.ofNat 8 s.primingQueue.length] ++
  wordBytes s.tickCounter ++ [s.faultFlags.setWidth 8]

end Sys2Proof.Machine
end

