-- ==== Sys2Proof/WellFormed.lean ====
section
/-! DEFINITION. Which commands are well formed: the operands an event can carry at the part's
interfaces. `exec` has a meaning for the others too; these are the terms that stand for an event. -/

namespace Sys2Proof

/-- A WRITE carries as many words as its four-bit length field can give (section 12.1). -/
def Payload.wellFormed : Payload → Bool
  | .read _   => true
  | .write ws => ws.length ≤ 15

/-- The operand checks, command by command. -/
def Instr.wellFormed : Instr → Bool
  | .resetNFall => true
  | .resetNRise => true
  -- no channel is named twice in the order of one tick's expiries
  | .tick order => order.Nodup
  | .holdoffExpiry _ => true
  | .claimDeadlineExpiry _ => true
  | .serviceDeadlineExpiry _ => true
  | .responseTimerExpiry => true
  | .requestAccept q _ => q.payload.wellFormed
  -- a CLAIM has length 1 or 2 (R88)
  | .claim _ _ length _ => length = 1 ∨ length = 2
  | .collect _ _ => true
  | .record _ _ _ => true
  | .returnService _ _ _ _ => true
  -- a window access lies within one block of the window (R87), and is none of the four (R88)
  | .refusedWindowAccess _ _ firstWord p =>
    p.wellFormed && Machine.payloadLength p != 0
      && firstWord.val % 8 + Machine.payloadLength p ≤ 8
      && (Machine.recognise firstWord.val p).isNone
  | .primingIssue => true
  | .downstreamSend => true
  | .downstreamResponse _ _ => true
  | .slotLeave => true
  | .scopeFullApply => true
  | .scopeKeepConfigApply => true
  | .watchDefine _ => true
  | .watchRelease _ => true
  | .watchQuery _ => true
  | .channelDefine _ => true
  | .channelEnable _ => true
  -- a purge byte of 1 is the row CHANNEL_DISABLE_PURGE
  | .channelDisable _ purge => purge != 1
  | .channelDisablePurge _ => true
  | .channelReinstate _ => true
  | .channelQuery _ => true
  | .timingSet _ _ => true
  | .faultMaskSet _ => true
  | .statusQuery => true
  | .faultCollect => true
  | .linkResume => true
  | .deviceReset _ => true
  -- the byte names none of the fourteen commands (R173)
  | .unknownCommand code => (Machine.commandOf code).isNone
  -- the longest command executes at its 23rd byte, so a frame cut before has fewer edges (R171)
  | .frameDiscard bits => bits.length < 184
  | .frameCutAfterExecution _ => true
  | .frameBegin _ => true

end Sys2Proof
end

