-- ==== Sys2Proof/Decode.lean ====
section
/-! DEFINITION. The words of the opcode table, which gives no row any bits, and the bytes of a
management frame: the command they spell and the bytes that spell a command (R168, R169, section
12.3). -/

namespace Sys2Proof

/-- The command that a word of the opcode table spells. No row of the table has a word: the commands
are events at the part's interfaces. -/
def decodeTableWord (_nbits _w : Nat) : Option Instr :=
  none

/-- The command and argument bytes of a management command, in the order of section 12.3 with each
field's most significant byte first; none for a command that is no frame. -/
def frameOf : Instr → Option (List Byte)
  | .watchDefine a => some (Machine.commandCode .watchDefine :: Machine.watchDefineBytes a)
  | .watchRelease i => some [Machine.commandCode .watchRelease, i]
  | .watchQuery i => some [Machine.commandCode .watchQuery, i]
  | .channelDefine a => some (Machine.commandCode .channelDefine :: Machine.channelDefineBytes a)
  | .channelEnable c => some [Machine.commandCode .channelEnable, c]
  | .channelDisable c p => some [Machine.commandCode .channelDisable, c, p]
  | .channelDisablePurge c => some [Machine.commandCode .channelDisable, c, 1]
  | .channelReinstate c => some [Machine.commandCode .channelReinstate, c]
  | .channelQuery c => some [Machine.commandCode .channelQuery, c]
  | .timingSet d t => some (Machine.commandCode .timingSet :: Machine.timingSetBytes d t)
  | .faultMaskSet m => some [Machine.commandCode .faultMaskSet, m]
  | .statusQuery => some [Machine.commandCode .statusQuery]
  | .faultCollect => some [Machine.commandCode .faultCollect]
  | .linkResume => some [Machine.commandCode .linkResume]
  | .deviceReset sc => some [Machine.commandCode .deviceReset, sc]
  | .unknownCommand b => some [b]
  | _ => none

/-- Four bytes as a word, the first most significant. -/
def wordOf (a b c d : Byte) : Word := a ++ b ++ c ++ d

/-- Two bytes as a half word, the first most significant. -/
def halfOf (a b : Byte) : Half := a ++ b

/-- The command with the arguments its bytes carry, none while its last argument byte has not been
taken. Bytes behind the last argument byte are disregarded (R168, R170). -/
def withArguments : Machine.Command → List Byte → Option Instr
  | .watchDefine,
    i :: a3 :: a2 :: a1 :: a0 :: e3 :: e2 :: e1 :: e0 :: r3 :: r2 :: r1 :: r0 ::
      f3 :: f2 :: f1 :: f0 :: m :: c :: rc :: t1 :: t0 :: _ => some <| .watchDefine
        { index := i, address := wordOf a3 a2 a1 a0, enableMask := wordOf e3 e2 e1 e0
          riseMask := wordOf r3 r2 r1 r0, fallMask := wordOf f3 f2 f1 f0, mode := m, channel := c
          reconcile := rc, threshold := halfOf t1 t0 }
  | .watchRelease, i :: _ => some (.watchRelease i)
  | .watchQuery, i :: _ => some (.watchQuery i)
  | .channelDefine,
    c :: wp :: b3 :: b2 :: b1 :: b0 :: p3 :: p2 :: p1 :: p0 :: q :: wm :: h1 :: h0 ::
      c1 :: c0 :: s1 :: s0 :: f :: _ => some <| .channelDefine
        { channel := c, windowPresent := wp, windowBase := wordOf b3 b2 b1 b0
          permitted := wordOf p3 p2 p1 p0, quota := q, watermark := wm, holdoff := halfOf h1 h0
          claimDeadline := halfOf c1 c0, serviceDeadline := halfOf s1 s0, fallback := f }
  | .channelEnable, c :: _ => some (.channelEnable c)
  | .channelDisable, c :: p :: _ =>
    some (if p = 1 then .channelDisablePurge c else .channelDisable c p)
  | .channelReinstate, c :: _ => some (.channelReinstate c)
  | .channelQuery, c :: _ => some (.channelQuery c)
  | .timingSet, d1 :: d0 :: t1 :: t0 :: _ => some (.timingSet (halfOf d1 d0) (halfOf t1 t0))
  | .faultMaskSet, m :: _ => some (.faultMaskSet m)
  | .statusQuery, _ => some .statusQuery
  | .faultCollect, _ => some .faultCollect
  | .linkResume, _ => some .linkResume
  | .deviceReset, sc :: _ => some (.deviceReset sc)
  | _, _ => none

/-- The management command that executes on the bytes of a frame (R170, R173). -/
def commandOfFrame : List Byte → Option Instr
  | []        => none
  | b :: args =>
    match Machine.commandOf b with
    | some c => withArguments c args
    | none   => some (.unknownCommand b)

end Sys2Proof
end

