-- ==== Sys2Proof/Machine/Serial.lean ====
section
/-! DEFINITION. The serial side of the management port: the bits of a byte, the positions of a frame
and what a rising clock edge moves (R168, R169, R171). -/

namespace Sys2Proof.Machine

/-- The bits of a byte in the order in which they are shifted, most significant first (R168). -/
def byteBits (b : Byte) : List Bool :=
  [b[7], b[6], b[5], b[4], b[3], b[2], b[1], b[0]]

/-- The byte that sampled bits make up, the first of them the most significant (R168). -/
def byteOf (bits : List Bool) : Byte :=
  bits.foldl (fun b x => b <<< 1 ||| (if x then 1 else 0)) 0

/-- The bits of bytes shifted one after another. -/
def frameBits (bytes : List Byte) : List Bool :=
  bytes.flatMap byteBits

/-- The byte that the port shifts out at its position, none while no frame is in progress (R168). -/
def outputByte : FramePhase → Option Byte
  | .noFrame             => none
  | .command             => some 0
  | .arguments _ _       => some 0
  | .turnaround _ _ _    => some 0
  | .result _ result _   => some (resultByte result)
  | .response _ left     => some (left.headD 0)
  | .trailing _          => some 0

/-- The position behind a byte that is taken without reaching the execution point (R168). -/
def nextPosition (byte : Byte) : FramePhase → FramePhase
  | .noFrame                         => .noFrame
  | .command                         => .arguments byte []
  | .arguments code taken            => .arguments code (taken ++ [byte])
  | .turnaround code result response => .result code result response
  | .result code _ []                => .trailing code
  | .result code _ response          => .response code response
  | .response code left              =>
    if left.tail.isEmpty then .trailing code else .response code left.tail
  | .trailing code                   => .trailing code

/-- Whether the taking of a byte at this position is the execution point: of the command byte where it
has no argument bytes or names no command, or of the last argument byte (R170, R173). -/
def byteExecutes (byte : Byte) : FramePhase → Bool
  | .command              => argumentsOf byte == 0
  | .arguments code taken => argumentsOf code ≤ taken.length + 1
  | _                     => false

/-- Whether a bit sampled now is the last one before the command executes (R170). -/
def bitExecutes (m : ManagementPort) (b : Bool) : Bool :=
  7 ≤ m.bits.length && byteExecutes (byteOf (m.bits ++ [b])) m.phase

/-- A rising clock edge samples one bit and shifts one out; the eighth bit takes the byte and moves the
position on. While no frame is in progress the bit is disregarded (R168, R176). -/
def sampleBit (m : ManagementPort) (b : Bool) : ManagementPort :=
  match outputByte m.phase with
  | none     => m
  | some out =>
    let shifted := m.shifted ++ [out.getMsbD m.bits.length]
    if m.bits.length < 7 then { m with bits := m.bits ++ [b], shifted }
    else { m with phase := nextPosition (byteOf (m.bits ++ [b])) m.phase, bits := [], shifted }

/-- Clock edges one after another. The bit at which a command executes comes with the command's own
row, so bits from there on are not taken here. -/
def clockIn : List Bool → ManagementPort → ManagementPort
  | [], m      => m
  | b :: l, m => if bitExecutes m b then m else clockIn l (sampleBit m b)

/-- Whether a frame is in progress whose command has not executed (R168). -/
def awaitsCommand (m : ManagementPort) : Bool :=
  match m.phase with
  | .command       => true
  | .arguments _ _ => true
  | _              => false

/-- The bits of such a frame sampled so far. -/
def heldBits (m : ManagementPort) : List Bool :=
  match m.phase with
  | .arguments code taken => frameBits (code :: taken) ++ m.bits
  | _                     => m.bits

/-- A fall of chip select: a frame begins in COMMAND, or none does while RESET_N is low (R168,
R176). -/
def selectFalls (begins : Bool) : ManagementPort :=
  { selectLow := true, phase := if begins then .command else .noFrame, bits := [], shifted := [] }

/-- A rise of chip select: the port waits for its next fall (R168). -/
def selectRises (m : ManagementPort) : ManagementPort :=
  { m with selectLow := false, phase := .noFrame, bits := [] }

/-- Whether a rise of chip select discards a frame: its command has not executed, and a clock edge was
sampled in it (R171). -/
def riseDiscards (m : ManagementPort) : Bool :=
  awaitsCommand m && !(heldBits m).isEmpty

/-- The frame's bytes are taken up to its execution point: the result and response bytes are fixed, and
0x00 was shifted out for each byte (R168, R170). -/
def fixAnswer (m : ManagementPort) (code : Byte) (args : List Byte) (result : ResultCode)
    (response : List Byte) : ManagementPort :=
  { m with
    phase := .turnaround code result response
    bits := []
    shifted := m.shifted ++
      List.replicate ((frameBits (code :: args)).length - (heldBits m).length) false }

end Sys2Proof.Machine
end

