-- ==== Sys2Proof/Machine/Ops.lean ====
section
/-! DEFINITION. The named operations over the part's state that the commands share: timers,
channels, the record pool, evaluation, the priming queue, the transit ring, the stall, the
application of a device reset, and the execution of a management command. -/

namespace Sys2Proof.Machine

/-! ### Reading and writing the tables -/

/-- Entry `i` of the watch table (R1). -/
def State.entry (s : State) (i : EntryIndex) : Entry :=
  s.entries[i.val]

/-- Writes entry `i`, and no other. -/
def State.setEntry (s : State) (i : EntryIndex) (e : Entry) : State :=
  { s with entries := s.entries.set i.val e }

/-- Channel `c` (R78). -/
def State.channel (s : State) (c : ChannelIndex) : Channel :=
  s.channels[c.val]

/-- Writes channel `c`, and no other. -/
def State.setChannel (s : State) (c : ChannelIndex) (k : Channel) : State :=
  { s with channels := s.channels.set c.val k }

/-! ### Timers (R113) -/

/-- A start with a configured value: 0 leaves the timer stopped (R113). -/
def startTimer (v : Half) : Timer :=
  if v = 0 then .stopped else .running v.toNat

/-- A tick taken by a timer: a running one loses a tick, and is stopped at its expiry (R113). -/
def lowerTimer : Timer → Timer
  | .stopped   => .stopped
  | .running n => if n ≤ 1 then .stopped else .running (n - 1)

/-- Whether the next tick is the timer's expiry (R113). -/
def expiresNext : Timer → Bool
  | .stopped   => false
  | .running n => n ≤ 1

/-! ### The channel's state machine (chapter 5) -/

/-- The states in which the alert line is asserted (R81). -/
def calls : ChannelState → Bool
  | .alerting => true
  | .lapsed   => true
  | _         => false

/-- A move to a state, with the alert line changed in the same step (R81). -/
def Channel.moveTo (c : Channel) (st : ChannelState) : Channel :=
  { c with state := st, alert := calls st }

/-- Entry to ALERTING (R86). -/
def enterAlerting (c : Channel) : Channel :=
  { c.moveTo .alerting with holdoffTimer := .stopped, claimTimer := startTimer c.config.claimDeadline }

/-- A delivery taken in IDLE (R83). -/
def leaveIdle (c : Channel) : Channel :=
  if c.config.holdoff = 0 ∨ c.config.watermark.toNat ≤ c.queued.length then enterAlerting c
  else { c.moveTo .holdoff with holdoffTimer := startTimer c.config.holdoff }

/-- A delivery, taken by the channel according to its state (R82 to R84). -/
def deliver (c : Channel) : Channel :=
  match c.state with
  | .idle    => leaveIdle c
  | .holdoff => if c.config.watermark.toNat ≤ c.queued.length then enterAlerting c else c
  | _        => c

/-- Whether the channel has content (R80). -/
def hasContent (c : Channel) : Bool :=
  !c.queued.isEmpty || !c.pendingSet.isEmpty || c.overflow

/-- A record's redelivery count advances by one, saturating at 7 (R72). -/
def redeliver (r : Record) : Record :=
  { r with redelivery := saturate r.redelivery }

/-- Reversion: every HANDED record goes back to the front of the QUEUED part (R72). -/
def revert (c : Channel) : Channel :=
  { c with handed := [], queued := c.handed.map redeliver ++ c.queued }

/-- Every timer of the channel is stopped. -/
def stopTimers (c : Channel) : Channel :=
  { c with holdoffTimer := .stopped, claimTimer := .stopped, serviceTimer := .stopped }

/-- With content to ALERTING without hold-off, else to IDLE: the test that ends a service (R97) and
a reinstatement (R125). -/
def settleContent (c : Channel) : Channel :=
  if hasContent c then enterAlerting c else c.moveTo .idle

/-- The disable of a channel that is not DISABLED (R104). -/
def disable (c : Channel) : Channel :=
  stopTimers ((revert c).moveTo .disabled)

/-- The number of records in a channel's queue, QUEUED and HANDED together (R66). -/
def queueLength (c : Channel) : Nat :=
  c.handed.length + c.queued.length

/-! ### The record pool (chapter 4) -/

/-- The three conditions of creation: enabled, below quota, and a free record (R63). -/
def canCreate (s : State) (c : ChannelIndex) : Bool :=
  (s.channel c).state != .disabled
    && decide (queueLength (s.channel c) < (s.channel c).config.quota.toNat)
    && decide (0 < s.freeRecords)

/-- A record is taken from the pool and appended QUEUED at the tail of channel `c`'s queue with the
channel's next sequence number, which advances (R61, R63). -/
def appendRecord (s : State) (c : ChannelIndex) (body : RecordBody) (timestamp : Word) : State :=
  let k := s.channel c
  let r : Record := { body, sequence := k.nextSequence, timestamp, redelivery := 0 }
  { s.setChannel c { k with queued := k.queued ++ [r], nextSequence := k.nextSequence + 1 } with
    freeRecords := s.freeRecords - 1 }

/-- The loss of a record that is not a LAPSE record (R64). -/
def loseRecord (k : Channel) : Channel :=
  { k with nextSequence := k.nextSequence + 1, lost := saturate k.lost, overflow := true }

/-- Record creation asked for by the evaluator: created or lost (R63, R64). -/
def createRecord (s : State) (c : ChannelIndex) (body : RecordBody) : State :=
  if canCreate s c then appendRecord s c body s.tickCounter
  else s.setChannel c (loseRecord (s.channel c))

/-- The delivery to channel `c` (R82). -/
def deliverTo (s : State) (c : ChannelIndex) : State :=
  s.setChannel c (deliver (s.channel c))

/-- Every record of channel `c`'s queue is freed without being counted as lost (R73, R74). -/
def freeQueue (s : State) (c : ChannelIndex) : State :=
  let k := s.channel c
  { s.setChannel c { k with handed := [], queued := [] } with
    freeRecords := s.freeRecords + queueLength k }

/-! ### The pending sets (chapter 2.5) -/

/-- An index placed in an ascending list at the position of its value, once (R34). -/
def insertIndex (i : EntryIndex) : List EntryIndex → List EntryIndex
  | []     => [i]
  | j :: l => if i < j then i :: j :: l else if i = j then j :: l else j :: insertIndex i l

/-- An index taken out of a list. -/
def removeIndex (i : EntryIndex) (l : List EntryIndex) : List EntryIndex :=
  l.filter (· ≠ i)

/-- Entry `i` gives up its place in its channel's pending set (R9, R10, R34). -/
def leavePendingSet (s : State) (i : EntryIndex) : State :=
  let c := (s.entry i).channel
  let k := s.channel c
  s.setChannel c { k with pendingSet := removeIndex i k.pendingSet }

/-- The qualifying bits join entry `i`'s pending mask, and the entry joins its channel's pending
set where its mask was zero (R27). -/
def addPending (s : State) (i : EntryIndex) (mask : Word) : State :=
  let e := s.entry i
  let s' := s.setEntry i { e with pendingMask := e.pendingMask ||| mask }
  if e.pendingMask = 0 then
    let k := s'.channel e.channel
    s'.setChannel e.channel { k with pendingSet := insertIndex i k.pendingSet }
  else s'

/-! ### Evaluation (chapter 2) -/

/-- The cause of an evaluation as far as its effects differ: a write completion with its source, or
an UNSEEN comparison (R19). -/
inductive Cause where
  | transition (source : Source)
  | unseen
  deriving DecidableEq, Repr

/-- The qualifying mask (R25). -/
def qualifyingMask (e : Entry) (old new : Word) : Word :=
  (~~~ old &&& new &&& e.riseMask) ||| (old &&& ~~~ new &&& e.fallMask)

/-- The record a RECORD-mode event asks for (R28, R31). -/
def recordBody : Cause → Change → RecordBody
  | .transition n, ch => .transition n ch
  | .unseen, ch       => .unseen ch

/-- The record a threshold event asks for (R30, R31). -/
def countBody : Cause → Change → RecordBody
  | .transition n, ch => .count (some n) ch
  | .unseen, ch       => .count none ch

/-- The effect of a qualifying event for the entry's mode, up to and including the delivery
(R27 to R30, in the order of R38). -/
def qualifyingEvent (s : State) (i : EntryIndex) (cause : Cause) (ch : Change) : State :=
  let e := s.entry i
  match e.mode with
  | .flag   => deliverTo (addPending s i ch.mask) e.channel
  | .record =>
    deliverTo (createRecord (addPending s i ch.mask) e.channel (recordBody cause ch)) e.channel
  | .count  =>
    if e.count.toNat + 1 < e.threshold.toNat then s.setEntry i { e with count := e.count + 1 }
    else
      deliverTo (createRecord (s.setEntry i { e with count := 0 }) e.channel (countBody cause ch))
        e.channel

/-- The entry's shadow is replaced (R24). -/
def replaceShadow (s : State) (i : EntryIndex) (new : Word) : State :=
  s.setEntry i { s.entry i with shadow := new }

/-- One evaluation of entry `i` against its shadow (R19 to R32, in the order of R38). -/
def evaluate (s : State) (i : EntryIndex) (cause : Cause) (new : Word) : State :=
  let e := s.entry i
  let mask := qualifyingMask e e.shadow new
  let ch : Change := { entry := i, generation := e.generation, old := e.shadow, new, mask }
  replaceShadow (if mask = 0 then s else qualifyingEvent s i cause ch) i new

/-! ### Looking up a word (chapter 1.2) -/

/-- The entry a word address matches, none where no entry that is not FREE holds it (R6). -/
def entryAt (s : State) (a : Word) : Option EntryIndex :=
  (List.finRange 64).find? fun i => (s.entry i).state != .free && (s.entry i).address == a

/-! ### The priming queue (chapter 3) -/

/-- An entry joins the priming queue at the tail unless it stands there (R42). -/
def enqueuePriming (s : State) (i : EntryIndex) : State :=
  if i ∈ s.primingQueue then s else { s with primingQueue := s.primingQueue ++ [i] }

/-- An entry is taken off the priming queue, the others keeping their order (R43, R46). -/
def leavePriming (s : State) (i : EntryIndex) : State :=
  { s with primingQueue := removeIndex i s.primingQueue }

/-- Whether the queue presents its head (R44). -/
def primingPresents (s : State) : Bool :=
  s.device == .running && s.link == .active && !s.primingQueue.isEmpty

/-- An ARMED entry goes to REPRIMING and joins the priming queue, its fields kept (R12, R13). -/
def reprime (s : State) (i : EntryIndex) : State :=
  if (s.entry i).state = .armed then
    enqueuePriming (s.setEntry i { s.entry i with state := .repriming }) i
  else s

/-- The entry is ARMED from here, and stands on the priming queue no longer (R46, R49). -/
def arm (s : State) (i : EntryIndex) : State :=
  leavePriming (s.setEntry i { s.entry i with state := .armed }) i

/-- An OKAY priming completion of the current generation (R11, R49, R50). -/
def primingOkay (s : State) (i : EntryIndex) (word : Word) : State :=
  match (s.entry i).state with
  | .priming   => arm (replaceShadow s i word) i
  | .repriming => arm (evaluate s i .unseen word) i
  | _          => s

/-- A FAULT priming completion of the current generation (R11, R51). -/
def primingFault (s : State) (i : EntryIndex) : State :=
  match (s.entry i).state with
  | .priming   => enqueuePriming s i
  | .repriming => enqueuePriming s i
  | _          => s

/-- A priming completion reaches its entry: the generation check first, then by the status; `none`
is FAULT (R48). -/
def primingCompletion (s : State) (i : EntryIndex) (generation : Byte) (word : Option Word) :
    State :=
  if (s.entry i).generation = generation then
    match word with
    | some w => primingOkay s i w
    | none   => primingFault s i
  else s

/-- Where an entry's priming read is (R15, R47). An entry that stands on the queue while a read of an
equal generation holds a slot, as the wrap of R5 allows, meets the manual's words for QUEUED and for
IN_FLIGHT: DESIGN CHOICE, unsafe, QUEUED is returned (log entry 21). -/
def primingIndication (s : State) (i : EntryIndex) : PrimingIndication :=
  if i ∈ s.primingQueue then .queued
  else if s.ring.any fun
      | .primingRead j g _ _ => j == i && g == (s.entry i).generation
      | _ => false
    then .inFlight
  else .none

/-! ### What a response does at the watch table (R7) -/

/-- A word of a completed WRITE (R7, R19). -/
def writeWord (n : Source) (s : State) (p : Word × WriteWord) : State :=
  match entryAt s p.1 with
  | some i =>
    if (s.entry i).state = .armed then evaluate s i (.transition n) (merge (s.entry i).shadow p.2)
    else s
  | none   => s

/-- A word of a failed WRITE (R7, R12). -/
def faultWord (s : State) (p : Word × WriteWord) : State :=
  if touched p.2 then
    match entryAt s p.1 with
    | some i => reprime s i
    | none   => s
  else s

/-- A word of a completed READ (R7, R19, R23). -/
def readWord (s : State) (p : Word × Word) : State :=
  match entryAt s p.1 with
  | some i =>
    if (s.entry i).state = .armed ∧ (s.entry i).reconcile = true then evaluate s i .unseen p.2
    else s
  | none   => s

/-- The hand-off of a valid response to the watch table, in ascending address order, of the slot's
kind of transaction (R144 to R146). -/
def handOn (s : State) (slot : Slot) (r : DownResponse) : State :=
  match slot with
  | .forwarded q _ =>
    match q.payload with
    | .write ws =>
      if isOkay r then (withAddresses q.address ws).foldl (writeWord q.source) s
      else (withAddresses q.address ws).foldl faultWord s
    | .read n =>
      if isOkay r then (withAddresses q.address (responseWords n.toNat r)).foldl readWord s
      else s
  | .primingRead i g _ _ => primingCompletion s i g (if isOkay r then some r.data[0] else none)
  | _ => s

/-! ### The transit ring (chapter 7.3) -/

/-- Whether a slot is OUTSTANDING (R138). -/
def outstanding : Slot → Bool
  | .forwarded _ _       => true
  | .primingRead _ _ _ _ => true
  | _                    => false

/-- Whether a slot is OUTSTANDING and its request has been taken by memory (R141). -/
def sentOutstanding : Slot → Bool
  | .forwarded _ sent       => sent
  | .primingRead _ _ _ sent => sent
  | _                       => false

/-- Whether a slot is OUTSTANDING and its request waits to be sent (R141). -/
def unsent : Slot → Bool
  | .forwarded _ sent       => !sent
  | .primingRead _ _ _ sent => !sent
  | _                       => false

/-- The slot with its sent indication set (R141). -/
def markSent : Slot → Slot
  | .forwarded q _       => .forwarded q true
  | .primingRead i g a _ => .primingRead i g a true
  | x                    => x

/-- The number of the slot `k` places behind the head, its tag downstream (R139). -/
def tagOf (s : State) (k : Nat) : SlotIndex :=
  s.head + Fin.ofNat 32 k

/-- The request a slot sends downstream: a forwarded one unchanged with its source as origin, a
priming read as R45 forms it (R129). -/
def downRequest (tag : SlotIndex) : Slot → Option DownRequest
  | .forwarded q _ =>
    some { tag, origin := .source q.source, address := q.address, payload := q.payload }
  | .primingRead _ _ a _ => some { tag, origin := .priming, address := a, payload := .read 1 }
  | _ => none

/-- Whether a slot is free (R132). -/
def hasFreeSlot (s : State) : Bool :=
  decide (s.ring.length < Config.ringSize)

/-- The upstream port's acceptance condition (R132). -/
inductive Acceptance where
  | opened | full | closed
  deriving DecidableEq, Repr

/-- The acceptance condition as R132 gives it. -/
def acceptance (s : State) : Acceptance :=
  if s.device = .running then (if hasFreeSlot s then .opened else .full) else .closed

/-- Whether the arbiter grants a free slot to a waiting upstream request: the condition is OPEN and
the priming queue does not claim the slot (R132, R140). -/
def upstreamGranted (s : State) : Bool :=
  acceptance s == .opened && !primingPresents s

/-- A slot allocated at the tail. An OUTSTANDING slot starts the response timer where no other slot
is OUTSTANDING (R139, R158). -/
def allocate (s : State) (x : Slot) : State :=
  { s with
    ring := s.ring ++ [x]
    responseTimer :=
      if outstanding x && !s.ring.any outstanding then startTimer s.responseTimeout
      else s.responseTimer }

/-- The slot of a request answered at acceptance or by a completion (R138). -/
def answeredSlot (q : Request) (resp : UpResponse) : Slot :=
  .answered q.source (isWrite q.payload) q.address (payloadLength q.payload) resp

/-- The slot as its valid response leaves it (R143 to R146). -/
def completeSlot (x : Slot) (r : DownResponse) : Slot :=
  match x with
  | .forwarded q _       => answeredSlot q (passedBack q.payload r)
  | .primingRead i g a _ => .primingDone i g a
  | y                    => y

/-- The slot as the stall leaves it: an OUTSTANDING one is failed with FAULT (R147, R160). -/
def failSlot : Slot → Slot
  | .forwarded q _       => answeredSlot q (blankResponse .fault q.payload)
  | .primingRead i g a _ => .primingDone i g a
  | y                    => y

/-- Whether a slot is a COMPLETE priming slot, which leaves at once at the head (R147). -/
def silent : Slot → Bool
  | .primingDone _ _ _ => true
  | _                  => false

/-- The COMPLETE priming slots at the head leave silently, one after another (R45, R147). -/
def leaveSilently (s : State) : State :=
  { s with
    ring := s.ring.dropWhile silent
    head := s.head + Fin.ofNat 32 (s.ring.takeWhile silent).length }

/-! ### Device reset (chapter 10) -/

/-- An entry as FULL leaves it (R17), and as power-on reset does (R16). -/
def freshEntries : Vector Entry 64 := Vector.replicate 64 .powerOn

/-- Every channel as FULL and power-on reset leave it (R109). -/
def freshChannels : Vector Channel 8 := Vector.replicate 8 .powerOn

/-- The transit ring and the downstream port as either scope leaves them (R152, R167). -/
def restartTransit (s : State) : State :=
  { s with ring := [], head := 0, link := .active, responseTimer := .stopped }

/-- Scope FULL applies (R201). The tick period in progress is cut off, and with it a tick that has been
taken ahead of its TICK (R127). -/
def applyFull (s : State) : State :=
  State.withFaults
    { restartTransit s with
      device := .running
      entries := freshEntries
      primingQueue := []
      freeRecords := Config.poolSize
      channels := freshChannels
      tickCounter := 0
      tickDivider := Config.defaultDivider
      tickPeriod := Config.defaultDivider
      tickTaken := []
      responseTimeout := Config.defaultTimeout }
    (faultBit .softReset)

/-- An entry as KEEP_CONFIG leaves it (R18). -/
def keepEntry (e : Entry) : Entry :=
  if e.state = .free then e
  else { e with
    state := .priming, generation := e.generation + 1, shadow := 0, pendingMask := 0, count := 0 }

/-- A channel as KEEP_CONFIG leaves it (R77, R110). -/
def keepChannel (c : Channel) : Channel :=
  { stopTimers (c.moveTo (if c.state = .disabled then .disabled else .idle)) with
    handed := [], queued := [], pendingSet := [], overflow := false, overRetire := false
    lost := 0, lapses := 0, refused := 0, reclaims := 0 }

/-- The indices of the entries that are not FREE, ascending (R53). -/
def definedEntries (es : Vector Entry 64) : List EntryIndex :=
  (List.finRange 64).filter fun i => es[i.val].state != .free

/-- Scope KEEP_CONFIG applies (R202). -/
def applyKeepConfig (s : State) : State :=
  State.raise
    { restartTransit s with
      device := .running
      entries := Vector.ofFn fun i => keepEntry (s.entry i)
      primingQueue := definedEntries s.entries
      freeRecords := Config.poolSize
      channels := Vector.ofFn fun c => keepChannel (s.channel c) }
    .softReset

/-- The chosen scope applies. -/
def applyScope : Scope → State → State
  | .full, s       => applyFull s
  | .keepConfig, s => applyKeepConfig s

/-- The drain ends, and the scope applies, at the event that leaves the ring empty (R200). -/
def endDrain (s : State) : State :=
  match s.device with
  | .draining sc => if s.ring.isEmpty then applyScope sc s else s
  | _            => s

/-- What follows at once on a change of the ring: COMPLETE priming slots at the head leave, and a
drain that finds the ring empty ends (R147, R200). -/
def settle (s : State) : State :=
  endDrain (leaveSilently s)

/-! ### The stall (chapter 8.5) -/

/-- The priming reads outstanding in the ring, with their generations, in ring order (R52). -/
def outstandingPriming (ring : List Slot) : List (EntryIndex × Byte) :=
  ring.filterMap fun
    | .primingRead i g _ _ => some (i, g)
    | _ => none

/-- Step 1 and the slots of step 2 of R160: the port stalls and every OUTSTANDING slot is failed. -/
def failOutstanding (s : State) : State :=
  { s with link := .stalled, responseTimer := .stopped, ring := s.ring.map failSlot }

/-- The stall, whole (R160). During a drain no entry moves and none joins the queue (R14). -/
def stall (s : State) : State :=
  let failed := failOutstanding s
  if s.device = .running then
    (List.finRange 64).foldl reprime
      ((outstandingPriming s.ring).foldl (fun t p => primingCompletion t p.1 p.2 none) failed)
  else failed

/-! ### A tick taken ahead of its TICK (R114) -/

/-- Whether the tick of this instant is still to come at an owner of timers (R114). -/
def awaitsTick (s : State) (o : TickOwner) : Bool :=
  decide (o ∉ s.tickTaken)

/-- The tick of this instant is taken at an owner ahead of its TICK (R114). -/
def State.takeTickAt (s : State) (o : TickOwner) : State :=
  { s with tickTaken := o :: s.tickTaken }

/-- Whether the next tick brings an expiry to a channel. -/
def channelExpiresNext (k : Channel) : Bool :=
  expiresNext k.holdoffTimer || expiresNext k.claimTimer || expiresNext k.serviceTimer

/-- Whether an event from `s` to `t` restarts a timer at the tick that would have expired it: an expiry
was next and is next again, though the channel has changed its state or handed a record out (R85, R117,
R119, R120), or a slot of the port has completed with another OUTSTANDING (R165). -/
def forestalls (s t : State) : TickOwner → Bool
  | .channel c =>
    awaitsTick s (.channel c) && channelExpiresNext (s.channel c) && channelExpiresNext (t.channel c)
      && decide ((t.channel c).state ≠ (s.channel c).state ∨ (t.channel c).handed ≠ (s.channel c).handed)
  | .port =>
    awaitsTick s .port && expiresNext s.responseTimer && expiresNext t.responseTimer
      && decide (t.ring.countP outstanding < s.ring.countP outstanding)

/-- Every owner of timers. -/
def tickOwners : List TickOwner :=
  .port :: (List.finRange 8).map .channel

/-- An event from `s` to `t` that covers the tick it falls together with: R114 makes that tick the expiry
of a timer restarted with a value of 1, and the rules of the pairs say that none comes of it. DESIGN
CHOICE: with `covers` off the tick is the expiry, with it on the tick is taken where the event forestalls
it (log entry 23). -/
def coverTick (covers : Bool) (s t : State) : State :=
  if covers then { t with tickTaken := tickOwners.filter (forestalls s t) ++ t.tickTaken } else t

/-! ### Lapses (chapter 6.5) -/

/-- The notice of channel `c`'s lapse to its fallback, at the tick that produced `timestamp`
(R65, R122). -/
def giveNotice (s : State) (c : ChannelIndex) (cause : LapseCause) (timestamp : Word) : State :=
  match (s.channel c).config.fallback with
  | none   => s.raise .lapseLost
  | some f =>
    if canCreate s f then deliverTo (appendRecord s f (.lapse c cause) timestamp) f
    else s.raise .lapseLost

/-- The lapsing channel's own part of R121: reversion for a SERVICE lapse, LAPSED, the count. -/
def lapseChannel (cause : LapseCause) (k : Channel) : Channel :=
  let reverted := match cause with
    | .claim   => k
    | .service => revert k
  { stopTimers (reverted.moveTo .lapsed) with lapses := saturate k.lapses }

/-- A lapse, taken whole by the channel (R121). -/
def lapse (s : State) (c : ChannelIndex) (cause : LapseCause) (timestamp : Word) : State :=
  giveNotice (s.setChannel c (lapseChannel cause (s.channel c))) c cause timestamp

/-- The expiry of a channel's hold-off timer, which has none outside HOLDOFF (R85). -/
def takeHoldoffExpiry (s : State) (c : ChannelIndex) : State :=
  if (s.channel c).state = .holdoff then s.setChannel c (enterAlerting (s.channel c)) else s

/-- The expiry of a channel's claim timer, which runs in ALERTING alone (R116). -/
def takeClaimExpiry (s : State) (c : ChannelIndex) (timestamp : Word) : State :=
  if (s.channel c).state = .alerting then lapse s c .claim timestamp else s

/-- The expiry of a channel's service timer, which runs in IN_SERVICE alone (R118). -/
def takeServiceExpiry (s : State) (c : ChannelIndex) (timestamp : Word) : State :=
  if (s.channel c).state = .inService then lapse s c .service timestamp else s

/-- The expiry of the response timer (R159). -/
def takeResponseExpiry (s : State) : State :=
  settle (stall (s.raise .stall))

/-! ### Management commands (chapter 9) -/

/-- Whether the port comes to the execution point of the frame with these bytes: a frame is in
progress whose command has not executed, and the bits sampled of it are the frame's first (R168,
R170, R176). -/
def takesFrame (s : State) (code : Byte) (args : List Byte) : Bool :=
  s.device != .reset && awaitsCommand s.management &&
    (heldBits s.management).isPrefixOf (frameBits (code :: args))

/-- The execution point fixes the result and response bytes to be shifted out (R170). -/
def answer (code : Byte) (args : List Byte) (result : ResultCode) (response : List Byte)
    (s : State) : State :=
  { s with management := fixAnswer s.management code args result response }

/-- A refused command changes nothing and answers its count of zero bytes (R169, R174). -/
def refuse (cmd : Command) (args : List Byte) (result : ResultCode) (s : State) : State :=
  answer (commandCode cmd) args result (List.replicate (responseCount cmd) 0) s

/-- Whether the device is DRAINING (R192). -/
def isDraining (s : State) : Bool :=
  match s.device with
  | .draining _ => true
  | _           => false

/-- The execution of a command in a frame: BUSY is tested first, then the command's own tests and
effect (R170, R174, R175). Where the port does not come to the execution point of this frame, nothing
is executed (R168). -/
def executeCommand (cmd : Command) (args : List Byte)
    (body : State → Except ResultCode (State × List Byte)) (s : State) : State :=
  if takesFrame s (commandCode cmd) args then
    if isDraining s && cmd != .statusQuery then refuse cmd args .busy s
    else
      match body s with
      | .ok (s', response) => answer (commandCode cmd) args .ok response s'
      | .error result      => refuse cmd args result s
  else s

/-- A test that a command makes, in the order of R174. -/
def require (result : ResultCode) (ok : Bool) : Except ResultCode Unit :=
  if ok then .ok () else .error result

/-- An argument that names something, or the refusal of the command. -/
def orRefuse {α : Type} (result : ResultCode) : Option α → Except ResultCode α
  | some a => .ok a
  | none   => .error result

/-- Whether a byte address lies in the 64 bytes from `base` (R87). -/
def inWindow (base a : Word) : Bool :=
  decide ((a - base).toNat < Config.windowBytes)

/-- Whether an address lies in a channel's present window (R8, R87). -/
def channelCovers (k : Channel) (a : Word) : Bool :=
  match k.config.windowBase with
  | some base => inWindow base a
  | none      => false

end Sys2Proof.Machine
end

