-- ==== Sys2Proof/Machine/ChannelCommands.lean ====
section
/-! DEFINITION. The six channel commands (R181 to R185, with R103 to R106, R125). -/

namespace Sys2Proof.Machine

/-- The argument tests of CHANNEL_DEFINE, and the configuration the arguments stand for (R181, R207). -/
def configOf (c : ChannelIndex) (a : ChannelDefineArgs) : Except ResultCode ChannelConfig := do
  let present ← orRefuse .badValue (onOff a.windowPresent)
  require .badValue (!present || a.windowBase.toNat % Config.windowBytes == 0)
  require .badValue (a.quota != 0 && a.quota.toNat ≤ Config.poolSize)
  require .badValue (a.watermark != 0 && a.watermark.toNat ≤ a.quota.toNat)
  let fallback ← orRefuse .badValue (fallbackOf c a.fallback)
  return {
    windowBase := if present then some a.windowBase else none
    permitted := a.permitted
    quota := a.quota
    watermark := a.watermark
    holdoff := a.holdoff
    claimDeadline := a.claimDeadline
    serviceDeadline := a.serviceDeadline
    fallback }

/-- Two windows share a byte (R8, R181). -/
def windowsMeet (a b : Word) : Bool :=
  inWindow a b || inWindow b a

/-- The window of a new configuration of channel `c` breaks the law of watched addresses (R181). -/
def windowClashes (s : State) (c : ChannelIndex) (base : Word) : Bool :=
  ((List.finRange 8).any fun d => d != c &&
    match (s.channel d).config.windowBase with
    | some b => windowsMeet b base
    | none   => false) ||
  (List.finRange 64).any fun i => (s.entry i).state != .free && inWindow base (s.entry i).address

/-- The OVERLAP test of CHANNEL_DEFINE, made of a present window (R181). -/
def clashes (s : State) (c : ChannelIndex) (cfg : ChannelConfig) : Bool :=
  match cfg.windowBase with
  | some base => windowClashes s c base
  | none      => false

/-- The channel's configuration replaced and its accounting restarted (R74, R106). -/
def restartAccounting (k : Channel) (cfg : ChannelConfig) : Channel :=
  { k with
    config := cfg, overflow := false, nextSequence := 0, lost := 0, lapses := 0, refused := 0
    reclaims := 0, overRetire := false }

/-- An accepted CHANNEL_DEFINE (R106). -/
def defineChannel (s : State) (c : ChannelIndex) (cfg : ChannelConfig) : State :=
  let freed := freeQueue s c
  freed.setChannel c (restartAccounting (freed.channel c) cfg)

/-- The tests and the effect of CHANNEL_DEFINE (R181). -/
def channelDefineBody (a : ChannelDefineArgs) (s : State) :
    Except ResultCode (State × List Byte) := do
  let c ← orRefuse .badIndex (channelOf a.channel)
  let cfg ← configOf c a
  require .wrongState ((s.channel c).state == .disabled)
  require .overlap (!clashes s c cfg)
  return (defineChannel s c cfg, [])

/-- CHANNEL_DEFINE (R181). -/
def execChannelDefine (a : ChannelDefineArgs) (s : State) : Host.Outcome State Fault Refusal :=
  .next (executeCommand .channelDefine (channelDefineBytes a) (channelDefineBody a) s)

/-- An enable: IDLE, and any content treated at once as a delivery taken in IDLE (R103). -/
def enable (k : Channel) : Channel :=
  let idle := k.moveTo .idle
  if hasContent idle then leaveIdle idle else idle

/-- The tests and the effect of CHANNEL_ENABLE (R182). -/
def channelEnableBody (channel : Byte) (s : State) : Except ResultCode (State × List Byte) := do
  let c ← orRefuse .badIndex (channelOf channel)
  require .wrongState ((s.channel c).state == .disabled)
  return (s.setChannel c (enable (s.channel c)), [])

/-- CHANNEL_ENABLE (R182). -/
def execChannelEnable (channel : Byte) (s : State) : Host.Outcome State Fault Refusal :=
  .next (executeCommand .channelEnable [channel] (channelEnableBody channel) s)

/-- A disable without purge, which changes nothing in a channel already DISABLED (R104). -/
def disableChannel (s : State) (c : ChannelIndex) : State :=
  if (s.channel c).state = .disabled then s else s.setChannel c (disable (s.channel c))

/-- The pending masks of the pending set's members are cleared and the set is emptied (R35). -/
def purgePending (s : State) (c : ChannelIndex) : State :=
  let cleared := (s.channel c).pendingSet.foldl
    (fun t i => t.setEntry i { t.entry i with pendingMask := 0 }) s
  cleared.setChannel c { cleared.channel c with pendingSet := [] }

/-- A disable with purge: the disable, then the queue freed and the pending set emptied (R73, R105). -/
def purgeChannel (s : State) (c : ChannelIndex) : State :=
  purgePending (freeQueue (disableChannel s c) c) c

/-- The tests and the effect of CHANNEL_DISABLE with the purge argument it carries (R183). -/
def channelDisableBody (channel purge : Byte) (s : State) :
    Except ResultCode (State × List Byte) := do
  let c ← orRefuse .badIndex (channelOf channel)
  let purged ← orRefuse .badValue (onOff purge)
  return (if purged then purgeChannel s c else disableChannel s c, [])

/-- CHANNEL_DISABLE (R104, R183). -/
def execChannelDisable (channel purge : Byte) (s : State) : Host.Outcome State Fault Refusal :=
  .next (executeCommand .channelDisable [channel, purge] (channelDisableBody channel purge) s)

/-- CHANNEL_DISABLE with purge (R105, R183). -/
def execChannelDisablePurge (channel : Byte) (s : State) : Host.Outcome State Fault Refusal :=
  .next (executeCommand .channelDisable [channel, 1] (channelDisableBody channel 1) s)

/-- The tests and the effect of CHANNEL_REINSTATE (R125, R184). -/
def channelReinstateBody (channel : Byte) (s : State) :
    Except ResultCode (State × List Byte) := do
  let c ← orRefuse .badIndex (channelOf channel)
  require .wrongState ((s.channel c).state == .lapsed)
  return (s.setChannel c (settleContent (s.channel c)), [])

/-- CHANNEL_REINSTATE (R184). -/
def execChannelReinstate (channel : Byte) (s : State) : Host.Outcome State Fault Refusal :=
  .next (executeCommand .channelReinstate [channel] (channelReinstateBody channel) s)

/-- The tests, the response and the effect of CHANNEL_QUERY, which clears the over-retire flag after
copying it (R98, R185). -/
def channelQueryBody (channel : Byte) (s : State) : Except ResultCode (State × List Byte) := do
  let c ← orRefuse .badIndex (channelOf channel)
  return (s.setChannel c { s.channel c with overRetire := false }, channelBytes (s.channel c))

/-- CHANNEL_QUERY (R185). -/
def execChannelQuery (channel : Byte) (s : State) : Host.Outcome State Fault Refusal :=
  .next (executeCommand .channelQuery [channel] (channelQueryBody channel) s)

end Sys2Proof.Machine
end

