-- ==== Sys2Proof/Machine/DeviceCommands.lean ====
section
/-! DEFINITION. The six device commands (R186 to R191). -/

namespace Sys2Proof.Machine

/-- The tests and the effect of TIMING_SET: both values are tested before either is stored (R186). -/
def timingSetBody (divider timeout : Half) (s : State) : Except ResultCode (State × List Byte) := do
  require .badValue (divider != 0 && divider.toNat ≤ 4096 && timeout != 0)
  return ({ s with tickDivider := divider, responseTimeout := timeout }, [])

/-- TIMING_SET (R112, R186). -/
def execTimingSet (divider timeout : Half) (s : State) : Host.Outcome State Fault Refusal :=
  .next (executeCommand .timingSet (timingSetBytes divider timeout) (timingSetBody divider timeout) s)

/-- The effect of FAULT_MASK_SET: the seven enables are stored from bits 0 to 6, and bit 7 is
disregarded (R187, R207). -/
def faultMaskSetBody (mask : Byte) (s : State) : Except ResultCode (State × List Byte) :=
  .ok (s.withFaultMask (mask.setWidth 7), [])

/-- FAULT_MASK_SET (R187). -/
def execFaultMaskSet (mask : Byte) (s : State) : Host.Outcome State Fault Refusal :=
  .next (executeCommand .faultMaskSet [mask] (faultMaskSetBody mask) s)

/-- STATUS_QUERY, accepted in every state in which the port takes frames (R188). -/
def execStatusQuery (s : State) : Host.Outcome State Fault Refusal :=
  .next (executeCommand .statusQuery [] (fun t => .ok (t, statusBytes t)) s)

/-- The effect of FAULT_COLLECT: every flag is copied and cleared in the same step (R189, R196). -/
def faultCollectBody (s : State) : Except ResultCode (State × List Byte) :=
  .ok (s.withFaults 0, [s.faultFlags.setWidth 8])

/-- FAULT_COLLECT (R189). -/
def execFaultCollect (s : State) : Host.Outcome State Fault Refusal :=
  .next (executeCommand .faultCollect [] faultCollectBody s)

/-- The tests and the effect of LINK_RESUME: the port is ACTIVE, its timer stays stopped, and the
priming queue presents its head again (R164, R190). -/
def linkResumeBody (s : State) : Except ResultCode (State × List Byte) := do
  require .wrongState (s.link == .stalled)
  return ({ s with link := .active }, [])

/-- LINK_RESUME (R190). -/
def execLinkResume (s : State) : Host.Outcome State Fault Refusal :=
  .next (executeCommand .linkResume [] linkResumeBody s)

/-- The tests and the effect of DEVICE_RESET: the drain toward the chosen scope starts, and ends in
the same step where the ring is already empty (R191, R198, R200). -/
def deviceResetBody (scope : Byte) (s : State) : Except ResultCode (State × List Byte) := do
  let sc ← orRefuse .badValue (scopeOf scope)
  return (endDrain { s with device := .draining sc }, [])

/-- DEVICE_RESET (R191). -/
def execDeviceReset (scope : Byte) (s : State) : Host.Outcome State Fault Refusal :=
  .next (executeCommand .deviceReset [scope] (deviceResetBody scope) s)

end Sys2Proof.Machine
end

