-- ==== Sys2Proof/Machine/Frames.lean ====
section
/-! DEFINITION. The management frame's own events (R168, R171 to R173, R176). -/

namespace Sys2Proof.Machine

/-- Clock edges at the port, within one level of chip select. -/
def clockSelect (s : State) (bits : List Bool) : State :=
  { s with management := clockIn bits s.management }

/-- A rise of chip select. A frame whose command has not executed is discarded, and MGMT_FRAME is set,
but a select with no clock edge is no frame (R171). Behind the execution point the bytes not yet
shifted out are lost and no flag is set (R172), nor is one at the end of a select without a frame
(R176). -/
def riseSelect (s : State) : State :=
  let risen := { s with management := selectRises s.management }
  if s.device != .reset && riseDiscards s.management then risen.raise .mgmtFrame else risen

/-- FRAME_BEGIN: a fall of chip select begins a frame (R168), and `bits` are sampled before the next
command is taken. While RESET_N is low the fall begins no frame, and the select is disregarded until
chip select rises and falls again (R176). Where chip select is low already there is no fall, and the
bits alone are sampled in the frame as it stands: DESIGN CHOICE, the table has no row for a clock edge
(log entry 9). -/
def execFrameBegin (s : State) (bits : List Bool := []) : Host.Outcome State Fault Refusal :=
  .next <|
    if s.management.selectLow then clockSelect s bits
    else clockSelect { s with management := selectFalls (s.device != .reset) } bits

/-- FRAME_DISCARD: chip select rises after the bits given, before the command has executed (R171). -/
def execFrameDiscard (bits : List Bool) (s : State) : Host.Outcome State Fault Refusal :=
  .next (riseSelect (clockSelect s bits))

/-- FRAME_CUT_AFTER_EXECUTION: chip select rises after the bits given, sampled behind the execution
point (R172). They are disregarded; what is shifted out at them is the turnaround byte, the result,
the response and then 0x00 (R168). -/
def execFrameCutAfterExecution (bits : List Bool) (s : State) : Host.Outcome State Fault Refusal :=
  .next (riseSelect (clockSelect s bits))

/-- UNKNOWN_COMMAND: a command byte that names no command executes at once with no effect, and its
result is BAD_COMMAND in every device state in which frames are taken (R173). A byte that names a
command is not an unknown one and has no effect here. -/
def execUnknownCommand (code : Byte) (s : State) : Host.Outcome State Fault Refusal :=
  .next <|
    if takesFrame s code [] && (commandOf code).isNone then answer code [] .badCommand [] s else s

end Sys2Proof.Machine
end

