-- ==== Sys2Proof/Machine/Resets.lean ====
section
/-! DEFINITION. RESET_N and the application of a device reset's scope (R192, R197, R200 to R203). -/

namespace Sys2Proof.Machine

/-- RESET_N_FALL: every block takes its power-on values and the work in flight is abandoned (R197).
The level of chip select is the host's, and a frame in progress is abandoned (R176). -/
def execResetNFall (s : State) : Host.Outcome State Fault Refusal :=
  .next { State.reset with
    pending := s.pending
    device := .reset
    management :=
      { selectLow := s.management.selectLow, phase := .noFrame, bits := [], shifted := [] } }

/-- RESET_N_RISE: the device leaves RESET and is RUNNING (R192). The pin cannot rise again while it
is high. -/
def execResetNRise (s : State) : Host.Outcome State Fault Refusal :=
  .next (if s.device = .reset then { s with device := .running } else s)

/-- SCOPE_FULL_APPLY: the drain toward FULL has an empty ring and ends (R200, R201). -/
def execScopeFullApply (s : State) : Host.Outcome State Fault Refusal :=
  .next (if s.device = .draining .full ∧ s.ring = [] then applyFull s else s)

/-- SCOPE_KEEP_CONFIG_APPLY: the drain toward KEEP_CONFIG has an empty ring and ends (R200, R202). -/
def execScopeKeepConfigApply (s : State) : Host.Outcome State Fault Refusal :=
  .next (if s.device = .draining .keepConfig ∧ s.ring = [] then applyKeepConfig s else s)

end Sys2Proof.Machine
end

