-- ==== Sys2Proof/Machine/Timebase.lean ====
section
/-! DEFINITION. The tick and the expiries of the tick timers (chapter 6, R85, R159). -/

namespace Sys2Proof.Machine

/-- A channel's timers after a tick (R113). -/
def lowerChannel (k : Channel) : Channel :=
  { k with
    holdoffTimer := lowerTimer k.holdoffTimer
    claimTimer := lowerTimer k.claimTimer
    serviceTimer := lowerTimer k.serviceTimer }

/-- The tick at the timebase: the counter advances, and the next period takes the divider as it now
stands (R111, R112). -/
def advanceTimebase (s : State) : State :=
  { s with tickCounter := s.tickCounter + 1, tickPeriod := s.tickDivider }

/-- A channel after a tick that it may have taken already (R114). -/
def tickChannel (s : State) (c : ChannelIndex) : Channel :=
  if awaitsTick s (.channel c) then lowerChannel (s.channel c) else s.channel c

/-- The response timer after a tick that the port may have taken already (R114). -/
def tickResponse (s : State) : Timer :=
  if awaitsTick s .port then lowerTimer s.responseTimer else s.responseTimer

/-- The tick at every timer that runs and is not frozen (R113, R115): the response timer counts in
RUNNING and DRAINING (R158), the channel timers in RUNNING alone. Where the tick has been taken ahead of
this TICK, a timer started since keeps all its ticks (R114), and the next tick is awaited everywhere. -/
def lowerTimers (s : State) : State :=
  { s with
    responseTimer := tickResponse s
    channels := if s.device = .running then Vector.ofFn (tickChannel s) else s.channels
    tickTaken := [] }

/-- The expiries that a tick brought to channel `c`, read from the channel `k` as it stood before the
tick and taken against the channel as it stands now. -/
def takeExpiries (k : Channel) (s : State) (c : ChannelIndex) : State :=
  let s1 := if expiresNext k.holdoffTimer then takeHoldoffExpiry s c else s
  let s2 := if expiresNext k.claimTimer then takeClaimExpiry s1 c s.tickCounter else s1
  if expiresNext k.serviceTimer then takeServiceExpiry s2 c s.tickCounter else s2

/-- The channels in the order in which their expiries on one tick are taken: those that the
environment names first, then the rest ascending (R68, R123). A channel named again has no expiry
left. -/
def expiryOrder (order : List ChannelIndex) : List ChannelIndex :=
  order ++ List.finRange 8

/-- TICK (R111): the timebase advances, every running unfrozen timer is lowered, and each timer
lowered to 0 expires at this tick (R113). No tick occurs while RESET_N is low. A timer restarted with a
value of 1 ahead of this tick expires at it (R114), unless the event that restarted it covers the tick
(R120, R165, R204): DESIGN CHOICE (log entry 23). -/
def execTick (order : List ChannelIndex) (s : State) : Host.Outcome State Fault Refusal :=
  .next <|
    if s.device = .reset then s
    else
      let lowered := lowerTimers (advanceTimebase s)
      let expired :=
        if s.device = .running then
          ((expiryOrder order).filter fun c => awaitsTick s (.channel c)).foldl
            (fun t c => takeExpiries (s.channel c) t c) lowered
        else lowered
      if awaitsTick s .port && expiresNext s.responseTimer && s.link == .active then takeResponseExpiry expired
      else expired

/-- HOLDOFF_EXPIRY: the tick that is the timer's expiry reaches a channel in HOLDOFF (R85, R113). The
channel has taken this tick then, and the TICK of the same instant finds it so (R114, log entry 22). -/
def execHoldoffExpiry (c : ChannelIndex) (s : State) : Host.Outcome State Fault Refusal :=
  .next <|
    if s.device = .running ∧ (s.channel c).state = .holdoff ∧ awaitsTick s (.channel c) ∧
        expiresNext (s.channel c).holdoffTimer then
      takeHoldoffExpiry (s.takeTickAt (.channel c)) c
    else s

/-- CLAIM_DEADLINE_EXPIRY: the tick that is the timer's expiry reaches an ALERTING channel, which
lapses with cause CLAIM (R116, R121). The notice carries the value that tick produces (R122). -/
def execClaimDeadlineExpiry (c : ChannelIndex) (s : State) : Host.Outcome State Fault Refusal :=
  .next <|
    if s.device = .running ∧ (s.channel c).state = .alerting ∧ awaitsTick s (.channel c) ∧
        expiresNext (s.channel c).claimTimer then
      takeClaimExpiry (s.takeTickAt (.channel c)) c (s.tickCounter + 1)
    else s

/-- SERVICE_DEADLINE_EXPIRY: the tick that is the timer's expiry reaches an IN_SERVICE channel, which
lapses with cause SERVICE (R118, R121). -/
def execServiceDeadlineExpiry (c : ChannelIndex) (s : State) : Host.Outcome State Fault Refusal :=
  .next <|
    if s.device = .running ∧ (s.channel c).state = .inService ∧ awaitsTick s (.channel c) ∧
        expiresNext (s.channel c).serviceTimer then
      takeServiceExpiry (s.takeTickAt (.channel c)) c (s.tickCounter + 1)
    else s

/-- RESPONSE_TIMER_EXPIRY: the tick that is the timer's expiry reaches the downstream response timer,
in RUNNING and in DRAINING (R158, R159). -/
def execResponseTimerExpiry (s : State) : Host.Outcome State Fault Refusal :=
  .next <|
    if s.device ≠ .reset ∧ s.link = .active ∧ awaitsTick s .port ∧ expiresNext s.responseTimer then
      takeResponseExpiry (s.takeTickAt .port)
    else s

end Sys2Proof.Machine
end

