-- ==== Sys2Proof/Machine/Accept.lean ====
section
/-! DEFINITION. What the upstream port does with a request it is offered: the grant, the
classification, and the service of a window access by its channel (R87 to R100, R132 to R137). -/

namespace Sys2Proof.Machine

/-! ### The four accesses, each on a channel that serves it -/

/-- The data a CLAIM of the given length returns: word 0 of the summary, and word 1 where the length
is 2 (R88, R94). -/
def claimData (k : Channel) (length : Nat) : List Word :=
  [summaryWord0 k, summaryWord1 k].take length

/-- A CLAIM's effect: in IN_SERVICE it only clears the overflow flag and counts (R93), in the other
states it begins a service (R91, R92). -/
def claimChannel (k : Channel) : Channel :=
  if k.state = .inService then { k with overflow := false, reclaims := saturate k.reclaims }
  else
    { k.moveTo .inService with
      overflow := false, holdoffTimer := .stopped, claimTimer := .stopped
      serviceTimer := startTimer k.config.serviceDeadline }

/-- CLAIM (R91 to R94). -/
def serveClaim (s : State) (c : ChannelIndex) (length : Nat) : State × List Word :=
  (s.setChannel c (claimChannel (s.channel c)), claimData (s.channel c) length)

/-- COLLECT: the lowest-indexed member's mask is returned and cleared, and it leaves the set (R95). -/
def serveCollect (s : State) (c : ChannelIndex) : State × List Word :=
  match (s.channel c).pendingSet with
  | []     => (s, [0, 0])
  | i :: l =>
    let e := s.entry i
    ((s.setChannel c { s.channel c with pendingSet := l }).setEntry i { e with pendingMask := 0 },
     [collectWord0 i e, e.pendingMask])

/-- RECORD: the oldest QUEUED record is handed out and the service timer restarts, or kind NONE is
returned and nothing changes (R70, R96). -/
def serveRecord (s : State) (c : ChannelIndex) : State × List Word :=
  match (s.channel c).queued with
  | []     => (s, List.replicate 6 0)
  | r :: l =>
    let k := s.channel c
    (s.setChannel c
      { k with
        handed := k.handed ++ [r], queued := l
        serviceTimer := startTimer k.config.serviceDeadline },
     recordWords r)

/-- The channel's part of a RETURN of `n` records (R97): the oldest HANDED records leave, the
over-retire flag notes an excess (R98), the rest revert (R72), the service timer stops, and content
decides the state. -/
def returnChannel (k : Channel) (n : Nat) : Channel :=
  let retired := { k with
    handed := k.handed.drop n, overRetire := k.overRetire || decide (k.handed.length < n) }
  settleContent { revert retired with serviceTimer := .stopped }

/-- RETURN: the retired records go back to the pool (R71, R97). -/
def serveReturn (s : State) (c : ChannelIndex) (n : Word) : State × List Word :=
  let k := s.channel c
  ({ s.setChannel c (returnChannel k n.toNat) with
     freeRecords := s.freeRecords + min n.toNat k.handed.length }, [])

/-- A refused window access: the count advances, and nothing else changes (R89). -/
def refuseAccess (s : State) (c : ChannelIndex) : State :=
  let k := s.channel c
  s.setChannel c { k with refused := saturate k.refused }

/-- Whether the channel serves an access of this kind from this source as it stands (R89). -/
def serves (k : Channel) (n : Source) (a : WindowAccess) : Bool :=
  k.config.permitted[n.val] && k.state != .disabled &&
    match a with
    | .claim _ => true
    | _        => k.state == .inService

/-- An access that the channel serves, with the data it returns (R90). -/
def serveAccess (s : State) (c : ChannelIndex) : WindowAccess → State × List Word
  | .claim n         => serveClaim s c n
  | .collect         => serveCollect s c
  | .record          => serveRecord s c
  | .returnService n => serveReturn s c n

/-- A window access taken by its channel: served with OKAY, or refused with zero data and counted
(R89, R135). -/
def takeAccess (s : State) (c : ChannelIndex) (firstWord : Nat) (q : Request) :
    State × UpResponse :=
  match recognise firstWord q.payload with
  | some a =>
    if serves (s.channel c) q.source a then
      ((serveAccess s c a).1, { status := .okay, data := (serveAccess s c a).2 })
    else (refuseAccess s c, blankResponse .refused q.payload)
  | none => (refuseAccess s c, blankResponse .refused q.payload)

/-! ### Acceptance -/

/-- The channel whose present window holds an address (R87, R135). -/
def windowAt (s : State) (a : Word) : Option ChannelIndex :=
  (List.finRange 8).find? fun c => channelCovers (s.channel c) a

/-- The word of a channel's window that an address is, 0 to 15 (R88). -/
def windowWord (k : Channel) (a : Word) : Nat :=
  (a - k.config.windowBase.getD 0).toNat / 4

/-- The classification of a request that has its slot: the first row of R133 that applies. -/
def classify (s : State) (q : Request) : State :=
  if malformed q then allocate s (answeredSlot q (blankResponse .refused q.payload))
  else
    match windowAt s q.address with
    | some c =>
      let taken := takeAccess s c (windowWord (s.channel c) q.address) q
      allocate taken.1 (answeredSlot q taken.2)
    | none =>
      if s.link = .stalled then allocate s (answeredSlot q (blankResponse .fault q.payload))
      else allocate s (.forwarded q false)

/-- A request offered at the upstream port: accepted and classified where the arbiter grants it a
slot (R133), and otherwise left waiting on the link, where the part holds no trace of it (R132). -/
def offerRequest (s : State) (q : Request) : State :=
  if upstreamGranted s then classify s q else s

/-- An access to a word of channel `c`'s window, offered at the upstream port. A channel without a
window intercepts nothing (R87). -/
def offerAccess (s : State) (c : ChannelIndex) (n : Source) (firstWord : Nat) (p : Payload) :
    State :=
  match (s.channel c).config.windowBase with
  | some base => offerRequest s { source := n, address := wordAddress base firstWord, payload := p }
  | none      => s

end Sys2Proof.Machine
end

