-- ==== Sys2Proof/Machine/Transit.lean ====
section
/-! DEFINITION. The commands of the transit path and the downstream port (chapters 3, 7 and 8). -/

namespace Sys2Proof.Machine

/-- REQUEST_ACCEPT: the fabric's request is granted a slot and classified, or waits (R132, R133).
`coversTick` acts where the request is a window access, as in the rows of those accesses (log entry 23). -/
def execRequestAccept (q : Request) (s : State) (coversTick : Bool := false) :
    Host.Outcome State Fault Refusal :=
  .next (coverTick coversTick s (offerRequest s q))

/-- The priming read formed from the head entry as it stands at the grant (R45). -/
def primingSlot (s : State) (i : EntryIndex) : Slot :=
  .primingRead i (s.entry i).generation (s.entry i).address false

/-- PRIMING_ISSUE: a free slot is granted to the presenting priming queue (R44, R140). -/
def execPrimingIssue (s : State) : Host.Outcome State Fault Refusal :=
  .next <|
    if primingPresents s && hasFreeSlot s then
      match s.primingQueue with
      | i :: rest => { allocate s (primingSlot s i) with primingQueue := rest }
      | []        => s
    else s

/-- DOWNSTREAM_SEND: memory takes the oldest unsent OUTSTANDING request, while the port is ACTIVE and
the device is RUNNING or DRAINING (R141). -/
def execDownstreamSend (s : State) : Host.Outcome State Fault Refusal :=
  .next <|
    if s.device ≠ .reset ∧ s.link = .active then
      match s.ring.findIdx? unsent with
      | some k =>
        { s with
          ring := s.ring.modify k markSent
          downstreamOut := s.ring[k]? >>= downRequest (tagOf s k) }
      | none => s
    else s

/-- The place in the ring of the expected slot: the oldest OUTSTANDING slot whose request has been
sent (R143). -/
def expectedPlace (s : State) : Option Nat :=
  s.ring.findIdx? sentOutstanding

/-- A valid response completes the slot `k` places behind the head, restarts or stops the response
timer (R158), and is handed on while the device is RUNNING (R14, R144 to R146). -/
def takeValid (s : State) (k : Nat) (r : DownResponse) : State :=
  let ring := s.ring.modify k (completeSlot · r)
  let completed := { s with
    ring
    responseTimer := if ring.any outstanding then startTimer s.responseTimeout else .stopped }
  match s.ring[k]? with
  | some x => if s.device = .running then handOn completed x r else completed
  | none   => completed

/-- A response that fails the order check is discarded, ORDER is set and the port stalls (R157). -/
def takeInvalid (s : State) : State :=
  stall (s.raise .order)

/-- A response taken while the port is ACTIVE: the order check of R157. -/
def checkOrder (s : State) (r : DownResponse) : State :=
  match expectedPlace s with
  | some k => if tagOf s k = r.tag then takeValid s k r else takeInvalid s
  | none   => takeInvalid s

/-- DOWNSTREAM_RESPONSE: checked against the expected slot while ACTIVE (R143, R157), late while
STALLED (R163), and discarded without a flag while RESET_N is low (R166). With `coversTick` a valid
response is taken ahead of the tick that would have expired the response timer, and no stall comes of
that tick with a timeout of 1 either (R165, log entry 23). -/
def execDownstreamResponse (r : DownResponse) (s : State) (coversTick : Bool := false) :
    Host.Outcome State Fault Refusal :=
  .next <| coverTick coversTick s <|
    if s.device = .reset then s
    else if s.link = .stalled then s.raise .late
    else settle (checkOrder s r)

/-- SLOT_LEAVE: the fabric takes the fixed response of the COMPLETE head slot, which is freed; the
priming slots behind it follow silently, and a drain whose ring is then empty ends (R147, R200). -/
def execSlotLeave (s : State) : Host.Outcome State Fault Refusal :=
  .next <|
    match s.ring with
    | .answered _ _ _ _ resp :: rest =>
      settle { s with ring := rest, head := s.head + 1, upstreamOut := some resp }
    | _ => settle s

end Sys2Proof.Machine
end

