-- ==== Sys2Proof/Machine/Watch.lean ====
section
/-! DEFINITION. The three watch commands (R178 to R180, with R2, R9, R10, R15). -/

namespace Sys2Proof.Machine

/-- The argument tests of WATCH_DEFINE that do not need the device, and what its mode, channel and
reconcile bytes stand for (R178, R207). -/
def watchValues (a : WatchDefineArgs) : Except ResultCode (Mode × ChannelIndex × Bool) := do
  let m ← orRefuse .badValue (modeOf a.mode)
  let c ← orRefuse .badValue (channelOf a.channel)
  let b ← orRefuse .badValue (onOff a.reconcile)
  require .badValue (a.address.toNat % 4 == 0 && a.enableMask != 0)
  require .badValue (m != .count || a.threshold != 0)
  return (m, c, b)

/-- Another entry that is not FREE holds the address (R8, R178). -/
def heldElsewhere (s : State) (i : EntryIndex) (a : Word) : Bool :=
  (List.finRange 64).any fun j => j != i && (s.entry j).state != .free && (s.entry j).address == a

/-- The address lies in the present service window of a channel (R8, R178). -/
def inAnyWindow (s : State) (a : Word) : Bool :=
  (List.finRange 8).any fun c => channelCovers (s.channel c) a

/-- The entry as its definition leaves it: the configuration stored with the rise and fall masks
reduced to the enable mask, the dynamic fields restarted (R2, R9). -/
def definedEntry (old : Entry) (a : WatchDefineArgs) (m : Mode) (c : ChannelIndex) (b : Bool) :
    Entry where
  state := .priming
  address := a.address
  enableMask := a.enableMask
  riseMask := a.riseMask &&& a.enableMask
  fallMask := a.fallMask &&& a.enableMask
  mode := m
  channel := c
  reconcile := b
  threshold := if m = .count then a.threshold else 0
  count := 0
  shadow := 0
  pendingMask := 0
  generation := old.generation + 1

/-- An accepted WATCH_DEFINE (R9, R42). -/
def defineEntry (s : State) (i : EntryIndex) (e : Entry) : State :=
  enqueuePriming ((leavePendingSet s i).setEntry i e) i

/-- The tests and the effect of WATCH_DEFINE (R178). -/
def watchDefineBody (a : WatchDefineArgs) (s : State) : Except ResultCode (State × List Byte) := do
  let i ← orRefuse .badIndex (entryOf a.index)
  let (m, c, b) ← watchValues a
  require .duplicate (!heldElsewhere s i a.address)
  require .overlap (!inAnyWindow s a.address)
  let e := definedEntry (s.entry i) a m c b
  return (defineEntry s i e, [e.generation])

/-- WATCH_DEFINE (R178). -/
def execWatchDefine (a : WatchDefineArgs) (s : State) : Host.Outcome State Fault Refusal :=
  .next (executeCommand .watchDefine (watchDefineBytes a) (watchDefineBody a) s)

/-- The entry as its release leaves it: FREE with its generation advanced (R10). -/
def releasedEntry (old : Entry) : Entry :=
  { Entry.powerOn with generation := old.generation + 1 }

/-- An accepted WATCH_RELEASE (R10). -/
def releaseEntry (s : State) (i : EntryIndex) : State :=
  leavePriming ((leavePendingSet s i).setEntry i (releasedEntry (s.entry i))) i

/-- The tests and the effect of WATCH_RELEASE (R179). -/
def watchReleaseBody (index : Byte) (s : State) : Except ResultCode (State × List Byte) := do
  let i ← orRefuse .badIndex (entryOf index)
  return (releaseEntry s i, [(releasedEntry (s.entry i)).generation])

/-- WATCH_RELEASE (R179). -/
def execWatchRelease (index : Byte) (s : State) : Host.Outcome State Fault Refusal :=
  .next (executeCommand .watchRelease [index] (watchReleaseBody index) s)

/-- The tests and the response of WATCH_QUERY, which changes nothing (R180). -/
def watchQueryBody (index : Byte) (s : State) : Except ResultCode (State × List Byte) := do
  let i ← orRefuse .badIndex (entryOf index)
  return (s, entryBytes (s.entry i) (primingIndication s i))

/-- WATCH_QUERY (R180). -/
def execWatchQuery (index : Byte) (s : State) : Host.Outcome State Fault Refusal :=
  .next (executeCommand .watchQuery [index] (watchQueryBody index) s)

end Sys2Proof.Machine
end

