-- ==== Sys2Proof/Machine/Window.lean ====
section
/-! DEFINITION. The commands that are window accesses (chapter 5, R88 to R100, R204). -/

namespace Sys2Proof.Machine

/-- CLAIM: a READ of length 1 or 2 at window word 0 (R91 to R94). With `coversTick` it is taken ahead of
the tick that would have expired the claim timer, and no lapse comes of that tick (R117, log entry 23). -/
def execClaim (n : Source) (c : ChannelIndex) (length : BitVec 4) (s : State)
    (coversTick : Bool := false) : Host.Outcome State Fault Refusal :=
  .next (coverTick coversTick s (offerAccess s c n 0 (.read length)))

/-- COLLECT: a READ of length 2 at window word 2 (R95). -/
def execCollect (n : Source) (c : ChannelIndex) (s : State) : Host.Outcome State Fault Refusal :=
  .next (offerAccess s c n 2 (.read 2))

/-- RECORD: a READ of length 6 at window word 8 (R96). With `coversTick` it is taken ahead of the tick
that would have expired the service timer, and no lapse comes of that tick (R120, R204, log entry 23). -/
def execRecord (n : Source) (c : ChannelIndex) (s : State) (coversTick : Bool := false) :
    Host.Outcome State Fault Refusal :=
  .next (coverTick coversTick s (offerAccess s c n 8 (.read 6)))

/-- RETURN: a WRITE of length 1 at window word 4 with all four byte enables on (R97). With `coversTick`
no lapse comes of the tick that would have expired the service timer (R119, log entry 23). -/
def execReturnService (n : Source) (c : ChannelIndex) (count : Word) (s : State)
    (coversTick : Bool := false) : Host.Outcome State Fault Refusal :=
  .next (coverTick coversTick s (offerAccess s c n 4 (.write [{ data := count, enables := 0xF }])))

/-- REFUSED_WINDOW_ACCESS: an access of any shape at a word of the window, refused where it matches
none of the four (R89). -/
def execRefusedWindowAccess (n : Source) (c : ChannelIndex) (firstWord : Fin 16) (p : Payload)
    (s : State) : Host.Outcome State Fault Refusal :=
  .next (offerAccess s c n firstWord.val p)

end Sys2Proof.Machine
end

