-- ==== Sys2Proof/Machine/Dispatch.lean ====
section
/-! DEFINITION. One arm per command, each a direct call of the command's meaning. -/

namespace Sys2Proof.Machine

/-- What a command does to everything but the queue of waiting commands. -/
def exec (i : Instr) (s : State) : Host.Outcome State Fault Refusal :=
  match i with
  | .resetNFall => Sys2Proof.Machine.execResetNFall s
  | .resetNRise => Sys2Proof.Machine.execResetNRise s
  | .tick order => Sys2Proof.Machine.execTick order s
  | .holdoffExpiry channel => Sys2Proof.Machine.execHoldoffExpiry channel s
  | .claimDeadlineExpiry channel => Sys2Proof.Machine.execClaimDeadlineExpiry channel s
  | .serviceDeadlineExpiry channel => Sys2Proof.Machine.execServiceDeadlineExpiry channel s
  | .responseTimerExpiry => Sys2Proof.Machine.execResponseTimerExpiry s
  | .requestAccept request coversTick => Sys2Proof.Machine.execRequestAccept request s coversTick
  | .claim source channel length coversTick => Sys2Proof.Machine.execClaim source channel length s coversTick
  | .collect source channel => Sys2Proof.Machine.execCollect source channel s
  | .record source channel coversTick => Sys2Proof.Machine.execRecord source channel s coversTick
  | .returnService source channel count coversTick => Sys2Proof.Machine.execReturnService source channel count s coversTick
  | .refusedWindowAccess source channel firstWord payload => Sys2Proof.Machine.execRefusedWindowAccess source channel firstWord payload s
  | .primingIssue => Sys2Proof.Machine.execPrimingIssue s
  | .downstreamSend => Sys2Proof.Machine.execDownstreamSend s
  | .downstreamResponse response coversTick => Sys2Proof.Machine.execDownstreamResponse response s coversTick
  | .slotLeave => Sys2Proof.Machine.execSlotLeave s
  | .scopeFullApply => Sys2Proof.Machine.execScopeFullApply s
  | .scopeKeepConfigApply => Sys2Proof.Machine.execScopeKeepConfigApply s
  | .watchDefine args => Sys2Proof.Machine.execWatchDefine args s
  | .watchRelease index => Sys2Proof.Machine.execWatchRelease index s
  | .watchQuery index => Sys2Proof.Machine.execWatchQuery index s
  | .channelDefine args => Sys2Proof.Machine.execChannelDefine args s
  | .channelEnable channel => Sys2Proof.Machine.execChannelEnable channel s
  | .channelDisable channel purge => Sys2Proof.Machine.execChannelDisable channel purge s
  | .channelDisablePurge channel => Sys2Proof.Machine.execChannelDisablePurge channel s
  | .channelReinstate channel => Sys2Proof.Machine.execChannelReinstate channel s
  | .channelQuery channel => Sys2Proof.Machine.execChannelQuery channel s
  | .timingSet divider timeout => Sys2Proof.Machine.execTimingSet divider timeout s
  | .faultMaskSet mask => Sys2Proof.Machine.execFaultMaskSet mask s
  | .statusQuery => Sys2Proof.Machine.execStatusQuery s
  | .faultCollect => Sys2Proof.Machine.execFaultCollect s
  | .linkResume => Sys2Proof.Machine.execLinkResume s
  | .deviceReset scope => Sys2Proof.Machine.execDeviceReset scope s
  | .unknownCommand code => Sys2Proof.Machine.execUnknownCommand code s
  | .frameDiscard bits => Sys2Proof.Machine.execFrameDiscard bits s
  | .frameCutAfterExecution bits => Sys2Proof.Machine.execFrameCutAfterExecution bits s
  | .frameBegin bits => Sys2Proof.Machine.execFrameBegin s bits

end Sys2Proof.Machine
end

