-- ==== Sys2Proof/Safety.lean ====
section
/-! DEFINITION. The laws of the manual as predicates on a state, in the terms the claims use. -/

namespace Sys2Proof.Safety

open Sys2Proof.Machine

/-- The records held in all the channel queues, QUEUED and HANDED (R56). -/
def recordsHeld (s : State) : Nat :=
  ((List.finRange 8).map fun c => queueLength (s.channel c)).sum

/-- Law of record conservation (R56). -/
abbrev PoolConserved (s : State) : Prop :=
  s.freeRecords + recordsHeld s = 128

/-- Law of quota (R66). -/
abbrev WithinQuota (s : State) : Prop :=
  ∀ c : ChannelIndex, queueLength (s.channel c) ≤ (s.channel c).config.quota.toNat

/-- Law of alert lines (R81). -/
abbrev AlertsFollowState (s : State) : Prop :=
  ∀ c : ChannelIndex, (s.channel c).alert = true ↔
    (s.channel c).state = .alerting ∨ (s.channel c).state = .lapsed

/-- FAULT_N is asserted exactly while a flag is set whose enable is on (R195). -/
abbrev FaultLineFollows (s : State) : Prop :=
  s.faultLine = true ↔ ∃ f : Fin 7, s.faultFlags[f.val] = true ∧ s.faultMask[f.val] = true

/-- At most 32 slots are in use (R142); a COMPLETE priming slot does not stand at the head (R147);
and a drain has a slot in use to wait for (R200). -/
abbrev RingLaw (s : State) : Prop :=
  s.ring.length ≤ 32 ∧ (s.ring.head?.all fun x => !silent x) = true ∧
    (isDraining s = true → s.ring ≠ [])

/-- The priming queue holds each index at most once, and only PRIMING or REPRIMING entries (R41, R46). -/
abbrev PrimingQueueLaw (s : State) : Prop :=
  s.primingQueue.Nodup ∧
    ∀ i ∈ s.primingQueue, (s.entry i).state = .priming ∨ (s.entry i).state = .repriming

/-- An OUTSTANDING slot holds a priming read of the entry's current generation (R46). -/
def readInFlight (s : State) (i : EntryIndex) : Bool :=
  s.ring.any fun
    | .primingRead j g _ _ => j == i && g == (s.entry i).generation
    | _ => false

/-- While RUNNING, an entry in PRIMING or REPRIMING has a priming read of its current generation,
queued or in flight (R46). -/
abbrev AwaitsRead (s : State) : Prop :=
  s.device = .running → ∀ i : EntryIndex,
    (s.entry i).state = .priming ∨ (s.entry i).state = .repriming →
      i ∈ s.primingQueue ∨ readInFlight s i = true

/-- While RESET_N is low every block holds its power-on values (R197); only the waiting commands and
the level of chip select are the outside's. -/
abbrev ResetHolds (s : State) : Prop :=
  s.device = .reset →
    s = { State.reset with
          pending := s.pending, device := .reset
          management :=
            { selectLow := s.management.selectLow, phase := .noFrame, bits := [], shifted := [] } }

/-- An entry's rise and fall masks and its pending mask lie in its enable mask, and the pending mask
is zero unless the entry is in FLAG or RECORD mode and not FREE (R2, R33). -/
abbrev masksWithin (e : Entry) : Prop :=
  e.riseMask &&& ~~~ e.enableMask = 0 ∧ e.fallMask &&& ~~~ e.enableMask = 0 ∧
    e.pendingMask &&& ~~~ e.enableMask = 0 ∧
    (e.pendingMask ≠ 0 → e.state ≠ .free ∧ e.mode ≠ .count)

/-- Law of pending masks (R33), with the order of the pending sets (R34). -/
abbrev PendingLaw (s : State) : Prop :=
  (∀ i : EntryIndex, masksWithin (s.entry i)) ∧
  ∀ c : ChannelIndex, (s.channel c).pendingSet.Pairwise (· < ·) ∧
    ∀ i : EntryIndex, i ∈ (s.channel c).pendingSet ↔
      (s.entry i).channel = c ∧ (s.entry i).pendingMask ≠ 0

/-- A timer that runs has at least one tick to come (R113). -/
abbrev ticksLeft (t : Timer) : Prop :=
  t ≠ .running 0

/-- A channel holds HANDED records only in IN_SERVICE (R99), and each of its timers runs only in the
state it times (R79), with a tick to come (R113). -/
abbrev channelFits (k : Channel) : Prop :=
  (k.handed ≠ [] → k.state = .inService) ∧
  (k.holdoffTimer ≠ .stopped → k.state = .holdoff) ∧
  (k.claimTimer ≠ .stopped → k.state = .alerting) ∧
  (k.serviceTimer ≠ .stopped → k.state = .inService) ∧
  ticksLeft k.holdoffTimer ∧ ticksLeft k.claimTimer ∧ ticksLeft k.serviceTimer

/-- Law of service with the law of the channel timers, for every channel (R79, R99). -/
abbrev ServiceLaw (s : State) : Prop :=
  ∀ c : ChannelIndex, channelFits (s.channel c)

/-- The response timer runs exactly while a slot is OUTSTANDING, and none is while the port is
STALLED (R158, R161). -/
abbrev ResponseTimerLaw (s : State) : Prop :=
  s.responseTimeout ≠ 0 ∧ ticksLeft s.responseTimer ∧
    (s.responseTimer ≠ .stopped ↔ s.ring.any outstanding = true) ∧
    (s.link = .stalled → s.ring.any outstanding = false)

/-- While RUNNING and STALLED no entry is ARMED (R13, R160). -/
abbrev StalledUnarmed (s : State) : Prop :=
  s.device = .running → s.link = .stalled → ∀ i : EntryIndex, (s.entry i).state ≠ .armed

/-- Two windows, where both are present, share no byte (R8). -/
def windowsApart : Option Word → Option Word → Bool
  | some a, some b => !windowsMeet a b
  | _, _           => true

/-- Law of watched addresses (R8). -/
abbrev WatchedAddresses (s : State) : Prop :=
  (∀ i j : EntryIndex, i ≠ j → (s.entry i).state ≠ .free → (s.entry j).state ≠ .free →
    (s.entry i).address ≠ (s.entry j).address) ∧
  (∀ (i : EntryIndex) (c : ChannelIndex), (s.entry i).state ≠ .free →
    channelCovers (s.channel c) (s.entry i).address = false) ∧
  ∀ c d : ChannelIndex, c ≠ d →
    windowsApart (s.channel c).config.windowBase (s.channel d).config.windowBase = true

/-- The fields of an entry that its state fixes: a FREE entry holds only its generation, a PRIMING
one has no shadow, no pending bits and no count (R3, R10, R49), and outside COUNT mode there is no
threshold and no count, while in COUNT mode the count stays below the threshold (R2, R30). -/
abbrev entryShape (e : Entry) : Prop :=
  (e.state = .free → e = { Entry.powerOn with generation := e.generation }) ∧
  (e.state = .priming → e.shadow = 0 ∧ e.pendingMask = 0 ∧ e.count = 0) ∧
  (e.mode ≠ .count → e.threshold = 0 ∧ e.count = 0) ∧
  (e.mode = .count → e.count.toNat < e.threshold.toNat) ∧
  (e.state ≠ .free → e.address.toNat % 4 = 0 ∧ e.enableMask ≠ 0)

/-- Every entry has its shape. -/
abbrev EntriesShaped (s : State) : Prop :=
  ∀ i : EntryIndex, entryShape (s.entry i)

/-- A configuration whose fields are in their ranges (R78). -/
abbrev configInRange (c : ChannelIndex) (g : ChannelConfig) : Prop :=
  (g.windowBase.all fun b => b.toNat % 64 == 0) = true ∧
  1 ≤ g.quota.toNat ∧ g.quota.toNat ≤ 128 ∧
  1 ≤ g.watermark.toNat ∧ g.watermark.toNat ≤ g.quota.toNat ∧ g.fallback ≠ some c

/-- Every configuration, the divider and the timeout are in their ranges (R78, R112). -/
abbrev ConfigInRange (s : State) : Prop :=
  (∀ c : ChannelIndex, configInRange c (s.channel c).config) ∧
  1 ≤ s.tickDivider.toNat ∧ s.tickDivider.toNat ≤ 4096 ∧ s.responseTimeout ≠ 0

/-! ### The conditions under which an event is taken -/

/-- The upstream port is OPEN and the priming queue does not present its head, so a waiting request
is granted the slot (R44, R132, R140). -/
abbrev Granted (s : State) : Prop :=
  s.device = .running ∧ s.ring.length < 32 ∧ (s.link = .stalled ∨ s.primingQueue = [])

/-- A request waits: the condition is CLOSED or FULL, or the priming queue presents its head (R132,
R140). -/
abbrev Waits (s : State) : Prop :=
  s.device ≠ .running ∨ 32 ≤ s.ring.length ∨ (s.link = .active ∧ s.primingQueue ≠ [])

/-- One of the grounds on which a request is malformed holds (R134). -/
abbrev MalformedRequest (q : Request) : Prop :=
  q.address.toNat % 4 ≠ 0 ∨ payloadLength q.payload = 0 ∨ 8 < payloadLength q.payload ∨
    8 < (q.address.toNat / 4) % 8 + payloadLength q.payload

/-- An address lies in no present service window (R87). -/
abbrev OutsideWindows (s : State) (a : Word) : Prop :=
  ∀ (c : ChannelIndex) (base : Word),
    (s.channel c).config.windowBase = some base → 64 ≤ (a - base).toNat

/-- Channel `c` has its window at `base`, aligned and apart from every other window (R8, R78). -/
abbrev WindowAt (s : State) (c : ChannelIndex) (base : Word) : Prop :=
  (s.channel c).config.windowBase = some base ∧ base.toNat % 64 = 0 ∧
    ∀ d : ChannelIndex, d ≠ c →
      windowsApart (some base) (s.channel d).config.windowBase = true

/-- A frame is in progress whose command has not executed, and the bits sampled of it, none, some or
all but the last, are the first of command `c`'s frame (R168, R170). -/
abbrev AwaitsFrame (s : State) (c : Instr) : Prop :=
  awaitsCommand s.management = true ∧
    ((frameOf c).any fun bytes => (heldBits s.management).isPrefixOf (frameBits bytes)) = true

/-- Command `c` comes to its execution point in a device that is RUNNING (R170). -/
abbrev AtExecutionPoint (s : State) (c : Instr) : Prop :=
  s.device = .running ∧ AwaitsFrame s c

/-- The port behind the execution point of command `c`: in TURNAROUND with the command byte, the result
and the response bytes held, and a 0 shifted out for each bit sampled of the frame (R168, R170). The
field `shifted` is the model's own (log entry 15). -/
abbrev executed (m : ManagementPort) (c : Instr) (code : Byte) (result : ResultCode)
    (response : List Byte) : ManagementPort :=
  { m with
    phase := .turnaround code result response
    bits := []
    shifted := m.shifted ++
      List.replicate (8 * ((frameOf c).getD []).length - (heldBits m).length) false }

/-- The byte each position shifts out, with the result codes of section 12.3 (R168). -/
abbrev shiftsOut : FramePhase → Byte
  | .result _ .ok _         => 0x01
  | .result _ .badCommand _ => 0x81
  | .result _ .busy _       => 0x82
  | .result _ .badIndex _   => 0x83
  | .result _ .badValue _   => 0x84
  | .result _ .wrongState _ => 0x85
  | .result _ .duplicate _  => 0x86
  | .result _ .overlap _    => 0x87
  | .response _ (b :: _)    => b
  | _                       => 0x00

/-- The argument and response bytes of each command behind its command code, as R169 and section 12.3
count them. -/
abbrev frameCounts : Command → Byte × Nat × Nat
  | .watchDefine      => (0x10, 22, 1)
  | .watchRelease     => (0x11, 1, 1)
  | .watchQuery       => (0x12, 1, 34)
  | .channelDefine    => (0x20, 19, 0)
  | .channelEnable    => (0x21, 1, 0)
  | .channelDisable   => (0x22, 2, 0)
  | .channelReinstate => (0x23, 1, 0)
  | .channelQuery     => (0x24, 1, 29)
  | .timingSet        => (0x30, 4, 0)
  | .faultMaskSet     => (0x31, 1, 0)
  | .statusQuery      => (0x38, 0, 10)
  | .faultCollect     => (0x39, 0, 1)
  | .linkResume       => (0x3A, 0, 0)
  | .deviceReset      => (0x3F, 1, 0)

/-- The slot `k` places behind the head is the expected slot: OUTSTANDING, sent, and the oldest such
(R143). -/
abbrev ExpectedAt (s : State) (k : Nat) (x : Slot) : Prop :=
  s.ring[k]? = some x ∧ sentOutstanding x = true ∧
    ∀ j, j < k → (s.ring[j]?.all fun y => !sentOutstanding y) = true

/-- The response timer behind a valid response that leaves the ring `ring` (R158). -/
abbrev timerAfter (s : State) (ring : List Slot) : Timer :=
  if ring.any outstanding then startTimer s.responseTimeout else .stopped

/-- The head behind the silent leaving of COMPLETE priming slots at the head of `ring` (R147). -/
abbrev headAfter (h : SlotIndex) (ring : List Slot) : SlotIndex :=
  h + Fin.ofNat 32 (ring.takeWhile silent).length

/-- What the stall leaves of a RUNNING part, with the flag of its cause set: every OUTSTANDING slot
failed, every ARMED entry REPRIMING, and the priming queue with its members in front, then the
entries of the failed priming reads of their current generation in ring order, then the entries that
were ARMED, ascending (R13, R52, R147, R160). `flag` is the flag's bit of section 12.4. -/
abbrev Stalls (s t : State) (flag : BitVec 7) : Prop :=
  (∀ i : EntryIndex, t.entry i =
    if (s.entry i).state = .armed then { s.entry i with state := .repriming } else s.entry i) ∧
  (∃ l : List EntryIndex,
    t.primingQueue = s.primingQueue ++ l ++
      (List.finRange 64).filter (fun i => (s.entry i).state = .armed) ∧
    l.Nodup ∧
    List.Sublist l (((outstandingPriming s.ring).filter fun p =>
      p.2 = (s.entry p.1).generation).map Prod.fst) ∧
    ∀ i : EntryIndex, i ∈ l ↔
      i ∉ s.primingQueue ∧ ((s.entry i).state = .priming ∨ (s.entry i).state = .repriming) ∧
        readInFlight s i = true) ∧
  t = { s with
    entries := t.entries
    primingQueue := t.primingQueue
    link := .stalled
    responseTimer := .stopped
    ring := (s.ring.map failSlot).dropWhile silent
    head := headAfter s.head (s.ring.map failSlot)
    faultFlags := s.faultFlags ||| flag
    faultLine := (s.faultFlags ||| flag) &&& s.faultMask != 0 }

/-- The stall of a DRAINING part: the slots alone are failed, and no entry moves (R14, R160). -/
abbrev stalledInDrain (s : State) (flag : BitVec 7) : State :=
  { s with
    link := .stalled
    responseTimer := .stopped
    ring := (s.ring.map failSlot).dropWhile silent
    head := headAfter s.head (s.ring.map failSlot)
    faultFlags := s.faultFlags ||| flag
    faultLine := (s.faultFlags ||| flag) &&& s.faultMask != 0 }

/-- A lapse of channel `c` with its notice, at the tick that produces `timestamp`: HANDED records revert
for cause SERVICE, the channel is LAPSED, and the notice is a LAPSE record and a delivery at the
fallback, or LAPSE_LOST (R65, R72, R121, R122). -/
abbrev lapsed (s : State) (c : ChannelIndex) (cause : LapseCause) (timestamp : Word) : State :=
  let k := s.channel c
  let u := s.setChannel c { k with
    state := .lapsed
    alert := true
    handed := if cause = .service then [] else k.handed
    queued := if cause = .service then
        k.handed.map (fun r => { r with
          redelivery := if r.redelivery = 7 then 7 else r.redelivery + 1 }) ++ k.queued
      else k.queued
    lapses := if k.lapses = 255 then 255 else k.lapses + 1
    holdoffTimer := .stopped
    claimTimer := .stopped
    serviceTimer := .stopped }
  let lost : State := { u with
    faultFlags := s.faultFlags ||| 0x20
    faultLine := (s.faultFlags ||| 0x20) &&& s.faultMask != 0 }
  match k.config.fallback with
  | none   => lost
  | some f =>
    let q := u.channel f
    if q.state ≠ .disabled ∧ q.handed.length + q.queued.length < q.config.quota.toNat ∧
        0 < s.freeRecords then
      { u.setChannel f (deliver { q with
          queued := q.queued ++ [
            { body := .lapse c cause, sequence := q.nextSequence, timestamp := timestamp
              redelivery := 0 }]
          nextSequence := q.nextSequence + 1 }) with
        freeRecords := s.freeRecords - 1 }
    else lost

/-- The expiry that a tick brings to channel `c`, which stood as `k` before the tick: of the hold-off
timer (R85, R86), of the claim timer (R116) or of the service timer (R118). A channel that a notice
taken before on the same tick has moved to ALERTING has no hold-off left to end (R84, R86). -/
abbrev expired (k : Channel) (s : State) (c : ChannelIndex) : State :=
  if k.holdoffTimer = .running 1 then
    if (s.channel c).state = .holdoff then
      s.setChannel c { s.channel c with
        state := .alerting
        alert := true
        holdoffTimer := .stopped
        claimTimer := startTimer (s.channel c).config.claimDeadline }
    else s
  else if k.claimTimer = .running 1 then lapsed s c .claim s.tickCounter
  else if k.serviceTimer = .running 1 then lapsed s c .service s.tickCounter
  else s

/-- A channel as a tick leaves its timers, where it has not taken that tick already (R113, R114). -/
abbrev channelTicked (s : State) (c : ChannelIndex) : Channel :=
  if .channel c ∈ s.tickTaken then s.channel c
  else { s.channel c with
    holdoffTimer := lowerTimer (s.channel c).holdoffTimer
    claimTimer := lowerTimer (s.channel c).claimTimer
    serviceTimer := lowerTimer (s.channel c).serviceTimer }

/-- The response timer as a tick leaves it, where the port has not taken that tick already (R113, R114). -/
abbrev responseTicked (s : State) : Timer :=
  if .port ∈ s.tickTaken then s.responseTimer else lowerTimer s.responseTimer

/-- A TICK brings channel `c` no expiry: none is next, or the channel has taken this tick already. -/
abbrev ChannelUnexpired (s : State) (c : ChannelIndex) : Prop :=
  .channel c ∈ s.tickTaken ∨ (expiresNext (s.channel c).holdoffTimer = false ∧
    expiresNext (s.channel c).claimTimer = false ∧ expiresNext (s.channel c).serviceTimer = false)

/-- A TICK brings the port no expiry. -/
abbrev ResponseUnexpired (s : State) : Prop :=
  .port ∈ s.tickTaken ∨ expiresNext s.responseTimer = false ∨ s.link = .stalled

/-- From `s` to `t` an owner's timer is restarted at the tick that would have expired it, so that an
expiry is next again: by an event that takes the channel to another state (R85, R117, R119) or hands one
of its records out (R120), or by the completion of a slot with another left OUTSTANDING (R165). -/
abbrev Forestalled (s t : State) (o : TickOwner) : Prop :=
  o ∉ s.tickTaken ∧ match o with
    | .channel c =>
      (expiresNext (s.channel c).holdoffTimer = true ∨ expiresNext (s.channel c).claimTimer = true ∨
        expiresNext (s.channel c).serviceTimer = true) ∧
      (expiresNext (t.channel c).holdoffTimer = true ∨ expiresNext (t.channel c).claimTimer = true ∨
        expiresNext (t.channel c).serviceTimer = true) ∧
      ((t.channel c).state ≠ (s.channel c).state ∨ (t.channel c).handed ≠ (s.channel c).handed)
    | .port =>
      expiresNext s.responseTimer = true ∧ expiresNext t.responseTimer = true ∧
      (t.ring.filter outstanding).length < (s.ring.filter outstanding).length

/-- A row and the same row covering the tick that it falls together with (log entry 23). -/
inductive Covers : Instr → Instr → Prop where
  | requestAccept (q : Request) : Covers (.requestAccept q) (.requestAccept q true)
  | claim (n : Source) (c : ChannelIndex) (len : BitVec 4) : Covers (.claim n c len) (.claim n c len true)
  | record (n : Source) (c : ChannelIndex) : Covers (.record n c) (.record n c true)
  | returnService (n : Source) (c : ChannelIndex) (count : Word) :
    Covers (.returnService n c count) (.returnService n c count true)
  | downstreamResponse (r : DownResponse) :
    Covers (.downstreamResponse r) (.downstreamResponse r true)

/-- The tick at the counter, the period and the timers, before any expiry is taken (R111 to R114). -/
abbrev tickLowered (s : State) : State :=
  { s with
    tickCounter := s.tickCounter + 1
    tickPeriod := s.tickDivider
    responseTimer := responseTicked s
    channels := Vector.ofFn (channelTicked s)
    tickTaken := [] }

/-- TICK's expiries at the channels that have not taken this tick already, in the order in which the
environment names them, then the rest ascending (R68, R114, R123). -/
abbrev tickExpired (order : List ChannelIndex) (s : State) : State :=
  ((order ++ (List.finRange 8).filter fun c => c ∉ order).filter fun c =>
      TickOwner.channel c ∉ s.tickTaken).foldl
    (fun t c => expired (s.channel c) t c) (tickLowered s)

/-- A run is safe as long as a step answers a next state. -/
abbrev StepRuns (s : State) : Prop :=
  ∃ t, step s = .next t

end Sys2Proof.Safety
end

