-- ==== Sys2Proof/Certificates/Slice0/Obligations.lean ====
section
/-! DEFINITION. The statements for the provers. Each equation `exec c s = .next { s with … }` gives the
whole next state, so it says what the command changes and that it changes nothing else. Five rows have an
operand `coversTick`: their statements name them with it off, and TicksAreTakenOnce says of each what it
does with it on. -/

open Sys2Proof Sys2Proof.Machine Sys2Proof.Safety

/-! ### The step, the reset values and RESET_N -/

/-- A step takes the command at the front of the queue and is `exec` of it on the state with the
queue's rest. With no command waiting the part idles, which is the model's own choice (log entry 1). -/
def Obligations.StepTakesFrontCommand : Prop :=
  (∀ (c : Instr) (rest : List Instr) (s : State), s.pending = c :: rest →
    step s = exec c { s with pending := rest }) ∧
  ∀ s : State, s.pending = [] → step s = .next s

/-- The state after power-on reset (R16, R53, R76, R78, R109, R127, R152, R167, R194, R197), with
RESET_N risen, field by field, and that every law of the manual holds of it. The empty queue of
commands, the three fields of what was sent, the level of chip select and the ticks taken ahead are the
model's own (log entries 1, 15, 16 and 22). -/
def Obligations.PowerOnStateMeetsTheLaws : Prop :=
  State.reset.pending = [] ∧ State.reset.device = .running ∧
  (∀ i : EntryIndex, State.reset.entry i =
    { state := .free, address := 0, enableMask := 0, riseMask := 0, fallMask := 0, mode := .flag,
      channel := 0, reconcile := false, threshold := 0, count := 0, shadow := 0, pendingMask := 0,
      generation := 0 }) ∧
  (∀ c : ChannelIndex, State.reset.channel c =
    { config := { windowBase := none, permitted := 0, quota := 16, watermark := 1, holdoff := 0,
                  claimDeadline := 0, serviceDeadline := 0, fallback := none }
      state := .disabled, alert := false, handed := [], queued := [], pendingSet := []
      overflow := false, nextSequence := 0, lost := 0, lapses := 0, refused := 0, reclaims := 0
      overRetire := false, holdoffTimer := .stopped, claimTimer := .stopped
      serviceTimer := .stopped }) ∧
  State.reset.primingQueue = [] ∧ State.reset.freeRecords = 128 ∧ State.reset.tickCounter = 0 ∧
  State.reset.tickDivider = 100 ∧ State.reset.tickPeriod = 100 ∧ State.reset.tickTaken = [] ∧
  State.reset.responseTimeout = 1000 ∧ State.reset.ring = [] ∧
  State.reset.head = 0 ∧ State.reset.link = .active ∧ State.reset.responseTimer = .stopped ∧
  State.reset.faultFlags = 0x01 ∧ State.reset.faultMask = 0x7E ∧ State.reset.faultLine = false ∧
  State.reset.management = { selectLow := false, phase := .noFrame, bits := [], shifted := [] } ∧
  State.reset.upstreamOut = none ∧ State.reset.downstreamOut = none ∧
  PoolConserved .reset ∧ WithinQuota .reset ∧ AlertsFollowState .reset ∧ FaultLineFollows .reset ∧
  RingLaw .reset ∧ PrimingQueueLaw .reset ∧ AwaitsRead .reset ∧ ResetHolds .reset ∧
  PendingLaw .reset ∧ ServiceLaw .reset ∧ ResponseTimerLaw .reset ∧ StalledUnarmed .reset ∧
  WatchedAddresses .reset ∧ EntriesShaped .reset ∧ ConfigInRange .reset

/-- A fall of RESET_N in any state gives every block its power-on values with the device in RESET,
the frame in progress abandoned; only the waiting commands and the level of chip select, which are
the outside's, stay (R176, R192, R197). A rise from RESET makes the device RUNNING and changes
nothing else; a rise of a pin that is already high is no event (log entry 5). -/
def Obligations.ResetNEdges : Prop :=
  (∀ s : State, ∃ t, exec .resetNFall s = .next t ∧ ResetHolds t ∧ t.device = .reset ∧
    t.pending = s.pending ∧ t.management.selectLow = s.management.selectLow) ∧
  (∀ s : State, s.device = .reset → exec .resetNRise s = .next { s with device := .running }) ∧
  ∀ s : State, s.device ≠ .reset → exec .resetNRise s = .next s

/-- While RESET_N is low no command but a rise changes anything, save the level of chip select, which
the host drives: no tick, no acceptance, no send, no response, no frame (R111, R152, R166, R176,
R197). -/
def Obligations.ResetHoldsThePart : Prop :=
  ∀ (c : Instr) (s t : State), s.device = .reset → ResetHolds s → c ≠ .resetNRise →
    exec c s = .next t →
    ∃ level : Bool, t = { s with management := { s.management with selectLow := level } }

/-! ### Ticks and timers -/

/-- A timer started with a value v above 0 holds v - k ticks to come after k ticks, and expires at the
v-th tick and at no earlier one; a start with 0 leaves it stopped, and a stopped timer does not count
(R113). -/
def Obligations.TimerExpiresAtItsTick : Prop :=
  (∀ (v : Half) (k : Nat), k < v.toNat →
    lowerTimer^[k] (startTimer v) = .running (v.toNat - k) ∧
    (expiresNext (lowerTimer^[k] (startTimer v)) = true ↔ k + 1 = v.toNat)) ∧
  (∀ v : Half, lowerTimer^[v.toNat] (startTimer v) = .stopped) ∧
  startTimer 0 = .stopped ∧ lowerTimer .stopped = .stopped ∧ expiresNext .stopped = false

/-- TICK in RUNNING that brings no expiry: the counter advances, the next period takes the stored
divider, every channel timer and the response timer lose a tick, save where the tick has been taken
already, and nothing else changes (R111 to R114, R158). A row that covers the tick it falls together with
does what the row without does, and the tick is then taken at each owner of a timer that the row restarted
when its expiry was next, where it is next again; so no lapse and no stall comes of that tick (R85, R117,
R119, R120, R165), where the row without leaves it the expiry (R114). That the tick taken is recorded,
and that the row's operand chooses between the two, is the model's own (log entries 22 and 23). -/
def Obligations.TicksAreTakenOnce : Prop :=
  (∀ (order : List ChannelIndex) (s : State), s.device = .running →
    (∀ c : ChannelIndex, ChannelUnexpired s c) → ResponseUnexpired s →
    ∃ t, exec (.tick order) s = .next t ∧
      (∀ c : ChannelIndex, t.channel c = channelTicked s c) ∧
      t = { s with
        tickCounter := s.tickCounter + 1
        tickPeriod := s.tickDivider
        tickTaken := []
        responseTimer := responseTicked s
        channels := t.channels }) ∧
  ∀ (row covering : Instr) (s : State), Covers row covering →
    ∃ t u, exec row s = .next t ∧ exec covering s = .next u ∧
      u = { t with tickTaken := u.tickTaken } ∧
      ∀ o : TickOwner, o ∈ u.tickTaken ↔ o ∈ t.tickTaken ∨ Forestalled s t o

/-- TICK in DRAINING, whatever the channel timers hold: the counter advances and the response timer
counts, unless the port has taken this tick already, and every channel with its timers stays as it was, so
nothing lapses (R111, R114, R115, R158; log entry 22 for the ticks taken). -/
def Obligations.TickFreezesChannelTimersInDrain : Prop :=
  ∀ (order : List ChannelIndex) (s : State) (sc : Scope), s.device = .draining sc →
    ResponseUnexpired s →
    exec (.tick order) s = .next { s with
      tickCounter := s.tickCounter + 1
      tickPeriod := s.tickDivider
      tickTaken := []
      responseTimer := responseTicked s }

/-- TICK takes in the same step the expiries it brings. First two clauses, the one timer of channel `c`
that expires: a hold-off, by which the channel goes to ALERTING (R85, R86, R113), and a service
deadline with a fallback that takes the notice, whose LAPSE record carries the value that the tick
produces (R121, R122). Third clause, any expiries of any channels, claim deadlines and lost notices
among them, in the order the environment gives (R65, R68, R116, R123). Last two, the response timer's
expiry beside them: the stall in RUNNING, and in DRAINING the stall of the slots alone, where a ring
left empty ends the drain (R159, R160, R166, R200). A channel or port that has taken this tick already
takes no expiry of it (R114). That the expiries belong to the step of their tick, in this order, and the
record of the ticks taken are the model's own (log entries 3 and 22). -/
def Obligations.TickTakesTheExpiryItBrings : Prop :=
  (∀ (order : List ChannelIndex) (s : State) (c : ChannelIndex), s.device = .running →
    .channel c ∉ s.tickTaken →
    (s.channel c).state = .holdoff → (s.channel c).holdoffTimer = .running 1 →
    (s.channel c).claimTimer = .stopped → (s.channel c).serviceTimer = .stopped →
    (∀ d : ChannelIndex, d ≠ c → ChannelUnexpired s d) → ResponseUnexpired s →
    ∃ t, exec (.tick order) s = .next t ∧
      t.channel c = { s.channel c with
        state := .alerting
        alert := true
        holdoffTimer := .stopped
        claimTimer := startTimer (s.channel c).config.claimDeadline } ∧
      (∀ d : ChannelIndex, d ≠ c → t.channel d = channelTicked s d) ∧
      t = { s with
        tickCounter := s.tickCounter + 1
        tickPeriod := s.tickDivider
        tickTaken := []
        responseTimer := responseTicked s
        channels := t.channels }) ∧
  (∀ (order : List ChannelIndex) (s : State) (c f : ChannelIndex), s.device = .running →
    .channel c ∉ s.tickTaken →
    (s.channel c).state = .inService → (s.channel c).serviceTimer = .running 1 →
    (s.channel c).holdoffTimer = .stopped → (s.channel c).claimTimer = .stopped →
    (s.channel c).config.fallback = some f → f ≠ c → (s.channel f).state ≠ .disabled →
    (s.channel f).handed.length + (s.channel f).queued.length < (s.channel f).config.quota.toNat →
    0 < s.freeRecords →
    (∀ d : ChannelIndex, d ≠ c → ChannelUnexpired s d) → ResponseUnexpired s →
    ∃ t, exec (.tick order) s = .next t ∧
      t.channel c = { s.channel c with
        state := .lapsed
        alert := true
        handed := []
        queued := (s.channel c).handed.map redeliver ++ (s.channel c).queued
        lapses := saturate (s.channel c).lapses
        serviceTimer := .stopped } ∧
      t.channel f = deliver { channelTicked s f with
        queued := (s.channel f).queued ++ [
          { body := .lapse c .service, sequence := (s.channel f).nextSequence
            timestamp := s.tickCounter + 1, redelivery := 0 }]
        nextSequence := (s.channel f).nextSequence + 1 } ∧
      (∀ d : ChannelIndex, d ≠ c → d ≠ f → t.channel d = channelTicked s d) ∧
      t = { s with
        tickCounter := s.tickCounter + 1
        tickPeriod := s.tickDivider
        tickTaken := []
        responseTimer := responseTicked s
        freeRecords := s.freeRecords - 1
        channels := t.channels }) ∧
  (∀ (order : List ChannelIndex) (s : State), s.device = .running → order.Nodup → ServiceLaw s →
    ResponseUnexpired s → exec (.tick order) s = .next (tickExpired order s)) ∧
  (∀ (order : List ChannelIndex) (s : State), s.device = .running → order.Nodup → ServiceLaw s →
    s.responseTimer = .running 1 → .port ∉ s.tickTaken → s.link = .active → PrimingQueueLaw s →
    ∃ t, exec (.tick order) s = .next t ∧ Stalls (tickExpired order s) t 0x04) ∧
  ∀ (order : List ChannelIndex) (s : State) (sc : Scope), s.device = .draining sc →
    s.responseTimer = .running 1 → .port ∉ s.tickTaken → s.link = .active →
    let u := stalledInDrain
      { s with tickCounter := s.tickCounter + 1, tickPeriod := s.tickDivider, tickTaken := [] } 0x04
    exec (.tick order) s = .next (if u.ring = [] then applyScope sc u else u)

/-- HOLDOFF_EXPIRY of a channel in HOLDOFF whose timer expires at this tick: to ALERTING, with the
claim timer started and the line asserted (R85, R86), and the tick is taken at the channel (R114). Where
the expiry is not due, the channel has taken this tick already or is in no HOLDOFF, or the device is not
RUNNING, there is no such event and nothing changes (log entries 4, 5 and 22). -/
def Obligations.HoldoffExpiryAlerts : Prop :=
  (∀ (c : ChannelIndex) (s : State), s.device = .running → (s.channel c).state = .holdoff →
    (s.channel c).holdoffTimer = .running 1 → .channel c ∉ s.tickTaken →
    exec (.holdoffExpiry c) s = .next { s.setChannel c { s.channel c with
        state := .alerting
        alert := true
        holdoffTimer := .stopped
        claimTimer := startTimer (s.channel c).config.claimDeadline } with
      tickTaken := .channel c :: s.tickTaken }) ∧
  ∀ (c : ChannelIndex) (s : State), s.device ≠ .running ∨ (s.channel c).state ≠ .holdoff ∨
    .channel c ∈ s.tickTaken ∨ expiresNext (s.channel c).holdoffTimer = false →
    exec (.holdoffExpiry c) s = .next s

/-- CLAIM_DEADLINE_EXPIRY of an ALERTING channel: it lapses with cause CLAIM (R116, R121), and its
notice sets LAPSE_LOST where it has no fallback or the fallback cannot take the record (R65, R122),
and otherwise is a LAPSE record and a delivery at the fallback (R122). A channel is not its own
fallback (R78). The tick whose expiry this is has not yet been counted, so the record's timestamp is
the value it produces (log entry 4), and it is taken at the channel (R114, log entry 22). Where the expiry
is not due, the channel has taken this tick or is not ALERTING, or the device is not RUNNING, there is no
such event (log entry 5). -/
def Obligations.ClaimExpiryLapses : Prop :=
  (∀ (c : ChannelIndex) (s : State), s.device = .running → (s.channel c).state = .alerting →
    (s.channel c).claimTimer = .running 1 → .channel c ∉ s.tickTaken →
    (s.channel c).config.fallback ≠ some c →
    let u : State := { s.setChannel c { s.channel c with
        state := .lapsed
        alert := true
        lapses := if (s.channel c).lapses = 255 then 255 else (s.channel c).lapses + 1
        holdoffTimer := .stopped
        claimTimer := .stopped
        serviceTimer := .stopped } with
      tickTaken := .channel c :: s.tickTaken }
    ((s.channel c).config.fallback = none →
      exec (.claimDeadlineExpiry c) s = .next { u with
        faultFlags := s.faultFlags ||| 0x20
        faultLine := (s.faultFlags ||| 0x20) &&& s.faultMask != 0 }) ∧
    ∀ f : ChannelIndex, (s.channel c).config.fallback = some f →
      ((s.channel f).state = .disabled ∨
        (s.channel f).config.quota.toNat ≤
          (s.channel f).handed.length + (s.channel f).queued.length ∨ s.freeRecords = 0 →
        exec (.claimDeadlineExpiry c) s = .next { u with
          faultFlags := s.faultFlags ||| 0x20
          faultLine := (s.faultFlags ||| 0x20) &&& s.faultMask != 0 }) ∧
      ((s.channel f).state ≠ .disabled →
        (s.channel f).handed.length + (s.channel f).queued.length <
          (s.channel f).config.quota.toNat → 0 < s.freeRecords →
        exec (.claimDeadlineExpiry c) s = .next { u.setChannel f (deliver { s.channel f with
            queued := (s.channel f).queued ++ [
              { body := .lapse c .claim, sequence := (s.channel f).nextSequence
                timestamp := s.tickCounter + 1, redelivery := 0 }]
            nextSequence := (s.channel f).nextSequence + 1 }) with
          freeRecords := s.freeRecords - 1 })) ∧
  ∀ (c : ChannelIndex) (s : State), s.device ≠ .running ∨ (s.channel c).state ≠ .alerting ∨
    .channel c ∈ s.tickTaken ∨ expiresNext (s.channel c).claimTimer = false →
    exec (.claimDeadlineExpiry c) s = .next s

/-- SERVICE_DEADLINE_EXPIRY of an IN_SERVICE channel: its HANDED records revert with their redelivery
counts advanced, it lapses with cause SERVICE (R72, R118, R121), and its notice is given as for a
claim lapse (R65, R122; log entry 4 for the timestamp). The tick is taken at the channel (R114, log entry
22), and there is no such event where the row's conditions do not hold (log entry 5). -/
def Obligations.ServiceExpiryLapses : Prop :=
  (∀ (c : ChannelIndex) (s : State), s.device = .running → (s.channel c).state = .inService →
    (s.channel c).serviceTimer = .running 1 → .channel c ∉ s.tickTaken →
    (s.channel c).config.fallback ≠ some c →
    let u : State := { s.setChannel c { s.channel c with
        state := .lapsed
        alert := true
        handed := []
        queued := (s.channel c).handed.map (fun r => { r with
          redelivery := if r.redelivery = 7 then 7 else r.redelivery + 1 }) ++ (s.channel c).queued
        lapses := if (s.channel c).lapses = 255 then 255 else (s.channel c).lapses + 1
        holdoffTimer := .stopped
        claimTimer := .stopped
        serviceTimer := .stopped } with
      tickTaken := .channel c :: s.tickTaken }
    ((s.channel c).config.fallback = none →
      exec (.serviceDeadlineExpiry c) s = .next { u with
        faultFlags := s.faultFlags ||| 0x20
        faultLine := (s.faultFlags ||| 0x20) &&& s.faultMask != 0 }) ∧
    ∀ f : ChannelIndex, (s.channel c).config.fallback = some f →
      ((s.channel f).state = .disabled ∨
        (s.channel f).config.quota.toNat ≤
          (s.channel f).handed.length + (s.channel f).queued.length ∨ s.freeRecords = 0 →
        exec (.serviceDeadlineExpiry c) s = .next { u with
          faultFlags := s.faultFlags ||| 0x20
          faultLine := (s.faultFlags ||| 0x20) &&& s.faultMask != 0 }) ∧
      ((s.channel f).state ≠ .disabled →
        (s.channel f).handed.length + (s.channel f).queued.length <
          (s.channel f).config.quota.toNat → 0 < s.freeRecords →
        exec (.serviceDeadlineExpiry c) s = .next { u.setChannel f (deliver { s.channel f with
            queued := (s.channel f).queued ++ [
              { body := .lapse c .service, sequence := (s.channel f).nextSequence
                timestamp := s.tickCounter + 1, redelivery := 0 }]
            nextSequence := (s.channel f).nextSequence + 1 }) with
          freeRecords := s.freeRecords - 1 })) ∧
  ∀ (c : ChannelIndex) (s : State), s.device ≠ .running ∨ (s.channel c).state ≠ .inService ∨
    .channel c ∈ s.tickTaken ∨ expiresNext (s.channel c).serviceTimer = false →
    exec (.serviceDeadlineExpiry c) s = .next s

/-- RESPONSE_TIMER_EXPIRY of an ACTIVE port: STALL is set and the port stalls, in RUNNING with the
stall's effect on the entries and the priming queue, in DRAINING on the slots alone, where a ring
left empty ends the drain (R52, R158, R159, R160, R166, R200). The tick is taken at the port (R114). Where
the expiry is not due, the port has taken this tick already or is STALLED, or the device is in RESET,
there is no such event. That the row is taken with one tick to come, leaves the tick counter and the other
timers, and records the tick it takes, is the model's own (log entries 4, 5 and 22). -/
def Obligations.ResponseTimerExpiryStalls : Prop :=
  (∀ s : State, s.device = .running → s.link = .active → s.responseTimer = .running 1 →
    .port ∉ s.tickTaken → PrimingQueueLaw s →
    ∃ t, exec .responseTimerExpiry s = .next t ∧
      Stalls { s with tickTaken := .port :: s.tickTaken } t 0x04) ∧
  (∀ (s : State) (sc : Scope), s.device = .draining sc → s.link = .active →
    s.responseTimer = .running 1 → .port ∉ s.tickTaken →
    let u := stalledInDrain { s with tickTaken := .port :: s.tickTaken } 0x04
    exec .responseTimerExpiry s = .next (if u.ring = [] then applyScope sc u else u)) ∧
  ∀ s : State, s.device = .reset ∨ s.link = .stalled ∨ .port ∈ s.tickTaken ∨
    expiresNext s.responseTimer = false → exec .responseTimerExpiry s = .next s

/-! ### Acceptance -/

/-- A request that is not granted a slot, of any of the rows that are upstream requests, waits on the
link, and the part holds no trace of it: the condition is CLOSED or FULL, or the priming queue
presents its head and the slot is its own (R132, R140). A channel without a window intercepts
nothing (R87; log entries 6 and 7 for the rows). -/
def Obligations.RequestsWaitWithoutAGrant : Prop :=
  (∀ (s : State) (q : Request), Waits s → exec (.requestAccept q) s = .next s) ∧
  ∀ (s : State) (n : Source) (c : ChannelIndex),
    Waits s ∨ (s.channel c).config.windowBase = none →
    (∀ len : BitVec 4, exec (.claim n c len) s = .next s) ∧
    exec (.collect n c) s = .next s ∧ exec (.record n c) s = .next s ∧
    (∀ count : Word, exec (.returnService n c count) s = .next s) ∧
    ∀ (w : Fin 16) (p : Payload), exec (.refusedWindowAccess n c w p) s = .next s

/-- A malformed request takes the slot at the tail, which completes with REFUSED and, for a READ, as
many zero words as its length field gives. It is not forwarded and reaches no channel: no counter
and no flag changes, wherever its address lies (R134). -/
def Obligations.MalformedRequestRefused : Prop :=
  ∀ (s : State) (q : Request), Granted s → MalformedRequest q →
    exec (.requestAccept q) s = .next { s with ring := s.ring ++ [
      .answered q.source (isWrite q.payload) q.address (payloadLength q.payload)
        { status := .refused
          data := match q.payload with
            | .read n => List.replicate n.toNat 0
            | .write _ => [] }] }

/-- A well-formed request outside every window, accepted while the port is STALLED, completes its slot
with FAULT and zero data. It is not forwarded, starts no timer, and moves no entry (R136). -/
def Obligations.StalledPortFailsRequest : Prop :=
  ∀ (s : State) (q : Request), Granted s → ¬ MalformedRequest q → OutsideWindows s q.address →
    s.link = .stalled →
    exec (.requestAccept q) s = .next { s with ring := s.ring ++ [
      .answered q.source (isWrite q.payload) q.address (payloadLength q.payload)
        { status := .fault
          data := match q.payload with
            | .read n => List.replicate n.toNat 0
            | .write _ => [] }] }

/-- A well-formed request outside every window, accepted while the port is ACTIVE, is forwarded: the
slot at the tail keeps it whole, unsent, and the response timer starts where no other slot is
OUTSTANDING (R137, R139, R158). -/
def Obligations.RequestForwarded : Prop :=
  ∀ (s : State) (q : Request), Granted s → ¬ MalformedRequest q → OutsideWindows s q.address →
    s.link = .active →
    exec (.requestAccept q) s = .next { s with
      ring := s.ring ++ [.forwarded q false]
      responseTimer :=
        if s.ring.any outstanding then s.responseTimer else startTimer s.responseTimeout }

/-! ### The service window -/

/-- CLAIM of length 1 or 2 from a permitted source, at a channel in IDLE, HOLDOFF, ALERTING or LAPSED:
the summary of the channel as it stood is returned with OKAY, the overflow flag is cleared, the
channel is IN_SERVICE with its line deasserted and its service timer started (R91, R92). The last
clause gives the summary's fields (R94). -/
def Obligations.ClaimBeginsService : Prop :=
  (∀ (s : State) (n : Source) (c : ChannelIndex) (len : BitVec 4) (base : Word),
    Granted s → WindowAt s c base → len = 1 ∨ len = 2 →
    (s.channel c).config.permitted[n.val] = true →
    (s.channel c).state ≠ .disabled → (s.channel c).state ≠ .inService →
    exec (.claim n c len) s = .next { s.setChannel c { s.channel c with
        state := .inService
        alert := false
        overflow := false
        holdoffTimer := .stopped
        claimTimer := .stopped
        serviceTimer := startTimer (s.channel c).config.serviceDeadline } with
      ring := s.ring ++ [.answered n false base len.toNat
        { status := .okay
          data := [summaryWord0 (s.channel c), summaryWord1 (s.channel c)].take len.toNat }] }) ∧
  ∀ k : Channel,
    (summaryWord0 k).extractLsb' 0 3 = (match k.state with
      | .disabled => 0
      | .idle => 1
      | .holdoff => 2
      | .alerting => 3
      | .inService => 4
      | .lapsed => 5) ∧
    (summaryWord0 k).extractLsb' 3 1 = (if k.overflow then 1 else 0) ∧
    (summaryWord0 k).extractLsb' 4 1 = (if k.state = .lapsed then 1 else 0) ∧
    (summaryWord0 k).extractLsb' 5 3 = 0 ∧
    (summaryWord0 k).extractLsb' 8 8 = BitVec.ofNat 8 k.queued.length ∧
    (summaryWord0 k).extractLsb' 16 8 = BitVec.ofNat 8 k.handed.length ∧
    (summaryWord0 k).extractLsb' 24 7 = BitVec.ofNat 7 k.pendingSet.length ∧
    (summaryWord0 k).extractLsb' 31 1 = 0 ∧
    (summaryWord1 k).extractLsb' 0 16 = k.lost ∧
    (summaryWord1 k).extractLsb' 16 16 = k.nextSequence

/-- CLAIM of a channel already IN_SERVICE: the summary is returned with OKAY, the overflow flag is
cleared and the reclaim count advances, saturating. State, queue and service timer stay (R93). -/
def Obligations.ClaimRepeatedInService : Prop :=
  ∀ (s : State) (n : Source) (c : ChannelIndex) (len : BitVec 4) (base : Word),
    Granted s → WindowAt s c base → len = 1 ∨ len = 2 →
    (s.channel c).config.permitted[n.val] = true → (s.channel c).state = .inService →
    exec (.claim n c len) s = .next { s.setChannel c { s.channel c with
        overflow := false
        reclaims := if (s.channel c).reclaims = 255 then 255 else (s.channel c).reclaims + 1 } with
      ring := s.ring ++ [.answered n false base len.toNat
        { status := .okay
          data := [summaryWord0 (s.channel c), summaryWord1 (s.channel c)].take len.toNat }] }

/-- COLLECT in IN_SERVICE: the member at the front of the pending set, which is the lowest-indexed one
of an ascending set, leaves it and has its pending mask returned and cleared; an empty set returns
two zero words and changes nothing (R95). The last clause gives word 0's fields. -/
def Obligations.CollectTakesLowestMember : Prop :=
  (∀ (s : State) (n : Source) (c : ChannelIndex) (base : Word),
    Granted s → WindowAt s c base → (s.channel c).config.permitted[n.val] = true →
    (s.channel c).state = .inService →
    (∀ (i : EntryIndex) (rest : List EntryIndex), (s.channel c).pendingSet = i :: rest →
      (s.channel c).pendingSet.Pairwise (· < ·) →
      (∀ j ∈ rest, i < j) ∧
      exec (.collect n c) s = .next
        { (s.setEntry i { s.entry i with pendingMask := 0 }).setChannel c
            { s.channel c with pendingSet := rest } with
          ring := s.ring ++ [.answered n false (base + 8) 2
            { status := .okay
              data := [collectWord0 i (s.entry i), (s.entry i).pendingMask] }] }) ∧
    ((s.channel c).pendingSet = [] →
      exec (.collect n c) s = .next { s with
        ring := s.ring ++ [.answered n false (base + 8) 2
          { status := .okay, data := [0, 0] }] })) ∧
  ∀ (i : EntryIndex) (e : Entry),
    (collectWord0 i e).extractLsb' 0 1 = 1 ∧ (collectWord0 i e).extractLsb' 1 7 = 0 ∧
    (collectWord0 i e).extractLsb' 8 6 = BitVec.ofNat 6 i.val ∧
    (collectWord0 i e).extractLsb' 14 2 = 0 ∧
    (collectWord0 i e).extractLsb' 16 8 = e.generation ∧
    (collectWord0 i e).extractLsb' 24 2 = (match e.mode with
      | .flag => 0
      | .record => 1
      | .count => 2) ∧
    (collectWord0 i e).extractLsb' 26 6 = 0

/-- RECORD in IN_SERVICE: the oldest QUEUED record is returned as it stands and becomes the last
HANDED one, and the service timer restarts; with none QUEUED six zero words are returned and nothing
changes (R70, R96). The last clause gives every field of the six words, as section 12.2 lays them out
(R58, R59, R208). -/
def Obligations.RecordHandsOutOldest : Prop :=
  (∀ (s : State) (n : Source) (c : ChannelIndex) (base : Word),
    Granted s → WindowAt s c base → (s.channel c).config.permitted[n.val] = true →
    (s.channel c).state = .inService →
    (∀ (r : Record) (rest : List Record), (s.channel c).queued = r :: rest →
      exec (.record n c) s = .next { s.setChannel c { s.channel c with
          handed := (s.channel c).handed ++ [r]
          queued := rest
          serviceTimer := startTimer (s.channel c).config.serviceDeadline } with
        ring := s.ring ++ [.answered n false (base + 0x20) 6
          { status := .okay, data := recordWords r }] }) ∧
    ((s.channel c).queued = [] →
      exec (.record n c) s = .next { s with
        ring := s.ring ++ [.answered n false (base + 0x20) 6
          { status := .okay, data := [0, 0, 0, 0, 0, 0] }] })) ∧
  ∀ r : Record, ∃ w0 w2 : Word,
    recordWords r = w0 :: r.timestamp :: w2 :: (match r.body with
      | .transition _ ch => [ch.old, ch.new, ch.mask]
      | .unseen ch       => [ch.old, ch.new, ch.mask]
      | .count _ ch      => [ch.old, ch.new, ch.mask]
      | .lapse _ _       => [0, 0, 0]) ∧
    w0.extractLsb' 0 3 = (match r.body with
      | .transition _ _ => 1
      | .unseen _       => 2
      | .count _ _      => 3
      | .lapse _ _      => 4) ∧
    w0.extractLsb' 3 1 = 0 ∧ w0.extractLsb' 4 3 = r.redelivery ∧
    w0.extractLsb' 13 3 = 0 ∧ w0.extractLsb' 16 16 = r.sequence ∧
    (w0.extractLsb' 7 1, w0.extractLsb' 8 5) = (match r.body with
      | .transition m _    => ((1 : BitVec 1), BitVec.ofNat 5 m.val)
      | .count (some m) _  => (1, BitVec.ofNat 5 m.val)
      | _                  => (0, 0)) ∧
    (w2.extractLsb' 0 6, w2.extractLsb' 8 8) = (match r.body with
      | .transition _ ch => (BitVec.ofNat 6 ch.entry.val, ch.generation)
      | .unseen ch       => (BitVec.ofNat 6 ch.entry.val, ch.generation)
      | .count _ ch      => (BitVec.ofNat 6 ch.entry.val, ch.generation)
      | .lapse _ _       => (0, 0)) ∧
    (w2.extractLsb' 16 3, w2.extractLsb' 20 1) = (match r.body with
      | .lapse c .claim   => (BitVec.ofNat 3 c.val, (0 : BitVec 1))
      | .lapse c .service => (BitVec.ofNat 3 c.val, 1)
      | _                 => (0, 0)) ∧
    w2.extractLsb' 6 2 = 0 ∧ w2.extractLsb' 19 1 = 0 ∧ w2.extractLsb' 21 11 = 0

/-- RETURN with count n in IN_SERVICE: the oldest n HANDED records, or all, go back to the pool; the
rest revert to the front of the QUEUED part with their redelivery counts advanced; an excess sets the
over-retire flag; the service timer stops; and the channel goes to ALERTING without hold-off where it
has content, else to IDLE (R71, R72, R97, R98). -/
def Obligations.ReturnEndsService : Prop :=
  ∀ (s : State) (n : Source) (c : ChannelIndex) (count : Word) (base : Word),
    Granted s → WindowAt s c base → (s.channel c).config.permitted[n.val] = true →
    (s.channel c).state = .inService →
    let k := s.channel c
    let settled : Channel := { k with
      handed := []
      queued := (k.handed.drop count.toNat).map (fun r => { r with
        redelivery := if r.redelivery = 7 then 7 else r.redelivery + 1 }) ++ k.queued
      overRetire := k.overRetire || decide (k.handed.length < count.toNat)
      serviceTimer := .stopped }
    exec (.returnService n c count) s = .next { s.setChannel c (
        if settled.queued ≠ [] ∨ k.pendingSet ≠ [] ∨ k.overflow = true then
          { settled with
            state := .alerting
            alert := true
            holdoffTimer := .stopped
            claimTimer := startTimer k.config.claimDeadline }
        else { settled with state := .idle, alert := false }) with
      freeRecords := s.freeRecords + min count.toNat k.handed.length
      ring := s.ring ++ [.answered n true (base + 0x10) 1 { status := .okay, data := [] }] }

/-- A window access is refused, with REFUSED and zero data, where its source is not permitted, the
channel is DISABLED, its shape is none of the four, or it is a COLLECT, RECORD or RETURN outside
IN_SERVICE. The refused-access count advances, saturating, and nothing else of the channel changes
(R89, R100). -/
def Obligations.WindowAccessRefused : Prop :=
  ∀ (s : State) (n : Source) (c : ChannelIndex) (base : Word), Granted s → WindowAt s c base →
    let shut := (s.channel c).config.permitted[n.val] = false ∨ (s.channel c).state = .disabled
    let u := s.setChannel c { s.channel c with
      refused := if (s.channel c).refused = 255 then 255 else (s.channel c).refused + 1 }
    (∀ len : BitVec 4, len = 1 ∨ len = 2 → shut →
      exec (.claim n c len) s = .next { u with ring := s.ring ++ [
        .answered n false base len.toNat
          { status := .refused, data := List.replicate len.toNat 0 }] }) ∧
    (shut ∨ (s.channel c).state ≠ .inService →
      exec (.collect n c) s = .next { u with ring := s.ring ++ [
        .answered n false (base + 8) 2 { status := .refused, data := [0, 0] }] }) ∧
    (shut ∨ (s.channel c).state ≠ .inService →
      exec (.record n c) s = .next { u with ring := s.ring ++ [
        .answered n false (base + 0x20) 6
          { status := .refused, data := [0, 0, 0, 0, 0, 0] }] }) ∧
    (∀ count : Word, shut ∨ (s.channel c).state ≠ .inService →
      exec (.returnService n c count) s = .next { u with ring := s.ring ++ [
        .answered n true (base + 0x10) 1 { status := .refused, data := [] }] }) ∧
    ∀ (w : Fin 16) (p : Payload), (Instr.refusedWindowAccess n c w p).wellFormed = true →
      exec (.refusedWindowAccess n c w p) s = .next { u with ring := s.ring ++ [
        .answered n (isWrite p) (base + BitVec.ofNat 32 (4 * w.val)) (payloadLength p)
          { status := .refused
            data := match p with
              | .read m => List.replicate m.toNat 0
              | .write _ => [] }] }

/-! ### Priming reads and the downstream port -/

/-- PRIMING_ISSUE: where the queue presents its head and a slot is free, the head leaves the queue and
its read is formed in the slot at the tail, of the entry's generation and address as they stand; the
response timer starts where no other slot is OUTSTANDING (R43, R44, R45, R158). In every other case
no read issues (R44). -/
def Obligations.PrimingReadIssued : Prop :=
  (∀ (s : State) (i : EntryIndex) (rest : List EntryIndex), s.device = .running →
    s.link = .active → s.ring.length < 32 → s.primingQueue = i :: rest →
    exec .primingIssue s = .next { s with
      primingQueue := rest
      ring := s.ring ++ [.primingRead i (s.entry i).generation (s.entry i).address false]
      responseTimer :=
        if s.ring.any outstanding then s.responseTimer else startTimer s.responseTimeout }) ∧
  ∀ s : State, s.device ≠ .running ∨ s.link = .stalled ∨ s.primingQueue = [] ∨
    32 ≤ s.ring.length → exec .primingIssue s = .next s

/-- DOWNSTREAM_SEND: memory takes the oldest unsent OUTSTANDING request, with its slot's number as tag;
a forwarded one is unchanged and has its source as origin, a priming read is a one-word READ of its
address with origin PRIMING. The slot is marked sent (R129, R141). With none unsent, nothing is sent. -/
def Obligations.OldestRequestSent : Prop :=
  (∀ (s : State) (older younger : List Slot) (q : Request), s.device ≠ .reset →
    s.link = .active → older.all (fun x => !unsent x) = true →
    s.ring = older ++ .forwarded q false :: younger →
    exec .downstreamSend s = .next { s with
      ring := older ++ .forwarded q true :: younger
      downstreamOut := some { tag := s.head + Fin.ofNat 32 older.length, origin := .source q.source
                              address := q.address, payload := q.payload } }) ∧
  (∀ (s : State) (older younger : List Slot) (i : EntryIndex) (g : Byte) (a : Word),
    s.device ≠ .reset → s.link = .active → older.all (fun x => !unsent x) = true →
    s.ring = older ++ .primingRead i g a false :: younger →
    exec .downstreamSend s = .next { s with
      ring := older ++ .primingRead i g a true :: younger
      downstreamOut := some { tag := s.head + Fin.ofNat 32 older.length, origin := .priming
                              address := a, payload := .read 1 } }) ∧
  ∀ s : State, s.ring.all (fun x => !unsent x) = true → exec .downstreamSend s = .next s

/-- No request is sent on the downstream port while it is STALLED or while the device is in RESET
(R161): no command sets a slot's sent indication, so the sent slots afterward are among those before,
in their order (R141), and no command changes the request memory last took, but for a fall of RESET_N,
which clears it. That request is the model's own field (log entry 15). -/
def Obligations.NothingSentWhileStalledOrInReset : Prop :=
  ∀ (c : Instr) (s t : State), s.link = .stalled ∨ s.device = .reset → exec c s = .next t →
    List.Sublist (t.ring.filter sentOutstanding) (s.ring.filter sentOutstanding) ∧
    (t.downstreamOut = s.downstreamOut ∨ (c = .resetNFall ∧ t.downstreamOut = none))

/-- A valid OKAY response to a forwarded WRITE: the slot completes with OKAY, and the response timer
restarts or stops (R143, R144, R158). While RUNNING each word, in ascending address order, acts on the
watch table as R7 gives it, each on the table the one before left (R20); while DRAINING no word is
acted on (R14, R148, R199). COMPLETE priming slots at the head leave with it (R147). -/
def Obligations.OkayWriteEvaluated : Prop :=
  ∀ (s : State) (r : DownResponse) (k : Nat) (q : Request) (ws : List WriteWord),
    s.device ≠ .reset → s.link = .active → ExpectedAt s k (.forwarded q true) →
    r.tag = s.head + Fin.ofNat 32 k → r.status = 0 → q.payload = .write ws →
    let ring := s.ring.set k
      (.answered q.source true q.address ws.length { status := .okay, data := [] })
    let after := fun u : State => { u with
      ring := ring.dropWhile silent
      head := headAfter s.head ring
      responseTimer := timerAfter s ring }
    (s.device = .running → exec (.downstreamResponse r) s = .next (after (
      (ws.zipIdx.map fun p => (q.address + BitVec.ofNat 32 (4 * p.2), p.1)).foldl
        (writeWord q.source) s))) ∧
    (isDraining s = true → exec (.downstreamResponse r) s = .next (after s))

/-- A valid OKAY response to a forwarded READ: the slot completes with OKAY and the data memory
returned, one word per word of the length, whatever the evaluations find (R143, R145, R158). While
RUNNING each word, in ascending address order, acts on the watch table as R7 gives it (R23); while
DRAINING no word is acted on (R14, R148, R199). -/
def Obligations.OkayReadReconciled : Prop :=
  ∀ (s : State) (r : DownResponse) (k : Nat) (q : Request) (n : BitVec 4),
    s.device ≠ .reset → s.link = .active → ExpectedAt s k (.forwarded q true) →
    r.tag = s.head + Fin.ofNat 32 k → r.status = 0 → q.payload = .read n →
    let ring := s.ring.set k (.answered q.source false q.address n.toNat
      { status := .okay, data := r.data.toList.take n.toNat })
    let after := fun u : State => { u with
      ring := ring.dropWhile silent
      head := headAfter s.head ring
      responseTimer := timerAfter s ring }
    (s.device = .running → exec (.downstreamResponse r) s = .next (after (
      ((r.data.toList.take n.toNat).zipIdx.map
        fun p => (q.address + BitVec.ofNat 32 (4 * p.2), p.1)).foldl readWord s))) ∧
    (isDraining s = true → exec (.downstreamResponse r) s = .next (after s))

/-- A valid response of any status but OKAY to a forwarded request is FAULT: the slot completes with
FAULT and zero data. Of a WRITE while RUNNING, each word in ascending address order acts as R7's FAULT
rows give it; of a READ, and of either while DRAINING, no word is acted on (R12, R14, R148, R154, R155,
R199, R206). -/
def Obligations.FaultResponsePassedBack : Prop :=
  ∀ (s : State) (r : DownResponse) (k : Nat) (q : Request),
    s.device ≠ .reset → s.link = .active → ExpectedAt s k (.forwarded q true) →
    r.tag = s.head + Fin.ofNat 32 k → r.status ≠ 0 →
    let after := fun (ring : List Slot) (u : State) => { u with
      ring := ring.dropWhile silent
      head := headAfter s.head ring
      responseTimer := timerAfter s ring }
    (∀ ws : List WriteWord, q.payload = .write ws →
      let ring := s.ring.set k
        (.answered q.source true q.address ws.length { status := .fault, data := [] })
      (s.device = .running → exec (.downstreamResponse r) s = .next (after ring (
        (ws.zipIdx.map fun p => (q.address + BitVec.ofNat 32 (4 * p.2), p.1)).foldl
          faultWord s))) ∧
      (isDraining s = true → exec (.downstreamResponse r) s = .next (after ring s))) ∧
    ∀ n : BitVec 4, q.payload = .read n →
      let ring := s.ring.set k (.answered q.source false q.address n.toNat
        { status := .fault, data := List.replicate n.toNat 0 })
      exec (.downstreamResponse r) s = .next (after ring s)

/-- A valid response to a priming read of entry i, while RUNNING. A completion of another generation is
discarded, and an entry that stands on the priming queue keeps its place there. For an entry of the
current generation, which then does not stand on the queue (R46): OKAY arms a PRIMING entry with the
returned word, silently; OKAY takes a REPRIMING entry through an UNSEEN evaluation against its kept
shadow to ARMED; any other status leaves the entry and puts it at the tail of the queue (R11, R48 to
R51, R146, R206). -/
def Obligations.PrimingReadCompletes : Prop :=
  ∀ (s : State) (r : DownResponse) (k : Nat) (i : EntryIndex) (g : Byte) (a : Word),
    s.device = .running → s.link = .active → ExpectedAt s k (.primingRead i g a true) →
    r.tag = s.head + Fin.ofNat 32 k →
    let ring := s.ring.set k (.primingDone i g a)
    let after := fun u : State => { u with
      ring := ring.dropWhile silent
      head := headAfter s.head ring
      responseTimer := timerAfter s ring }
    ((s.entry i).generation ≠ g → exec (.downstreamResponse r) s = .next (after s)) ∧
    (i ∉ s.primingQueue → (s.entry i).generation = g → r.status = 0 →
      (s.entry i).state = .priming →
      exec (.downstreamResponse r) s = .next (after (s.setEntry i { s.entry i with
        state := .armed, shadow := r.data[0] }))) ∧
    (i ∉ s.primingQueue → (s.entry i).generation = g → r.status = 0 →
      (s.entry i).state = .repriming →
      exec (.downstreamResponse r) s = .next (after (
        (evaluate s i .unseen r.data[0]).setEntry i
          { (evaluate s i .unseen r.data[0]).entry i with state := .armed }))) ∧
    (i ∉ s.primingQueue → (s.entry i).generation = g → r.status ≠ 0 →
      (s.entry i).state = .priming ∨ (s.entry i).state = .repriming →
      exec (.downstreamResponse r) s = .next (after { s with
        primingQueue := s.primingQueue ++ [i] }))

/-- A response taken while ACTIVE that does not carry the tag of the oldest OUTSTANDING sent slot, or
finds none, sets ORDER and stalls the port, and is used for nothing: in RUNNING with the stall's
effect on the entries, in DRAINING on the slots alone, where a ring left empty ends the drain (R52,
R143, R157, R160, R166, R200). -/
def Obligations.InvalidResponseStalls : Prop :=
  ∀ (s : State) (r : DownResponse), s.link = .active →
    (∀ (k : Nat) (x : Slot), ExpectedAt s k x → r.tag ≠ s.head + Fin.ofNat 32 k) →
    (s.device = .running → PrimingQueueLaw s →
      ∃ t, exec (.downstreamResponse r) s = .next t ∧ Stalls s t 0x08) ∧
    ∀ sc : Scope, s.device = .draining sc →
      exec (.downstreamResponse r) s = .next (
        if (stalledInDrain s 0x08).ring = [] then applyScope sc (stalledInDrain s 0x08)
        else stalledInDrain s 0x08)

/-- A response taken while the port is STALLED sets LATE, or leaves it set, and does nothing else: no
slot completes, ORDER is not set, and the port does not stall again (R163). -/
def Obligations.LateResponseDiscarded : Prop :=
  ∀ (s : State) (r : DownResponse), s.device ≠ .reset → s.link = .stalled →
    exec (.downstreamResponse r) s = .next { s with
      faultFlags := s.faultFlags ||| 0x10
      faultLine := (s.faultFlags ||| 0x10) &&& s.faultMask != 0 }

/-! ### Leaving the ring, the drain and the scopes -/

/-- SLOT_LEAVE while RUNNING: the COMPLETE upstream slot at the head leaves with its fixed response,
and the COMPLETE priming slots behind it leave silently (R139, R147). A head that is OUTSTANDING, or
an empty ring, sends nothing. -/
def Obligations.HeadSlotLeaves : Prop :=
  (∀ (s : State) (n : Source) (w : Bool) (a : Word) (len : Nat) (resp : UpResponse)
    (rest : List Slot), s.device = .running → s.ring = .answered n w a len resp :: rest →
    exec .slotLeave s = .next { s with
      ring := rest.dropWhile silent
      head := headAfter (s.head + 1) rest
      upstreamOut := some resp }) ∧
  ∀ s : State, RingLaw s → (s.ring.head?.all outstanding) = true → exec .slotLeave s = .next s

/-- While DRAINING, the leaving of a slot with more behind it goes on with the drain, and the leaving
that empties the ring applies the chosen scope in the same step. A valid response to a priming read
completes its slot and has no effect on its entry, whatever its status; where it leaves the ring empty,
as that of a read alone in it, the scope applies too (R14, R146, R147, R148, R158, R199, R200). -/
def Obligations.DrainEndsWithTheRing : Prop :=
  (∀ (s : State) (sc : Scope) (n : Source) (w : Bool) (a : Word) (len : Nat) (resp : UpResponse)
    (rest : List Slot), s.device = .draining sc → s.ring = .answered n w a len resp :: rest →
    let u : State := { s with
      ring := rest.dropWhile silent
      head := headAfter (s.head + 1) rest
      upstreamOut := some resp }
    exec .slotLeave s = .next (if u.ring = [] then applyScope sc u else u)) ∧
  ∀ (s : State) (sc : Scope) (r : DownResponse) (k : Nat) (i : EntryIndex) (g : Byte) (a : Word),
    s.device = .draining sc → s.link = .active → ExpectedAt s k (.primingRead i g a true) →
    r.tag = s.head + Fin.ofNat 32 k →
    let ring := s.ring.set k (.primingDone i g a)
    let u : State := { s with
      ring := ring.dropWhile silent
      head := headAfter s.head ring
      responseTimer := timerAfter s ring }
    exec (.downstreamResponse r) s = .next (if u.ring = [] then applyScope sc u else u) ∧
    (s.ring = [.primingRead i g a true] →
      exec (.downstreamResponse r) s = .next (applyScope sc s))

/-- FULL applies: every field's value, the mask kept and the flags SOFT_RESET alone (R17, R53, R76,
R109, R127, R152, R167, R201). SCOPE_FULL_APPLY makes it where the drain toward FULL has an empty
ring, and is no event otherwise (log entry 8). -/
def Obligations.FullScopeApplies : Prop :=
  (∀ s : State, applyScope .full s = { s with
    device := .running
    entries := State.reset.entries
    primingQueue := []
    freeRecords := 128
    channels := State.reset.channels
    tickCounter := 0
    tickDivider := 100
    tickPeriod := 100
    tickTaken := []
    responseTimeout := 1000
    ring := []
    head := 0
    link := .active
    responseTimer := .stopped
    faultFlags := 0x02
    faultLine := 0x02 &&& s.faultMask != 0 }) ∧
  (∀ s : State, s.device = .draining .full → s.ring = [] →
    exec .scopeFullApply s = .next (applyScope .full s)) ∧
  ∀ s : State, s.device ≠ .draining .full ∨ s.ring ≠ [] → exec .scopeFullApply s = .next s

/-- KEEP_CONFIG applies: every defined entry PRIMING under an advanced generation and on the rebuilt
queue in ascending order, every channel IDLE or DISABLED with its accounting cleared and its
configuration and next sequence kept, every record freed, the timebase kept, the ring and the port
restarted, SOFT_RESET set beside the kept flags (R18, R53, R77, R110, R127, R152, R167, R202).
SCOPE_KEEP_CONFIG_APPLY makes it where the drain toward it has an empty ring, and is no event
otherwise (log entry 8). -/
def Obligations.KeepConfigScopeApplies : Prop :=
  (∀ s : State, ∃ t, t = applyScope .keepConfig s ∧
    (∀ i : EntryIndex, t.entry i =
      if (s.entry i).state = .free then s.entry i
      else { s.entry i with
        state := .priming, generation := (s.entry i).generation + 1, shadow := 0
        pendingMask := 0, count := 0 }) ∧
    (∀ c : ChannelIndex, t.channel c = { s.channel c with
      state := if (s.channel c).state = .disabled then .disabled else .idle
      alert := false
      handed := [], queued := [], pendingSet := [], overflow := false
      lost := 0, lapses := 0, refused := 0, reclaims := 0, overRetire := false
      holdoffTimer := .stopped, claimTimer := .stopped, serviceTimer := .stopped }) ∧
    t = { s with
      device := .running
      entries := t.entries
      primingQueue := (List.finRange 64).filter fun i => (s.entry i).state ≠ .free
      freeRecords := 128
      channels := t.channels
      ring := []
      head := 0
      link := .active
      responseTimer := .stopped
      faultFlags := s.faultFlags ||| 0x02
      faultLine := (s.faultFlags ||| 0x02) &&& s.faultMask != 0 }) ∧
  (∀ s : State, s.device = .draining .keepConfig → s.ring = [] →
    exec .scopeKeepConfigApply s = .next (applyScope .keepConfig s)) ∧
  ∀ s : State, s.device ≠ .draining .keepConfig ∨ s.ring ≠ [] →
    exec .scopeKeepConfigApply s = .next s

/-- Through a drain, from its start to the step that applies the scope, no command changes an entry, a
channel with its timers, the pool or the priming queue, nor the divider, the timeout or the mask
(R14, R53, R77, R110, R115, R175, R199). -/
def Obligations.DrainHoldsTheReports : Prop :=
  ∀ (c : Instr) (s t : State), isDraining s = true → exec c s = .next t → t.device = s.device →
    t.entries = s.entries ∧ t.channels = s.channels ∧ t.freeRecords = s.freeRecords ∧
    t.primingQueue = s.primingQueue ∧ t.tickDivider = s.tickDivider ∧
    t.responseTimeout = s.responseTimeout ∧ t.faultMask = s.faultMask

/-! ### Management commands at their execution point -/

/-- WATCH_DEFINE that passes its tests, on the entry in any state: the configuration stored with the
rise and fall masks reduced, PRIMING with the generation advanced and shadow, pending mask and count
cleared; the entry leaves its old channel's pending set, and stands on the priming queue, in its place
or at the tail (R2, R9, R42, R178). -/
def Obligations.WatchDefineAccepted : Prop :=
  ∀ (s : State) (a : WatchDefineArgs) (i : EntryIndex) (m : Mode) (c : ChannelIndex) (b : Bool),
    AtExecutionPoint s (.watchDefine a) → a.index = BitVec.ofNat 8 i.val →
    a.address.toNat % 4 = 0 → a.enableMask ≠ 0 →
    a.mode = (match m with
      | .flag => 0
      | .record => 1
      | .count => 2) → a.channel = BitVec.ofNat 8 c.val →
    a.reconcile = (if b then 1 else 0) → (m = .count → a.threshold ≠ 0) →
    (∀ j : EntryIndex, j ≠ i → (s.entry j).state = .free ∨ (s.entry j).address ≠ a.address) →
    OutsideWindows s a.address →
    let old := s.channel (s.entry i).channel
    exec (.watchDefine a) s = .next
      { (s.setChannel (s.entry i).channel
            { old with pendingSet := old.pendingSet.filter (· ≠ i) }).setEntry i
          { state := .priming, address := a.address, enableMask := a.enableMask
            riseMask := a.riseMask &&& a.enableMask, fallMask := a.fallMask &&& a.enableMask
            mode := m, channel := c, reconcile := b
            threshold := if m = .count then a.threshold else 0
            count := 0, shadow := 0, pendingMask := 0
            generation := (s.entry i).generation + 1 } with
        primingQueue := if i ∈ s.primingQueue then s.primingQueue else s.primingQueue ++ [i]
        management :=
          executed s.management (.watchDefine a) 0x10 .ok [(s.entry i).generation + 1] }

/-- WATCH_RELEASE of an entry in any state: FREE with the generation advanced and every other field
absent or 0; the entry leaves its channel's pending set and the priming queue (R10, R43, R179). -/
def Obligations.WatchReleaseAccepted : Prop :=
  ∀ (s : State) (i : EntryIndex),
    let c : Instr := .watchRelease (BitVec.ofNat 8 i.val)
    AtExecutionPoint s c →
    let old := s.channel (s.entry i).channel
    exec c s = .next
      { (s.setChannel (s.entry i).channel
            { old with pendingSet := old.pendingSet.filter (· ≠ i) }).setEntry i
          { state := .free, address := 0, enableMask := 0, riseMask := 0, fallMask := 0
            mode := .flag, channel := 0, reconcile := false, threshold := 0, count := 0
            shadow := 0, pendingMask := 0, generation := (s.entry i).generation + 1 } with
        primingQueue := s.primingQueue.filter (· ≠ i)
        management := executed s.management c 0x11 .ok [(s.entry i).generation + 1] }

/-- The three queries fix their response bytes from the state as it stands. WATCH_QUERY and
STATUS_QUERY change nothing; CHANNEL_QUERY clears the over-retire flag after copying it (R15, R47,
R98, R108, R180, R185, R188, R208). STATUS_QUERY answers in RUNNING and in DRAINING. That an entry on
the queue is reported QUEUED even where a read of an equal generation holds a slot is the model's own
(log entry 21). -/
def Obligations.QueriesAnswerTheState : Prop :=
  (∀ (s : State) (i : EntryIndex),
    let q : Instr := .watchQuery (BitVec.ofNat 8 i.val)
    AtExecutionPoint s q →
    let e := s.entry i
    let armed := e.state = .armed ∨ e.state = .repriming
    exec q s = .next { s with management := executed s.management q 0x12 .ok (
        [(match e.state with
            | .free => 0
            | .priming => 1
            | .armed => 2
            | .repriming => 3), e.generation,
          if i ∈ s.primingQueue then 1 else if readInFlight s i = true then 2 else 0] ++
        (if e.state = .free then List.replicate 31 0
        else
          wordBytes e.address ++ wordBytes e.enableMask ++ wordBytes e.riseMask ++
          wordBytes e.fallMask ++
          [(match e.mode with
              | .flag => 0
              | .record => 1
              | .count => 2), BitVec.ofNat 8 e.channel.val, if e.reconcile then 1 else 0] ++
          (if e.mode = .count then halfBytes e.threshold ++ halfBytes e.count else [0, 0, 0, 0]) ++
          (if armed then wordBytes e.shadow else [0, 0, 0, 0]) ++ wordBytes e.pendingMask)) }) ∧
  (∀ (s : State) (c : ChannelIndex),
    let q : Instr := .channelQuery (BitVec.ofNat 8 c.val)
    AtExecutionPoint s q →
    let k := s.channel c
    exec q s = .next { s.setChannel c { k with overRetire := false } with
      management := executed s.management q 0x24 .ok (
          [(match k.state with
              | .disabled => 0
              | .idle => 1
              | .holdoff => 2
              | .alerting => 3
              | .inService => 4
              | .lapsed => 5),
            (if k.overflow then 1 else 0) + (if k.overRetire then 2 else 0) +
              (if k.config.windowBase.isSome then 4 else 0),
            BitVec.ofNat 8 k.queued.length, BitVec.ofNat 8 k.handed.length,
            BitVec.ofNat 8 k.pendingSet.length] ++
          halfBytes k.lost ++ halfBytes k.nextSequence ++ [k.lapses, k.refused, k.reclaims] ++
          wordBytes (k.config.windowBase.getD 0) ++ wordBytes k.config.permitted ++
          [k.config.quota, k.config.watermark] ++ halfBytes k.config.holdoff ++
          halfBytes k.config.claimDeadline ++ halfBytes k.config.serviceDeadline ++
          [match k.config.fallback with
            | none => 0xFF
            | some f => BitVec.ofNat 8 f.val]) }) ∧
  ∀ s : State, s.device ≠ .reset → AwaitsFrame s .statusQuery →
    exec .statusQuery s = .next { s with management := executed s.management .statusQuery 0x38 .ok (
        [if s.device = .running then 1 else 2, if s.link = .active then 0 else 1,
          BitVec.ofNat 8 (32 - s.ring.length), BitVec.ofNat 8 s.freeRecords,
          BitVec.ofNat 8 s.primingQueue.length] ++
        wordBytes s.tickCounter ++ [s.faultFlags.setWidth 8]) }

/-- CHANNEL_DEFINE that passes its tests, of a DISABLED channel: the configuration replaced, the queue
emptied and its records freed, the sequence, the counts and the flags restarted; the state, the pending
set and the entries stay (R74, R106, R181). -/
def Obligations.ChannelDefineAccepted : Prop :=
  ∀ (s : State) (a : ChannelDefineArgs) (c : ChannelIndex) (present : Bool)
    (fallback : Option ChannelIndex), AtExecutionPoint s (.channelDefine a) →
    a.channel = BitVec.ofNat 8 c.val →
    a.windowPresent = (if present then 1 else 0) →
    (present = true → a.windowBase.toNat % 64 = 0) → 1 ≤ a.quota.toNat → a.quota.toNat ≤ 128 →
    1 ≤ a.watermark.toNat → a.watermark.toNat ≤ a.quota.toNat →
    a.fallback = (match fallback with
      | none => 0xFF
      | some f => BitVec.ofNat 8 f.val) →
    fallback ≠ some c → (s.channel c).state = .disabled →
    (present = true →
      (∀ d : ChannelIndex, d ≠ c →
        windowsApart (some a.windowBase) (s.channel d).config.windowBase = true) ∧
      ∀ i : EntryIndex, (s.entry i).state = .free ∨
        64 ≤ ((s.entry i).address - a.windowBase).toNat) →
    exec (.channelDefine a) s = .next { s.setChannel c { s.channel c with
        config :=
          { windowBase := if present then some a.windowBase else none
            permitted := a.permitted, quota := a.quota, watermark := a.watermark
            holdoff := a.holdoff, claimDeadline := a.claimDeadline
            serviceDeadline := a.serviceDeadline, fallback := fallback }
        handed := [], queued := [], overflow := false, nextSequence := 0, lost := 0, lapses := 0
        refused := 0, reclaims := 0, overRetire := false } with
      freeRecords := s.freeRecords + (s.channel c).handed.length + (s.channel c).queued.length
      management := executed s.management (.channelDefine a) 0x20 .ok [] }

/-- CHANNEL_ENABLE of a DISABLED channel: to IDLE without content, and with content as a delivery taken
in IDLE (R80, R83, R103, R182). CHANNEL_REINSTATE of a LAPSED one: with content to ALERTING without
hold-off, else to IDLE (R125, R184). Nothing else of the channel changes. -/
def Obligations.ChannelEnabledOrReinstated : Prop :=
  ∀ (s : State) (c : ChannelIndex),
    let en : Instr := .channelEnable (BitVec.ofNat 8 c.val)
    let re : Instr := .channelReinstate (BitVec.ofNat 8 c.val)
    let k := s.channel c
    let content := k.queued ≠ [] ∨ k.pendingSet ≠ [] ∨ k.overflow = true
    let alerting : Channel := { k with
      state := .alerting, alert := true, holdoffTimer := .stopped
      claimTimer := startTimer k.config.claimDeadline }
    (AtExecutionPoint s en → k.state = .disabled →
      exec en s = .next
        { s.setChannel c (
            if content then
              if k.config.holdoff = 0 ∨ k.config.watermark.toNat ≤ k.queued.length then alerting
              else { k with
                state := .holdoff, alert := false, holdoffTimer := startTimer k.config.holdoff }
            else { k with state := .idle, alert := false }) with
          management := executed s.management en 0x21 .ok [] }) ∧
    (AtExecutionPoint s re → k.state = .lapsed →
      exec re s = .next
        { s.setChannel c (
            if content then alerting else { k with state := .idle, alert := false }) with
          management := executed s.management re 0x23 .ok [] })

/-- CHANNEL_DISABLE without purge: HANDED records revert with their redelivery counts advanced, every
timer stops and the line is deasserted, and all else of the channel is kept; of a channel already
DISABLED, nothing changes (R72, R104, R183). -/
def Obligations.ChannelDisabledWithoutPurge : Prop :=
  ∀ (s : State) (c : ChannelIndex),
    let d : Instr := .channelDisable (BitVec.ofNat 8 c.val) 0
    AtExecutionPoint s d →
    ((s.channel c).state ≠ .disabled →
      exec d s = .next
        { s.setChannel c { s.channel c with
            state := .disabled
            alert := false
            handed := []
            queued := (s.channel c).handed.map (fun r => { r with
              redelivery := if r.redelivery = 7 then 7 else r.redelivery + 1 }) ++
              (s.channel c).queued
            holdoffTimer := .stopped
            claimTimer := .stopped
            serviceTimer := .stopped } with
          management := executed s.management d 0x22 .ok [] }) ∧
    ((s.channel c).state = .disabled →
      exec d s = .next { s with management := executed s.management d 0x22 .ok [] })

/-- CHANNEL_DISABLE with purge, in every channel state, DISABLED included: the channel is DISABLED with
its timers stopped, its records are freed without being counted as lost, its pending set is emptied
and the pending masks of its members are cleared; the overflow flag, the counts and the next sequence
are kept, and so is every other entry (R35, R73, R105, R183). A purge byte of 1 in the row
CHANNEL_DISABLE does the same (log entry 11). -/
def Obligations.ChannelPurged : Prop :=
  ∀ (s : State) (c : ChannelIndex),
    let p : Instr := .channelDisablePurge (BitVec.ofNat 8 c.val)
    AtExecutionPoint s p →
    ((s.channel c).state = .disabled → channelFits (s.channel c) ∧ (s.channel c).alert = false) →
    ∃ t, exec p s = .next t ∧
      exec (.channelDisable (BitVec.ofNat 8 c.val) 1) s = .next t ∧
      (∀ i : EntryIndex, t.entry i =
        if i ∈ (s.channel c).pendingSet then { s.entry i with pendingMask := 0 } else s.entry i) ∧
      t = { s.setChannel c { s.channel c with
          state := .disabled, alert := false, handed := [], queued := [], pendingSet := []
          holdoffTimer := .stopped, claimTimer := .stopped, serviceTimer := .stopped } with
        entries := t.entries
        freeRecords := s.freeRecords + (s.channel c).handed.length + (s.channel c).queued.length
        management := executed s.management p 0x22 .ok [] }

/-- TIMING_SET in range stores both values, and leaves the counter, the period in progress and the
running timers (R112, R158, R186). LINK_RESUME of a STALLED port makes it ACTIVE and leaves the
timer, the ring, the priming queue and the flags (R164, R190). -/
def Obligations.TimingSetAndLinkResume : Prop :=
  (∀ (s : State) (divider timeout : Half), AtExecutionPoint s (.timingSet divider timeout) →
    1 ≤ divider.toNat → divider.toNat ≤ 4096 → 1 ≤ timeout.toNat →
    exec (.timingSet divider timeout) s = .next { s with
      tickDivider := divider
      responseTimeout := timeout
      management := executed s.management (.timingSet divider timeout) 0x30 .ok [] }) ∧
  ∀ s : State, AtExecutionPoint s .linkResume → s.link = .stalled →
    exec .linkResume s = .next { s with
      link := .active
      management := executed s.management .linkResume 0x3A .ok [] }

/-- FAULT_MASK_SET stores the seven enables from bits 0 to 6 and disregards bit 7, and the line follows
the new mask at once; the flags stay (R187, R195, R207). FAULT_COLLECT copies every flag into its
response byte, clears every flag and releases the line; the mask stays (R189, R196). -/
def Obligations.FaultMaskAndCollect : Prop :=
  ∀ s : State,
    (∀ mask : Byte, AtExecutionPoint s (.faultMaskSet mask) → exec (.faultMaskSet mask) s = .next { s with
      faultMask := mask.extractLsb' 0 7
      faultLine := s.faultFlags &&& mask.extractLsb' 0 7 != 0
      management := executed s.management (.faultMaskSet mask) 0x31 .ok [] }) ∧
    (AtExecutionPoint s .faultCollect → exec .faultCollect s = .next { s with
      faultFlags := 0
      faultLine := false
      management := executed s.management .faultCollect 0x39 .ok [s.faultFlags.setWidth 8] })

/-- DEVICE_RESET: with slots in use the device is DRAINING toward the scope chosen and nothing else
changes at that step; with an empty ring the scope applies in the same step. Its frame ends with OK
either way (R191, R198, R200). -/
def Obligations.DeviceResetStartsTheDrain : Prop :=
  ∀ (s : State) (sc : Scope),
    let c : Instr := .deviceReset (match sc with
      | .full => 0
      | .keepConfig => 1)
    AtExecutionPoint s c →
    (s.ring ≠ [] → exec c s = .next { s with
      device := .draining sc
      management := executed s.management c 0x3F .ok [] }) ∧
    (s.ring = [] → exec c s = .next { applyScope sc s with
      management := executed s.management c 0x3F .ok [] })

/-- While DRAINING, every known command but STATUS_QUERY is refused with BUSY at its execution point
whatever its arguments: no block changes, and it answers its count of zero bytes (R169, R174, R175).
The first clause gives the codes and the counts of the fourteen commands. -/
def Obligations.KnownCommandsBusyInDrain : Prop :=
  (∀ cmd : Command,
    (commandCode cmd, argumentCount cmd, responseCount cmd) = frameCounts cmd) ∧
  ∀ (c : Instr) (cmd : Command) (args : List Byte) (s : State), isDraining s = true →
    AwaitsFrame s c → c.wellFormed = true →
    frameOf c = some ((frameCounts cmd).1 :: args) → cmd ≠ .statusQuery →
    exec c s = .next { s with
      management := executed s.management c (frameCounts cmd).1 .busy
        (List.replicate (frameCounts cmd).2.2 0) }

/-- The refusals of each command in a RUNNING device, the first failing test in the order BAD_INDEX,
BAD_VALUE, WRONG_STATE, DUPLICATE, OVERLAP deciding. A refused command changes no state of the part,
and answers its count of zero bytes (R169, R174, R178 to R191, R207). -/
def Obligations.RefusalsFollowTheOrder : Prop :=
  ∀ s : State,
    let refuses := fun (c : Instr) (code : Byte) (zeros : Nat) (result : ResultCode) =>
      AtExecutionPoint s c → exec c s = .next { s with
        management := executed s.management c code result (List.replicate zeros 0) }
    (∀ a : WatchDefineArgs,
      let badValue := a.address.toNat % 4 ≠ 0 ∨ a.enableMask = 0 ∨ 3 ≤ a.mode.toNat ∨
        8 ≤ a.channel.toNat ∨ 2 ≤ a.reconcile.toNat ∨ (a.mode = 2 ∧ a.threshold = 0)
      let held := ∃ j : EntryIndex, j.val ≠ a.index.toNat ∧ (s.entry j).state ≠ .free ∧
        (s.entry j).address = a.address
      (64 ≤ a.index.toNat → refuses (.watchDefine a) 0x10 1 .badIndex) ∧
      (a.index.toNat < 64 → badValue →
        refuses (.watchDefine a) 0x10 1 .badValue) ∧
      (a.index.toNat < 64 → ¬ badValue → held →
        refuses (.watchDefine a) 0x10 1 .duplicate) ∧
      (a.index.toNat < 64 → ¬ badValue → ¬ held → ¬ OutsideWindows s a.address →
        refuses (.watchDefine a) 0x10 1 .overlap)) ∧
    (∀ i : Byte, 64 ≤ i.toNat →
      refuses (.watchRelease i) 0x11 1 .badIndex ∧
      refuses (.watchQuery i) 0x12 34 .badIndex) ∧
    (∀ (a : ChannelDefineArgs) (c : ChannelIndex),
      let badValue := 2 ≤ a.windowPresent.toNat ∨
        (a.windowPresent = 1 ∧ a.windowBase.toNat % 64 ≠ 0) ∨
        a.quota.toNat = 0 ∨ 128 < a.quota.toNat ∨ a.watermark.toNat = 0 ∨
        a.quota.toNat < a.watermark.toNat ∨
        a.fallback.toNat = c.val ∨ (8 ≤ a.fallback.toNat ∧ a.fallback ≠ 0xFF)
      (8 ≤ a.channel.toNat →
        refuses (.channelDefine a) 0x20 0 .badIndex) ∧
      (a.channel.toNat = c.val → badValue →
        refuses (.channelDefine a) 0x20 0 .badValue) ∧
      (a.channel.toNat = c.val → ¬ badValue → (s.channel c).state ≠ .disabled →
        refuses (.channelDefine a) 0x20 0 .wrongState) ∧
      (a.channel.toNat = c.val → ¬ badValue → (s.channel c).state = .disabled →
        a.windowPresent = 1 →
        (∃ d : ChannelIndex, d ≠ c ∧
          windowsApart (some a.windowBase) (s.channel d).config.windowBase = false) ∨
        (∃ i : EntryIndex, (s.entry i).state ≠ .free ∧
          ((s.entry i).address - a.windowBase).toNat < 64) →
        refuses (.channelDefine a) 0x20 0 .overlap)) ∧
    (∀ c : Byte, 8 ≤ c.toNat →
      refuses (.channelEnable c) 0x21 0 .badIndex ∧
      refuses (.channelReinstate c) 0x23 0 .badIndex ∧
      refuses (.channelQuery c) 0x24 29 .badIndex ∧
      refuses (.channelDisablePurge c) 0x22 0 .badIndex ∧
      ∀ p : Byte, refuses (.channelDisable c p) 0x22 0 .badIndex) ∧
    (∀ (c : ChannelIndex) (p : Byte), 2 ≤ p.toNat →
      refuses (.channelDisable (BitVec.ofNat 8 c.val) p) 0x22 0 .badValue) ∧
    (∀ c : ChannelIndex,
      ((s.channel c).state ≠ .disabled →
        refuses (.channelEnable (BitVec.ofNat 8 c.val)) 0x21 0 .wrongState) ∧
      ((s.channel c).state ≠ .lapsed →
        refuses (.channelReinstate (BitVec.ofNat 8 c.val)) 0x23 0 .wrongState)) ∧
    (∀ divider timeout : Half,
      divider.toNat = 0 ∨ 4096 < divider.toNat ∨ timeout.toNat = 0 →
      refuses (.timingSet divider timeout) 0x30 0 .badValue) ∧
    (s.link = .active → refuses .linkResume 0x3A 0 .wrongState) ∧
    ∀ sc : Byte, 2 ≤ sc.toNat → refuses (.deviceReset sc) 0x3F 0 .badValue

/-- The frame's own events, bit by bit. A fall of chip select begins a frame in COMMAND, in RUNNING and
DRAINING (R168), and the bits that follow it are sampled in that frame. A bit that is not the last of
its byte is kept, and the bit of the byte in its turn is shifted out, most significant first; the
eighth bit takes the byte and moves the position on as R168's table states. A byte that names no
command executes at once with BAD_COMMAND and no effect, in DRAINING too (R173). A rise before the
execution point drops the frame and sets MGMT_FRAME, unless no clock edge was sampled (R171). A rise
behind it ends the frame with no flag, the command's effect kept and the bits not yet shifted out lost
(R172). That clock edges come with the rows of chip select, and the record of the bits shifted out, are
the model's own (log entries 9, 10 and 15). -/
def Obligations.FrameEventsOfThePort : Prop :=
  (∀ (s : State) (l : List Bool), s.device ≠ .reset → s.management.selectLow = false →
    let t : State := { s with
      management := { selectLow := true, phase := .command, bits := [], shifted := [] } }
    exec (.frameBegin []) s = .next t ∧ exec (.frameBegin l) s = exec (.frameBegin l) t) ∧
  (∀ (s : State) (x : Bool), s.management.selectLow = true → s.management.phase ≠ .noFrame →
    s.management.bits.length < 7 →
    exec (.frameBegin [x]) s = .next { s with management := { s.management with
      bits := s.management.bits ++ [x]
      shifted := s.management.shifted ++
        [(shiftsOut s.management.phase).getMsbD s.management.bits.length] } }) ∧
  (∀ (s : State) (b : Byte), s.management.selectLow = true →
    s.management.bits = [b[7], b[6], b[5], b[4], b[3], b[2], b[1]] →
    let taken := fun p : FramePhase =>
      exec (.frameBegin [b[0]]) s = .next { s with management := { s.management with
        phase := p
        bits := []
        shifted := s.management.shifted ++ [(shiftsOut s.management.phase)[0]] } }
    (s.management.phase = .command → (∃ cmd : Command, (frameCounts cmd).1 = b ∧
      (frameCounts cmd).2.1 ≠ 0) → taken (.arguments b [])) ∧
    (∀ (cmd : Command) (args : List Byte),
      s.management.phase = .arguments (frameCounts cmd).1 args →
      args.length + 1 < (frameCounts cmd).2.1 →
      taken (.arguments (frameCounts cmd).1 (args ++ [b]))) ∧
    (∀ (code : Byte) (r : ResultCode) (l : List Byte),
      (s.management.phase = .turnaround code r l → taken (.result code r l)) ∧
      (s.management.phase = .result code r l →
        taken (if l = [] then .trailing code else .response code l)) ∧
      (s.management.phase = .response code l →
        taken (if l.length ≤ 1 then .trailing code else .response code l.tail)) ∧
      (s.management.phase = .trailing code → taken (.trailing code)))) ∧
  (∀ (s : State) (code : Byte), s.device ≠ .reset → AwaitsFrame s (.unknownCommand code) →
    (∀ cmd : Command, (frameCounts cmd).1 ≠ code) →
    exec (.unknownCommand code) s = .next { s with
      management := executed s.management (.unknownCommand code) code .badCommand [] }) ∧
  (∀ (s : State) (l : List Bool), s.device ≠ .reset → awaitsCommand s.management = true →
    l ≠ [] ∨ heldBits s.management ≠ [] →
    ∃ n, n ≤ l.length ∧
      (heldBits s.management = [] → ∀ (c : Instr) (frame : List Byte), c.wellFormed = true →
        frameOf c = some frame → l <+: frameBits frame → l.length < 8 * frame.length →
        n = l.length) ∧
      exec (.frameDiscard l) s = .next { s with
        faultFlags := s.faultFlags ||| 0x40
        faultLine := (s.faultFlags ||| 0x40) &&& s.faultMask != 0
        management := { selectLow := false, phase := .noFrame, bits := []
                        shifted := s.management.shifted ++ List.replicate n false } }) ∧
  (∀ s : State, s.management.phase = .command → s.management.bits = [] →
    exec (.frameDiscard []) s = .next { s with
      management := { s.management with selectLow := false, phase := .noFrame } }) ∧
  ∀ (s : State) (l : List Bool) (code : Byte) (r : ResultCode) (response : List Byte),
    s.management.phase = .turnaround code r response → s.management.bits = [] →
    exec (.frameCutAfterExecution l) s = .next { s with
      management := { selectLow := false, phase := .noFrame, bits := []
                      shifted := s.management.shifted ++
                        (frameBits (0 :: shiftsOut (.result code r response) :: response ++
                          List.replicate l.length 0)).take l.length } }

/-- The bits and bytes of a management frame and the command that executes on them agree, for every
management command with its operands at every value their fields carry. Sampled one after another from
the fall of chip select, the frame's bits short of the last, each byte most significant bit first, bring
the port to that command's execution point and shift out zeros. The bytes spell the command back, bytes
behind the last argument byte change nothing, fewer bytes execute nothing, and the number of bytes is
the count of R169 (R168, R169, R170, R171, R173). The first clause gives the argument layouts of
section 12.3, each field most significant byte first. -/
def Obligations.FramesRoundTrip : Prop :=
  (∀ (w : Word) (h : Half),
    wordBytes w = [w.extractLsb' 24 8, w.extractLsb' 16 8, w.extractLsb' 8 8, w.extractLsb' 0 8] ∧
    halfBytes h = [h.extractLsb' 8 8, h.extractLsb' 0 8]) ∧
  (∀ a : WatchDefineArgs, frameOf (.watchDefine a) = some (
    [0x10, a.index] ++ wordBytes a.address ++ wordBytes a.enableMask ++ wordBytes a.riseMask ++
    wordBytes a.fallMask ++ [a.mode, a.channel, a.reconcile] ++ halfBytes a.threshold)) ∧
  (∀ a : ChannelDefineArgs, frameOf (.channelDefine a) = some (
    [0x20, a.channel, a.windowPresent] ++ wordBytes a.windowBase ++ wordBytes a.permitted ++
    [a.quota, a.watermark] ++ halfBytes a.holdoff ++ halfBytes a.claimDeadline ++
    halfBytes a.serviceDeadline ++ [a.fallback])) ∧
  (∀ (s : State) (c : Instr) (frame : List Byte) (n : Nat), c.wellFormed = true →
    frameOf c = some frame → s.device ≠ .reset → s.management.selectLow = false →
    n < 8 * frame.length →
    let bits := frame.flatMap fun b => [b[7], b[6], b[5], b[4], b[3], b[2], b[1], b[0]]
    ∃ t, exec (.frameBegin (bits.take n)) s = .next t ∧ AwaitsFrame t c ∧
      heldBits t.management = bits.take n ∧
      t = { s with management := { t.management with
        selectLow := true, shifted := List.replicate n false } }) ∧
  ∀ (c : Instr) (code : Byte) (args : List Byte), c.wellFormed = true →
    frameOf c = some (code :: args) →
    args.length = argumentsOf code ∧
    (∀ extra : List Byte, commandOfFrame (code :: args ++ extra) = some c) ∧
    ∀ n : Nat, n ≤ args.length → commandOfFrame ((code :: args).take n) = none

/-! ### Evaluation -/

/-- A bit qualifies exactly where it rose and is in the rise mask, or fell and is in the fall mask, so
with the masks inside the enable mask every qualifying bit lies there (R25). A written word is merged
into the shadow byte by byte under its four byte enables (R22). -/
def Obligations.QualifyingMaskAndMerge : Prop :=
  (∀ (e : Entry) (old new : Word) (j : Nat) (_ : j < 32),
    ((qualifyingMask e old new)[j] = true ↔
      (old[j] = false ∧ new[j] = true ∧ e.riseMask[j] = true) ∨
      (old[j] = true ∧ new[j] = false ∧ e.fallMask[j] = true)) ∧
    (masksWithin e → (qualifyingMask e old new)[j] = true → e.enableMask[j] = true)) ∧
  (∀ (shadow : Word) (w : WriteWord) (k : Nat) (_ : k < 4),
    (merge shadow w).extractLsb' (8 * k) 8 =
      if w.enables[k] = true then w.data.extractLsb' (8 * k) 8
      else shadow.extractLsb' (8 * k) 8) ∧
  ∀ (shadow : Word) (w : WriteWord), w.enables = 0 → merge shadow w = shadow

/-- A word of a response reaches the entry that is not FREE and holds its address, and no other, and
acts as the table of R7 says for the entry's state: an OKAY write over an ARMED entry is evaluated as
a transition with the merged value, a FAULT on a touched word of an ARMED entry sends it to REPRIMING
and onto the queue, an OKAY read over an ARMED entry with reconcile on is evaluated as UNSEEN, and
every other case, the word that matches no entry among them, has no effect (R6, R7, R12, R19). -/
def Obligations.WordsReachTheirEntry : Prop :=
  ∀ (s : State) (a : Word),
    ((∀ i : EntryIndex, (s.entry i).state = .free ∨ (s.entry i).address ≠ a) →
      (∀ (n : Source) (w : WriteWord), writeWord n s (a, w) = s) ∧
      (∀ w : WriteWord, faultWord s (a, w) = s) ∧ ∀ d : Word, readWord s (a, d) = s) ∧
    ∀ i : EntryIndex, (s.entry i).state ≠ .free → (s.entry i).address = a → WatchedAddresses s →
      (∀ (n : Source) (w : WriteWord), writeWord n s (a, w) =
        if (s.entry i).state = .armed then
          evaluate s i (.transition n) (merge (s.entry i).shadow w)
        else s) ∧
      (∀ w : WriteWord, faultWord s (a, w) =
        if (s.entry i).state = .armed ∧ w.enables ≠ 0 then
          { s.setEntry i { s.entry i with state := .repriming } with
            primingQueue :=
              if i ∈ s.primingQueue then s.primingQueue else s.primingQueue ++ [i] }
        else s) ∧
      ∀ d : Word, readWord s (a, d) =
        if (s.entry i).state = .armed ∧ (s.entry i).reconcile = true then
          evaluate s i .unseen d
        else s

/-- One evaluation, by its qualifying mask and the entry's mode. Nothing qualifies: the shadow alone is
replaced (R24, R26). FLAG: the mask joins the pending mask, the entry the pending set, and the channel
has a delivery (R27). RECORD: the same, with a record created, or lost and counted, before the
delivery (R28, R63, R64). COUNT: below the threshold the count advances (R29); at it the count returns
to 0, a COUNT record is created or lost, and the channel has a delivery (R30). That a count which stands
at or above its threshold already, which no run reaches, is a threshold event too is the model's choice
(log entry 19). The shadow takes the new value in every case (R24). -/
def Obligations.EvaluationByMode : Prop :=
  ∀ (s : State) (i : EntryIndex) (cause : Cause) (new : Word),
    let e := s.entry i
    let k := s.channel e.channel
    let m := qualifyingMask e e.shadow new
    let ch : Change := { entry := i, generation := e.generation, old := e.shadow, new := new, mask := m }
    let room := k.state ≠ .disabled ∧ k.handed.length + k.queued.length < k.config.quota.toNat ∧
      0 < s.freeRecords
    let joined := if e.pendingMask = 0 then insertIndex i k.pendingSet else k.pendingSet
    let asked := fun (q : Channel) (body : RecordBody) =>
      if room then { q with
        queued := q.queued ++ [{ body, sequence := q.nextSequence, timestamp := s.tickCounter
                                 redelivery := 0 }]
        nextSequence := q.nextSequence + 1 }
      else { q with
        nextSequence := q.nextSequence + 1
        lost := if q.lost = 65535 then 65535 else q.lost + 1
        overflow := true }
    (m = 0 → evaluate s i cause new = s.setEntry i { e with shadow := new }) ∧
    (m ≠ 0 → e.mode = .flag → evaluate s i cause new =
      (s.setEntry i { e with shadow := new, pendingMask := e.pendingMask ||| m }).setChannel e.channel
        (deliver { k with pendingSet := joined })) ∧
    (m ≠ 0 → e.mode = .record → evaluate s i cause new =
      { (s.setEntry i { e with shadow := new, pendingMask := e.pendingMask ||| m }).setChannel
          e.channel (deliver (asked { k with pendingSet := joined } (match cause with
            | .transition n => .transition n ch
            | .unseen => .unseen ch))) with
        freeRecords := if room then s.freeRecords - 1 else s.freeRecords }) ∧
    (m ≠ 0 → e.mode = .count → e.count.toNat + 1 < e.threshold.toNat →
      evaluate s i cause new = s.setEntry i { e with shadow := new, count := e.count + 1 }) ∧
    (m ≠ 0 → e.mode = .count → e.threshold.toNat ≤ e.count.toNat + 1 → evaluate s i cause new =
      { (s.setEntry i { e with shadow := new, count := 0 }).setChannel
          e.channel (deliver (asked k (match cause with
            | .transition n => .count (some n) ch
            | .unseen => .count none ch))) with
        freeRecords := if room then s.freeRecords - 1 else s.freeRecords })

/-- A delivery by the channel's state. IDLE goes to ALERTING where the hold-off is 0 or the watermark
is reached, else to HOLDOFF with its timer started (R83); HOLDOFF goes to ALERTING where the watermark
is reached, else stays with its timer (R84); every other state stays as it is, with its timers (R82).
An entry to ALERTING stops the hold-off timer, starts the claim timer and asserts the line (R86). The
last clause gives the pending set's order: an index joins an ascending set at its place, once (R34). -/
def Obligations.DeliveryByState : Prop :=
  (∀ k : Channel,
    let reached := k.config.watermark.toNat ≤ k.queued.length
    let alerting : Channel := { k with
      state := .alerting, alert := true, holdoffTimer := .stopped
      claimTimer := startTimer k.config.claimDeadline }
    (k.state = .idle → k.config.holdoff = 0 ∨ reached → deliver k = alerting) ∧
    (k.state = .idle → k.config.holdoff ≠ 0 → ¬ reached → deliver k = { k with
      state := .holdoff, alert := false, holdoffTimer := .running k.config.holdoff.toNat }) ∧
    (k.state = .holdoff → reached → deliver k = alerting) ∧
    (k.state = .holdoff → ¬ reached → deliver k = k) ∧
    (k.state ≠ .idle → k.state ≠ .holdoff → deliver k = k)) ∧
  ∀ (i : EntryIndex) (l : List EntryIndex), l.Pairwise (· < ·) →
    (insertIndex i l).Pairwise (· < ·) ∧ ∀ j : EntryIndex, j ∈ insertIndex i l ↔ j = i ∨ j ∈ l

/-! ### Laws that every step keeps -/

/-- Law of record conservation (R56) and law of quota (R66): every step keeps them. -/
def Obligations.PoolAndQuotaKept : Prop :=
  (∀ s t : State, PoolConserved s → step s = .next t → PoolConserved t) ∧
  ∀ s t : State, WithinQuota s → step s = .next t → WithinQuota t

/-- Law of alert lines (R81) and the rule of the fault line (R195): every step keeps them. -/
def Obligations.AlertAndFaultLinesKept : Prop :=
  (∀ s t : State, AlertsFollowState s → step s = .next t → AlertsFollowState t) ∧
  ∀ s t : State, FaultLineFollows s → step s = .next t → FaultLineFollows t

/-- At most 32 slots in use, no COMPLETE priming slot left at the head, and no drain without a slot in
use (R142, R147, R200); the priming queue holds each index once and only PRIMING or REPRIMING entries
(R41, R46); while RUNNING every PRIMING or REPRIMING entry has its read queued or in flight (R46); and
a part in RESET holds its power-on values (R197): every step keeps them. -/
def Obligations.RingAndPrimingLawsKept : Prop :=
  (∀ s t : State, RingLaw s → step s = .next t → RingLaw t) ∧
  (∀ s t : State, PrimingQueueLaw s → step s = .next t → PrimingQueueLaw t) ∧
  ∀ s t : State, AwaitsRead s ∧ ResetHolds s → step s = .next t → AwaitsRead t ∧ ResetHolds t

/-- Law of pending masks (R33) with the order of the pending sets (R34): every step keeps it. -/
def Obligations.PendingMasksKept : Prop :=
  ∀ s t : State, PendingLaw s → step s = .next t → PendingLaw t

/-- Law of service with the channel timers' law (R79, R99, R113); the response timer runs exactly while
a slot is OUTSTANDING, and none is while STALLED (R158, R161); a RUNNING and STALLED part has no ARMED
entry (R13, R160): every step keeps them. -/
def Obligations.ServiceAndTimerLawsKept : Prop :=
  (∀ s t : State, ServiceLaw s → step s = .next t → ServiceLaw t) ∧
  (∀ s t : State, ResponseTimerLaw s → step s = .next t → ResponseTimerLaw t) ∧
  ∀ s t : State, StalledUnarmed s ∧ ResetHolds s → step s = .next t →
    StalledUnarmed t ∧ ResetHolds t

/-- Law of watched addresses (R8), the ranges of the configuration (R78, R112), and the fields an
entry's state and mode fix (R2, R3, R10, R30, R49): every step keeps them. -/
def Obligations.ConfigurationLawsKept : Prop :=
  (∀ s t : State, WatchedAddresses s → step s = .next t → WatchedAddresses t) ∧
  (∀ s t : State, ConfigInRange s → step s = .next t → ConfigInRange t) ∧
  ∀ s t : State, EntriesShaped s → step s = .next t → EntriesShaped t
end

