-- ==== Sys2Proof/Laws/State.lean ====
section
/-! SUPPORT. The small lemmas of State's updates: what each named update leaves of each field, and what
it writes. -/

namespace Sys2Proof.Machine

variable (s : State)

/-! ### Reading an entry and a channel behind an update -/

@[simp] theorem entry_setEntry_same (i : EntryIndex) (e : Entry) : (s.setEntry i e).entry i = e := by
  simp [State.entry, State.setEntry]

theorem entry_setEntry (i j : EntryIndex) (e : Entry) :
    (s.setEntry i e).entry j = if i = j then e else s.entry j := by
  simp [State.entry, State.setEntry, Vector.getElem_set, Fin.ext_iff]

@[simp] theorem entry_setEntry_other {i j : EntryIndex} (e : Entry) (h : i ≠ j) :
    (s.setEntry i e).entry j = s.entry j := by
  simp [entry_setEntry, h]

@[simp] theorem channel_setChannel_same (c : ChannelIndex) (k : Channel) :
    (s.setChannel c k).channel c = k := by
  simp [State.channel, State.setChannel]

theorem channel_setChannel (c d : ChannelIndex) (k : Channel) :
    (s.setChannel c k).channel d = if c = d then k else s.channel d := by
  simp [State.channel, State.setChannel, Vector.getElem_set, Fin.ext_iff]

@[simp] theorem channel_setChannel_other {c d : ChannelIndex} (k : Channel) (h : c ≠ d) :
    (s.setChannel c k).channel d = s.channel d := by
  simp [channel_setChannel, h]

@[simp] theorem channel_setEntry (i : EntryIndex) (e : Entry) (c : ChannelIndex) :
    (s.setEntry i e).channel c = s.channel c := rfl

@[simp] theorem entry_setChannel (c : ChannelIndex) (k : Channel) (i : EntryIndex) :
    (s.setChannel c k).entry i = s.entry i := rfl

/-- Reading depends on the table alone. -/
theorem entry_congr {s t : State} (h : t.entries = s.entries) (i : EntryIndex) :
    t.entry i = s.entry i := by
  simp [State.entry, h]

/-- Reading depends on the table alone. -/
theorem channel_congr {s t : State} (h : t.channels = s.channels) (c : ChannelIndex) :
    t.channel c = s.channel c := by
  simp [State.channel, h]

@[simp] theorem setEntry_entry (i : EntryIndex) : s.setEntry i (s.entry i) = s := by
  simp [State.setEntry, State.entry]

@[simp] theorem setChannel_channel (c : ChannelIndex) : s.setChannel c (s.channel c) = s := by
  simp [State.setChannel, State.channel]

@[simp] theorem setEntry_setEntry (i : EntryIndex) (e f : Entry) :
    (s.setEntry i e).setEntry i f = s.setEntry i f := by
  simp [State.setEntry]

@[simp] theorem setChannel_setChannel (c : ChannelIndex) (k l : Channel) :
    (s.setChannel c k).setChannel c l = s.setChannel c l := by
  simp [State.setChannel]

theorem setChannel_setEntry (i : EntryIndex) (e : Entry) (c : ChannelIndex) (k : Channel) :
    (s.setChannel c k).setEntry i e = (s.setEntry i e).setChannel c k := rfl

/-! ### What an update writes -/

@[simp] theorem withFaults_faultFlags (flags : BitVec 7) : (s.withFaults flags).faultFlags = flags := rfl
@[simp] theorem withFaults_faultLine (flags : BitVec 7) :
    (s.withFaults flags).faultLine = lineFor flags s.faultMask := rfl
@[simp] theorem withFaultMask_faultMask (mask : BitVec 7) : (s.withFaultMask mask).faultMask = mask := rfl
@[simp] theorem withFaultMask_faultLine (mask : BitVec 7) :
    (s.withFaultMask mask).faultLine = lineFor s.faultFlags mask := rfl
@[simp] theorem raise_faultFlags (f : FaultFlag) :
    (s.raise f).faultFlags = s.faultFlags ||| faultBit f := rfl
@[simp] theorem raise_faultLine (f : FaultFlag) :
    (s.raise f).faultLine = lineFor (s.faultFlags ||| faultBit f) s.faultMask := rfl
@[simp] theorem answer_management (code : Byte) (args : List Byte) (result : ResultCode)
    (response : List Byte) :
    (answer code args result response s).management =
      fixAnswer s.management code args result response := rfl
@[simp] theorem leavePriming_primingQueue (i : EntryIndex) :
    (leavePriming s i).primingQueue = removeIndex i s.primingQueue := rfl
@[simp] theorem arm_primingQueue (i : EntryIndex) :
    (arm s i).primingQueue = removeIndex i s.primingQueue := rfl
@[simp] theorem arm_entry_same (i : EntryIndex) :
    (arm s i).entry i = { s.entry i with state := .armed } := by
  simp [arm, leavePriming, State.entry, State.setEntry]
@[simp] theorem allocate_ring (x : Slot) : (allocate s x).ring = s.ring ++ [x] := rfl
@[simp] theorem leaveSilently_ring : (leaveSilently s).ring = s.ring.dropWhile silent := rfl
@[simp] theorem failOutstanding_ring : (failOutstanding s).ring = s.ring.map failSlot := rfl
@[simp] theorem failOutstanding_link : (failOutstanding s).link = .stalled := rfl
@[simp] theorem failOutstanding_responseTimer : (failOutstanding s).responseTimer = .stopped := rfl
@[simp] theorem advanceTimebase_tickCounter : (advanceTimebase s).tickCounter = s.tickCounter + 1 := rfl
@[simp] theorem advanceTimebase_tickPeriod : (advanceTimebase s).tickPeriod = s.tickDivider := rfl

/-! ### The channel's own updates -/

@[simp] theorem moveTo_state (k : Channel) (st : ChannelState) : (k.moveTo st).state = st := rfl
@[simp] theorem moveTo_alert (k : Channel) (st : ChannelState) : (k.moveTo st).alert = calls st := rfl
@[simp] theorem enterAlerting_state (k : Channel) : (enterAlerting k).state = .alerting := rfl
@[simp] theorem enterAlerting_alert (k : Channel) : (enterAlerting k).alert = true := rfl
@[simp] theorem revert_handed (k : Channel) : (revert k).handed = [] := rfl
@[simp] theorem revert_queued (k : Channel) :
    (revert k).queued = k.handed.map redeliver ++ k.queued := rfl
@[simp] theorem disable_state (k : Channel) : (disable k).state = .disabled := rfl
@[simp] theorem lapseChannel_state (cause : LapseCause) (k : Channel) :
    (lapseChannel cause k).state = .lapsed := rfl

@[simp] theorem moveTo_config (k : Channel) (st : ChannelState) : (k.moveTo st).config = k.config := rfl
@[simp] theorem moveTo_handed (k : Channel) (st : ChannelState) : (k.moveTo st).handed = k.handed := rfl
@[simp] theorem moveTo_queued (k : Channel) (st : ChannelState) : (k.moveTo st).queued = k.queued := rfl
@[simp] theorem moveTo_pendingSet (k : Channel) (st : ChannelState) : (k.moveTo st).pendingSet = k.pendingSet := rfl
@[simp] theorem moveTo_overflow (k : Channel) (st : ChannelState) : (k.moveTo st).overflow = k.overflow := rfl
@[simp] theorem moveTo_nextSequence (k : Channel) (st : ChannelState) : (k.moveTo st).nextSequence = k.nextSequence := rfl
@[simp] theorem moveTo_lost (k : Channel) (st : ChannelState) : (k.moveTo st).lost = k.lost := rfl
@[simp] theorem moveTo_lapses (k : Channel) (st : ChannelState) : (k.moveTo st).lapses = k.lapses := rfl
@[simp] theorem moveTo_refused (k : Channel) (st : ChannelState) : (k.moveTo st).refused = k.refused := rfl
@[simp] theorem moveTo_reclaims (k : Channel) (st : ChannelState) : (k.moveTo st).reclaims = k.reclaims := rfl
@[simp] theorem moveTo_overRetire (k : Channel) (st : ChannelState) : (k.moveTo st).overRetire = k.overRetire := rfl
@[simp] theorem moveTo_holdoffTimer (k : Channel) (st : ChannelState) : (k.moveTo st).holdoffTimer = k.holdoffTimer := rfl
@[simp] theorem moveTo_claimTimer (k : Channel) (st : ChannelState) : (k.moveTo st).claimTimer = k.claimTimer := rfl
@[simp] theorem moveTo_serviceTimer (k : Channel) (st : ChannelState) : (k.moveTo st).serviceTimer = k.serviceTimer := rfl
@[simp] theorem enterAlerting_config (k : Channel) : (enterAlerting k).config = k.config := rfl
@[simp] theorem enterAlerting_handed (k : Channel) : (enterAlerting k).handed = k.handed := rfl
@[simp] theorem enterAlerting_queued (k : Channel) : (enterAlerting k).queued = k.queued := rfl
@[simp] theorem enterAlerting_pendingSet (k : Channel) : (enterAlerting k).pendingSet = k.pendingSet := rfl
@[simp] theorem enterAlerting_overflow (k : Channel) : (enterAlerting k).overflow = k.overflow := rfl
@[simp] theorem enterAlerting_nextSequence (k : Channel) : (enterAlerting k).nextSequence = k.nextSequence := rfl
@[simp] theorem enterAlerting_lost (k : Channel) : (enterAlerting k).lost = k.lost := rfl
@[simp] theorem enterAlerting_lapses (k : Channel) : (enterAlerting k).lapses = k.lapses := rfl
@[simp] theorem enterAlerting_refused (k : Channel) : (enterAlerting k).refused = k.refused := rfl
@[simp] theorem enterAlerting_reclaims (k : Channel) : (enterAlerting k).reclaims = k.reclaims := rfl
@[simp] theorem enterAlerting_overRetire (k : Channel) : (enterAlerting k).overRetire = k.overRetire := rfl
@[simp] theorem enterAlerting_serviceTimer (k : Channel) : (enterAlerting k).serviceTimer = k.serviceTimer := rfl
@[simp] theorem revert_config (k : Channel) : (revert k).config = k.config := rfl
@[simp] theorem revert_state (k : Channel) : (revert k).state = k.state := rfl
@[simp] theorem revert_alert (k : Channel) : (revert k).alert = k.alert := rfl
@[simp] theorem revert_pendingSet (k : Channel) : (revert k).pendingSet = k.pendingSet := rfl
@[simp] theorem revert_overflow (k : Channel) : (revert k).overflow = k.overflow := rfl
@[simp] theorem revert_nextSequence (k : Channel) : (revert k).nextSequence = k.nextSequence := rfl
@[simp] theorem revert_lost (k : Channel) : (revert k).lost = k.lost := rfl
@[simp] theorem revert_lapses (k : Channel) : (revert k).lapses = k.lapses := rfl
@[simp] theorem revert_refused (k : Channel) : (revert k).refused = k.refused := rfl
@[simp] theorem revert_reclaims (k : Channel) : (revert k).reclaims = k.reclaims := rfl
@[simp] theorem revert_overRetire (k : Channel) : (revert k).overRetire = k.overRetire := rfl
@[simp] theorem revert_holdoffTimer (k : Channel) : (revert k).holdoffTimer = k.holdoffTimer := rfl
@[simp] theorem revert_claimTimer (k : Channel) : (revert k).claimTimer = k.claimTimer := rfl
@[simp] theorem revert_serviceTimer (k : Channel) : (revert k).serviceTimer = k.serviceTimer := rfl
@[simp] theorem stopTimers_config (k : Channel) : (stopTimers k).config = k.config := rfl
@[simp] theorem stopTimers_state (k : Channel) : (stopTimers k).state = k.state := rfl
@[simp] theorem stopTimers_alert (k : Channel) : (stopTimers k).alert = k.alert := rfl
@[simp] theorem stopTimers_handed (k : Channel) : (stopTimers k).handed = k.handed := rfl
@[simp] theorem stopTimers_queued (k : Channel) : (stopTimers k).queued = k.queued := rfl
@[simp] theorem stopTimers_pendingSet (k : Channel) : (stopTimers k).pendingSet = k.pendingSet := rfl
@[simp] theorem stopTimers_overflow (k : Channel) : (stopTimers k).overflow = k.overflow := rfl
@[simp] theorem stopTimers_nextSequence (k : Channel) : (stopTimers k).nextSequence = k.nextSequence := rfl
@[simp] theorem stopTimers_lost (k : Channel) : (stopTimers k).lost = k.lost := rfl
@[simp] theorem stopTimers_lapses (k : Channel) : (stopTimers k).lapses = k.lapses := rfl
@[simp] theorem stopTimers_refused (k : Channel) : (stopTimers k).refused = k.refused := rfl
@[simp] theorem stopTimers_reclaims (k : Channel) : (stopTimers k).reclaims = k.reclaims := rfl
@[simp] theorem stopTimers_overRetire (k : Channel) : (stopTimers k).overRetire = k.overRetire := rfl

/-! ### What an update leaves -/

@[simp] theorem setEntry_pending (i : EntryIndex) (e : Entry) : (s.setEntry i e).pending = s.pending := rfl
@[simp] theorem setEntry_device (i : EntryIndex) (e : Entry) : (s.setEntry i e).device = s.device := rfl
@[simp] theorem setEntry_primingQueue (i : EntryIndex) (e : Entry) : (s.setEntry i e).primingQueue = s.primingQueue := rfl
@[simp] theorem setEntry_freeRecords (i : EntryIndex) (e : Entry) : (s.setEntry i e).freeRecords = s.freeRecords := rfl
@[simp] theorem setEntry_channels (i : EntryIndex) (e : Entry) : (s.setEntry i e).channels = s.channels := rfl
@[simp] theorem setEntry_tickCounter (i : EntryIndex) (e : Entry) : (s.setEntry i e).tickCounter = s.tickCounter := rfl
@[simp] theorem setEntry_tickDivider (i : EntryIndex) (e : Entry) : (s.setEntry i e).tickDivider = s.tickDivider := rfl
@[simp] theorem setEntry_tickPeriod (i : EntryIndex) (e : Entry) : (s.setEntry i e).tickPeriod = s.tickPeriod := rfl
@[simp] theorem setEntry_responseTimeout (i : EntryIndex) (e : Entry) : (s.setEntry i e).responseTimeout = s.responseTimeout := rfl
@[simp] theorem setEntry_tickTaken (i : EntryIndex) (e : Entry) : (s.setEntry i e).tickTaken = s.tickTaken := rfl
@[simp] theorem setEntry_ring (i : EntryIndex) (e : Entry) : (s.setEntry i e).ring = s.ring := rfl
@[simp] theorem setEntry_head (i : EntryIndex) (e : Entry) : (s.setEntry i e).head = s.head := rfl
@[simp] theorem setEntry_link (i : EntryIndex) (e : Entry) : (s.setEntry i e).link = s.link := rfl
@[simp] theorem setEntry_responseTimer (i : EntryIndex) (e : Entry) : (s.setEntry i e).responseTimer = s.responseTimer := rfl
@[simp] theorem setEntry_faultFlags (i : EntryIndex) (e : Entry) : (s.setEntry i e).faultFlags = s.faultFlags := rfl
@[simp] theorem setEntry_faultMask (i : EntryIndex) (e : Entry) : (s.setEntry i e).faultMask = s.faultMask := rfl
@[simp] theorem setEntry_faultLine (i : EntryIndex) (e : Entry) : (s.setEntry i e).faultLine = s.faultLine := rfl
@[simp] theorem setEntry_management (i : EntryIndex) (e : Entry) : (s.setEntry i e).management = s.management := rfl
@[simp] theorem setEntry_upstreamOut (i : EntryIndex) (e : Entry) : (s.setEntry i e).upstreamOut = s.upstreamOut := rfl
@[simp] theorem setEntry_downstreamOut (i : EntryIndex) (e : Entry) : (s.setEntry i e).downstreamOut = s.downstreamOut := rfl
@[simp] theorem setChannel_pending (c : ChannelIndex) (k : Channel) : (s.setChannel c k).pending = s.pending := rfl
@[simp] theorem setChannel_device (c : ChannelIndex) (k : Channel) : (s.setChannel c k).device = s.device := rfl
@[simp] theorem setChannel_entries (c : ChannelIndex) (k : Channel) : (s.setChannel c k).entries = s.entries := rfl
@[simp] theorem setChannel_primingQueue (c : ChannelIndex) (k : Channel) : (s.setChannel c k).primingQueue = s.primingQueue := rfl
@[simp] theorem setChannel_freeRecords (c : ChannelIndex) (k : Channel) : (s.setChannel c k).freeRecords = s.freeRecords := rfl
@[simp] theorem setChannel_tickCounter (c : ChannelIndex) (k : Channel) : (s.setChannel c k).tickCounter = s.tickCounter := rfl
@[simp] theorem setChannel_tickDivider (c : ChannelIndex) (k : Channel) : (s.setChannel c k).tickDivider = s.tickDivider := rfl
@[simp] theorem setChannel_tickPeriod (c : ChannelIndex) (k : Channel) : (s.setChannel c k).tickPeriod = s.tickPeriod := rfl
@[simp] theorem setChannel_responseTimeout (c : ChannelIndex) (k : Channel) : (s.setChannel c k).responseTimeout = s.responseTimeout := rfl
@[simp] theorem setChannel_tickTaken (c : ChannelIndex) (k : Channel) : (s.setChannel c k).tickTaken = s.tickTaken := rfl
@[simp] theorem setChannel_ring (c : ChannelIndex) (k : Channel) : (s.setChannel c k).ring = s.ring := rfl
@[simp] theorem setChannel_head (c : ChannelIndex) (k : Channel) : (s.setChannel c k).head = s.head := rfl
@[simp] theorem setChannel_link (c : ChannelIndex) (k : Channel) : (s.setChannel c k).link = s.link := rfl
@[simp] theorem setChannel_responseTimer (c : ChannelIndex) (k : Channel) : (s.setChannel c k).responseTimer = s.responseTimer := rfl
@[simp] theorem setChannel_faultFlags (c : ChannelIndex) (k : Channel) : (s.setChannel c k).faultFlags = s.faultFlags := rfl
@[simp] theorem setChannel_faultMask (c : ChannelIndex) (k : Channel) : (s.setChannel c k).faultMask = s.faultMask := rfl
@[simp] theorem setChannel_faultLine (c : ChannelIndex) (k : Channel) : (s.setChannel c k).faultLine = s.faultLine := rfl
@[simp] theorem setChannel_management (c : ChannelIndex) (k : Channel) : (s.setChannel c k).management = s.management := rfl
@[simp] theorem setChannel_upstreamOut (c : ChannelIndex) (k : Channel) : (s.setChannel c k).upstreamOut = s.upstreamOut := rfl
@[simp] theorem setChannel_downstreamOut (c : ChannelIndex) (k : Channel) : (s.setChannel c k).downstreamOut = s.downstreamOut := rfl
@[simp] theorem withFaults_pending (flags : BitVec 7) : (s.withFaults flags).pending = s.pending := rfl
@[simp] theorem withFaults_device (flags : BitVec 7) : (s.withFaults flags).device = s.device := rfl
@[simp] theorem withFaults_entries (flags : BitVec 7) : (s.withFaults flags).entries = s.entries := rfl
@[simp] theorem withFaults_primingQueue (flags : BitVec 7) : (s.withFaults flags).primingQueue = s.primingQueue := rfl
@[simp] theorem withFaults_freeRecords (flags : BitVec 7) : (s.withFaults flags).freeRecords = s.freeRecords := rfl
@[simp] theorem withFaults_channels (flags : BitVec 7) : (s.withFaults flags).channels = s.channels := rfl
@[simp] theorem withFaults_tickCounter (flags : BitVec 7) : (s.withFaults flags).tickCounter = s.tickCounter := rfl
@[simp] theorem withFaults_tickDivider (flags : BitVec 7) : (s.withFaults flags).tickDivider = s.tickDivider := rfl
@[simp] theorem withFaults_tickPeriod (flags : BitVec 7) : (s.withFaults flags).tickPeriod = s.tickPeriod := rfl
@[simp] theorem withFaults_responseTimeout (flags : BitVec 7) : (s.withFaults flags).responseTimeout = s.responseTimeout := rfl
@[simp] theorem withFaults_tickTaken (flags : BitVec 7) : (s.withFaults flags).tickTaken = s.tickTaken := rfl
@[simp] theorem withFaults_ring (flags : BitVec 7) : (s.withFaults flags).ring = s.ring := rfl
@[simp] theorem withFaults_head (flags : BitVec 7) : (s.withFaults flags).head = s.head := rfl
@[simp] theorem withFaults_link (flags : BitVec 7) : (s.withFaults flags).link = s.link := rfl
@[simp] theorem withFaults_responseTimer (flags : BitVec 7) : (s.withFaults flags).responseTimer = s.responseTimer := rfl
@[simp] theorem withFaults_faultMask (flags : BitVec 7) : (s.withFaults flags).faultMask = s.faultMask := rfl
@[simp] theorem withFaults_management (flags : BitVec 7) : (s.withFaults flags).management = s.management := rfl
@[simp] theorem withFaults_upstreamOut (flags : BitVec 7) : (s.withFaults flags).upstreamOut = s.upstreamOut := rfl
@[simp] theorem withFaults_downstreamOut (flags : BitVec 7) : (s.withFaults flags).downstreamOut = s.downstreamOut := rfl
@[simp] theorem withFaultMask_pending (mask : BitVec 7) : (s.withFaultMask mask).pending = s.pending := rfl
@[simp] theorem withFaultMask_device (mask : BitVec 7) : (s.withFaultMask mask).device = s.device := rfl
@[simp] theorem withFaultMask_entries (mask : BitVec 7) : (s.withFaultMask mask).entries = s.entries := rfl
@[simp] theorem withFaultMask_primingQueue (mask : BitVec 7) : (s.withFaultMask mask).primingQueue = s.primingQueue := rfl
@[simp] theorem withFaultMask_freeRecords (mask : BitVec 7) : (s.withFaultMask mask).freeRecords = s.freeRecords := rfl
@[simp] theorem withFaultMask_channels (mask : BitVec 7) : (s.withFaultMask mask).channels = s.channels := rfl
@[simp] theorem withFaultMask_tickCounter (mask : BitVec 7) : (s.withFaultMask mask).tickCounter = s.tickCounter := rfl
@[simp] theorem withFaultMask_tickDivider (mask : BitVec 7) : (s.withFaultMask mask).tickDivider = s.tickDivider := rfl
@[simp] theorem withFaultMask_tickPeriod (mask : BitVec 7) : (s.withFaultMask mask).tickPeriod = s.tickPeriod := rfl
@[simp] theorem withFaultMask_responseTimeout (mask : BitVec 7) : (s.withFaultMask mask).responseTimeout = s.responseTimeout := rfl
@[simp] theorem withFaultMask_tickTaken (mask : BitVec 7) : (s.withFaultMask mask).tickTaken = s.tickTaken := rfl
@[simp] theorem withFaultMask_ring (mask : BitVec 7) : (s.withFaultMask mask).ring = s.ring := rfl
@[simp] theorem withFaultMask_head (mask : BitVec 7) : (s.withFaultMask mask).head = s.head := rfl
@[simp] theorem withFaultMask_link (mask : BitVec 7) : (s.withFaultMask mask).link = s.link := rfl
@[simp] theorem withFaultMask_responseTimer (mask : BitVec 7) : (s.withFaultMask mask).responseTimer = s.responseTimer := rfl
@[simp] theorem withFaultMask_faultFlags (mask : BitVec 7) : (s.withFaultMask mask).faultFlags = s.faultFlags := rfl
@[simp] theorem withFaultMask_management (mask : BitVec 7) : (s.withFaultMask mask).management = s.management := rfl
@[simp] theorem withFaultMask_upstreamOut (mask : BitVec 7) : (s.withFaultMask mask).upstreamOut = s.upstreamOut := rfl
@[simp] theorem withFaultMask_downstreamOut (mask : BitVec 7) : (s.withFaultMask mask).downstreamOut = s.downstreamOut := rfl
@[simp] theorem raise_pending (f : FaultFlag) : (s.raise f).pending = s.pending := rfl
@[simp] theorem raise_device (f : FaultFlag) : (s.raise f).device = s.device := rfl
@[simp] theorem raise_entries (f : FaultFlag) : (s.raise f).entries = s.entries := rfl
@[simp] theorem raise_primingQueue (f : FaultFlag) : (s.raise f).primingQueue = s.primingQueue := rfl
@[simp] theorem raise_freeRecords (f : FaultFlag) : (s.raise f).freeRecords = s.freeRecords := rfl
@[simp] theorem raise_channels (f : FaultFlag) : (s.raise f).channels = s.channels := rfl
@[simp] theorem raise_tickCounter (f : FaultFlag) : (s.raise f).tickCounter = s.tickCounter := rfl
@[simp] theorem raise_tickDivider (f : FaultFlag) : (s.raise f).tickDivider = s.tickDivider := rfl
@[simp] theorem raise_tickPeriod (f : FaultFlag) : (s.raise f).tickPeriod = s.tickPeriod := rfl
@[simp] theorem raise_responseTimeout (f : FaultFlag) : (s.raise f).responseTimeout = s.responseTimeout := rfl
@[simp] theorem raise_tickTaken (f : FaultFlag) : (s.raise f).tickTaken = s.tickTaken := rfl
@[simp] theorem raise_ring (f : FaultFlag) : (s.raise f).ring = s.ring := rfl
@[simp] theorem raise_head (f : FaultFlag) : (s.raise f).head = s.head := rfl
@[simp] theorem raise_link (f : FaultFlag) : (s.raise f).link = s.link := rfl
@[simp] theorem raise_responseTimer (f : FaultFlag) : (s.raise f).responseTimer = s.responseTimer := rfl
@[simp] theorem raise_faultMask (f : FaultFlag) : (s.raise f).faultMask = s.faultMask := rfl
@[simp] theorem raise_management (f : FaultFlag) : (s.raise f).management = s.management := rfl
@[simp] theorem raise_upstreamOut (f : FaultFlag) : (s.raise f).upstreamOut = s.upstreamOut := rfl
@[simp] theorem raise_downstreamOut (f : FaultFlag) : (s.raise f).downstreamOut = s.downstreamOut := rfl
@[simp] theorem answer_pending (code : Byte) (args : List Byte) (result : ResultCode) (response : List Byte) : (answer code args result response s).pending = s.pending := rfl
@[simp] theorem answer_device (code : Byte) (args : List Byte) (result : ResultCode) (response : List Byte) : (answer code args result response s).device = s.device := rfl
@[simp] theorem answer_entries (code : Byte) (args : List Byte) (result : ResultCode) (response : List Byte) : (answer code args result response s).entries = s.entries := rfl
@[simp] theorem answer_primingQueue (code : Byte) (args : List Byte) (result : ResultCode) (response : List Byte) : (answer code args result response s).primingQueue = s.primingQueue := rfl
@[simp] theorem answer_freeRecords (code : Byte) (args : List Byte) (result : ResultCode) (response : List Byte) : (answer code args result response s).freeRecords = s.freeRecords := rfl
@[simp] theorem answer_channels (code : Byte) (args : List Byte) (result : ResultCode) (response : List Byte) : (answer code args result response s).channels = s.channels := rfl
@[simp] theorem answer_tickCounter (code : Byte) (args : List Byte) (result : ResultCode) (response : List Byte) : (answer code args result response s).tickCounter = s.tickCounter := rfl
@[simp] theorem answer_tickDivider (code : Byte) (args : List Byte) (result : ResultCode) (response : List Byte) : (answer code args result response s).tickDivider = s.tickDivider := rfl
@[simp] theorem answer_tickPeriod (code : Byte) (args : List Byte) (result : ResultCode) (response : List Byte) : (answer code args result response s).tickPeriod = s.tickPeriod := rfl
@[simp] theorem answer_responseTimeout (code : Byte) (args : List Byte) (result : ResultCode) (response : List Byte) : (answer code args result response s).responseTimeout = s.responseTimeout := rfl
@[simp] theorem answer_tickTaken (code : Byte) (args : List Byte) (result : ResultCode) (response : List Byte) : (answer code args result response s).tickTaken = s.tickTaken := rfl
@[simp] theorem answer_ring (code : Byte) (args : List Byte) (result : ResultCode) (response : List Byte) : (answer code args result response s).ring = s.ring := rfl
@[simp] theorem answer_head (code : Byte) (args : List Byte) (result : ResultCode) (response : List Byte) : (answer code args result response s).head = s.head := rfl
@[simp] theorem answer_link (code : Byte) (args : List Byte) (result : ResultCode) (response : List Byte) : (answer code args result response s).link = s.link := rfl
@[simp] theorem answer_responseTimer (code : Byte) (args : List Byte) (result : ResultCode) (response : List Byte) : (answer code args result response s).responseTimer = s.responseTimer := rfl
@[simp] theorem answer_faultFlags (code : Byte) (args : List Byte) (result : ResultCode) (response : List Byte) : (answer code args result response s).faultFlags = s.faultFlags := rfl
@[simp] theorem answer_faultMask (code : Byte) (args : List Byte) (result : ResultCode) (response : List Byte) : (answer code args result response s).faultMask = s.faultMask := rfl
@[simp] theorem answer_faultLine (code : Byte) (args : List Byte) (result : ResultCode) (response : List Byte) : (answer code args result response s).faultLine = s.faultLine := rfl
@[simp] theorem answer_upstreamOut (code : Byte) (args : List Byte) (result : ResultCode) (response : List Byte) : (answer code args result response s).upstreamOut = s.upstreamOut := rfl
@[simp] theorem answer_downstreamOut (code : Byte) (args : List Byte) (result : ResultCode) (response : List Byte) : (answer code args result response s).downstreamOut = s.downstreamOut := rfl
@[simp] theorem clockSelect_pending (bits : List Bool) : (clockSelect s bits).pending = s.pending := rfl
@[simp] theorem riseSelect_pending : (riseSelect s).pending = s.pending := by unfold riseSelect; split <;> rfl
@[simp] theorem clockSelect_device (bits : List Bool) : (clockSelect s bits).device = s.device := rfl
@[simp] theorem riseSelect_device : (riseSelect s).device = s.device := by unfold riseSelect; split <;> rfl
@[simp] theorem clockSelect_entries (bits : List Bool) : (clockSelect s bits).entries = s.entries := rfl
@[simp] theorem riseSelect_entries : (riseSelect s).entries = s.entries := by unfold riseSelect; split <;> rfl
@[simp] theorem clockSelect_primingQueue (bits : List Bool) : (clockSelect s bits).primingQueue = s.primingQueue := rfl
@[simp] theorem riseSelect_primingQueue : (riseSelect s).primingQueue = s.primingQueue := by unfold riseSelect; split <;> rfl
@[simp] theorem clockSelect_freeRecords (bits : List Bool) : (clockSelect s bits).freeRecords = s.freeRecords := rfl
@[simp] theorem riseSelect_freeRecords : (riseSelect s).freeRecords = s.freeRecords := by unfold riseSelect; split <;> rfl
@[simp] theorem clockSelect_channels (bits : List Bool) : (clockSelect s bits).channels = s.channels := rfl
@[simp] theorem riseSelect_channels : (riseSelect s).channels = s.channels := by unfold riseSelect; split <;> rfl
@[simp] theorem clockSelect_tickCounter (bits : List Bool) : (clockSelect s bits).tickCounter = s.tickCounter := rfl
@[simp] theorem riseSelect_tickCounter : (riseSelect s).tickCounter = s.tickCounter := by unfold riseSelect; split <;> rfl
@[simp] theorem clockSelect_tickDivider (bits : List Bool) : (clockSelect s bits).tickDivider = s.tickDivider := rfl
@[simp] theorem riseSelect_tickDivider : (riseSelect s).tickDivider = s.tickDivider := by unfold riseSelect; split <;> rfl
@[simp] theorem clockSelect_tickPeriod (bits : List Bool) : (clockSelect s bits).tickPeriod = s.tickPeriod := rfl
@[simp] theorem riseSelect_tickPeriod : (riseSelect s).tickPeriod = s.tickPeriod := by unfold riseSelect; split <;> rfl
@[simp] theorem clockSelect_responseTimeout (bits : List Bool) : (clockSelect s bits).responseTimeout = s.responseTimeout := rfl
@[simp] theorem clockSelect_tickTaken (bits : List Bool) : (clockSelect s bits).tickTaken = s.tickTaken := rfl
@[simp] theorem riseSelect_responseTimeout : (riseSelect s).responseTimeout = s.responseTimeout := by unfold riseSelect; split <;> rfl
@[simp] theorem riseSelect_tickTaken : (riseSelect s).tickTaken = s.tickTaken := by unfold riseSelect; split <;> rfl
@[simp] theorem clockSelect_ring (bits : List Bool) : (clockSelect s bits).ring = s.ring := rfl
@[simp] theorem riseSelect_ring : (riseSelect s).ring = s.ring := by unfold riseSelect; split <;> rfl
@[simp] theorem clockSelect_head (bits : List Bool) : (clockSelect s bits).head = s.head := rfl
@[simp] theorem riseSelect_head : (riseSelect s).head = s.head := by unfold riseSelect; split <;> rfl
@[simp] theorem clockSelect_link (bits : List Bool) : (clockSelect s bits).link = s.link := rfl
@[simp] theorem riseSelect_link : (riseSelect s).link = s.link := by unfold riseSelect; split <;> rfl
@[simp] theorem clockSelect_responseTimer (bits : List Bool) : (clockSelect s bits).responseTimer = s.responseTimer := rfl
@[simp] theorem riseSelect_responseTimer : (riseSelect s).responseTimer = s.responseTimer := by unfold riseSelect; split <;> rfl
@[simp] theorem clockSelect_faultFlags (bits : List Bool) : (clockSelect s bits).faultFlags = s.faultFlags := rfl
@[simp] theorem clockSelect_faultMask (bits : List Bool) : (clockSelect s bits).faultMask = s.faultMask := rfl
@[simp] theorem riseSelect_faultMask : (riseSelect s).faultMask = s.faultMask := by unfold riseSelect; split <;> rfl
@[simp] theorem clockSelect_faultLine (bits : List Bool) : (clockSelect s bits).faultLine = s.faultLine := rfl
@[simp] theorem clockSelect_upstreamOut (bits : List Bool) : (clockSelect s bits).upstreamOut = s.upstreamOut := rfl
@[simp] theorem riseSelect_upstreamOut : (riseSelect s).upstreamOut = s.upstreamOut := by unfold riseSelect; split <;> rfl
@[simp] theorem clockSelect_downstreamOut (bits : List Bool) : (clockSelect s bits).downstreamOut = s.downstreamOut := rfl
@[simp] theorem riseSelect_downstreamOut : (riseSelect s).downstreamOut = s.downstreamOut := by unfold riseSelect; split <;> rfl
@[simp] theorem deliverTo_pending (c : ChannelIndex) : (deliverTo s c).pending = s.pending := rfl
@[simp] theorem deliverTo_device (c : ChannelIndex) : (deliverTo s c).device = s.device := rfl
@[simp] theorem deliverTo_entries (c : ChannelIndex) : (deliverTo s c).entries = s.entries := rfl
@[simp] theorem deliverTo_primingQueue (c : ChannelIndex) : (deliverTo s c).primingQueue = s.primingQueue := rfl
@[simp] theorem deliverTo_freeRecords (c : ChannelIndex) : (deliverTo s c).freeRecords = s.freeRecords := rfl
@[simp] theorem deliverTo_tickCounter (c : ChannelIndex) : (deliverTo s c).tickCounter = s.tickCounter := rfl
@[simp] theorem deliverTo_tickDivider (c : ChannelIndex) : (deliverTo s c).tickDivider = s.tickDivider := rfl
@[simp] theorem deliverTo_tickPeriod (c : ChannelIndex) : (deliverTo s c).tickPeriod = s.tickPeriod := rfl
@[simp] theorem deliverTo_responseTimeout (c : ChannelIndex) : (deliverTo s c).responseTimeout = s.responseTimeout := rfl
@[simp] theorem deliverTo_tickTaken (c : ChannelIndex) : (deliverTo s c).tickTaken = s.tickTaken := rfl
@[simp] theorem deliverTo_ring (c : ChannelIndex) : (deliverTo s c).ring = s.ring := rfl
@[simp] theorem deliverTo_head (c : ChannelIndex) : (deliverTo s c).head = s.head := rfl
@[simp] theorem deliverTo_link (c : ChannelIndex) : (deliverTo s c).link = s.link := rfl
@[simp] theorem deliverTo_responseTimer (c : ChannelIndex) : (deliverTo s c).responseTimer = s.responseTimer := rfl
@[simp] theorem deliverTo_faultFlags (c : ChannelIndex) : (deliverTo s c).faultFlags = s.faultFlags := rfl
@[simp] theorem deliverTo_faultMask (c : ChannelIndex) : (deliverTo s c).faultMask = s.faultMask := rfl
@[simp] theorem deliverTo_faultLine (c : ChannelIndex) : (deliverTo s c).faultLine = s.faultLine := rfl
@[simp] theorem deliverTo_management (c : ChannelIndex) : (deliverTo s c).management = s.management := rfl
@[simp] theorem deliverTo_upstreamOut (c : ChannelIndex) : (deliverTo s c).upstreamOut = s.upstreamOut := rfl
@[simp] theorem deliverTo_downstreamOut (c : ChannelIndex) : (deliverTo s c).downstreamOut = s.downstreamOut := rfl
@[simp] theorem appendRecord_pending (c : ChannelIndex) (body : RecordBody) (timestamp : Word) : (appendRecord s c body timestamp).pending = s.pending := rfl
@[simp] theorem appendRecord_device (c : ChannelIndex) (body : RecordBody) (timestamp : Word) : (appendRecord s c body timestamp).device = s.device := rfl
@[simp] theorem appendRecord_entries (c : ChannelIndex) (body : RecordBody) (timestamp : Word) : (appendRecord s c body timestamp).entries = s.entries := rfl
@[simp] theorem appendRecord_primingQueue (c : ChannelIndex) (body : RecordBody) (timestamp : Word) : (appendRecord s c body timestamp).primingQueue = s.primingQueue := rfl
@[simp] theorem appendRecord_tickCounter (c : ChannelIndex) (body : RecordBody) (timestamp : Word) : (appendRecord s c body timestamp).tickCounter = s.tickCounter := rfl
@[simp] theorem appendRecord_tickDivider (c : ChannelIndex) (body : RecordBody) (timestamp : Word) : (appendRecord s c body timestamp).tickDivider = s.tickDivider := rfl
@[simp] theorem appendRecord_tickPeriod (c : ChannelIndex) (body : RecordBody) (timestamp : Word) : (appendRecord s c body timestamp).tickPeriod = s.tickPeriod := rfl
@[simp] theorem appendRecord_responseTimeout (c : ChannelIndex) (body : RecordBody) (timestamp : Word) : (appendRecord s c body timestamp).responseTimeout = s.responseTimeout := rfl
@[simp] theorem appendRecord_tickTaken (c : ChannelIndex) (body : RecordBody) (timestamp : Word) : (appendRecord s c body timestamp).tickTaken = s.tickTaken := rfl
@[simp] theorem appendRecord_ring (c : ChannelIndex) (body : RecordBody) (timestamp : Word) : (appendRecord s c body timestamp).ring = s.ring := rfl
@[simp] theorem appendRecord_head (c : ChannelIndex) (body : RecordBody) (timestamp : Word) : (appendRecord s c body timestamp).head = s.head := rfl
@[simp] theorem appendRecord_link (c : ChannelIndex) (body : RecordBody) (timestamp : Word) : (appendRecord s c body timestamp).link = s.link := rfl
@[simp] theorem appendRecord_responseTimer (c : ChannelIndex) (body : RecordBody) (timestamp : Word) : (appendRecord s c body timestamp).responseTimer = s.responseTimer := rfl
@[simp] theorem appendRecord_faultFlags (c : ChannelIndex) (body : RecordBody) (timestamp : Word) : (appendRecord s c body timestamp).faultFlags = s.faultFlags := rfl
@[simp] theorem appendRecord_faultMask (c : ChannelIndex) (body : RecordBody) (timestamp : Word) : (appendRecord s c body timestamp).faultMask = s.faultMask := rfl
@[simp] theorem appendRecord_faultLine (c : ChannelIndex) (body : RecordBody) (timestamp : Word) : (appendRecord s c body timestamp).faultLine = s.faultLine := rfl
@[simp] theorem appendRecord_management (c : ChannelIndex) (body : RecordBody) (timestamp : Word) : (appendRecord s c body timestamp).management = s.management := rfl
@[simp] theorem appendRecord_upstreamOut (c : ChannelIndex) (body : RecordBody) (timestamp : Word) : (appendRecord s c body timestamp).upstreamOut = s.upstreamOut := rfl
@[simp] theorem appendRecord_downstreamOut (c : ChannelIndex) (body : RecordBody) (timestamp : Word) : (appendRecord s c body timestamp).downstreamOut = s.downstreamOut := rfl
@[simp] theorem freeQueue_pending (c : ChannelIndex) : (freeQueue s c).pending = s.pending := rfl
@[simp] theorem freeQueue_device (c : ChannelIndex) : (freeQueue s c).device = s.device := rfl
@[simp] theorem freeQueue_entries (c : ChannelIndex) : (freeQueue s c).entries = s.entries := rfl
@[simp] theorem freeQueue_primingQueue (c : ChannelIndex) : (freeQueue s c).primingQueue = s.primingQueue := rfl
@[simp] theorem freeQueue_tickCounter (c : ChannelIndex) : (freeQueue s c).tickCounter = s.tickCounter := rfl
@[simp] theorem freeQueue_tickDivider (c : ChannelIndex) : (freeQueue s c).tickDivider = s.tickDivider := rfl
@[simp] theorem freeQueue_tickPeriod (c : ChannelIndex) : (freeQueue s c).tickPeriod = s.tickPeriod := rfl
@[simp] theorem freeQueue_responseTimeout (c : ChannelIndex) : (freeQueue s c).responseTimeout = s.responseTimeout := rfl
@[simp] theorem freeQueue_tickTaken (c : ChannelIndex) : (freeQueue s c).tickTaken = s.tickTaken := rfl
@[simp] theorem freeQueue_ring (c : ChannelIndex) : (freeQueue s c).ring = s.ring := rfl
@[simp] theorem freeQueue_head (c : ChannelIndex) : (freeQueue s c).head = s.head := rfl
@[simp] theorem freeQueue_link (c : ChannelIndex) : (freeQueue s c).link = s.link := rfl
@[simp] theorem freeQueue_responseTimer (c : ChannelIndex) : (freeQueue s c).responseTimer = s.responseTimer := rfl
@[simp] theorem freeQueue_faultFlags (c : ChannelIndex) : (freeQueue s c).faultFlags = s.faultFlags := rfl
@[simp] theorem freeQueue_faultMask (c : ChannelIndex) : (freeQueue s c).faultMask = s.faultMask := rfl
@[simp] theorem freeQueue_faultLine (c : ChannelIndex) : (freeQueue s c).faultLine = s.faultLine := rfl
@[simp] theorem freeQueue_management (c : ChannelIndex) : (freeQueue s c).management = s.management := rfl
@[simp] theorem freeQueue_upstreamOut (c : ChannelIndex) : (freeQueue s c).upstreamOut = s.upstreamOut := rfl
@[simp] theorem freeQueue_downstreamOut (c : ChannelIndex) : (freeQueue s c).downstreamOut = s.downstreamOut := rfl
@[simp] theorem leavePendingSet_pending (i : EntryIndex) : (leavePendingSet s i).pending = s.pending := rfl
@[simp] theorem leavePendingSet_device (i : EntryIndex) : (leavePendingSet s i).device = s.device := rfl
@[simp] theorem leavePendingSet_entries (i : EntryIndex) : (leavePendingSet s i).entries = s.entries := rfl
@[simp] theorem leavePendingSet_primingQueue (i : EntryIndex) : (leavePendingSet s i).primingQueue = s.primingQueue := rfl
@[simp] theorem leavePendingSet_freeRecords (i : EntryIndex) : (leavePendingSet s i).freeRecords = s.freeRecords := rfl
@[simp] theorem leavePendingSet_tickCounter (i : EntryIndex) : (leavePendingSet s i).tickCounter = s.tickCounter := rfl
@[simp] theorem leavePendingSet_tickDivider (i : EntryIndex) : (leavePendingSet s i).tickDivider = s.tickDivider := rfl
@[simp] theorem leavePendingSet_tickPeriod (i : EntryIndex) : (leavePendingSet s i).tickPeriod = s.tickPeriod := rfl
@[simp] theorem leavePendingSet_responseTimeout (i : EntryIndex) : (leavePendingSet s i).responseTimeout = s.responseTimeout := rfl
@[simp] theorem leavePendingSet_tickTaken (i : EntryIndex) : (leavePendingSet s i).tickTaken = s.tickTaken := rfl
@[simp] theorem leavePendingSet_ring (i : EntryIndex) : (leavePendingSet s i).ring = s.ring := rfl
@[simp] theorem leavePendingSet_head (i : EntryIndex) : (leavePendingSet s i).head = s.head := rfl
@[simp] theorem leavePendingSet_link (i : EntryIndex) : (leavePendingSet s i).link = s.link := rfl
@[simp] theorem leavePendingSet_responseTimer (i : EntryIndex) : (leavePendingSet s i).responseTimer = s.responseTimer := rfl
@[simp] theorem leavePendingSet_faultFlags (i : EntryIndex) : (leavePendingSet s i).faultFlags = s.faultFlags := rfl
@[simp] theorem leavePendingSet_faultMask (i : EntryIndex) : (leavePendingSet s i).faultMask = s.faultMask := rfl
@[simp] theorem leavePendingSet_faultLine (i : EntryIndex) : (leavePendingSet s i).faultLine = s.faultLine := rfl
@[simp] theorem leavePendingSet_management (i : EntryIndex) : (leavePendingSet s i).management = s.management := rfl
@[simp] theorem leavePendingSet_upstreamOut (i : EntryIndex) : (leavePendingSet s i).upstreamOut = s.upstreamOut := rfl
@[simp] theorem leavePendingSet_downstreamOut (i : EntryIndex) : (leavePendingSet s i).downstreamOut = s.downstreamOut := rfl
@[simp] theorem replaceShadow_pending (i : EntryIndex) (new : Word) : (replaceShadow s i new).pending = s.pending := rfl
@[simp] theorem replaceShadow_device (i : EntryIndex) (new : Word) : (replaceShadow s i new).device = s.device := rfl
@[simp] theorem replaceShadow_primingQueue (i : EntryIndex) (new : Word) : (replaceShadow s i new).primingQueue = s.primingQueue := rfl
@[simp] theorem replaceShadow_freeRecords (i : EntryIndex) (new : Word) : (replaceShadow s i new).freeRecords = s.freeRecords := rfl
@[simp] theorem replaceShadow_channels (i : EntryIndex) (new : Word) : (replaceShadow s i new).channels = s.channels := rfl
@[simp] theorem replaceShadow_tickCounter (i : EntryIndex) (new : Word) : (replaceShadow s i new).tickCounter = s.tickCounter := rfl
@[simp] theorem replaceShadow_tickDivider (i : EntryIndex) (new : Word) : (replaceShadow s i new).tickDivider = s.tickDivider := rfl
@[simp] theorem replaceShadow_tickPeriod (i : EntryIndex) (new : Word) : (replaceShadow s i new).tickPeriod = s.tickPeriod := rfl
@[simp] theorem replaceShadow_responseTimeout (i : EntryIndex) (new : Word) : (replaceShadow s i new).responseTimeout = s.responseTimeout := rfl
@[simp] theorem replaceShadow_tickTaken (i : EntryIndex) (new : Word) : (replaceShadow s i new).tickTaken = s.tickTaken := rfl
@[simp] theorem replaceShadow_ring (i : EntryIndex) (new : Word) : (replaceShadow s i new).ring = s.ring := rfl
@[simp] theorem replaceShadow_head (i : EntryIndex) (new : Word) : (replaceShadow s i new).head = s.head := rfl
@[simp] theorem replaceShadow_link (i : EntryIndex) (new : Word) : (replaceShadow s i new).link = s.link := rfl
@[simp] theorem replaceShadow_responseTimer (i : EntryIndex) (new : Word) : (replaceShadow s i new).responseTimer = s.responseTimer := rfl
@[simp] theorem replaceShadow_faultFlags (i : EntryIndex) (new : Word) : (replaceShadow s i new).faultFlags = s.faultFlags := rfl
@[simp] theorem replaceShadow_faultMask (i : EntryIndex) (new : Word) : (replaceShadow s i new).faultMask = s.faultMask := rfl
@[simp] theorem replaceShadow_faultLine (i : EntryIndex) (new : Word) : (replaceShadow s i new).faultLine = s.faultLine := rfl
@[simp] theorem replaceShadow_management (i : EntryIndex) (new : Word) : (replaceShadow s i new).management = s.management := rfl
@[simp] theorem replaceShadow_upstreamOut (i : EntryIndex) (new : Word) : (replaceShadow s i new).upstreamOut = s.upstreamOut := rfl
@[simp] theorem replaceShadow_downstreamOut (i : EntryIndex) (new : Word) : (replaceShadow s i new).downstreamOut = s.downstreamOut := rfl
@[simp] theorem leavePriming_pending (i : EntryIndex) : (leavePriming s i).pending = s.pending := rfl
@[simp] theorem leavePriming_device (i : EntryIndex) : (leavePriming s i).device = s.device := rfl
@[simp] theorem leavePriming_entries (i : EntryIndex) : (leavePriming s i).entries = s.entries := rfl
@[simp] theorem leavePriming_freeRecords (i : EntryIndex) : (leavePriming s i).freeRecords = s.freeRecords := rfl
@[simp] theorem leavePriming_channels (i : EntryIndex) : (leavePriming s i).channels = s.channels := rfl
@[simp] theorem leavePriming_tickCounter (i : EntryIndex) : (leavePriming s i).tickCounter = s.tickCounter := rfl
@[simp] theorem leavePriming_tickDivider (i : EntryIndex) : (leavePriming s i).tickDivider = s.tickDivider := rfl
@[simp] theorem leavePriming_tickPeriod (i : EntryIndex) : (leavePriming s i).tickPeriod = s.tickPeriod := rfl
@[simp] theorem leavePriming_responseTimeout (i : EntryIndex) : (leavePriming s i).responseTimeout = s.responseTimeout := rfl
@[simp] theorem leavePriming_tickTaken (i : EntryIndex) : (leavePriming s i).tickTaken = s.tickTaken := rfl
@[simp] theorem leavePriming_ring (i : EntryIndex) : (leavePriming s i).ring = s.ring := rfl
@[simp] theorem leavePriming_head (i : EntryIndex) : (leavePriming s i).head = s.head := rfl
@[simp] theorem leavePriming_link (i : EntryIndex) : (leavePriming s i).link = s.link := rfl
@[simp] theorem leavePriming_responseTimer (i : EntryIndex) : (leavePriming s i).responseTimer = s.responseTimer := rfl
@[simp] theorem leavePriming_faultFlags (i : EntryIndex) : (leavePriming s i).faultFlags = s.faultFlags := rfl
@[simp] theorem leavePriming_faultMask (i : EntryIndex) : (leavePriming s i).faultMask = s.faultMask := rfl
@[simp] theorem leavePriming_faultLine (i : EntryIndex) : (leavePriming s i).faultLine = s.faultLine := rfl
@[simp] theorem leavePriming_management (i : EntryIndex) : (leavePriming s i).management = s.management := rfl
@[simp] theorem leavePriming_upstreamOut (i : EntryIndex) : (leavePriming s i).upstreamOut = s.upstreamOut := rfl
@[simp] theorem leavePriming_downstreamOut (i : EntryIndex) : (leavePriming s i).downstreamOut = s.downstreamOut := rfl
@[simp] theorem arm_pending (i : EntryIndex) : (arm s i).pending = s.pending := rfl
@[simp] theorem arm_device (i : EntryIndex) : (arm s i).device = s.device := rfl
@[simp] theorem arm_freeRecords (i : EntryIndex) : (arm s i).freeRecords = s.freeRecords := rfl
@[simp] theorem arm_channels (i : EntryIndex) : (arm s i).channels = s.channels := rfl
@[simp] theorem arm_tickCounter (i : EntryIndex) : (arm s i).tickCounter = s.tickCounter := rfl
@[simp] theorem arm_tickDivider (i : EntryIndex) : (arm s i).tickDivider = s.tickDivider := rfl
@[simp] theorem arm_tickPeriod (i : EntryIndex) : (arm s i).tickPeriod = s.tickPeriod := rfl
@[simp] theorem arm_responseTimeout (i : EntryIndex) : (arm s i).responseTimeout = s.responseTimeout := rfl
@[simp] theorem arm_tickTaken (i : EntryIndex) : (arm s i).tickTaken = s.tickTaken := rfl
@[simp] theorem arm_ring (i : EntryIndex) : (arm s i).ring = s.ring := rfl
@[simp] theorem arm_head (i : EntryIndex) : (arm s i).head = s.head := rfl
@[simp] theorem arm_link (i : EntryIndex) : (arm s i).link = s.link := rfl
@[simp] theorem arm_responseTimer (i : EntryIndex) : (arm s i).responseTimer = s.responseTimer := rfl
@[simp] theorem arm_faultFlags (i : EntryIndex) : (arm s i).faultFlags = s.faultFlags := rfl
@[simp] theorem arm_faultMask (i : EntryIndex) : (arm s i).faultMask = s.faultMask := rfl
@[simp] theorem arm_faultLine (i : EntryIndex) : (arm s i).faultLine = s.faultLine := rfl
@[simp] theorem arm_management (i : EntryIndex) : (arm s i).management = s.management := rfl
@[simp] theorem arm_upstreamOut (i : EntryIndex) : (arm s i).upstreamOut = s.upstreamOut := rfl
@[simp] theorem arm_downstreamOut (i : EntryIndex) : (arm s i).downstreamOut = s.downstreamOut := rfl
@[simp] theorem allocate_pending (x : Slot) : (allocate s x).pending = s.pending := rfl
@[simp] theorem allocate_device (x : Slot) : (allocate s x).device = s.device := rfl
@[simp] theorem allocate_entries (x : Slot) : (allocate s x).entries = s.entries := rfl
@[simp] theorem allocate_primingQueue (x : Slot) : (allocate s x).primingQueue = s.primingQueue := rfl
@[simp] theorem allocate_freeRecords (x : Slot) : (allocate s x).freeRecords = s.freeRecords := rfl
@[simp] theorem allocate_channels (x : Slot) : (allocate s x).channels = s.channels := rfl
@[simp] theorem allocate_tickCounter (x : Slot) : (allocate s x).tickCounter = s.tickCounter := rfl
@[simp] theorem allocate_tickDivider (x : Slot) : (allocate s x).tickDivider = s.tickDivider := rfl
@[simp] theorem allocate_tickPeriod (x : Slot) : (allocate s x).tickPeriod = s.tickPeriod := rfl
@[simp] theorem allocate_responseTimeout (x : Slot) : (allocate s x).responseTimeout = s.responseTimeout := rfl
@[simp] theorem allocate_tickTaken (x : Slot) : (allocate s x).tickTaken = s.tickTaken := rfl
@[simp] theorem allocate_head (x : Slot) : (allocate s x).head = s.head := rfl
@[simp] theorem allocate_link (x : Slot) : (allocate s x).link = s.link := rfl
@[simp] theorem allocate_faultFlags (x : Slot) : (allocate s x).faultFlags = s.faultFlags := rfl
@[simp] theorem allocate_faultMask (x : Slot) : (allocate s x).faultMask = s.faultMask := rfl
@[simp] theorem allocate_faultLine (x : Slot) : (allocate s x).faultLine = s.faultLine := rfl
@[simp] theorem allocate_management (x : Slot) : (allocate s x).management = s.management := rfl
@[simp] theorem allocate_upstreamOut (x : Slot) : (allocate s x).upstreamOut = s.upstreamOut := rfl
@[simp] theorem allocate_downstreamOut (x : Slot) : (allocate s x).downstreamOut = s.downstreamOut := rfl
@[simp] theorem leaveSilently_pending : (leaveSilently s).pending = s.pending := rfl
@[simp] theorem leaveSilently_device : (leaveSilently s).device = s.device := rfl
@[simp] theorem leaveSilently_entries : (leaveSilently s).entries = s.entries := rfl
@[simp] theorem leaveSilently_primingQueue : (leaveSilently s).primingQueue = s.primingQueue := rfl
@[simp] theorem leaveSilently_freeRecords : (leaveSilently s).freeRecords = s.freeRecords := rfl
@[simp] theorem leaveSilently_channels : (leaveSilently s).channels = s.channels := rfl
@[simp] theorem leaveSilently_tickCounter : (leaveSilently s).tickCounter = s.tickCounter := rfl
@[simp] theorem leaveSilently_tickDivider : (leaveSilently s).tickDivider = s.tickDivider := rfl
@[simp] theorem leaveSilently_tickPeriod : (leaveSilently s).tickPeriod = s.tickPeriod := rfl
@[simp] theorem leaveSilently_responseTimeout : (leaveSilently s).responseTimeout = s.responseTimeout := rfl
@[simp] theorem leaveSilently_tickTaken : (leaveSilently s).tickTaken = s.tickTaken := rfl
@[simp] theorem leaveSilently_link : (leaveSilently s).link = s.link := rfl
@[simp] theorem leaveSilently_responseTimer : (leaveSilently s).responseTimer = s.responseTimer := rfl
@[simp] theorem leaveSilently_faultFlags : (leaveSilently s).faultFlags = s.faultFlags := rfl
@[simp] theorem leaveSilently_faultMask : (leaveSilently s).faultMask = s.faultMask := rfl
@[simp] theorem leaveSilently_faultLine : (leaveSilently s).faultLine = s.faultLine := rfl
@[simp] theorem leaveSilently_management : (leaveSilently s).management = s.management := rfl
@[simp] theorem leaveSilently_upstreamOut : (leaveSilently s).upstreamOut = s.upstreamOut := rfl
@[simp] theorem leaveSilently_downstreamOut : (leaveSilently s).downstreamOut = s.downstreamOut := rfl
@[simp] theorem failOutstanding_pending : (failOutstanding s).pending = s.pending := rfl
@[simp] theorem failOutstanding_device : (failOutstanding s).device = s.device := rfl
@[simp] theorem failOutstanding_entries : (failOutstanding s).entries = s.entries := rfl
@[simp] theorem failOutstanding_primingQueue : (failOutstanding s).primingQueue = s.primingQueue := rfl
@[simp] theorem failOutstanding_freeRecords : (failOutstanding s).freeRecords = s.freeRecords := rfl
@[simp] theorem failOutstanding_channels : (failOutstanding s).channels = s.channels := rfl
@[simp] theorem failOutstanding_tickCounter : (failOutstanding s).tickCounter = s.tickCounter := rfl
@[simp] theorem failOutstanding_tickDivider : (failOutstanding s).tickDivider = s.tickDivider := rfl
@[simp] theorem failOutstanding_tickPeriod : (failOutstanding s).tickPeriod = s.tickPeriod := rfl
@[simp] theorem failOutstanding_responseTimeout : (failOutstanding s).responseTimeout = s.responseTimeout := rfl
@[simp] theorem failOutstanding_tickTaken : (failOutstanding s).tickTaken = s.tickTaken := rfl
@[simp] theorem failOutstanding_head : (failOutstanding s).head = s.head := rfl
@[simp] theorem failOutstanding_faultFlags : (failOutstanding s).faultFlags = s.faultFlags := rfl
@[simp] theorem failOutstanding_faultMask : (failOutstanding s).faultMask = s.faultMask := rfl
@[simp] theorem failOutstanding_faultLine : (failOutstanding s).faultLine = s.faultLine := rfl
@[simp] theorem failOutstanding_management : (failOutstanding s).management = s.management := rfl
@[simp] theorem failOutstanding_upstreamOut : (failOutstanding s).upstreamOut = s.upstreamOut := rfl
@[simp] theorem failOutstanding_downstreamOut : (failOutstanding s).downstreamOut = s.downstreamOut := rfl
@[simp] theorem restartTransit_pending : (restartTransit s).pending = s.pending := rfl
@[simp] theorem restartTransit_device : (restartTransit s).device = s.device := rfl
@[simp] theorem restartTransit_entries : (restartTransit s).entries = s.entries := rfl
@[simp] theorem restartTransit_primingQueue : (restartTransit s).primingQueue = s.primingQueue := rfl
@[simp] theorem restartTransit_freeRecords : (restartTransit s).freeRecords = s.freeRecords := rfl
@[simp] theorem restartTransit_channels : (restartTransit s).channels = s.channels := rfl
@[simp] theorem restartTransit_tickCounter : (restartTransit s).tickCounter = s.tickCounter := rfl
@[simp] theorem restartTransit_tickDivider : (restartTransit s).tickDivider = s.tickDivider := rfl
@[simp] theorem restartTransit_tickPeriod : (restartTransit s).tickPeriod = s.tickPeriod := rfl
@[simp] theorem restartTransit_responseTimeout : (restartTransit s).responseTimeout = s.responseTimeout := rfl
@[simp] theorem restartTransit_tickTaken : (restartTransit s).tickTaken = s.tickTaken := rfl
@[simp] theorem restartTransit_faultFlags : (restartTransit s).faultFlags = s.faultFlags := rfl
@[simp] theorem restartTransit_faultMask : (restartTransit s).faultMask = s.faultMask := rfl
@[simp] theorem restartTransit_faultLine : (restartTransit s).faultLine = s.faultLine := rfl
@[simp] theorem restartTransit_management : (restartTransit s).management = s.management := rfl
@[simp] theorem restartTransit_upstreamOut : (restartTransit s).upstreamOut = s.upstreamOut := rfl
@[simp] theorem restartTransit_downstreamOut : (restartTransit s).downstreamOut = s.downstreamOut := rfl
@[simp] theorem advanceTimebase_pending : (advanceTimebase s).pending = s.pending := rfl
@[simp] theorem advanceTimebase_device : (advanceTimebase s).device = s.device := rfl
@[simp] theorem advanceTimebase_entries : (advanceTimebase s).entries = s.entries := rfl
@[simp] theorem advanceTimebase_primingQueue : (advanceTimebase s).primingQueue = s.primingQueue := rfl
@[simp] theorem advanceTimebase_freeRecords : (advanceTimebase s).freeRecords = s.freeRecords := rfl
@[simp] theorem advanceTimebase_channels : (advanceTimebase s).channels = s.channels := rfl
@[simp] theorem advanceTimebase_tickDivider : (advanceTimebase s).tickDivider = s.tickDivider := rfl
@[simp] theorem advanceTimebase_responseTimeout : (advanceTimebase s).responseTimeout = s.responseTimeout := rfl
@[simp] theorem advanceTimebase_tickTaken : (advanceTimebase s).tickTaken = s.tickTaken := rfl
@[simp] theorem advanceTimebase_ring : (advanceTimebase s).ring = s.ring := rfl
@[simp] theorem advanceTimebase_head : (advanceTimebase s).head = s.head := rfl
@[simp] theorem advanceTimebase_link : (advanceTimebase s).link = s.link := rfl
@[simp] theorem advanceTimebase_responseTimer : (advanceTimebase s).responseTimer = s.responseTimer := rfl
@[simp] theorem advanceTimebase_faultFlags : (advanceTimebase s).faultFlags = s.faultFlags := rfl
@[simp] theorem advanceTimebase_faultMask : (advanceTimebase s).faultMask = s.faultMask := rfl
@[simp] theorem advanceTimebase_faultLine : (advanceTimebase s).faultLine = s.faultLine := rfl
@[simp] theorem advanceTimebase_management : (advanceTimebase s).management = s.management := rfl
@[simp] theorem advanceTimebase_upstreamOut : (advanceTimebase s).upstreamOut = s.upstreamOut := rfl
@[simp] theorem advanceTimebase_downstreamOut : (advanceTimebase s).downstreamOut = s.downstreamOut := rfl
@[simp] theorem lowerTimers_pending : (lowerTimers s).pending = s.pending := rfl
@[simp] theorem lowerTimers_device : (lowerTimers s).device = s.device := rfl
@[simp] theorem lowerTimers_entries : (lowerTimers s).entries = s.entries := rfl
@[simp] theorem lowerTimers_primingQueue : (lowerTimers s).primingQueue = s.primingQueue := rfl
@[simp] theorem lowerTimers_freeRecords : (lowerTimers s).freeRecords = s.freeRecords := rfl
@[simp] theorem lowerTimers_tickCounter : (lowerTimers s).tickCounter = s.tickCounter := rfl
@[simp] theorem lowerTimers_tickDivider : (lowerTimers s).tickDivider = s.tickDivider := rfl
@[simp] theorem lowerTimers_tickPeriod : (lowerTimers s).tickPeriod = s.tickPeriod := rfl
@[simp] theorem lowerTimers_responseTimeout : (lowerTimers s).responseTimeout = s.responseTimeout := rfl
@[simp] theorem lowerTimers_tickTaken : (lowerTimers s).tickTaken = [] := rfl
@[simp] theorem lowerTimers_ring : (lowerTimers s).ring = s.ring := rfl
@[simp] theorem lowerTimers_head : (lowerTimers s).head = s.head := rfl
@[simp] theorem lowerTimers_link : (lowerTimers s).link = s.link := rfl
@[simp] theorem lowerTimers_faultFlags : (lowerTimers s).faultFlags = s.faultFlags := rfl
@[simp] theorem lowerTimers_faultMask : (lowerTimers s).faultMask = s.faultMask := rfl
@[simp] theorem lowerTimers_faultLine : (lowerTimers s).faultLine = s.faultLine := rfl
@[simp] theorem lowerTimers_management : (lowerTimers s).management = s.management := rfl
@[simp] theorem lowerTimers_upstreamOut : (lowerTimers s).upstreamOut = s.upstreamOut := rfl
@[simp] theorem lowerTimers_downstreamOut : (lowerTimers s).downstreamOut = s.downstreamOut := rfl

/-! ### A tick taken ahead of its TICK -/

@[simp] theorem takeTickAt_pending (o : TickOwner) : (s.takeTickAt o).pending = s.pending := rfl
@[simp] theorem takeTickAt_device (o : TickOwner) : (s.takeTickAt o).device = s.device := rfl
@[simp] theorem takeTickAt_entries (o : TickOwner) : (s.takeTickAt o).entries = s.entries := rfl
@[simp] theorem takeTickAt_primingQueue (o : TickOwner) : (s.takeTickAt o).primingQueue = s.primingQueue := rfl
@[simp] theorem takeTickAt_freeRecords (o : TickOwner) : (s.takeTickAt o).freeRecords = s.freeRecords := rfl
@[simp] theorem takeTickAt_channels (o : TickOwner) : (s.takeTickAt o).channels = s.channels := rfl
@[simp] theorem takeTickAt_tickCounter (o : TickOwner) : (s.takeTickAt o).tickCounter = s.tickCounter := rfl
@[simp] theorem takeTickAt_tickDivider (o : TickOwner) : (s.takeTickAt o).tickDivider = s.tickDivider := rfl
@[simp] theorem takeTickAt_tickPeriod (o : TickOwner) : (s.takeTickAt o).tickPeriod = s.tickPeriod := rfl
@[simp] theorem takeTickAt_responseTimeout (o : TickOwner) : (s.takeTickAt o).responseTimeout = s.responseTimeout := rfl
@[simp] theorem takeTickAt_ring (o : TickOwner) : (s.takeTickAt o).ring = s.ring := rfl
@[simp] theorem takeTickAt_head (o : TickOwner) : (s.takeTickAt o).head = s.head := rfl
@[simp] theorem takeTickAt_link (o : TickOwner) : (s.takeTickAt o).link = s.link := rfl
@[simp] theorem takeTickAt_responseTimer (o : TickOwner) : (s.takeTickAt o).responseTimer = s.responseTimer := rfl
@[simp] theorem takeTickAt_faultFlags (o : TickOwner) : (s.takeTickAt o).faultFlags = s.faultFlags := rfl
@[simp] theorem takeTickAt_faultMask (o : TickOwner) : (s.takeTickAt o).faultMask = s.faultMask := rfl
@[simp] theorem takeTickAt_faultLine (o : TickOwner) : (s.takeTickAt o).faultLine = s.faultLine := rfl
@[simp] theorem takeTickAt_management (o : TickOwner) : (s.takeTickAt o).management = s.management := rfl
@[simp] theorem takeTickAt_upstreamOut (o : TickOwner) : (s.takeTickAt o).upstreamOut = s.upstreamOut := rfl
@[simp] theorem takeTickAt_downstreamOut (o : TickOwner) : (s.takeTickAt o).downstreamOut = s.downstreamOut := rfl
@[simp] theorem takeTickAt_tickTaken (o : TickOwner) : (s.takeTickAt o).tickTaken = o :: s.tickTaken := rfl
@[simp] theorem takeTickAt_entry (o : TickOwner) (i : EntryIndex) : (s.takeTickAt o).entry i = s.entry i := rfl
@[simp] theorem takeTickAt_channel (o : TickOwner) (c : ChannelIndex) : (s.takeTickAt o).channel c = s.channel c := rfl
@[simp] theorem coverTick_false (t : State) : coverTick false s t = t := rfl
@[simp] theorem coverTick_pending (b : Bool) (t : State) : (coverTick b s t).pending = t.pending := by cases b <;> rfl
@[simp] theorem coverTick_device (b : Bool) (t : State) : (coverTick b s t).device = t.device := by cases b <;> rfl
@[simp] theorem coverTick_entries (b : Bool) (t : State) : (coverTick b s t).entries = t.entries := by cases b <;> rfl
@[simp] theorem coverTick_primingQueue (b : Bool) (t : State) : (coverTick b s t).primingQueue = t.primingQueue := by cases b <;> rfl
@[simp] theorem coverTick_freeRecords (b : Bool) (t : State) : (coverTick b s t).freeRecords = t.freeRecords := by cases b <;> rfl
@[simp] theorem coverTick_channels (b : Bool) (t : State) : (coverTick b s t).channels = t.channels := by cases b <;> rfl
@[simp] theorem coverTick_tickCounter (b : Bool) (t : State) : (coverTick b s t).tickCounter = t.tickCounter := by cases b <;> rfl
@[simp] theorem coverTick_tickDivider (b : Bool) (t : State) : (coverTick b s t).tickDivider = t.tickDivider := by cases b <;> rfl
@[simp] theorem coverTick_tickPeriod (b : Bool) (t : State) : (coverTick b s t).tickPeriod = t.tickPeriod := by cases b <;> rfl
@[simp] theorem coverTick_responseTimeout (b : Bool) (t : State) : (coverTick b s t).responseTimeout = t.responseTimeout := by cases b <;> rfl
@[simp] theorem coverTick_ring (b : Bool) (t : State) : (coverTick b s t).ring = t.ring := by cases b <;> rfl
@[simp] theorem coverTick_head (b : Bool) (t : State) : (coverTick b s t).head = t.head := by cases b <;> rfl
@[simp] theorem coverTick_link (b : Bool) (t : State) : (coverTick b s t).link = t.link := by cases b <;> rfl
@[simp] theorem coverTick_responseTimer (b : Bool) (t : State) : (coverTick b s t).responseTimer = t.responseTimer := by cases b <;> rfl
@[simp] theorem coverTick_faultFlags (b : Bool) (t : State) : (coverTick b s t).faultFlags = t.faultFlags := by cases b <;> rfl
@[simp] theorem coverTick_faultMask (b : Bool) (t : State) : (coverTick b s t).faultMask = t.faultMask := by cases b <;> rfl
@[simp] theorem coverTick_faultLine (b : Bool) (t : State) : (coverTick b s t).faultLine = t.faultLine := by cases b <;> rfl
@[simp] theorem coverTick_management (b : Bool) (t : State) : (coverTick b s t).management = t.management := by cases b <;> rfl
@[simp] theorem coverTick_upstreamOut (b : Bool) (t : State) : (coverTick b s t).upstreamOut = t.upstreamOut := by cases b <;> rfl
@[simp] theorem coverTick_downstreamOut (b : Bool) (t : State) : (coverTick b s t).downstreamOut = t.downstreamOut := by cases b <;> rfl
@[simp] theorem coverTick_entry (b : Bool) (t : State) (i : EntryIndex) : (coverTick b s t).entry i = t.entry i := by cases b <;> rfl
@[simp] theorem coverTick_channel (b : Bool) (t : State) (c : ChannelIndex) : (coverTick b s t).channel c = t.channel c := by cases b <;> rfl

end Sys2Proof.Machine
end

