-- ==== Sys2Proof/Laws/Ops.lean ====
section
/-! SUPPORT. For each shared operation, what it can do: the lemmas that later proofs cite in place of its
definition. -/

namespace Sys2Proof.Machine

open Sys2Proof.Safety

/-! ### Counters, timers and the fault line -/

theorem saturate_byte (x : Byte) : saturate x = if x = 255 then 255 else x + 1 := by
  rw [saturate, show BitVec.allOnes 8 = 255 from rfl]
  split <;> simp_all

theorem saturate_half (x : Half) : saturate x = if x = 65535 then 65535 else x + 1 := by
  rw [saturate, show BitVec.allOnes 16 = 65535 from rfl]
  split <;> simp_all

theorem saturate_redelivery (x : BitVec 3) : saturate x = if x = 7 then 7 else x + 1 := by
  rw [saturate, show BitVec.allOnes 3 = 7 from rfl]
  split <;> simp_all

theorem startTimer_zero : startTimer 0 = .stopped := rfl

theorem startTimer_pos {v : Half} (h : v ≠ 0) : startTimer v = .running v.toNat := if_neg h

/-- A started timer has at least one tick to come. -/
theorem startTimer_ticksLeft (v : Half) : startTimer v ≠ .running 0 := by
  unfold startTimer
  split
  · simp
  · rename_i h
    intro e
    exact h (BitVec.eq_of_toNat_eq (by simpa using e))

/-- A tick leaves a timer stopped or with a tick to come. -/
theorem lowerTimer_ticksLeft (t : Timer) : lowerTimer t ≠ .running 0 := by
  cases t with
  | stopped => simp [lowerTimer]
  | running n =>
    simp only [lowerTimer]
    split
    · simp
    · simp; omega

theorem lowerTimer_running {t : Timer} (h : lowerTimer t ≠ .stopped) : t ≠ .stopped := by
  rintro rfl; exact h rfl

theorem raise_eq (s : State) (f : FaultFlag) :
    s.raise f = { s with
      faultFlags := s.faultFlags ||| faultBit f
      faultLine := (s.faultFlags ||| faultBit f) &&& s.faultMask != 0 } := rfl

/-! ### Deliveries -/

theorem deliver_cases (k : Channel) :
    deliver k = k ∨ deliver k = enterAlerting k ∨
      (k.state = .idle ∧
        deliver k = { k.moveTo .holdoff with holdoffTimer := startTimer k.config.holdoff }) := by
  unfold deliver
  split
  · rename_i h
    unfold leaveIdle
    split
    · exact .inr (.inl rfl)
    · exact .inr (.inr ⟨h, rfl⟩)
  · split
    · exact .inr (.inl rfl)
    · exact .inl rfl
  · exact .inl rfl

theorem deliver_frame (k : Channel) :
    deliver k = { k with
      state := (deliver k).state, alert := (deliver k).alert
      holdoffTimer := (deliver k).holdoffTimer, claimTimer := (deliver k).claimTimer } := by
  rcases deliver_cases k with h | h | ⟨-, h⟩ <;> rw [h] <;> rfl

@[simp] theorem deliver_config (k : Channel) : (deliver k).config = k.config := by
  rw [deliver_frame]
@[simp] theorem deliver_handed (k : Channel) : (deliver k).handed = k.handed := by
  rw [deliver_frame]
@[simp] theorem deliver_queued (k : Channel) : (deliver k).queued = k.queued := by
  rw [deliver_frame]
@[simp] theorem deliver_pendingSet (k : Channel) : (deliver k).pendingSet = k.pendingSet := by
  rw [deliver_frame]
@[simp] theorem deliver_serviceTimer (k : Channel) : (deliver k).serviceTimer = k.serviceTimer := by
  rw [deliver_frame]

/-! ### Record creation -/

theorem canCreate_iff (s : State) (c : ChannelIndex) :
    canCreate s c = true ↔ (s.channel c).state ≠ .disabled ∧
      (s.channel c).handed.length + (s.channel c).queued.length < (s.channel c).config.quota.toNat ∧
      0 < s.freeRecords := by
  unfold canCreate
  simp only [Bool.and_eq_true, bne_iff_ne, decide_eq_true_eq, and_assoc]
  rfl

/-- A record created and delivered, as one change of the channel and the pool. -/
theorem deliverTo_appendRecord (s : State) (c : ChannelIndex) (body : RecordBody) (ts : Word) :
    deliverTo (appendRecord s c body ts) c =
      { s.setChannel c (deliver { s.channel c with
          queued := (s.channel c).queued ++
            [{ body, sequence := (s.channel c).nextSequence, timestamp := ts, redelivery := 0 }]
          nextSequence := (s.channel c).nextSequence + 1 }) with
        freeRecords := s.freeRecords - 1 } := by
  simp [deliverTo, appendRecord, State.setChannel, State.channel]

theorem createRecord_of_room {s : State} {c : ChannelIndex} (h : canCreate s c = true)
    (body : RecordBody) : createRecord s c body = appendRecord s c body s.tickCounter := if_pos h

theorem createRecord_of_full {s : State} {c : ChannelIndex} (h : canCreate s c = false)
    (body : RecordBody) : createRecord s c body = s.setChannel c (loseRecord (s.channel c)) := by
  simp [createRecord, h]

/-- Creation changes channels and the pool alone. -/
theorem createRecord_frame (s : State) (c : ChannelIndex) (body : RecordBody) :
    ∃ cs n, createRecord s c body = { s with channels := cs, freeRecords := n } := by
  unfold createRecord
  split
  · exact ⟨_, _, rfl⟩
  · exact ⟨_, _, rfl⟩

/-! ### Evaluation -/

theorem addPending_frame (s : State) (i : EntryIndex) (mask : Word) :
    ∃ es cs, addPending s i mask = { s with entries := es, channels := cs } := by
  unfold addPending
  dsimp only
  split
  · exact ⟨_, _, rfl⟩
  · exact ⟨_, s.channels, rfl⟩

/-- A qualifying event changes entries, channels and the pool alone. -/
theorem qualifyingEvent_frame (s : State) (i : EntryIndex) (cause : Cause) (ch : Change) :
    ∃ es cs n, qualifyingEvent s i cause ch =
      { s with entries := es, channels := cs, freeRecords := n } := by
  unfold qualifyingEvent
  dsimp only
  split
  · obtain ⟨es, cs, h⟩ := addPending_frame s i ch.mask
    rw [h]; exact ⟨_, _, _, rfl⟩
  · obtain ⟨es, cs, h⟩ := addPending_frame s i ch.mask
    obtain ⟨cs', n, h'⟩ := createRecord_frame { s with entries := es, channels := cs }
      (s.entry i).channel (recordBody cause ch)
    rw [h, h']; exact ⟨_, _, _, rfl⟩
  · split
    · exact ⟨_, _, _, rfl⟩
    · obtain ⟨cs', n, h'⟩ := createRecord_frame (s.setEntry i { s.entry i with count := 0 })
        (s.entry i).channel (countBody cause ch)
      rw [h']; exact ⟨_, _, _, rfl⟩

/-- An evaluation changes entries, channels and the pool alone. -/
theorem evaluate_frame (s : State) (i : EntryIndex) (cause : Cause) (new : Word) :
    ∃ es cs n, evaluate s i cause new =
      { s with entries := es, channels := cs, freeRecords := n } := by
  unfold evaluate
  dsimp only
  split
  · exact ⟨_, _, _, rfl⟩
  · obtain ⟨es, cs, n, h⟩ := qualifyingEvent_frame s i cause
      ⟨i, (s.entry i).generation, (s.entry i).shadow, new,
        qualifyingMask (s.entry i) (s.entry i).shadow new⟩
    rw [h]; exact ⟨_, _, _, rfl⟩

/-- Adding to a pending mask touches that entry's mask alone. -/
theorem addPending_entry (s : State) (i j : EntryIndex) (mask : Word) :
    (addPending s i mask).entry j =
      if i = j then { s.entry i with pendingMask := (s.entry i).pendingMask ||| mask }
      else s.entry j := by
  unfold addPending
  dsimp only
  split
  · rw [entry_setChannel, entry_setEntry]
  · rw [entry_setEntry]

theorem createRecord_entry (s : State) (c : ChannelIndex) (body : RecordBody) (j : EntryIndex) :
    (createRecord s c body).entry j = s.entry j := by
  obtain ⟨cs, n, h⟩ := createRecord_frame s c body
  rw [h]; rfl

theorem deliverTo_entry (s : State) (c : ChannelIndex) (j : EntryIndex) :
    (deliverTo s c).entry j = s.entry j := rfl

/-- An evaluation of entry `i` leaves every other entry. -/
theorem evaluate_entry_other (s : State) {i j : EntryIndex} (h : i ≠ j) (cause : Cause) (new : Word) :
    (evaluate s i cause new).entry j = s.entry j := by
  unfold evaluate replaceShadow
  dsimp only
  rw [entry_setEntry_other _ _ h]
  split
  · rfl
  · unfold qualifyingEvent
    dsimp only
    split
    · rw [deliverTo_entry, addPending_entry, if_neg h]
    · rw [deliverTo_entry, createRecord_entry, addPending_entry, if_neg h]
    · split
      · rw [entry_setEntry_other _ _ h]
      · rw [deliverTo_entry, createRecord_entry, entry_setEntry_other _ _ h]

/-- An evaluation keeps everything of its entry but shadow, pending mask and count. -/
theorem evaluate_entry_same (s : State) (i : EntryIndex) (cause : Cause) (new : Word) :
    ∃ p n, (evaluate s i cause new).entry i =
      { s.entry i with shadow := new, pendingMask := p, count := n } := by
  unfold evaluate replaceShadow
  dsimp only
  rw [entry_setEntry_same]
  split
  · exact ⟨_, _, rfl⟩
  · unfold qualifyingEvent
    dsimp only
    split
    · rw [deliverTo_entry, addPending_entry, if_pos rfl]; exact ⟨_, _, rfl⟩
    · rw [deliverTo_entry, createRecord_entry, addPending_entry, if_pos rfl]; exact ⟨_, _, rfl⟩
    · split
      · rw [entry_setEntry_same]; exact ⟨_, _, rfl⟩
      · rw [deliverTo_entry, createRecord_entry, entry_setEntry_same]; exact ⟨_, _, rfl⟩

/-! ### The priming queue -/

theorem enqueuePriming_eq (s : State) (i : EntryIndex) :
    enqueuePriming s i = { s with
      primingQueue := if i ∈ s.primingQueue then s.primingQueue else s.primingQueue ++ [i] } := by
  unfold enqueuePriming
  split <;> rfl

theorem mem_enqueuePriming {s : State} {i j : EntryIndex} :
    j ∈ (enqueuePriming s i).primingQueue ↔ j = i ∨ j ∈ s.primingQueue := by
  rw [enqueuePriming_eq]
  dsimp only
  split
  · rename_i h
    constructor
    · exact .inr
    · rintro (rfl | h') <;> assumption
  · simp [or_comm]

theorem nodup_enqueuePriming {s : State} (i : EntryIndex) (h : s.primingQueue.Nodup) :
    (enqueuePriming s i).primingQueue.Nodup := by
  rw [enqueuePriming_eq]
  dsimp only
  split
  · exact h
  · rename_i hi
    rw [List.nodup_append]
    refine ⟨h, by simp, ?_⟩
    rintro a ha b hb rfl
    exact hi (List.mem_singleton.1 hb ▸ ha)

/-- A re-prime of entry `i` changes that entry's state and the priming queue alone. -/
theorem reprime_eq (s : State) (i : EntryIndex) :
    reprime s i = if (s.entry i).state = .armed then
      { s.setEntry i { s.entry i with state := .repriming } with
        primingQueue := if i ∈ s.primingQueue then s.primingQueue else s.primingQueue ++ [i] }
      else s := by
  unfold reprime
  split
  · rw [enqueuePriming_eq]; rfl
  · rfl

theorem primingFault_frame (s : State) (i : EntryIndex) :
    ∃ q, primingFault s i = { s with primingQueue := q } := by
  unfold primingFault
  split <;> first | exact ⟨_, enqueuePriming_eq s i⟩ | exact ⟨_, rfl⟩

/-- A priming completion changes entries, channels, the pool and the priming queue alone. -/
theorem primingCompletion_frame (s : State) (i : EntryIndex) (g : Byte) (w : Option Word) :
    ∃ es cs n q, primingCompletion s i g w =
      { s with entries := es, channels := cs, freeRecords := n, primingQueue := q } := by
  unfold primingCompletion
  split
  · cases w with
    | some w =>
      simp only [primingOkay]
      split
      · exact ⟨_, _, _, _, rfl⟩
      · obtain ⟨es, cs, n, h⟩ := evaluate_frame s i .unseen w
        rw [h]; exact ⟨_, _, _, _, rfl⟩
      · exact ⟨_, _, _, _, rfl⟩
    | none =>
      obtain ⟨q, h⟩ := primingFault_frame s i
      exact ⟨_, _, _, q, h⟩
  · exact ⟨_, _, _, _, rfl⟩

/-! ### What a response hands on -/

theorem writeWord_frame (n : Source) (s : State) (p : Word × WriteWord) :
    ∃ es cs m, writeWord n s p = { s with entries := es, channels := cs, freeRecords := m } := by
  unfold writeWord
  split
  · split
    · exact evaluate_frame _ _ _ _
    · exact ⟨_, _, _, rfl⟩
  · exact ⟨_, _, _, rfl⟩

theorem readWord_frame (s : State) (p : Word × Word) :
    ∃ es cs m, readWord s p = { s with entries := es, channels := cs, freeRecords := m } := by
  unfold readWord
  split
  · split
    · exact evaluate_frame _ _ _ _
    · exact ⟨_, _, _, rfl⟩
  · exact ⟨_, _, _, rfl⟩

theorem faultWord_frame (s : State) (p : Word × WriteWord) :
    ∃ es q, faultWord s p = { s with entries := es, primingQueue := q } := by
  unfold faultWord
  split
  · split
    · rename_i i _
      rw [reprime_eq]
      split <;> exact ⟨_, _, rfl⟩
    · exact ⟨_, _, rfl⟩
  · exact ⟨_, _, rfl⟩

/-- The four fields that a response's hand-off can change. -/
def Reports (s t : State) : Prop :=
  ∃ es cs n q, t = { s with entries := es, channels := cs, freeRecords := n, primingQueue := q }

theorem Reports.refl (s : State) : Reports s s := ⟨_, _, _, _, rfl⟩

theorem Reports.trans {s t u : State} (h : Reports s t) (h' : Reports t u) : Reports s u := by
  obtain ⟨_, _, _, _, rfl⟩ := h
  obtain ⟨es, cs, n, q, rfl⟩ := h'
  exact ⟨es, cs, n, q, rfl⟩

theorem Reports.foldl {α : Type} {f : State → α → State} (h : ∀ s a, Reports s (f s a)) (l : List α)
    (s : State) : Reports s (l.foldl f s) := by
  induction l generalizing s with
  | nil => exact .refl s
  | cons a l ih => exact (h s a).trans (ih _)

theorem writeWord_reports (n : Source) (s : State) (p : Word × WriteWord) :
    Reports s (writeWord n s p) := by
  obtain ⟨es, cs, m, h⟩ := writeWord_frame n s p
  exact ⟨es, cs, m, _, h⟩

theorem readWord_reports (s : State) (p : Word × Word) : Reports s (readWord s p) := by
  obtain ⟨es, cs, m, h⟩ := readWord_frame s p
  exact ⟨es, cs, m, _, h⟩

theorem faultWord_reports (s : State) (p : Word × WriteWord) : Reports s (faultWord s p) := by
  obtain ⟨es, q, h⟩ := faultWord_frame s p
  exact ⟨es, _, _, q, h⟩

theorem primingCompletion_reports (s : State) (i : EntryIndex) (g : Byte) (w : Option Word) :
    Reports s (primingCompletion s i g w) := primingCompletion_frame s i g w

theorem reprime_reports (s : State) (i : EntryIndex) : Reports s (reprime s i) := by
  rw [reprime_eq]
  split
  · exact ⟨_, _, _, _, rfl⟩
  · exact .refl s

/-- The hand-off of a response reaches entries, channels, the pool and the priming queue alone. -/
theorem handOn_reports (s : State) (x : Slot) (r : DownResponse) : Reports s (handOn s x r) := by
  unfold handOn
  split
  · split
    · split
      · exact .foldl (writeWord_reports _) _ _
      · exact .foldl faultWord_reports _ _
    · split
      · exact .foldl readWord_reports _ _
      · exact .refl s
  · exact primingCompletion_reports _ _ _ _
  · exact .refl s

/-! ### The ring -/

theorem settle_running {s : State} (h : s.device = .running) : settle s = leaveSilently s := by
  simp [settle, endDrain, h]

theorem settle_draining {s : State} {sc : Scope} (h : s.device = .draining sc) :
    settle s = if s.ring.dropWhile silent = [] then applyScope sc (leaveSilently s)
      else leaveSilently s := by
  simp [settle, endDrain, h]

/-- The head keeps its place where no COMPLETE priming slot stands at it. -/
theorem leaveSilently_of_loud {s : State} (h : (s.ring.head?.all fun x => !silent x) = true) :
    leaveSilently s = s := by
  have hr : s.ring.dropWhile silent = s.ring ∧ s.ring.takeWhile silent = [] := by
    cases hr : s.ring with
    | nil => exact ⟨rfl, rfl⟩
    | cons x l =>
      have hx : silent x = false := by simpa [hr] using h
      simp [hx]
  unfold leaveSilently
  rw [hr.1, hr.2]
  simp

/-- The head behind the silent leaving is not a COMPLETE priming slot. -/
theorem leaveSilently_loud (s : State) :
    ((leaveSilently s).ring.head?.all fun x => !silent x) = true := by
  rw [leaveSilently_ring]
  cases h : s.ring.dropWhile silent with
  | nil => rfl
  | cons x l =>
    have := List.head?_dropWhile_not silent s.ring
    rw [h] at this
    simpa using this

theorem expectedPlace_of_expectedAt {s : State} {k : Nat} {x : Slot} (h : ExpectedAt s k x) :
    expectedPlace s = some k := by
  obtain ⟨hx, hs, hj⟩ := h
  unfold expectedPlace
  rw [List.findIdx?_eq_some_iff_getElem]
  obtain ⟨hk, he⟩ := List.getElem?_eq_some_iff.1 hx
  refine ⟨hk, by rw [he]; exact hs, fun j hjk => ?_⟩
  have := hj j hjk
  rw [List.getElem?_eq_getElem (by omega)] at this
  simpa using this

theorem expectedAt_of_expectedPlace {s : State} {k : Nat} (h : expectedPlace s = some k) :
    ∃ x, ExpectedAt s k x := by
  unfold expectedPlace at h
  rw [List.findIdx?_eq_some_iff_getElem] at h
  obtain ⟨hk, hs, hj⟩ := h
  refine ⟨s.ring[k], List.getElem?_eq_getElem hk, hs, fun j hjk => ?_⟩
  rw [List.getElem?_eq_getElem (by omega)]
  simpa using hj j hjk

@[simp] theorem outstanding_markSent (x : Slot) : outstanding (markSent x) = outstanding x := by
  cases x <;> rfl

@[simp] theorem outstanding_failSlot (x : Slot) : outstanding (failSlot x) = false := by
  cases x <;> rfl

@[simp] theorem outstanding_completeSlot (x : Slot) (r : DownResponse) :
    outstanding (completeSlot x r) = false := by
  cases x <;> rfl

/-- The stall of a DRAINING part fails its slots alone. -/
theorem stall_draining {s : State} (h : s.device ≠ .running) : stall s = failOutstanding s := by
  simp [stall, h]

/-- The stall of a RUNNING part: the slots, the failed priming reads, then the ARMED entries. -/
theorem stall_running {s : State} (h : s.device = .running) :
    stall s = (List.finRange 64).foldl reprime
      ((outstandingPriming s.ring).foldl (fun t p => primingCompletion t p.1 p.2 none)
        (failOutstanding s)) := by
  unfold stall
  rw [if_pos h]

/-- The stall reaches the ring, the link, the response timer, the entries and the priming queue. -/
theorem stall_reports (s : State) : Reports (failOutstanding s) (stall s) := by
  by_cases h : s.device = .running
  · rw [stall_running h]
    exact (Reports.foldl (f := fun t (p : EntryIndex × Byte) => primingCompletion t p.1 p.2 none)
      (fun t p => primingCompletion_reports t p.1 p.2 none) _ _).trans
      (.foldl reprime_reports (List.finRange 64) _)
  · rw [stall_draining h]
    exact .refl _

/-! ### Acceptance -/

theorem upstreamGranted_iff (s : State) : upstreamGranted s = true ↔ Granted s := by
  have hf : hasFreeSlot s = true ↔ s.ring.length < 32 := decide_eq_true_iff
  have ha : acceptance s = .opened ↔ s.device = .running ∧ s.ring.length < 32 := by
    unfold acceptance
    split
    · split <;> simp_all
    · simp_all
  unfold upstreamGranted primingPresents Granted
  rw [Bool.and_eq_true, beq_iff_eq, ha, and_assoc]
  refine and_congr_right fun hr => and_congr_right fun _ => ?_
  cases s.link <;> simp [hr]

theorem waits_iff (s : State) : Waits s ↔ upstreamGranted s = false := by
  rw [Bool.eq_false_iff, ne_eq, upstreamGranted_iff]
  unfold Waits Granted
  cases hl : s.link <;> by_cases hp : s.primingQueue = [] <;> by_cases hr : s.device = .running <;>
    simp [hp, hr]

theorem malformed_iff (q : Request) : malformed q = true ↔ MalformedRequest q := by
  unfold malformed MalformedRequest
  simp only [Bool.or_eq_true, bne_iff_ne, beq_iff_eq, decide_eq_true_eq, or_assoc]
  rfl

theorem channelCovers_iff (k : Channel) (a : Word) :
    channelCovers k a = true ↔ ∃ base, k.config.windowBase = some base ∧ (a - base).toNat < 64 := by
  unfold channelCovers
  cases k.config.windowBase with
  | none => simp
  | some base =>
    simp only [Option.some.injEq, exists_eq_left']
    exact decide_eq_true_iff

theorem windowAt_none_iff (s : State) (a : Word) : windowAt s a = none ↔ OutsideWindows s a := by
  simp only [windowAt, List.find?_eq_none, List.mem_finRange, forall_const, channelCovers_iff,
    OutsideWindows, not_exists, not_and, Nat.not_lt]

/-- The outcome of an access is the channel's, and of no other part of the state but the pool and the
entry collected. -/
theorem takeAccess_frame (s : State) (c : ChannelIndex) (w : Nat) (q : Request) :
    ∃ es cs n, (takeAccess s c w q).1 =
      { s with entries := es, channels := cs, freeRecords := n } := by
  unfold takeAccess
  split
  · rename_i acc _
    split
    · cases acc with
      | claim n => exact ⟨_, _, _, rfl⟩
      | collect =>
        simp only [serveAccess, serveCollect]
        split <;> exact ⟨_, _, _, rfl⟩
      | record =>
        simp only [serveAccess, serveRecord]
        split <;> exact ⟨_, _, _, rfl⟩
      | returnService n => exact ⟨_, _, _, rfl⟩
    · exact ⟨_, _, _, rfl⟩
  · exact ⟨_, _, _, rfl⟩

/-- An access of one of the four shapes that the channel serves. -/
theorem takeAccess_served {s : State} {c : ChannelIndex} {w : Nat} {q : Request} {a : WindowAccess}
    (h : recognise w q.payload = some a) (hs : serves (s.channel c) q.source a = true) :
    takeAccess s c w q =
      ((serveAccess s c a).1, { status := .okay, data := (serveAccess s c a).2 }) := by
  unfold takeAccess
  rw [h]
  exact if_pos hs

/-- An access of one of the four shapes that the channel does not serve as it stands. -/
theorem takeAccess_refused {s : State} {c : ChannelIndex} {w : Nat} {q : Request} {a : WindowAccess}
    (h : recognise w q.payload = some a) (hs : serves (s.channel c) q.source a = false) :
    takeAccess s c w q = (refuseAccess s c, blankResponse .refused q.payload) := by
  unfold takeAccess
  rw [h]
  exact if_neg (by simp [hs])

/-- An access of none of the four shapes. -/
theorem takeAccess_unmatched {s : State} {c : ChannelIndex} {w : Nat} {q : Request}
    (h : recognise w q.payload = none) :
    takeAccess s c w q = (refuseAccess s c, blankResponse .refused q.payload) := by
  unfold takeAccess
  rw [h]

/-- What an offered request can come to: it waits, or it takes the slot at the tail, answered by a
channel or at once, or forwarded. -/
theorem offerRequest_cases (s : State) (q : Request) :
    offerRequest s q = s ∨
    (Granted s ∧ ∃ resp, offerRequest s q = allocate s (answeredSlot q resp)) ∨
    (Granted s ∧ ∃ c w resp, offerRequest s q =
      allocate (takeAccess s c w q).1 (answeredSlot q resp)) ∨
    (Granted s ∧ s.link = .active ∧ offerRequest s q = allocate s (.forwarded q false)) := by
  unfold offerRequest
  split
  · rename_i h
    have hg := (upstreamGranted_iff s).1 h
    unfold classify
    split
    · exact .inr (.inl ⟨hg, _, rfl⟩)
    · split
      · exact .inr (.inr (.inl ⟨hg, _, _, _, rfl⟩))
      · split
        · exact .inr (.inl ⟨hg, _, rfl⟩)
        · rename_i hl
          refine .inr (.inr (.inr ⟨hg, ?_, rfl⟩))
          cases hk : s.link
          · rfl
          · exact absurd hk hl
  · exact .inl rfl

/-- A row that names a channel's window is a request there, or nothing. -/
theorem offerAccess_cases (s : State) (c : ChannelIndex) (n : Source) (w : Nat) (p : Payload) :
    offerAccess s c n w p = s ∨ ∃ q, offerAccess s c n w p = offerRequest s q := by
  unfold offerAccess
  split
  · exact .inr ⟨_, rfl⟩
  · exact .inl rfl

/-- Two windows that are apart share no address. -/
theorem windowsApart_covers {a b x : Word} (h : windowsApart (some a) (some b) = true)
    (ha : (x - a).toNat < 64) : 64 ≤ (x - b).toNat := by
  have h' : ¬ (b - a).toNat < 64 ∧ ¬ (a - b).toNat < 64 := by
    simp only [windowsApart, windowsMeet, Bool.not_eq_true', Bool.or_eq_false_iff] at h
    exact ⟨of_decide_eq_false h.1, of_decide_eq_false h.2⟩
  obtain ⟨h1, h2⟩ := h'
  rw [BitVec.toNat_sub] at h1 h2 ha ⊢
  have := a.isLt
  have := b.isLt
  have := x.isLt
  omega

/-- An address in channel `c`'s window, whose window is apart from the others, is that channel's. -/
theorem windowAt_of_window {s : State} {c : ChannelIndex} {base x : Word} (h : WindowAt s c base)
    (hx : (x - base).toNat < 64) : windowAt s x = some c := by
  obtain ⟨hb, -, hd⟩ := h
  have key : ∀ d : ChannelIndex, channelCovers (s.channel d) x = true ↔ d = c := by
    intro d
    rw [channelCovers_iff]
    constructor
    · rintro ⟨b', hb', hlt⟩
      by_contra hne
      have := hd d hne
      rw [hb'] at this
      have := windowsApart_covers this hx
      omega
    · rintro rfl
      exact ⟨base, hb, hx⟩
  unfold windowAt
  rw [List.find?_eq_some_iff_append]
  refine ⟨(key c).2 rfl, ?_⟩
  obtain ⟨as, bs, he⟩ := List.append_of_mem (List.mem_finRange c)
  refine ⟨as, bs, he, fun d hd' => ?_⟩
  have hne : d ≠ c := by
    rintro rfl
    have := List.nodup_finRange 8
    rw [he, List.nodup_append] at this
    exact this.2.2 _ hd' _ (by simp) rfl
  have := mt (key d).1 hne
  rw [Bool.not_eq_true] at this
  rw [this]; rfl

/-- A row that names a word of channel `c`'s window, with a shape that fits in one block, is taken by
that channel at once. -/
theorem offerAccess_taken {s : State} {c : ChannelIndex} {base : Word} (hg : Granted s)
    (hw : WindowAt s c base) (n : Source) {w : Nat} {p : Payload} (hl : payloadLength p ≠ 0)
    (hw' : w < 16) (hf : w % 8 + payloadLength p ≤ 8) :
    offerAccess s c n w p =
      allocate (takeAccess s c w ⟨n, wordAddress base w, p⟩).1
        (answeredSlot ⟨n, wordAddress base w, p⟩
          (takeAccess s c w ⟨n, wordAddress base w, p⟩).2) := by
  obtain ⟨hb, ha, hd⟩ := hw
  have hlt := base.isLt
  have e : (wordAddress base w).toNat = base.toNat + 4 * w := by
    simp only [wordAddress, BitVec.toNat_add, BitVec.toNat_ofNat]
    omega
  have e2 : (wordAddress base w - base).toNat = 4 * w := by
    rw [BitVec.toNat_sub, e]
    omega
  have hm : malformed ⟨n, wordAddress base w, p⟩ = false := by
    rw [Bool.eq_false_iff, ne_eq, malformed_iff]
    simp only [MalformedRequest, e]
    omega
  have hwa : windowAt s (wordAddress base w) = some c :=
    windowAt_of_window ⟨hb, ha, hd⟩ (by rw [e2]; omega)
  have hww : windowWord (s.channel c) (wordAddress base w) = w := by
    simp only [windowWord, hb, Option.getD_some, e2]
    omega
  simp only [offerAccess, hb, offerRequest, (upstreamGranted_iff s).2 hg, if_true, classify, hm, hwa,
    hww]
  rfl

/-! ### Management commands -/

theorem executeCommand_outside {s : State} {cmd : Command} {args : List Byte}
    (h : takesFrame s (commandCode cmd) args = false)
    (body : State → Except ResultCode (State × List Byte)) : executeCommand cmd args body s = s := by
  simp [executeCommand, h]

/-- What a management command can come to: nothing where the port does not come to the execution point
of its frame, a refusal, or its effect with its answer. -/
theorem executeCommand_cases (cmd : Command) (args : List Byte)
    (body : State → Except ResultCode (State × List Byte)) (s : State) :
    executeCommand cmd args body s = s ∨
    (∃ result, executeCommand cmd args body s = refuse cmd args result s) ∨
    ∃ t bytes, body s = .ok (t, bytes) ∧
      executeCommand cmd args body s = answer (commandCode cmd) args .ok bytes t ∧
      takesFrame s (commandCode cmd) args = true ∧ (isDraining s = true → cmd = .statusQuery) := by
  unfold executeCommand
  split
  · rename_i ht
    split
    · exact .inr (.inl ⟨_, rfl⟩)
    · rename_i hd
      split
      · rename_i t bytes hb
        refine .inr (.inr ⟨t, bytes, hb, rfl, ht, ?_⟩)
        intro hdr
        simpa [hdr] using hd
      · exact .inr (.inl ⟨_, rfl⟩)
  · exact .inl rfl

/-- Outside RESET the port takes the frame whose first bits it holds. -/
theorem takesFrame_of_awaits {s : State} {c : Instr} {code : Byte} {args : List Byte}
    (hd : s.device ≠ .reset) (h : AwaitsFrame s c) (hf : frameOf c = some (code :: args)) :
    takesFrame s code args = true := by
  obtain ⟨h1, h2⟩ := h
  rw [hf] at h2
  simp only [Option.any_some] at h2
  simp [takesFrame, h1, h2, hd]

theorem frameBits_length (bytes : List Byte) : (frameBits bytes).length = 8 * bytes.length := by
  induction bytes with
  | nil => rfl
  | cons b l ih =>
    simp only [frameBits, List.flatMap_cons, List.length_append, List.length_cons] at ih ⊢
    rw [ih]
    simp only [byteBits, List.length_cons, List.length_nil]
    omega

/-- The port behind an execution point, in the words of the statements. -/
theorem fixAnswer_eq {c : Instr} {code : Byte} {args : List Byte}
    (hf : frameOf c = some (code :: args)) (m : ManagementPort) (result : ResultCode)
    (response : List Byte) :
    fixAnswer m code args result response = executed m c code result response := by
  simp only [fixAnswer, executed, frameBits_length, hf, Option.getD_some]

/-- The answer of command `c`, in the words of the statements. -/
theorem answer_eq {c : Instr} {code : Byte} {args : List Byte}
    (hf : frameOf c = some (code :: args)) (result : ResultCode) (response : List Byte) (s : State) :
    answer code args result response s =
      { s with management := executed s.management c code result response } := by
  rw [answer, fixAnswer_eq hf]

/-- At its execution point in a RUNNING device a command's tests and effect decide. -/
theorem executeCommand_at_point {s : State} {c : Instr} {cmd : Command} {args : List Byte}
    (h : AtExecutionPoint s c) (hf : frameOf c = some (commandCode cmd :: args))
    (body : State → Except ResultCode (State × List Byte)) :
    executeCommand cmd args body s = match body s with
      | .ok (t, bytes) => answer (commandCode cmd) args .ok bytes t
      | .error result  => refuse cmd args result s := by
  obtain ⟨h1, h2⟩ := h
  have hd : isDraining s = false := by simp [isDraining, h1]
  unfold executeCommand
  rw [if_pos (takesFrame_of_awaits (by simp [h1]) h2 hf), hd]
  rfl

/-! ### The records held -/

/-- The records held behind a write of one channel. -/
theorem recordsHeld_setChannel (s : State) (c : ChannelIndex) (k : Channel) :
    recordsHeld (s.setChannel c k) + queueLength (s.channel c) =
      recordsHeld s + queueLength k := by
  have sum_eq : ∀ (l : List ChannelIndex), l.Nodup →
      (l.map fun d => queueLength ((s.setChannel c k).channel d)).sum +
        (if c ∈ l then queueLength (s.channel c) else 0) =
      (l.map fun d => queueLength (s.channel d)).sum + (if c ∈ l then queueLength k else 0) := by
    intro l
    induction l with
    | nil => simp
    | cons d l ih =>
      intro hn
      obtain ⟨hd, hl⟩ := List.nodup_cons.1 hn
      have := ih hl
      simp only [List.map_cons, List.sum_cons, List.mem_cons]
      by_cases hc : c = d
      · subst hc
        rw [if_neg hd, if_neg hd] at this
        rw [channel_setChannel_same, if_pos (.inl rfl), if_pos (.inl rfl)]
        omega
      · simp only [hc, false_or, channel_setChannel_other s k hc]
        omega
  have := sum_eq (List.finRange 8) (List.nodup_finRange 8)
  simpa [recordsHeld] using this

/-- The records held depend on the channels alone. -/
theorem recordsHeld_congr {s t : State} (h : t.channels = s.channels) :
    recordsHeld t = recordsHeld s := by
  simp [recordsHeld, State.channel, h]

/-! ### A tick taken ahead of its TICK -/

theorem awaitsTick_iff (s : State) (o : TickOwner) : awaitsTick s o = true ↔ o ∉ s.tickTaken :=
  decide_eq_true_iff

theorem mem_tickOwners (o : TickOwner) : o ∈ tickOwners := by
  cases o <;> simp [tickOwners]

theorem forestalls_iff (s t : State) (o : TickOwner) : forestalls s t o = true ↔ Forestalled s t o := by
  cases o <;>
    simp [forestalls, Forestalled, awaitsTick, channelExpiresNext, List.countP_eq_length_filter,
      and_assoc, or_assoc]

/-- Covering a tick adds the forestalled owners to those at which the tick is taken, and changes nothing
else. -/
theorem coverTick_true (s t : State) :
    coverTick true s t = { t with tickTaken := (coverTick true s t).tickTaken } ∧
      ∀ o : TickOwner, o ∈ (coverTick true s t).tickTaken ↔ o ∈ t.tickTaken ∨ Forestalled s t o := by
  refine ⟨rfl, fun o => ?_⟩
  rw [← forestalls_iff]
  simp [coverTick, mem_tickOwners, or_comm]

/-- A row that changes nothing covers no tick. -/
@[simp] theorem coverTick_self (b : Bool) (s : State) : coverTick b s s = s := by
  cases b with
  | false => rfl
  | true =>
    have h : tickOwners.filter (forestalls s s) = [] := by
      rw [List.filter_eq_nil_iff]
      intro o _
      cases o <;> simp [forestalls]
    simp [coverTick, h]

/-- A channel behind TICK's lowering in a RUNNING device (R113, R114). -/
theorem channel_lowerTimers {s : State} (h : s.device = .running) (c : ChannelIndex) :
    (lowerTimers s).channel c = channelTicked s c := by
  by_cases hm : TickOwner.channel c ∈ s.tickTaken <;>
    simp [lowerTimers, channelTicked, State.channel, h, tickChannel, awaitsTick, hm, lowerChannel]

/-- The response timer behind TICK's lowering (R113, R114). -/
theorem lowerTimers_responseTimer (s : State) : (lowerTimers s).responseTimer = responseTicked s := by
  by_cases hm : TickOwner.port ∈ s.tickTaken <;> simp [lowerTimers, tickResponse, awaitsTick, hm]

end Sys2Proof.Machine
end

