-- ==== Sys2Proof/Laws/Commands.lean ====
section
/-! SUPPORT. The management commands' arguments, tests and codes: what each argument byte stands for, when
each test fails, and the bytes of a frame. -/

namespace Sys2Proof.Machine

open Sys2Proof.Safety

/-! ### The tests of a command, one after another -/

theorem ok_bind {α β : Type} (a : α) (f : α → Except ResultCode β) : (Except.ok a >>= f) = f a := rfl

theorem error_bind {α β : Type} (r : ResultCode) (f : α → Except ResultCode β) :
    (Except.error r >>= f) = .error r := rfl

@[simp] theorem require_true (r : ResultCode) : require r true = .ok () := rfl

@[simp] theorem require_false (r : ResultCode) : require r false = .error r := rfl

theorem require_bind {α : Type} (r : ResultCode) (f : Unit → Except ResultCode α) (b : Bool) :
    (require r b >>= f) = if b = true then f () else .error r := by
  cases b <;> rfl

theorem orRefuse_some_bind {α β : Type} (r : ResultCode) (x : β) (f : β → Except ResultCode α) :
    (orRefuse r (some x) >>= f) = f x := rfl

theorem orRefuse_none_bind {α β : Type} (r : ResultCode) (f : β → Except ResultCode α) :
    (orRefuse r none >>= f) = .error r := rfl

/-- A chain of tests of one result code ends in it where the first fails, or where the rest does. -/
theorem orRefuse_bind_error {α β : Type} (r : ResultCode) (o : Option α)
    (f : α → Except ResultCode β) (h : o = none ∨ ∀ a, o = some a → f a = .error r) :
    (orRefuse r o >>= f) = .error r := by
  cases o with
  | none => rfl
  | some a =>
    rcases h with h | h
    · cases h
    · exact h a rfl

theorem require_bind_error {β : Type} (r : ResultCode) (b : Bool) (f : Unit → Except ResultCode β)
    (h : b = false ∨ f () = .error r) : (require r b >>= f) = .error r := by
  cases b with
  | false => rfl
  | true =>
    rcases h with h | h
    · cases h
    · exact h

/-- A command whose tests refuse it, in a RUNNING device at its execution point. -/
theorem executeCommand_refused {c : Instr} {cmd : Command} {args : List Byte}
    {body : State → Except ResultCode (State × List Byte)} {s : State} {r : ResultCode}
    (hp : AtExecutionPoint s c) (hf : frameOf c = some (commandCode cmd :: args))
    (h : body s = .error r) :
    executeCommand cmd args body s = refuse cmd args r s := by
  rw [executeCommand_at_point hp hf, h]

/-- A command other than STATUS_QUERY at its execution point during a drain. -/
theorem executeCommand_busy {c : Instr} {cmd : Command} {args : List Byte}
    {body : State → Except ResultCode (State × List Byte)} {s : State}
    (hd : isDraining s = true) (hp : AwaitsFrame s c)
    (hf : frameOf c = some (commandCode cmd :: args)) (hc : cmd ≠ .statusQuery) :
    executeCommand cmd args body s = refuse cmd args .busy s := by
  have hne : s.device ≠ .reset := by
    intro h
    simp [isDraining, h] at hd
  simp [executeCommand, takesFrame_of_awaits hne hp hf, hd, hc]

/-! ### Argument bytes -/

theorem entryOf_index (i : EntryIndex) : entryOf (BitVec.ofNat 8 i.val) = some i := by
  have h : (BitVec.ofNat 8 i.val).toNat = i.val := by simp [BitVec.toNat_ofNat]; omega
  unfold entryOf
  rw [dif_pos (by rw [h]; omega)]
  simp [h]

theorem entryOf_above {b : Byte} (h : 64 ≤ b.toNat) : entryOf b = none := dif_neg (by omega)

theorem channelOf_number (c : ChannelIndex) : channelOf (BitVec.ofNat 8 c.val) = some c := by
  have h : (BitVec.ofNat 8 c.val).toNat = c.val := by simp [BitVec.toNat_ofNat]; omega
  unfold channelOf
  rw [dif_pos (by rw [h]; omega)]
  simp [h]

theorem channelOf_above {b : Byte} (h : 8 ≤ b.toNat) : channelOf b = none := dif_neg (by omega)

theorem modeOf_code (m : Mode) : modeOf ((modeCode m).setWidth 8) = some m := by cases m <;> rfl

theorem modeOf_none_iff : ∀ b : Byte, modeOf b = none ↔ 3 ≤ b.toNat := by decide

theorem onOff_bool (b : Bool) : onOff (if b then 1 else 0) = some b := by cases b <;> rfl

theorem onOff_none_iff : ∀ b : Byte, onOff b = none ↔ 2 ≤ b.toNat := by decide

theorem scopeOf_none_iff : ∀ b : Byte, scopeOf b = none ↔ 2 ≤ b.toNat := by decide

theorem fallbackOf_other {c f : ChannelIndex} (h : f ≠ c) :
    fallbackOf c (BitVec.ofNat 8 f.val) = some (some f) := by
  unfold fallbackOf
  rw [if_neg (by clear h; revert f; decide), channelOf_number]
  exact if_neg h

/-- The fallback bytes that stand for nothing: the channel's own number, and 8 to 0xFE (R181). -/
theorem fallbackOf_none_iff : ∀ (c : ChannelIndex) (b : Byte),
    fallbackOf c b = none ↔ b.toNat = c.val ∨ (8 ≤ b.toNat ∧ b ≠ 0xFF) := by decide

/-! ### The tests of the law of watched addresses -/

theorem heldElsewhere_iff (s : State) (i : EntryIndex) (a : Word) :
    heldElsewhere s i a = true ↔
      ∃ j : EntryIndex, j ≠ i ∧ (s.entry j).state ≠ .free ∧ (s.entry j).address = a := by
  simp [heldElsewhere, and_assoc]

theorem inAnyWindow_iff (s : State) (a : Word) : inAnyWindow s a = true ↔ ¬ OutsideWindows s a := by
  simp only [inAnyWindow, List.any_eq_true, List.mem_finRange, true_and, channelCovers_iff,
    OutsideWindows]
  push Not
  rfl

theorem windowsMeet_comm (a b : Word) : windowsMeet a b = windowsMeet b a := by
  simp [windowsMeet, Bool.or_comm]

theorem windowClashes_iff (s : State) (c : ChannelIndex) (base : Word) :
    windowClashes s c base = true ↔
      (∃ d : ChannelIndex, d ≠ c ∧
        windowsApart (some base) (s.channel d).config.windowBase = false) ∨
      ∃ i : EntryIndex, (s.entry i).state ≠ .free ∧ ((s.entry i).address - base).toNat < 64 := by
  unfold windowClashes
  rw [Bool.or_eq_true, List.any_eq_true, List.any_eq_true]
  refine or_congr ?_ ?_
  · simp only [List.mem_finRange, true_and, Bool.and_eq_true, bne_iff_ne]
    refine exists_congr fun d => and_congr_right fun _ => ?_
    cases h : (s.channel d).config.windowBase <;> simp [windowsApart, windowsMeet_comm]
  · simp only [List.mem_finRange, true_and, Bool.and_eq_true, bne_iff_ne]
    exact exists_congr fun i => and_congr_right fun _ => decide_eq_true_iff

/-- A word matches no entry where every entry is FREE or holds another address (R6). -/
theorem entryAt_none {s : State} {a : Word}
    (h : ∀ i : EntryIndex, (s.entry i).state = .free ∨ (s.entry i).address ≠ a) :
    entryAt s a = none := by
  unfold entryAt
  rw [List.find?_eq_none]
  intro i _ hh
  rw [Bool.and_eq_true, bne_iff_ne, beq_iff_eq] at hh
  rcases h i with g | g
  · exact hh.1 g
  · exact g hh.2

/-- A word matches the one entry that is not FREE and holds its address (R6, R8). -/
theorem entryAt_some {s : State} {a : Word} {i : EntryIndex} (h1 : (s.entry i).state ≠ .free)
    (h2 : (s.entry i).address = a) (hw : WatchedAddresses s) : entryAt s a = some i := by
  cases he : entryAt s a with
  | none =>
    unfold entryAt at he
    rw [List.find?_eq_none] at he
    have := he i (List.mem_finRange i)
    simp [h1, h2] at this
  | some j =>
    unfold entryAt at he
    have hj := List.find?_some (p := fun k => (s.entry k).state != .free && (s.entry k).address == a) he
    rw [Bool.and_eq_true, bne_iff_ne, beq_iff_eq] at hj
    by_contra hne
    exact hw.1 j i (fun e => hne (by rw [e])) hj.1 h1 (hj.2.trans h2.symm)

/-! ### Purging -/

/-- The pending masks of a list of entries cleared, and no other field (R35). -/
theorem clearPending_spec (l : List EntryIndex) (s : State) :
    ∃ es, l.foldl (fun t i => t.setEntry i { t.entry i with pendingMask := 0 }) s =
        { s with entries := es } ∧
      ∀ i : EntryIndex,
        (l.foldl (fun t i => t.setEntry i { t.entry i with pendingMask := 0 }) s).entry i =
          if i ∈ l then { s.entry i with pendingMask := 0 } else s.entry i := by
  induction l generalizing s with
  | nil => exact ⟨_, rfl, by simp⟩
  | cons j l ih =>
    obtain ⟨es, h1, h2⟩ := ih (s.setEntry j { s.entry j with pendingMask := 0 })
    refine ⟨es, h1, fun i => ?_⟩
    rw [List.foldl_cons, h2, entry_setEntry]
    by_cases hj : j = i
    · subst hj
      simp
    · simp [hj, Ne.symm hj]

/-! ### Codes and bytes -/

theorem commandOf_code (c : Command) : commandOf (commandCode c) = some c := by cases c <;> rfl

theorem commandCode_injective {c d : Command} (h : commandCode c = commandCode d) : c = d := by
  have := congrArg commandOf h
  rw [commandOf_code, commandOf_code] at this
  exact Option.some.inj this

theorem wordOf_bytes (w : Word) :
    wordOf (w.extractLsb' 24 8) (w.extractLsb' 16 8) (w.extractLsb' 8 8) (w.extractLsb' 0 8) = w := by
  unfold wordOf
  apply BitVec.eq_of_getLsbD_eq
  intro i hi
  simp only [BitVec.getLsbD_append, BitVec.getLsbD_extractLsb']
  split
  · simp_all
  · split
    · rename_i h1 h2
      rw [show 8 + (i - 8) = i by omega]
      simp [h2]
    · split
      · rw [show 16 + (i - 8 - 8) = i by omega]
        simp
        intro
        omega
      · rw [show 24 + (i - 8 - 8 - 8) = i by omega]
        simp
        intro
        omega

theorem halfOf_bytes (w : Half) : halfOf (w.extractLsb' 8 8) (w.extractLsb' 0 8) = w := by
  unfold halfOf
  apply BitVec.eq_of_getLsbD_eq
  intro i hi
  simp only [BitVec.getLsbD_append, BitVec.getLsbD_extractLsb']
  split
  · simp_all
  · rw [show 8 + (i - 8) = i by omega]
    simp
    intro
    omega

set_option maxRecDepth 20000 in
theorem byteMask_bits : ∀ (be : BitVec 4) (k : Fin 4) (j : Fin 8),
    (byteMask be).getLsbD (8 * k.val + j.val) = be.getLsbD k.val := by
  decide

end Sys2Proof.Machine
end

