-- ==== Sys2Proof/Laws/Serial.lean ====
section
/-! SUPPORT. What clock edges do at the management port: the bits of a byte, a bit that is not the last
of its byte, the taking of a byte, and the bits of a frame up to its execution point. -/

namespace Sys2Proof.Machine

open Sys2Proof.Safety

/-! ### Bits and bytes -/

theorem byteOf_bits (a b c d e f g h : Bool) :
    byteBits (byteOf [a, b, c, d, e, f, g, h]) = [a, b, c, d, e, f, g, h] := by
  revert a b c d e f g h
  decide

set_option maxRecDepth 4000 in
theorem byteOf_byteBits (b : Byte) : byteOf (byteBits b) = b := by
  revert b
  decide

/-! ### One edge -/

@[simp] theorem sampleBit_selectLow (m : ManagementPort) (b : Bool) :
    (sampleBit m b).selectLow = m.selectLow := by
  unfold sampleBit
  split
  · rfl
  · simp only
    split <;> rfl

theorem clockIn_selectLow (l : List Bool) (m : ManagementPort) :
    (clockIn l m).selectLow = m.selectLow := by
  induction l generalizing m with
  | nil => rfl
  | cons b l ih =>
    unfold clockIn
    split
    · rfl
    · rw [ih, sampleBit_selectLow]

theorem getMsbD_zero (k : Nat) : (0 : Byte).getMsbD k = false := by
  simp [BitVec.getMsbD]

/-- A bit that is not the last of its byte. -/
theorem sampleBit_within {m : ManagementPort} {out : Byte} (b : Bool)
    (ho : outputByte m.phase = some out) (hb : m.bits.length < 7) :
    sampleBit m b = { m with
      bits := m.bits ++ [b], shifted := m.shifted ++ [out.getMsbD m.bits.length] } := by
  simp [sampleBit, ho, hb]

/-- The eighth bit takes the byte. -/
theorem sampleBit_last {m : ManagementPort} {out : Byte} (b : Bool)
    (ho : outputByte m.phase = some out) (hb : ¬ m.bits.length < 7) :
    sampleBit m b = { m with
      phase := nextPosition (byteOf (m.bits ++ [b])) m.phase
      bits := []
      shifted := m.shifted ++ [out.getMsbD m.bits.length] } := by
  simp [sampleBit, ho, hb]

theorem byteOf_seven {bits : List Bool} (h : bits.length = 7) (b : Bool) :
    byteBits (byteOf (bits ++ [b])) = bits ++ [b] := by
  match bits, h with
  | [p, q, r, t, u, v, w], _ => exact byteOf_bits p q r t u v w b

/-- While a command is awaited, an edge adds its bit to those held and shifts a zero out. -/
theorem sampleBit_awaits {m : ManagementPort} (b : Bool) (h : awaitsCommand m = true)
    (hb : m.bits.length < 8) :
    awaitsCommand (sampleBit m b) = true ∧ heldBits (sampleBit m b) = heldBits m ++ [b] ∧
      (sampleBit m b).shifted = m.shifted ++ [false] ∧ (sampleBit m b).bits.length < 8 := by
  have ho : outputByte m.phase = some 0 := by
    unfold awaitsCommand at h
    split at h
    · rename_i e; rw [e]; rfl
    · rename_i e; rw [e]; rfl
    · cases h
  by_cases h7 : m.bits.length < 7
  · rw [sampleBit_within b ho h7]
    refine ⟨h, ?_, by rw [getMsbD_zero], by simp only [List.length_append, List.length_singleton]; omega⟩
    unfold heldBits
    cases m.phase <;> simp
  · rw [sampleBit_last b ho h7]
    have h8 := byteOf_seven (show m.bits.length = 7 by omega) b
    unfold awaitsCommand at h
    unfold awaitsCommand heldBits
    split at h
    · rename_i e
      simp [e, nextPosition, frameBits, h8]
    · rename_i e
      simp [e, nextPosition, frameBits, h8]
    · cases h

/-! ### A frame up to its execution point -/

/-- The first byte of a frame that begins with the bits of another's. -/
theorem head_of_prefix {a b : Byte} {l r : List Bool} (h : byteBits a ++ l <+: byteBits b ++ r) :
    a = b := by
  have ht := congrArg (List.take 8) (List.prefix_iff_eq_take.1 h)
  have e : byteBits a = byteBits b := by
    simpa [byteBits, List.take_append] using ht
  rw [← byteOf_byteBits a, e, byteOf_byteBits]

/-- No bit of a frame short of its last is the one at which a command executes. -/
theorem bitExecutes_short {m : ManagementPort} {b : Bool} {code : Byte} {args : List Byte}
    (h : awaitsCommand m = true) (hb : m.bits.length < 8) (ha : args.length = argumentsOf code)
    (hp : heldBits m ++ [b] <+: frameBits (code :: args))
    (hl : (heldBits m).length + 1 < 8 * (args.length + 1)) : bitExecutes m b = false := by
  obtain ⟨low, phase, bits, shifted⟩ := m
  by_cases h7 : bits.length < 7
  · simp [bitExecutes]
    omega
  have take := byteOf_seven (bits := bits) (by simp only at hb; omega) b
  cases phase with
  | command =>
    simp only [heldBits] at hp hl
    have e : byteOf (bits ++ [b]) = code := by
      apply head_of_prefix (l := []) (r := frameBits args)
      rw [take, List.append_nil]
      exact hp
    simp only [bitExecutes, byteExecutes, e, ← ha]
    have : args.length ≠ 0 := by omega
    simp [this]
  | arguments code' taken =>
    simp only [heldBits, List.length_append, frameBits_length, List.length_cons] at hp hl
    have e : code' = code := by
      apply head_of_prefix (l := frameBits taken ++ bits ++ [b]) (r := frameBits args)
      simpa [frameBits] using hp
    subst e
    simp [bitExecutes, byteExecutes, ← ha]
    omega
  | _ => cases h

/-- The bits of a frame short of its last bring the port as far, and shift zeros out (R168, R170). -/
theorem clockIn_frame {code : Byte} {args : List Byte} (ha : args.length = argumentsOf code)
    (l : List Bool) (m : ManagementPort) (h : awaitsCommand m = true) (hb : m.bits.length < 8)
    (hp : heldBits m ++ l <+: frameBits (code :: args))
    (hl : (heldBits m).length + l.length < 8 * (args.length + 1)) :
    awaitsCommand (clockIn l m) = true ∧ heldBits (clockIn l m) = heldBits m ++ l ∧
      (clockIn l m).shifted = m.shifted ++ List.replicate l.length false := by
  induction l generalizing m with
  | nil => simp [clockIn, h]
  | cons b l ih =>
    have hp1 : heldBits m ++ [b] <+: frameBits (code :: args) :=
      List.IsPrefix.trans ⟨l, by simp⟩ hp
    have hx := bitExecutes_short h hb ha hp1 (by simp only [List.length_cons] at hl; omega)
    obtain ⟨s1, s2, s3, s4⟩ := sampleBit_awaits b h hb
    have := ih (sampleBit m b) s1 s4 (by rw [s2]; simpa using hp)
      (by rw [s2]; simp only [List.length_append, List.length_cons, List.length_nil] at hl ⊢; omega)
    rw [show clockIn (b :: l) m = clockIn l (sampleBit m b) by simp [clockIn, hx]]
    refine ⟨this.1, by rw [this.2.1, s2]; simp, ?_⟩
    rw [this.2.2, s3]
    simp [List.replicate_succ]

/-! ### Behind the execution point -/

/-- The bytes that a position has yet to shift out, before the zeros of TRAILING (R168). -/
def bytesLeft : FramePhase → List Byte
  | .turnaround _ result response => 0 :: resultByte result :: response
  | .result _ result response     => resultByte result :: response
  | .response _ left              => left
  | _                             => []

/-- The command of the frame in progress has executed. -/
def hasExecuted : FramePhase → Bool
  | .turnaround _ _ _ => true
  | .result _ _ _     => true
  | .response _ _     => true
  | .trailing _       => true
  | _                 => false

theorem outputByte_executed {p : FramePhase} (h : hasExecuted p = true) :
    outputByte p = some ((bytesLeft p).headD 0) := by
  cases p <;> first | rfl | cases h

theorem nextPosition_executed {p : FramePhase} (h : hasExecuted p = true) (byte : Byte) :
    hasExecuted (nextPosition byte p) = true ∧
      bytesLeft (nextPosition byte p) = (bytesLeft p).tail := by
  match p, h with
  | .turnaround _ _ _, _ => exact ⟨rfl, rfl⟩
  | .result _ _ [], _ => exact ⟨rfl, rfl⟩
  | .result _ _ (_ :: _), _ => exact ⟨rfl, rfl⟩
  | .response _ [], _ => exact ⟨rfl, rfl⟩
  | .response _ [_], _ => exact ⟨rfl, rfl⟩
  | .response _ (_ :: _ :: _), _ => exact ⟨rfl, rfl⟩
  | .trailing _, _ => exact ⟨rfl, rfl⟩

theorem bitExecutes_executed {m : ManagementPort} (h : hasExecuted m.phase = true) (b : Bool) :
    bitExecutes m b = false := by
  unfold bitExecutes
  cases hp : m.phase <;> simp_all [hasExecuted, byteExecutes]

theorem getMsbD_eq_byteBits (b : Byte) {k : Nat} (h : k < 8) : (byteBits b)[k]? = some (b.getMsbD k) := by
  obtain rfl | rfl | rfl | rfl | rfl | rfl | rfl | rfl :
      k = 0 ∨ k = 1 ∨ k = 2 ∨ k = 3 ∨ k = 4 ∨ k = 5 ∨ k = 6 ∨ k = 7 := by omega
  all_goals simp [byteBits, BitVec.getMsbD, BitVec.getLsbD_eq_getElem]

/-- Behind the execution point every edge shifts out the next bit of the bytes left, and then zeros; no
command executes again (R168, R172). -/
theorem clockIn_executed (l : List Bool) (m : ManagementPort) (N : Nat)
    (h : hasExecuted m.phase = true) (hb : m.bits.length < 8)
    (hN : m.bits.length + l.length ≤ 8 * N) :
    hasExecuted (clockIn l m).phase = true ∧
    (clockIn l m).shifted = m.shifted ++
      ((frameBits (bytesLeft m.phase ++ List.replicate N 0)).drop m.bits.length).take l.length := by
  induction l generalizing m N with
  | nil => simp [clockIn, h]
  | cons b l ih =>
    rw [show clockIn (b :: l) m = clockIn l (sampleBit m b) by
      simp [clockIn, bitExecutes_executed h b]]
    have ho := outputByte_executed h
    obtain ⟨N, rfl⟩ : ∃ k, N = k + 1 := ⟨N - 1, by simp only [List.length_cons] at hN; omega⟩
    simp only [List.length_cons] at hN
    -- the bytes to come, with the one in progress in front
    have front : frameBits (bytesLeft m.phase ++ List.replicate (N + 1) 0) =
        byteBits ((bytesLeft m.phase).headD 0) ++
          frameBits ((bytesLeft m.phase).tail ++ List.replicate
            (if bytesLeft m.phase = [] then N else N + 1) 0) := by
      cases bytesLeft m.phase <;> simp [frameBits, List.replicate_succ]
    have len : (byteBits ((bytesLeft m.phase).headD 0)).length = 8 := rfl
    have bit := getMsbD_eq_byteBits ((bytesLeft m.phase).headD 0) hb
    have step : ((frameBits (bytesLeft m.phase ++ List.replicate (N + 1) 0)).drop m.bits.length).take
          (l.length + 1) =
        ((bytesLeft m.phase).headD 0).getMsbD m.bits.length ::
          ((frameBits (bytesLeft m.phase ++ List.replicate (N + 1) 0)).drop
            (m.bits.length + 1)).take l.length := by
      have e : (frameBits (bytesLeft m.phase ++ List.replicate (N + 1) 0))[m.bits.length]? =
          some (((bytesLeft m.phase).headD 0).getMsbD m.bits.length) := by
        rw [front, List.getElem?_append_left (by omega), bit]
      obtain ⟨hlt, he⟩ := List.getElem?_eq_some_iff.1 e
      rw [List.drop_eq_getElem_cons hlt, he, List.take_succ_cons]
    simp only [List.length_cons]
    rw [step]
    by_cases h7 : m.bits.length < 7
    · have := ih { m with
          bits := m.bits ++ [b]
          shifted := m.shifted ++ [((bytesLeft m.phase).headD 0).getMsbD m.bits.length] } (N + 1) h
        (by simp only [List.length_append, List.length_singleton]; omega)
        (by simp only [List.length_append, List.length_singleton]; omega)
      rw [sampleBit_within b ho h7]
      refine ⟨this.1, ?_⟩
      rw [this.2]
      simp
    · have h8 : m.bits.length + 1 = 8 := by omega
      obtain ⟨n1, n2⟩ := nextPosition_executed h (byteOf (m.bits ++ [b]))
      have := ih { m with
          phase := nextPosition (byteOf (m.bits ++ [b])) m.phase, bits := []
          shifted := m.shifted ++ [((bytesLeft m.phase).headD 0).getMsbD m.bits.length] }
        (if bytesLeft m.phase = [] then N else N + 1) n1 (show 0 < 8 by decide)
        (show 0 + l.length ≤ _ by split <;> omega)
      rw [sampleBit_last b ho h7]
      refine ⟨this.1, ?_⟩
      rw [this.2, n2, front, h8, List.drop_left' len]
      simp

end Sys2Proof.Machine
end

