-- ==== Sys2Proof/Laws/Transit.lean ====
section
/-! SUPPORT. What a response and a stall do: the completion of the expected slot, the fields that no
evaluation reads, the priming queue behind a stall, and the record that an evaluation asks for. -/

namespace Sys2Proof.Machine

open Sys2Proof.Safety

/-! ### A valid response -/

theorem modify_eq_set {l : List Slot} {k : Nat} {x : Slot} (f : Slot → Slot) (h : l[k]? = some x) :
    l.modify k f = l.set k (f x) := by
  apply List.ext_getElem?
  intro i
  simp only [List.getElem?_modify, List.getElem?_set]
  split
  · rename_i e
    subst e
    obtain ⟨hk, he⟩ := List.getElem?_eq_some_iff.1 h
    simp [hk, he]
  · simp

theorem Reports.device {s t : State} (h : Reports s t) : t.device = s.device := by
  obtain ⟨_, _, _, _, rfl⟩ := h
  rfl

/-- A valid response: the expected slot completes, the timer follows, the response is handed on in a
RUNNING device alone (R14, R148), and COMPLETE priming slots at the head leave. -/
theorem exec_valid_response {s : State} {r : DownResponse} {k : Nat} {x : Slot}
    (hne : s.device ≠ .reset) (hl : s.link = .active) (he : ExpectedAt s k x)
    (ht : r.tag = s.head + Fin.ofNat 32 k) :
    let done : State := { s with
      ring := s.ring.set k (completeSlot x r)
      responseTimer := timerAfter s (s.ring.set k (completeSlot x r)) }
    exec (.downstreamResponse r) s =
      .next (settle (if s.device = .running then handOn done x r else done)) := by
  have hp := expectedPlace_of_expectedAt he
  have hna : s.link ≠ .stalled := by rw [hl]; decide
  have htag : tagOf s k = r.tag := by rw [ht]; rfl
  intro done
  have e : checkOrder s r = if s.device = .running then handOn done x r else done := by
    simp only [checkOrder, hp, htag, if_true, takeValid, he.1]
    rw [modify_eq_set _ he.1]
  simp only [exec, execDownstreamResponse, coverTick_false]
  rw [if_neg hne, if_neg hna, e]

/-- In a RUNNING device. -/
theorem exec_valid_response_running {s : State} {r : DownResponse} {k : Nat} {x : Slot}
    (hd : s.device = .running) (hl : s.link = .active) (he : ExpectedAt s k x)
    (ht : r.tag = s.head + Fin.ofNat 32 k) :
    exec (.downstreamResponse r) s = .next (leaveSilently (handOn { s with
      ring := s.ring.set k (completeSlot x r)
      responseTimer := timerAfter s (s.ring.set k (completeSlot x r)) } x r)) := by
  rw [exec_valid_response (by rw [hd]; decide) hl he ht, if_pos hd, settle_running]
  rw [Reports.device (handOn_reports _ x r)]
  exact hd

/-- In a DRAINING device: no word is acted on, and a ring left empty ends the drain (R199, R200). -/
theorem exec_valid_response_draining {s : State} {r : DownResponse} {k : Nat} {x : Slot} {sc : Scope}
    (hd : s.device = .draining sc) (hl : s.link = .active) (he : ExpectedAt s k x)
    (ht : r.tag = s.head + Fin.ofNat 32 k) :
    let ring := s.ring.set k (completeSlot x r)
    let u : State := { s with
      ring := ring.dropWhile silent
      head := headAfter s.head ring
      responseTimer := timerAfter s ring }
    exec (.downstreamResponse r) s = .next (if u.ring = [] then applyScope sc u else u) := by
  rw [exec_valid_response (by rw [hd]; simp) hl he ht, if_neg (by rw [hd]; simp),
    settle_draining (sc := sc) (by exact hd)]
  rfl

/-- The state with another ring, response timer and head: fields that no evaluation reads. -/
def State.withTransit (s : State) (ring : List Slot) (timer : Timer) (head : SlotIndex) : State :=
  { s with ring := ring, responseTimer := timer, head := head }

section
variable (s : State) (ring : List Slot) (tm : Timer) (h : SlotIndex)

theorem withTransit_entry (i : EntryIndex) : (s.withTransit ring tm h).entry i = s.entry i := rfl

theorem withTransit_channel (c : ChannelIndex) : (s.withTransit ring tm h).channel c = s.channel c :=
  rfl

theorem withTransit_setEntry (i : EntryIndex) (e : Entry) :
    (s.withTransit ring tm h).setEntry i e = (s.setEntry i e).withTransit ring tm h := rfl

theorem withTransit_canCreate (c : ChannelIndex) :
    canCreate (s.withTransit ring tm h) c = canCreate s c := rfl

theorem withTransit_deliverTo (c : ChannelIndex) :
    deliverTo (s.withTransit ring tm h) c = (deliverTo s c).withTransit ring tm h := rfl

theorem withTransit_createRecord (c : ChannelIndex) (b : RecordBody) :
    createRecord (s.withTransit ring tm h) c b = (createRecord s c b).withTransit ring tm h := by
  unfold createRecord
  rw [withTransit_canCreate]
  split <;> rfl

theorem withTransit_addPending (i : EntryIndex) (m : Word) :
    addPending (s.withTransit ring tm h) i m = (addPending s i m).withTransit ring tm h := by
  unfold addPending
  dsimp only
  rw [withTransit_entry]
  split <;> rfl

theorem withTransit_qualifyingEvent (i : EntryIndex) (c : Cause) (ch : Change) :
    qualifyingEvent (s.withTransit ring tm h) i c ch =
      (qualifyingEvent s i c ch).withTransit ring tm h := by
  unfold qualifyingEvent
  dsimp only
  rw [withTransit_entry]
  split
  · rw [withTransit_addPending, withTransit_deliverTo]
  · rw [withTransit_addPending, withTransit_createRecord, withTransit_deliverTo]
  · split
    · rw [withTransit_setEntry]
    · rw [withTransit_setEntry, withTransit_createRecord, withTransit_deliverTo]

theorem withTransit_evaluate (i : EntryIndex) (c : Cause) (n : Word) :
    evaluate (s.withTransit ring tm h) i c n = (evaluate s i c n).withTransit ring tm h := by
  unfold evaluate
  dsimp only
  rw [withTransit_entry]
  split
  · rfl
  · rw [withTransit_qualifyingEvent]
    rfl

theorem withTransit_entryAt (a : Word) : entryAt (s.withTransit ring tm h) a = entryAt s a := rfl

theorem withTransit_writeWord (n : Source) (p : Word × WriteWord) :
    writeWord n (s.withTransit ring tm h) p = (writeWord n s p).withTransit ring tm h := by
  unfold writeWord
  rw [withTransit_entryAt]
  split
  · rw [withTransit_entry]
    split
    · rw [withTransit_evaluate]
    · rfl
  · rfl

theorem withTransit_readWord (p : Word × Word) :
    readWord (s.withTransit ring tm h) p = (readWord s p).withTransit ring tm h := by
  unfold readWord
  rw [withTransit_entryAt]
  split
  · rw [withTransit_entry]
    split
    · rw [withTransit_evaluate]
    · rfl
  · rfl

theorem withTransit_faultWord (p : Word × WriteWord) :
    faultWord (s.withTransit ring tm h) p = (faultWord s p).withTransit ring tm h := by
  unfold faultWord
  split
  · rw [withTransit_entryAt]
    split
    · rw [reprime_eq, reprime_eq, withTransit_entry]
      split <;> rfl
    · rfl
  · rfl

end

/-- A fold of an operation that does not read the three fields leaves them as they are. -/
theorem withTransit_foldl {α : Type} {f : State → α → State}
    (hf : ∀ s ring tm h a, f (s.withTransit ring tm h) a = (f s a).withTransit ring tm h)
    (l : List α) (s : State) (ring : List Slot) (tm : Timer) (h : SlotIndex) :
    l.foldl f (s.withTransit ring tm h) = (l.foldl f s).withTransit ring tm h := by
  induction l generalizing s with
  | nil => rfl
  | cons a l ih => rw [List.foldl_cons, hf, ih]; rfl

theorem removeIndex_of_not_mem {i : EntryIndex} {l : List EntryIndex} (h : i ∉ l) :
    removeIndex i l = l := by
  simp only [removeIndex, List.filter_eq_self]
  intro a ha
  simp only [ne_eq, decide_eq_true_eq]
  rintro rfl
  exact h ha

/-! ### The stall -/

/-- A failed priming read that its entry still waits for (R48, R51). -/
def waitsRead (s : State) (p : EntryIndex × Byte) : Prop :=
  (s.entry p.1).generation = p.2 ∧
    ((s.entry p.1).state = .priming ∨ (s.entry p.1).state = .repriming)

theorem primingCompletion_fault (s : State) (p : EntryIndex × Byte) :
    (waitsRead s p → primingCompletion s p.1 p.2 none = enqueuePriming s p.1) ∧
    (¬ waitsRead s p → primingCompletion s p.1 p.2 none = s) := by
  unfold primingCompletion waitsRead primingFault
  by_cases h : (s.entry p.1).generation = p.2
  · simp only [h, if_true, true_and]
    cases (s.entry p.1).state <;> simp
  · simp [h]

/-- The failed priming reads in ring order: the entries that still wait for theirs, and do not stand
on the queue, join it, each at its read of the current generation (R51, R52). -/
theorem foldl_primingCompletion (L : List (EntryIndex × Byte)) (s : State) :
    ∃ l, L.foldl (fun t p => primingCompletion t p.1 p.2 none) s =
        { s with primingQueue := s.primingQueue ++ l } ∧
      l.Nodup ∧
      List.Sublist l ((L.filter fun p => p.2 = (s.entry p.1).generation).map Prod.fst) ∧
      ∀ i, i ∈ l ↔ i ∉ s.primingQueue ∧ ∃ g, (i, g) ∈ L ∧ waitsRead s (i, g) := by
  induction L generalizing s with
  | nil => exact ⟨[], by simp, by simp, by simp, by simp⟩
  | cons p L ih =>
    rw [List.foldl_cons]
    by_cases hw : waitsRead s p
    · rw [(primingCompletion_fault s p).1 hw, enqueuePriming_eq]
      by_cases hm : p.1 ∈ s.primingQueue
      · simp only [hm, if_true]
        obtain ⟨l, h1, h2, h3, h4⟩ := ih s
        refine ⟨l, h1, h2, h3.trans (((List.sublist_cons_self p L).filter _).map _), ?_⟩
        intro i; rw [h4]
        constructor
        · rintro ⟨a, g, b, c⟩; exact ⟨a, g, by simp [b], c⟩
        · rintro ⟨a, g, b, c⟩
          refine ⟨a, g, ?_, c⟩
          rcases List.mem_cons.1 b with rfl | b
          · exact absurd hm a
          · exact b
      · simp only [hm, if_false]
        obtain ⟨l, h1, h2, h3, h4⟩ := ih { s with primingQueue := s.primingQueue ++ [p.1] }
        refine ⟨p.1 :: l, ?_, ?_, ?_, ?_⟩
        · rw [h1]; simp
        · refine List.nodup_cons.2 ⟨?_, h2⟩
          intro hh; have := (h4 _).1 hh; simp at this
        · rw [List.filter_cons_of_pos (by simp [hw.1]), List.map_cons]
          exact h3.cons_cons p.1
        · intro i
          rw [List.mem_cons, h4]
          show i = p.1 ∨ (i ∉ s.primingQueue ++ [p.1] ∧ ∃ g, (i, g) ∈ L ∧ waitsRead s (i, g)) ↔ _
          constructor
          · rintro (rfl | ⟨a, g, b, c⟩)
            · exact ⟨hm, p.2, by simp, hw⟩
            · exact ⟨by simp at a; exact a.1, g, by simp [b], c⟩
          · rintro ⟨a, g, b, c⟩
            by_cases hi : i = p.1
            · exact .inl hi
            · refine .inr ⟨by simp [a, hi], g, ?_, c⟩
              rcases List.mem_cons.1 b with rfl | b
              · exact absurd rfl hi
              · exact b
    · rw [(primingCompletion_fault s p).2 hw]
      obtain ⟨l, h1, h2, h3, h4⟩ := ih s
      refine ⟨l, h1, h2, h3.trans (((List.sublist_cons_self p L).filter _).map _), ?_⟩
      intro i; rw [h4]
      constructor
      · rintro ⟨a, g, b, c⟩; exact ⟨a, g, by simp [b], c⟩
      · rintro ⟨a, g, b, c⟩
        refine ⟨a, g, ?_, c⟩
        rcases List.mem_cons.1 b with rfl | b
        · exact absurd c hw
        · exact b

/-- The reprimings of a list of entries, none of whose ARMED ones stands on the queue (R13). -/
theorem foldl_reprime (M : List EntryIndex) (hM : M.Nodup) (s : State)
    (hq : ∀ i ∈ M, (s.entry i).state = .armed → i ∉ s.primingQueue) :
    ∃ es, M.foldl reprime s = { s with
        entries := es
        primingQueue := s.primingQueue ++ M.filter (fun i => (s.entry i).state = .armed) } ∧
      ∀ i, (M.foldl reprime s).entry i =
        if i ∈ M ∧ (s.entry i).state = .armed then { s.entry i with state := .repriming }
        else s.entry i := by
  induction M generalizing s with
  | nil => exact ⟨s.entries, by simp, by simp⟩
  | cons j M ih =>
    obtain ⟨hj, hM⟩ := List.nodup_cons.1 hM
    rw [List.foldl_cons]
    by_cases ha : (s.entry j).state = .armed
    · have hjq := hq j (by simp) ha
      have e : reprime s j = { s.setEntry j { s.entry j with state := .repriming } with
          primingQueue := s.primingQueue ++ [j] } := by
        rw [reprime_eq, if_pos ha, if_neg hjq]
      have en : ∀ i, (reprime s j).entry i =
          if j = i then { s.entry j with state := .repriming } else s.entry i := by
        intro i
        rw [e]
        exact entry_setEntry s j i _
      obtain ⟨es, h1, h2⟩ := ih hM (reprime s j) (by
        intro i hi h
        have hne : j ≠ i := by rintro rfl; exact hj hi
        rw [en, if_neg hne] at h
        rw [e]; simp [hq i (by simp [hi]) h, Ne.symm hne])
      refine ⟨es, ?_, ?_⟩
      · have hf : ∀ i ∈ M, decide (((reprime s j).entry i).state = .armed) =
            decide ((s.entry i).state = .armed) := by
          intro i hi
          rw [en, if_neg (by rintro rfl; exact hj hi)]
        rw [h1, List.filter_congr hf, e]
        simp [ha]
      · intro i
        rw [h2, en]
        by_cases hij : j = i
        · subst hij; simp [hj, ha]
        · simp [hij, Ne.symm hij]
    · have e : reprime s j = s := by rw [reprime_eq, if_neg ha]
      rw [e]
      obtain ⟨es, h1, h2⟩ := ih hM s (fun i hi => hq i (by simp [hi]))
      refine ⟨es, ?_, ?_⟩
      · rw [h1]; simp [ha]
      · intro i; rw [h2]
        by_cases hij : i = j
        · subst hij; simp [ha]
        · simp [hij]

theorem readInFlight_iff (s : State) (i : EntryIndex) :
    readInFlight s i = true ↔ (i, (s.entry i).generation) ∈ outstandingPriming s.ring := by
  unfold readInFlight outstandingPriming
  rw [List.any_eq_true, List.mem_filterMap]
  constructor
  · rintro ⟨x, hx, h⟩
    refine ⟨x, hx, ?_⟩
    cases x <;> simp_all
  · rintro ⟨x, hx, h⟩
    refine ⟨x, hx, ?_⟩
    cases x <;> simp_all

/-! ### The record of an evaluation -/

theorem setChannel_self (s : State) (c : ChannelIndex) : s.setChannel c (s.channel c) = s := by
  unfold State.setChannel State.channel
  rw [Vector.set_getElem_self]

/-- The pending mask and the pending set behind a qualifying event (R27). -/
theorem addPending_eq (s : State) (i : EntryIndex) (mask : Word) :
    addPending s i mask =
      (s.setEntry i { s.entry i with pendingMask := (s.entry i).pendingMask ||| mask }).setChannel
        (s.entry i).channel
        { s.channel (s.entry i).channel with
          pendingSet := if (s.entry i).pendingMask = 0 then
              insertIndex i (s.channel (s.entry i).channel).pendingSet
            else (s.channel (s.entry i).channel).pendingSet } := by
  unfold addPending
  dsimp only
  split
  · rfl
  · exact (setChannel_self (s.setEntry i _) _).symm

/-- A created record and its delivery (R63, R82). -/
theorem deliverTo_createRecord_room {u : State} {c : ChannelIndex} (h : canCreate u c = true)
    (body : RecordBody) :
    deliverTo (createRecord u c body) c =
      { u.setChannel c (deliver { u.channel c with
          queued := (u.channel c).queued ++ [
            { body, sequence := (u.channel c).nextSequence, timestamp := u.tickCounter
              redelivery := 0 }]
          nextSequence := (u.channel c).nextSequence + 1 }) with
        freeRecords := u.freeRecords - 1 } := by
  rw [createRecord_of_room h]
  simp only [deliverTo, appendRecord]
  have key : ∀ (k : Channel) n,
      ({ u.setChannel c k with freeRecords := n } : State).channel c = k :=
    fun k _ => channel_setChannel_same u c k
  rw [key]
  simp only [State.setChannel, Vector.set_set]

/-- A lost record and the delivery (R64, R82). -/
theorem deliverTo_createRecord_full {u : State} {c : ChannelIndex} (h : canCreate u c = false)
    (body : RecordBody) :
    deliverTo (createRecord u c body) c =
      u.setChannel c (deliver (loseRecord (u.channel c))) := by
  rw [createRecord_of_full h]
  simp only [deliverTo, channel_setChannel_same, setChannel_setChannel]

end Sys2Proof.Machine
end

