-- ==== Sys2Proof/Tests/Slice0.lean ====
section
/-! SUPPORT. The model's own tests: a refused ill-formed term for each check of WellFormed, small runs of the
manual's worked sequences, and for each statement with hypotheses a state and operands that meet them. -/

namespace Sys2Proof.Tests

open Sys2Proof.Machine Sys2Proof.Safety

/-! ### The checks of WellFormed -/

theorem test_wellFormed_tick : (Instr.tick [3, 1, 3]).wellFormed = false := by decide

theorem test_wellFormed_request :
    (Instr.requestAccept ⟨1, 0x2000, .write (List.replicate 16 ⟨0, 0xF⟩)⟩).wellFormed = false := by
  decide

theorem test_wellFormed_claim :
    (Instr.claim 4 2 3).wellFormed = false ∧ (Instr.claim 4 2 0).wellFormed = false := by decide

/-- A served shape, a length of zero, a run past the block, and too many words. -/
theorem test_wellFormed_refusedAccess :
    (Instr.refusedWindowAccess 4 2 2 (.read 2)).wellFormed = false ∧
    (Instr.refusedWindowAccess 4 2 5 (.read 0)).wellFormed = false ∧
    (Instr.refusedWindowAccess 4 2 7 (.read 2)).wellFormed = false ∧
    (Instr.refusedWindowAccess 4 2 0 (.write (List.replicate 16 ⟨0, 0⟩))).wellFormed = false := by
  decide

theorem test_wellFormed_disable : (Instr.channelDisable 2 1).wellFormed = false := by decide

theorem test_wellFormed_unknown : (Instr.unknownCommand 0x22).wellFormed = false := by decide

set_option maxRecDepth 4000 in
theorem test_wellFormed_discard :
    (Instr.frameDiscard (List.replicate 184 false)).wellFormed = false := by decide

set_option maxRecDepth 4000 in
/-- Every check lets terms of its command through. -/
theorem test_wellFormed_passes :
    (Instr.tick [3, 1]).wellFormed = true ∧ (Instr.claim 4 2 2).wellFormed = true ∧
    (Instr.requestAccept ⟨1, 0x2000, .write (List.replicate 15 ⟨0, 0xF⟩)⟩).wellFormed = true ∧
    (Instr.refusedWindowAccess 4 2 4 (.write [⟨0, 0x7⟩])).wellFormed = true ∧
    (Instr.channelDisable 2 7).wellFormed = true ∧ (Instr.unknownCommand 0x13).wellFormed = true ∧
    (Instr.frameDiscard (List.replicate 183 false)).wellFormed = true := by decide

/-! ### Frames, from chapter 9's example and section 12.3 -/

/-- The WATCH_DEFINE of the example of chapter 9. -/
def exampleDefine (index : Byte) : WatchDefineArgs where
  index := index
  address := 0x60000020
  enableMask := 0x0000FFFF
  riseMask := 0x00000001
  fallMask := 0
  mode := 0
  channel := 0
  reconcile := 0
  threshold := 0

/-- The bytes of the frame of event 3 of the example, as the manual prints them. -/
def exampleBytes : List Byte :=
  [0x10, 0x0A, 0x60, 0x00, 0x00, 0x20, 0x00, 0x00, 0xFF, 0xFF, 0x00, 0x00, 0x00, 0x01,
   0x00, 0x00, 0x00, 0x00, 0x00, 0x00, 0x00, 0x00, 0x00]

theorem test_frame_define : commandOfFrame exampleBytes = some (.watchDefine (exampleDefine 0x0A)) := by
  decide

/-- One argument byte short of the count, nothing executes (event 2 of the example, R171). -/
theorem test_frame_cut : commandOfFrame (exampleBytes.take 22) = none := by decide

theorem test_frame_timing :
    commandOfFrame [0x30, 0x00, 0x64, 0x03, 0xE8] = some (.timingSet 100 1000) := by decide

theorem test_frame_purge : commandOfFrame [0x22, 0x03, 0x01] = some (.channelDisablePurge 3) := by decide

/-! ### Small states -/

/-- The state a command leaves; every command answers a next state. -/
def after (c : Instr) (s : State) : State :=
  match exec c s with
  | .next t => t
  | _       => s

/-- Commands taken one after another. -/
def run (l : List Instr) (s : State) : State := l.foldl (fun t c => after c t) s

/-- A frame begun, with no bit sampled. -/
def framed (s : State) : State :=
  { s with management := { selectLow := true, phase := .command, bits := [], shifted := [] } }

/-- A channel in a state, with a window at 0x1FFF0100, sources 4 and 8 permitted, deadlines and a
hold-off. -/
def channelIn (st : ChannelState) : Channel :=
  { Channel.powerOn.moveTo st with
    config := { windowBase := some 0x1FFF0100, permitted := 0x110, quota := 8, watermark := 2
                holdoff := 5, claimDeadline := 200, serviceDeadline := 100, fallback := none } }

/-- Channel 3 as given, everything else as after reset. -/
def withChannel (k : Channel) : State := State.reset.setChannel 3 k

/-- A record with a sequence and a redelivery count. -/
def record (n : Half) (redelivery : BitVec 3) : Record where
  body := .transition 9 { entry := 16, generation := 1, old := 0, new := 1, mask := 1 }
  sequence := n
  timestamp := 7
  redelivery := redelivery

/-- Channel 3 in service with one HANDED and two QUEUED records. -/
def served : Channel :=
  { channelIn .inService with
    handed := [record 4 7], queued := [record 5 0, record 6 0], nextSequence := 7
    serviceTimer := .running 1 }

/-- Entry 16 in a state and a mode, reporting to channel 3 (section 11.1). -/
def entryIn (st : EntryState) (m : Mode) : Entry :=
  { Entry.powerOn with
    state := st, address := 0x24000000, enableMask := 0xF, riseMask := 0xF, mode := m, channel := 3
    threshold := if m = .count then 2 else 0, reconcile := true, generation := 1 }

/-- Entry 16 and channel 3 as given. -/
def withEntry (e : Entry) (k : Channel) : State := (withChannel k).setEntry 16 e

/-- A forwarded write of source 9 to entry 16's word, sent, alone in the ring at slot 12. -/
def writing (words : List WriteWord) (s : State) : State :=
  { s with
    ring := [.forwarded ⟨9, 0x24000000, .write words⟩ true], head := 12
    responseTimer := .running 1000 }

/-- A priming read of entry 16, sent, alone in the ring at slot 12. -/
def primingOut (g : Byte) (s : State) : State :=
  { s with
    ring := [.primingRead 16 g 0x24000000 true], head := 12, responseTimer := .running 1000 }

/-- A response with the first lane given. -/
def response (tag : SlotIndex) (status : BitVec 2) (word : Word) : DownResponse :=
  { tag, status, data := #v[word, 0, 0, 0, 0, 0, 0, 0] }

/-! ### Steps of the worked sequences -/

/-- Sequence A, event 1: bit 0 rises, the record and the alert (section 11.6). -/
theorem test_write_record :
    let s := writing [⟨1, 0xF⟩] (withEntry (entryIn .armed .record)
      { channelIn .idle with config := { (channelIn .idle).config with watermark := 1, holdoff := 0 } })
    let t := after (.downstreamResponse (response 12 0 0)) s
    (t.channel 3).state = .alerting ∧ (t.channel 3).alert = true ∧
      (t.channel 3).claimTimer = .running 200 ∧ (t.channel 3).pendingSet = [16] ∧
      (t.channel 3).queued = [{ record 0 0 with timestamp := 0 }] ∧ t.freeRecords = 127 ∧
      (t.entry 16).shadow = 1 ∧ (t.entry 16).pendingMask = 1 := by decide

/-- Sequence A, events 4 and 5: the hand-out restarts the timer, and kind NONE does not. -/
theorem test_record_handout :
    let s := withChannel { channelIn .inService with queued := [record 0 0], serviceTimer := .running 3 }
    let t := after (.record 4 3) s
    (t.channel 3).handed = [record 0 0] ∧ (t.channel 3).queued = [] ∧
      (t.channel 3).serviceTimer = .running 100 ∧
      (after (.record 4 3) { t with tickCounter := 1 }).channels = t.channels := by decide

/-- Sequence A, event 7: the RETURN frees the record and leaves the channel IDLE. -/
theorem test_return_idle :
    let s := { withChannel { channelIn .inService with handed := [record 0 0] } with
      freeRecords := 127 }
    let t := after (.returnService 4 3 1) s
    (t.channel 3).state = .idle ∧ (t.channel 3).overRetire = false ∧ t.freeRecords = 128 := by decide

/-- Sequence D, event 4: the service lapse at the tick, its reversion and the notice at the fallback. -/
theorem test_tick_lapse :
    let k := channelIn .inService
    let s := { (withChannel { k with
        config := { k.config with fallback := some 6 }, handed := [record 4 0], nextSequence := 5
        serviceTimer := .running 1 }).setChannel 6
        { channelIn .idle with config := { ChannelConfig.powerOn with windowBase := none } } with
      tickCounter := 0x20063, freeRecords := 127 }
    let t := after (.tick []) s
    (t.channel 3).state = .lapsed ∧ (t.channel 3).alert = true ∧ (t.channel 3).lapses = 1 ∧
      (t.channel 3).queued = [record 4 1] ∧ (t.channel 6).state = .alerting ∧
      (t.channel 6).queued = [⟨.lapse 3 .service, 0, 0x20064, 0⟩] ∧ t.freeRecords = 126 := by decide

/-- Sequence D, event 8: a stray RETURN is refused and counted. -/
theorem test_stray_return :
    let t := after (.returnService 4 3 1) (withChannel (channelIn .idle))
    (t.channel 3).refused = 1 ∧ (t.channel 3).state = .idle ∧
      t.ring = [.answered 4 true 0x1FFF0110 1 ⟨.refused, []⟩] := by decide

set_option maxRecDepth 20000 in
/-- Sequence E, event 2: a response out of order stalls the port, and the ARMED entry re-primes. -/
theorem test_order_stall :
    let s := writing [⟨3, 0xF⟩] (withEntry (entryIn .armed .record) (channelIn .idle))
    let t := after (.downstreamResponse (response 13 0 0)) s
    t.link = .stalled ∧ t.primingQueue = [16] ∧ (t.entry 16).state = .repriming ∧
      t.faultFlags = 0x09 ∧ t.faultLine = true ∧
      t.ring = [.answered 9 true 0x24000000 1 ⟨.fault, []⟩] := by decide

/-- Sequence E, event 6: the re-prime compares with the kept shadow and reports UNSEEN. -/
theorem test_reprime_unseen :
    let s := primingOut 1 (withEntry { entryIn .repriming .record with shadow := 1 } (channelIn .idle))
    let t := after (.downstreamResponse (response 12 0 3)) s
    (t.entry 16).state = .armed ∧ (t.entry 16).shadow = 3 ∧ (t.channel 3).state = .holdoff ∧
      (t.channel 3).queued.map Record.body = [.unseen ⟨16, 1, 1, 3, 2⟩] ∧ t.ring = [] ∧
      t.head = 13 := by decide

/-- Word 0 of the summary of sequence A, event 3: ALERTING, one QUEUED, two pending (R94). -/
theorem test_summary :
    summaryWord0 { channelIn .alerting with queued := [record 0 0], pendingSet := [16, 17] } =
      0x02000103 := by decide

/-- Words 0 to 2 of the LAPSE record of sequence D (section 12.2). -/
theorem test_lapse_words :
    (recordWords ⟨.lapse 3 .service, 0, 0x20064, 0⟩).take 3 = [0x00000004, 0x00020064, 0x00130000] := by
  decide

/-- The 32-byte block and the lengths of R134. -/
theorem test_malformed :
    malformed ⟨1, 0x201C, .read 2⟩ = true ∧ malformed ⟨1, 0x2000, .read 8⟩ = false ∧
      malformed ⟨1, 0x2000, .read 9⟩ = true ∧ malformed ⟨1, 0x2002, .read 1⟩ = true := by decide

/-- FAULT_COLLECT behind three bits of its command byte, cut in the turnaround byte: the flags are gone,
and only zeros were shifted out (event 5 of the example of chapter 9, R170, R172). -/
theorem test_faultCollect_cut :
    let t := run [.frameBegin [false, false, true], .faultCollect,
      .frameCutAfterExecution (List.replicate 7 true)] State.reset
    t.faultFlags = 0 ∧ t.management.shifted = List.replicate 15 false ∧
      t.management.selectLow = false := by decide

set_option maxRecDepth 20000 in
/-- A whole STATUS_QUERY frame of 13 bytes after reset, each byte most significant bit first (R168, R188,
section 12.3). -/
theorem test_statusQuery_bytes :
    (run [.frameBegin [], .statusQuery, .frameCutAfterExecution (List.replicate 96 false)]
        State.reset).management.shifted =
      [0, 0, 0x01, 1, 0, 32, 128, 0, 0, 0, 0, 0, (1 : Byte)].flatMap
        fun b => [b[7], b[6], b[5], b[4], b[3], b[2], b[1], b[0]] := by decide

/-- The command byte 0x39 is 0011 1001: no command of another first bit executes on a held 1 (R168). -/
theorem test_held_bit_decides :
    let s := after (.frameBegin [true]) State.reset
    s.management.bits = [true] ∧ after .faultCollect s = s := by decide

set_option maxRecDepth 100000 in
/-- Event 2 of the example of chapter 9: a rise after 21 of the 22 argument bytes sets MGMT_FRAME, and
entry 10 is as it was (R171). -/
theorem test_discard_define :
    let bits := (exampleBytes.take 22).flatMap byteBits
    let t := run [.frameBegin bits, .frameDiscard []] { State.reset with faultFlags := 0 }
    (after (.frameBegin bits) State.reset).management.phase =
        .arguments 0x10 ((exampleBytes.take 22).drop 1) ∧
      t.faultFlags = 0x40 ∧ t.faultLine = true ∧ t.entries = State.reset.entries ∧
      t.management.phase = .noFrame := by decide

/-- The example of chapter 9, events 3 and 4: defined under generation 1, then DUPLICATE. -/
theorem test_define_duplicate :
    let s := after (.watchDefine (exampleDefine 0x0A)) (framed State.reset)
    (s.entry 10).state = .priming ∧ s.primingQueue = [10] ∧
      s.management.phase = .turnaround 0x10 .ok [1] ∧
      (after (.watchDefine (exampleDefine 0x0B)) (framed s)).management.phase =
        .turnaround 0x10 .duplicate [0] := by decide

/-- A KEEP_CONFIG reset with an empty ring applies at the command (R198, R200, R202). -/
theorem test_keepConfig :
    let s := framed { withEntry (entryIn .armed .record) served with freeRecords := 125 }
    let t := after (.deviceReset 1) s
    t.device = .running ∧ (t.entry 16).state = .priming ∧ (t.entry 16).generation = 2 ∧
      t.primingQueue = [16] ∧ (t.channel 3).state = .idle ∧ (t.channel 3).nextSequence = 7 ∧
      t.freeRecords = 128 ∧ t.faultFlags = 0x03 := by decide

/-! ### A state and operands for the hypotheses of each statement, clause by clause

A statement without hypotheses needs none. -/

/-- The part with RESET_N low. -/
def low : State := { State.reset with device := .reset }

/-- A drain toward a scope, with one answered slot in the ring. -/
def draining (sc : Scope) : State :=
  { State.reset with device := .draining sc, ring := [.answered 1 false 0x2000 1 ⟨.okay, [0]⟩] }

/-- The port STALLED. -/
def stalled (s : State) : State := { s with link := .stalled }

/-- Every timer of channel 3 as given. -/
def timed (st : ChannelState) (h c v : Timer) : State :=
  withChannel { channelIn st with holdoffTimer := h, claimTimer := c, serviceTimer := v }

/-- Channel 3's configuration with a fallback. -/
def withFallback (f : Option ChannelIndex) (k : Channel) : Channel :=
  { k with config := { k.config with fallback := f } }

theorem test_meets_StepTakesFrontCommand :
    ({ State.reset with pending := [.frameBegin [], .tick []] } : State).pending =
      .frameBegin [] :: [.tick []] ∧ State.reset.pending = [] := by decide

theorem test_meets_ResetNEdges : low.device = .reset ∧ State.reset.device ≠ .reset := by decide

theorem test_meets_ResetHoldsThePart :
    low.device = .reset ∧ ResetHolds low ∧ Instr.frameBegin [true] ≠ .resetNRise ∧
      ∃ t, exec (.frameBegin [true]) low = .next t :=
  ⟨rfl, fun _ => rfl, by decide, _, rfl⟩

/-- At the least value, and at the last tick of the greatest. -/
theorem test_meets_TimerExpiresAtItsTick :
    0 < (1 : Half).toNat ∧ 65534 < (65535 : Half).toNat ∧ 65534 + 1 = (65535 : Half).toNat := by
  decide

/-- No expiry next; and expiries next where the tick has been taken. -/
theorem test_meets_TicksAreTakenOnce :
    (let s := { timed .holdoff (.running 2) .stopped .stopped with responseTimer := .running 2 }
     s.device = .running ∧ (∀ c : ChannelIndex, ChannelUnexpired s c) ∧ ResponseUnexpired s) ∧
    (let s := { timed .holdoff (.running 1) .stopped .stopped with
       responseTimer := .running 1, tickTaken := [.channel 3, .port] }
     s.device = .running ∧ (∀ c : ChannelIndex, ChannelUnexpired s c) ∧ ResponseUnexpired s) ∧
    Covers (.record 4 3) (.record 4 3 true) :=
  ⟨by decide, by decide, .record 4 3⟩

/-- Channel 3 in service at the last tick of its service deadline, which is 1. -/
def briefly : Channel :=
  { served with config := { served.config with serviceDeadline := 1 } }

/-- A channel that lapses ahead of its TICK and is claimed at the same instant has the next tick as its
first, with a deadline of 1 too (R114); and its expiry is not taken twice. -/
theorem test_expiry_claim_tick :
    let s := withChannel briefly
    let t := run [.serviceDeadlineExpiry 3, .claim 4 3 1] s
    (t.channel 3).serviceTimer = .running 1 ∧ after (.serviceDeadlineExpiry 3) t = t ∧
      ((after (.tick []) t).channel 3).serviceTimer = .running 1 ∧
      ((run [.tick [], .tick []] t).channel 3).lapses = 2 := by decide

/-- RECORD ahead of the expiring tick with a deadline of 1: by R120 no lapse occurs, and by R114 that tick
is the expiry. -/
theorem test_record_covers_tick :
    let t := run [.record 4 3 true, .tick []] (withChannel briefly)
    (t.channel 3).state = .inService ∧ (t.channel 3).serviceTimer = .running 1 ∧ t.tickTaken = [] ∧
      ((run [.record 4 3, .tick []] (withChannel briefly)).channel 3).state = .lapsed := by decide

/-- A RECORD that finds none QUEUED restarts no timer, so the tick expires it (R118, R120). -/
theorem test_record_none_covers_nothing :
    ((run [.record 4 3 true, .tick []] (withChannel { briefly with queued := [] })).channel 3).state =
      .lapsed := by decide

/-- CLAIM and RETURN ahead of the expiring tick, where the deadline they start is 1 (R117, R119). -/
theorem test_claim_return_cover_tick :
    let brief := fun k : Channel => { k with
      config := { k.config with serviceDeadline := 1, claimDeadline := 1 } }
    ((run [.claim 4 3 1 true, .tick []]
      (withChannel (brief { channelIn .alerting with claimTimer := .running 1 }))).channel 3).state =
        .inService ∧
    ((run [.returnService 4 3 1 true, .tick []] (withChannel (brief served))).channel 3).state =
      .alerting := by decide

set_option maxRecDepth 20000 in
/-- A valid response ahead of the expiring tick with a timeout of 1 and a slot left OUTSTANDING: by R165 no
stall is taken at that tick, and by R114 that tick is the expiry. -/
theorem test_response_covers_tick :
    let s : State := { State.reset with
      ring := [.forwarded ⟨9, 0x24000000, .write []⟩ true, .forwarded ⟨9, 0x24000000, .write []⟩ true]
      responseTimeout := 1, responseTimer := .running 1 }
    let t := run [.downstreamResponse (response 0 0 0) true, .tick []] s
    t.link = .active ∧ t.responseTimer = .running 1 ∧
      (run [.downstreamResponse (response 0 0 0), .tick []] s).link = .stalled := by decide

theorem test_meets_TickFreezesChannelTimersInDrain :
    let s := { timed .holdoff (.running 1) .stopped .stopped with
      device := .draining .full, responseTimer := .running 2 }
    s.device = .draining .full ∧ ResponseUnexpired s := by decide

theorem test_meets_TickTakesTheExpiryItBrings_holdoff :
    let s := timed .holdoff (.running 1) .stopped .stopped
    s.device = .running ∧ (s.channel 3).state = .holdoff ∧
    (s.channel 3).holdoffTimer = .running 1 ∧ (s.channel 3).claimTimer = .stopped ∧
    (s.channel 3).serviceTimer = .stopped ∧
    (∀ d : ChannelIndex, d ≠ 3 → ChannelUnexpired s d) ∧ ResponseUnexpired s ∧
    TickOwner.channel 3 ∉ s.tickTaken := by decide

/-- The fallback one below its quota, and one record free. -/
theorem test_meets_TickTakesTheExpiryItBrings_service :
    let s : State := { (withChannel (withFallback (some 6) { channelIn .inService with
        serviceTimer := .running 1 })).setChannel 6
        { channelIn .inService with handed := List.replicate 7 (record 0 0) } with
      freeRecords := 1 }
    s.device = .running ∧ (s.channel 3).state = .inService ∧
    (s.channel 3).serviceTimer = .running 1 ∧ (s.channel 3).holdoffTimer = .stopped ∧
    (s.channel 3).claimTimer = .stopped ∧ (s.channel 3).config.fallback = some 6 ∧
    (6 : ChannelIndex) ≠ 3 ∧ (s.channel 6).state ≠ .disabled ∧
    (s.channel 6).handed.length + (s.channel 6).queued.length <
      (s.channel 6).config.quota.toNat ∧ 0 < s.freeRecords ∧
    (∀ d : ChannelIndex, d ≠ 3 → ChannelUnexpired s d) ∧ ResponseUnexpired s ∧
    TickOwner.channel 3 ∉ s.tickTaken := by decide

/-- On one tick: channel 1's claim deadline, whose notice takes channel 6 from HOLDOFF to ALERTING ahead of
its hold-off's end, and channel 3's service deadline, whose notice is lost. -/
def expiring : State :=
  (((withChannel (withFallback none served)).setChannel 1
      (withFallback (some 6) { channelIn .alerting with claimTimer := .running 1 })).setChannel 6
      { channelIn .holdoff with queued := [record 0 0], holdoffTimer := .running 1 })

theorem test_meets_TickTakesTheExpiryItBrings_several :
    let order : List ChannelIndex := [3, 1]
    expiring.device = .running ∧ order.Nodup ∧ ServiceLaw expiring ∧
    ResponseUnexpired expiring := by decide

/-- What the order leaves of them (R68, R84 to R86, R116, R123). -/
theorem test_tick_several :
    let t := after (.tick [3, 1]) expiring
    (t.channel 1).state = .lapsed ∧ (t.channel 3).state = .lapsed ∧ t.faultFlags = 0x21 ∧
      (t.channel 6).state = .alerting ∧ (t.channel 6).claimTimer = .running 200 ∧
      (t.channel 6).queued.map Record.body = [(record 0 0).body, .lapse 1 .claim] := by decide

theorem test_meets_TickTakesTheExpiryItBrings_response :
    (let s : State := { writing [] expiring with responseTimer := .running 1 }
     let order : List ChannelIndex := [3, 1]
     s.device = .running ∧ order.Nodup ∧ ServiceLaw s ∧ s.responseTimer = .running 1 ∧
      .port ∉ s.tickTaken ∧ s.link = .active ∧ PrimingQueueLaw s) ∧
    let s : State := { draining .full with responseTimer := .running 1 }
    s.device = .draining .full ∧ s.responseTimer = .running 1 ∧ .port ∉ s.tickTaken ∧
      s.link = .active := by decide

theorem test_meets_HoldoffExpiryAlerts :
    (let s := timed .holdoff (.running 1) .stopped .stopped
     s.device = .running ∧ (s.channel 3).state = .holdoff ∧
      (s.channel 3).holdoffTimer = .running 1 ∧ .channel 3 ∉ s.tickTaken) ∧
    (low.device ≠ .running) ∧ ((timed .idle (.running 1) .stopped .stopped).channel 3).state ≠ .holdoff ∧
    .channel 3 ∈ (State.reset.takeTickAt (.channel 3)).tickTaken ∧
    expiresNext ((timed .holdoff (.running 2) .stopped .stopped).channel 3).holdoffTimer = false := by
  decide

/-- Channel 3 as given with fallback `f`, channel 6 as given, and a number of free records. -/
def lapsing (k : Channel) (f : Option ChannelIndex) (k6 : Channel) (free : Nat) : State :=
  { (withChannel (withFallback f k)).setChannel 6 k6 with freeRecords := free }

/-- A channel in service with that many HANDED records, of a quota of 8. -/
def holding (n : Nat) : Channel :=
  { channelIn .inService with handed := List.replicate n (record 0 0) }

/-- Each fallback clause: none, DISABLED, at its quota, no record free; and one that takes the last free
record one below its quota. -/
theorem test_meets_ClaimExpiryLapses :
    let k := { channelIn .alerting with claimTimer := .running 1 }
    (∀ s ∈ [lapsing k none (channelIn .idle) 128, lapsing k (some 6) (channelIn .disabled) 128,
        lapsing k (some 6) (holding 8) 128, lapsing k (some 6) (holding 7) 0,
        lapsing k (some 6) (holding 7) 1],
      s.device = .running ∧ (s.channel 3).state = .alerting ∧
        (s.channel 3).claimTimer = .running 1 ∧ .channel 3 ∉ s.tickTaken ∧ (s.channel 3).config.fallback ≠ some 3) ∧
    ((lapsing k (some 6) (channelIn .disabled) 128).channel 6).state = .disabled ∧
    (holding 8).config.quota.toNat ≤ (holding 8).handed.length + (holding 8).queued.length ∧
    (lapsing k (some 6) (holding 7) 0).freeRecords = 0 ∧
    ((holding 7).state ≠ .disabled ∧
      (holding 7).handed.length + (holding 7).queued.length < (holding 7).config.quota.toNat ∧
      0 < (lapsing k (some 6) (holding 7) 1).freeRecords) ∧
    low.device ≠ .running ∧ (channelIn .idle).state ≠ .alerting ∧
    expiresNext ({ k with claimTimer := .running 2 } : Channel).claimTimer = false := by decide

theorem test_meets_ServiceExpiryLapses :
    (∀ s ∈ [lapsing served none (channelIn .idle) 125, lapsing served (some 6) (channelIn .disabled) 125,
        lapsing served (some 6) (holding 8) 117, lapsing served (some 6) (holding 7) 0,
        lapsing served (some 6) (holding 7) 1],
      s.device = .running ∧ (s.channel 3).state = .inService ∧
        (s.channel 3).serviceTimer = .running 1 ∧ .channel 3 ∉ s.tickTaken ∧ (s.channel 3).config.fallback ≠ some 3) ∧
    ((lapsing served (some 6) (channelIn .disabled) 125).channel 6).state = .disabled ∧
    (holding 8).config.quota.toNat ≤ (holding 8).handed.length + (holding 8).queued.length ∧
    (lapsing served (some 6) (holding 7) 0).freeRecords = 0 ∧
    ((holding 7).state ≠ .disabled ∧
      (holding 7).handed.length + (holding 7).queued.length < (holding 7).config.quota.toNat ∧
      0 < (lapsing served (some 6) (holding 7) 1).freeRecords) ∧
    low.device ≠ .running ∧ (channelIn .idle).state ≠ .inService ∧
    expiresNext ({ served with serviceTimer := .running 2 } : Channel).serviceTimer = false := by decide

theorem test_meets_ResponseTimerExpiryStalls :
    (let s : State := { State.reset with responseTimer := .running 1 }
     s.device = .running ∧ s.link = .active ∧ s.responseTimer = .running 1 ∧ .port ∉ s.tickTaken ∧
      PrimingQueueLaw s) ∧
    (let s : State := { draining .full with responseTimer := .running 1 }
     s.device = .draining .full ∧ s.link = .active ∧ s.responseTimer = .running 1 ∧
      .port ∉ s.tickTaken) ∧
    .port ∈ (State.reset.takeTickAt .port).tickTaken := by decide

/-- A drain, the 32nd slot in use, a priming queue that presents its head; and a channel without a
window. -/
theorem test_meets_RequestsWaitWithoutAGrant :
    Waits (draining .full) ∧
    Waits { State.reset with ring := List.replicate 32 (.answered 1 false 0x2000 1 ⟨.okay, [0]⟩) } ∧
    Waits { State.reset with primingQueue := [16] } ∧
    ((State.reset).channel 3).config.windowBase = none := by decide

/-- Each ground at its boundary: a misaligned address, the lengths 0 and 9, and one word past a block;
granted with 31 slots in use, and with a priming queue while STALLED. -/
theorem test_meets_MalformedRequestRefused :
    Granted { State.reset with ring := List.replicate 31 (.answered 1 false 0x2000 1 ⟨.okay, [0]⟩) } ∧
    Granted (stalled { State.reset with primingQueue := [16] }) ∧
    MalformedRequest ⟨1, 0x2001, .read 1⟩ ∧ MalformedRequest ⟨1, 0x2000, .write []⟩ ∧
    MalformedRequest ⟨1, 0x2000, .read 9⟩ ∧ MalformedRequest ⟨1, 0x2004, .read 8⟩ := by decide

theorem test_meets_StalledPortFailsRequest :
    Granted (stalled State.reset) ∧ ¬ MalformedRequest ⟨1, 0x2000, .read 8⟩ ∧
    OutsideWindows (stalled State.reset) 0x2000 ∧ (stalled State.reset).link = .stalled :=
  ⟨by decide, by decide, (windowAt_none_iff _ _).1 (by decide), rfl⟩

/-- The first address behind channel 3's window. -/
theorem test_meets_RequestForwarded :
    Granted (withChannel (channelIn .idle)) ∧ ¬ MalformedRequest ⟨1, 0x1FFF0140, .read 1⟩ ∧
    OutsideWindows (withChannel (channelIn .idle)) 0x1FFF0140 ∧
    (withChannel (channelIn .idle)).link = .active :=
  ⟨by decide, by decide, (windowAt_none_iff _ _).1 (by decide), rfl⟩

theorem test_meets_ClaimBeginsService :
    ∀ st ∈ [ChannelState.idle, .holdoff, .alerting, .lapsed],
      let s := withChannel (channelIn st)
      Granted s ∧ WindowAt s 3 0x1FFF0100 ∧
        (s.channel 3).config.permitted[(4 : Source).val] = true ∧
        (s.channel 3).state ≠ .disabled ∧ (s.channel 3).state ≠ .inService := by decide

theorem test_meets_ClaimRepeatedInService :
    let s := withChannel served
    Granted s ∧ WindowAt s 3 0x1FFF0100 ∧
      (s.channel 3).config.permitted[(4 : Source).val] = true ∧
      (s.channel 3).state = .inService := by decide

theorem test_meets_CollectTakesLowestMember :
    let s := withChannel { served with pendingSet := [0, 63] }
    let u := withChannel served
    (Granted s ∧ WindowAt s 3 0x1FFF0100 ∧
      (s.channel 3).config.permitted[(4 : Source).val] = true ∧
      (s.channel 3).state = .inService ∧ (s.channel 3).pendingSet = 0 :: [63] ∧
      (s.channel 3).pendingSet.Pairwise (· < ·)) ∧
    Granted u ∧ WindowAt u 3 0x1FFF0100 ∧ (u.channel 3).state = .inService ∧
      (u.channel 3).pendingSet = [] := by decide

theorem test_meets_RecordHandsOutOldest :
    let s := withChannel served
    let u := withChannel { served with queued := [] }
    (Granted s ∧ WindowAt s 3 0x1FFF0100 ∧
      (s.channel 3).config.permitted[(8 : Source).val] = true ∧
      (s.channel 3).state = .inService ∧ (s.channel 3).queued = record 5 0 :: [record 6 0]) ∧
    Granted u ∧ WindowAt u 3 0x1FFF0100 ∧ (u.channel 3).state = .inService ∧
      (u.channel 3).queued = [] := by decide

theorem test_meets_ReturnEndsService :
    let s := withChannel served
    Granted s ∧ WindowAt s 3 0x1FFF0100 ∧
      (s.channel 3).config.permitted[(4 : Source).val] = true ∧
      (s.channel 3).state = .inService := by decide

/-- A source that is not permitted, a DISABLED channel, an access outside IN_SERVICE, and a shape that is
none of the four. -/
theorem test_meets_WindowAccessRefused :
    let s := withChannel (channelIn .idle)
    let u := withChannel (channelIn .disabled)
    Granted s ∧ WindowAt s 3 0x1FFF0100 ∧
      (s.channel 3).config.permitted[(5 : Source).val] = false ∧
      (s.channel 3).state ≠ .inService ∧
      Granted u ∧ WindowAt u 3 0x1FFF0100 ∧ (u.channel 3).state = .disabled ∧
      (Instr.refusedWindowAccess 4 3 15 (.read 1)).wellFormed = true ∧
      (Instr.refusedWindowAccess 4 3 0 (.write [⟨0, 0xF⟩])).wellFormed = true := by decide

/-- The last free slot; and each case without a read. -/
theorem test_meets_PrimingReadIssued :
    (let s : State := { State.reset with
      ring := List.replicate 31 (.answered 1 false 0x2000 1 ⟨.okay, [0]⟩), primingQueue := [16, 17] }
     s.device = .running ∧ s.link = .active ∧ s.ring.length < 32 ∧ s.primingQueue = 16 :: [17]) ∧
    (draining .full).device ≠ .running ∧ (stalled State.reset).link = .stalled ∧
    State.reset.primingQueue = [] ∧
    32 ≤ ({ State.reset with
      ring := List.replicate 32 (.answered 1 false 0x2000 1 ⟨.okay, [0]⟩) } : State).ring.length := by
  decide

theorem test_meets_OldestRequestSent :
    let older : List Slot := [.forwarded ⟨1, 0x2000, .read 1⟩ true]
    older.all (fun x => !unsent x) = true ∧
    (let s : State := { State.reset with
      ring := older ++ .forwarded ⟨9, 0x2004, .read 2⟩ false :: [], head := 31 }
     s.device ≠ .reset ∧ s.link = .active ∧
      s.ring = older ++ .forwarded ⟨9, 0x2004, .read 2⟩ false :: []) ∧
    (let s : State := { State.reset with ring := older ++ .primingRead 16 1 0x2008 false :: [] }
     s.device ≠ .reset ∧ s.link = .active ∧
      s.ring = older ++ .primingRead 16 1 0x2008 false :: []) ∧
    State.reset.ring.all (fun x => !unsent x) = true := by decide

theorem test_meets_NothingSentWhileStalledOrInReset :
    ((stalled State.reset).link = .stalled ∧
      ∃ t, exec .downstreamSend (stalled State.reset) = .next t) ∧
    low.device = .reset ∧ ∃ t, exec .resetNFall low = .next t :=
  ⟨⟨rfl, _, rfl⟩, rfl, _, rfl⟩

/-- The expected slot behind an answered one, with its number wrapped to 0, in RUNNING and in
DRAINING. -/
theorem test_meets_OkayWriteEvaluated :
    let q : Request := ⟨9, 0x24000000, .write [⟨1, 0xF⟩, ⟨2, 0⟩]⟩
    let s : State := { State.reset with
      ring := [.answered 1 false 0x2000 1 ⟨.okay, [0]⟩, .forwarded q true], head := 31 }
    let u : State := { s with device := .draining .full }
    s.device ≠ .reset ∧ s.link = .active ∧ ExpectedAt s 1 (.forwarded q true) ∧
      (response 0 0 0).tag = s.head + Fin.ofNat 32 1 ∧ (response 0 0 0).status = 0 ∧
      q.payload = .write [⟨1, 0xF⟩, ⟨2, 0⟩] ∧ s.device = .running ∧
      u.device ≠ .reset ∧ ExpectedAt u 1 (.forwarded q true) ∧ isDraining u = true := by
  refine ⟨by decide, rfl, ⟨rfl, rfl, fun j hj => ?_⟩, rfl, rfl, rfl, rfl, by decide,
    ⟨rfl, rfl, fun j hj => ?_⟩, rfl⟩ <;>
  · obtain rfl : j = 0 := by omega
    rfl

theorem test_meets_OkayReadReconciled :
    let q : Request := ⟨9, 0x24000000, .read 8⟩
    let s : State := { State.reset with ring := [.forwarded q true], head := 12 }
    let u : State := { s with device := .draining .full }
    s.device ≠ .reset ∧ s.link = .active ∧ ExpectedAt s 0 (.forwarded q true) ∧
      (response 12 0 5).tag = s.head + Fin.ofNat 32 0 ∧ (response 12 0 5).status = 0 ∧
      q.payload = .read 8 ∧ s.device = .running ∧
      u.device ≠ .reset ∧ ExpectedAt u 0 (.forwarded q true) ∧ isDraining u = true :=
  ⟨by decide, rfl, ⟨rfl, rfl, fun _ h => absurd h (Nat.not_lt_zero _)⟩, rfl, rfl, rfl, rfl,
    by decide, ⟨rfl, rfl, fun _ h => absurd h (Nat.not_lt_zero _)⟩, rfl⟩

theorem test_meets_FaultResponsePassedBack :
    let s := writing [⟨1, 0xF⟩] State.reset
    let q : Request := ⟨9, 0x24000000, .write [⟨1, 0xF⟩]⟩
    let v : Request := ⟨9, 0x24000000, .read 1⟩
    let u : State := { State.reset with
      ring := [.forwarded v true], head := 12, device := .draining .full }
    let w : State := { s with device := .draining .full }
    (s.device ≠ .reset ∧ s.link = .active ∧ ExpectedAt s 0 (.forwarded q true) ∧
      (response 12 1 0).tag = s.head + Fin.ofNat 32 0 ∧ (response 12 1 0).status ≠ 0 ∧
      q.payload = .write [⟨1, 0xF⟩] ∧ s.device = .running ∧
      ExpectedAt w 0 (.forwarded q true) ∧ isDraining w = true) ∧
    u.device ≠ .reset ∧ ExpectedAt u 0 (.forwarded v true) ∧ (response 12 3 0).status ≠ 0 ∧
      v.payload = .read 1 :=
  ⟨⟨by decide, rfl, ⟨rfl, rfl, fun _ h => absurd h (Nat.not_lt_zero _)⟩, rfl, by decide, rfl, rfl,
      ⟨rfl, rfl, fun _ h => absurd h (Nat.not_lt_zero _)⟩, rfl⟩,
    by decide, ⟨rfl, rfl, fun _ h => absurd h (Nat.not_lt_zero _)⟩, by decide, rfl⟩

/-- Each clause: an old generation whose entry waits on the queue, as entry 5 of the example of chapter 1
does when generation 7's read completes; PRIMING with OKAY, REPRIMING with OKAY, and a FAULT. -/
theorem test_meets_PrimingReadCompletes :
    let s := fun st => primingOut 1 (withEntry (entryIn st .record) (channelIn .idle))
    let e : Entry := { entryIn .priming .record with generation := 8 }
    let u := primingOut 7 { withEntry e (channelIn .idle) with primingQueue := [16] }
    (∀ st, (s st).device = .running ∧ (s st).link = .active ∧
      ExpectedAt (s st) 0 (.primingRead 16 1 0x24000000 true) ∧
      (response 12 0 5).tag = (s st).head + Fin.ofNat 32 0 ∧ 16 ∉ (s st).primingQueue ∧
      ((s st).entry 16).generation = 1 ∧ ((s st).entry 16).state = st) ∧
    ExpectedAt u 0 (.primingRead 16 7 0x24000000 true) ∧ (u.entry 16).generation ≠ 7 ∧
    16 ∈ u.primingQueue ∧ (response 12 0 5).status = 0 ∧ (response 12 2 5).status ≠ 0 :=
  ⟨fun _ => ⟨rfl, rfl, ⟨rfl, rfl, fun _ h => absurd h (Nat.not_lt_zero _)⟩, rfl,
      List.not_mem_nil, rfl, rfl⟩,
    ⟨rfl, rfl, fun _ h => absurd h (Nat.not_lt_zero _)⟩, by decide, by decide, by decide, by decide⟩

/-- With nothing outstanding every response is invalid, in RUNNING and in DRAINING. -/
theorem test_meets_InvalidResponseStalls :
    (∀ s ∈ [State.reset, draining .keepConfig], s.link = .active ∧
      ∀ (k : Nat) (x : Slot), ExpectedAt s k x → (response 13 0 0).tag ≠ s.head + Fin.ofNat 32 k) ∧
    State.reset.device = .running ∧ PrimingQueueLaw State.reset ∧
    (draining .keepConfig).device = .draining .keepConfig := by
  refine ⟨fun s hs => ?_, rfl, by decide, rfl⟩
  have he : expectedPlace s = none ∧ s.link = .active := by
    rcases List.mem_cons.1 hs with rfl | hs
    · exact ⟨rfl, rfl⟩
    · rcases List.mem_singleton.1 hs with rfl
      exact ⟨rfl, rfl⟩
  refine ⟨he.2, fun k x hx => ?_⟩
  rw [expectedPlace_of_expectedAt hx] at he
  cases he.1

theorem test_meets_LateResponseDiscarded :
    (stalled State.reset).device ≠ .reset ∧ (stalled State.reset).link = .stalled := by decide

theorem test_meets_HeadSlotLeaves :
    (let s : State := { State.reset with
      ring := .answered 1 false 0x2000 1 ⟨.okay, [0]⟩ :: [.primingDone 16 1 0x2000], head := 31 }
     s.device = .running ∧
      s.ring = .answered 1 false 0x2000 1 ⟨.okay, [0]⟩ :: [.primingDone 16 1 0x2000]) ∧
    RingLaw State.reset ∧ (State.reset.ring.head?.all outstanding) = true ∧
    RingLaw (writing [] State.reset) ∧
    ((writing [] State.reset).ring.head?.all outstanding) = true := by decide

theorem test_meets_DrainEndsWithTheRing :
    ((draining .full).device = .draining .full ∧
      (draining .full).ring = .answered 1 false 0x2000 1 ⟨.okay, [0]⟩ :: []) ∧
    let x : Slot := .primingRead 16 1 0x24000000 true
    let s : State := { primingOut 1 State.reset with device := .draining .keepConfig }
    let u : State := { draining .full with
      ring := (draining .full).ring ++ [x], head := 31, responseTimer := .running 3 }
    (s.device = .draining .keepConfig ∧ s.link = .active ∧ ExpectedAt s 0 x ∧ s.ring = [x] ∧
      (response 12 0 0).tag = s.head + Fin.ofNat 32 0) ∧
    u.device = .draining .full ∧ u.link = .active ∧ ExpectedAt u 1 x ∧
      (response 0 1 0).tag = u.head + Fin.ofNat 32 1 := by
  refine ⟨⟨rfl, rfl⟩, ⟨rfl, rfl, ⟨rfl, rfl, fun _ h => absurd h (Nat.not_lt_zero _)⟩, rfl, rfl⟩,
    rfl, rfl, ⟨rfl, rfl, fun j hj => ?_⟩, rfl⟩
  obtain rfl : j = 0 := by omega
  rfl

theorem test_meets_FullScopeApplies :
    (let s : State := { draining .full with ring := [] }
     s.device = .draining .full ∧ s.ring = []) ∧
    State.reset.device ≠ .draining .full ∧ (draining .full).ring ≠ [] := by decide

theorem test_meets_KeepConfigScopeApplies :
    (let s : State := { draining .keepConfig with ring := [] }
     s.device = .draining .keepConfig ∧ s.ring = []) ∧
    State.reset.device ≠ .draining .keepConfig ∧ (draining .keepConfig).ring ≠ [] := by decide

theorem test_meets_DrainHoldsTheReports :
    isDraining (draining .full) = true ∧
      ∃ t, exec (.tick []) (draining .full) = .next t ∧ t.device = (draining .full).device :=
  ⟨rfl, _, rfl, rfl⟩

/-- A definition of entry 63 at the first address behind channel 3's window. -/
def lastDefine (m : Mode) : WatchDefineArgs :=
  { exampleDefine 63 with
    address := 0x1FFF0140, mode := (modeCode m).setWidth 8, channel := 7
    reconcile := if true then 1 else 0, threshold := 1 }

theorem test_meets_WatchDefineAccepted (m : Mode) :
    AtExecutionPoint (framed (withChannel (channelIn .idle))) (.watchDefine (lastDefine m)) ∧
    (lastDefine m).index = BitVec.ofNat 8 (63 : EntryIndex).val ∧
    (lastDefine m).address.toNat % 4 = 0 ∧ (lastDefine m).enableMask ≠ 0 ∧
    (lastDefine m).mode = (match m with
      | .flag => 0
      | .record => 1
      | .count => 2) ∧
    (lastDefine m).channel = BitVec.ofNat 8 (7 : ChannelIndex).val ∧
    (lastDefine m).reconcile = (if true then 1 else 0) ∧
    (m = .count → (lastDefine m).threshold ≠ 0) ∧
    (∀ j : EntryIndex, j ≠ 63 →
      ((framed (withChannel (channelIn .idle))).entry j).state = .free ∨
      ((framed (withChannel (channelIn .idle))).entry j).address ≠ (lastDefine m).address) ∧
    OutsideWindows (framed (withChannel (channelIn .idle))) (lastDefine m).address :=
  ⟨⟨rfl, rfl, rfl⟩, rfl, show (0x1FFF0140 : Word).toNat % 4 = 0 by decide,
    show (0x0000FFFF : Word) ≠ 0 by decide, by cases m <;> rfl, rfl, rfl,
    fun _ => show (1 : Half) ≠ 0 by decide,
    fun j _ => .inl (by revert j; decide),
    (windowAt_none_iff _ _).1 (show windowAt _ 0x1FFF0140 = none by decide)⟩

theorem test_meets_WatchReleaseAccepted :
    AtExecutionPoint (framed (withEntry (entryIn .repriming .flag) served))
      (.watchRelease (BitVec.ofNat 8 (16 : EntryIndex).val)) := by decide

theorem test_meets_QueriesAnswerTheState :
    AtExecutionPoint (framed State.reset) (.watchQuery (BitVec.ofNat 8 (63 : EntryIndex).val)) ∧
    AtExecutionPoint (framed State.reset) (.channelQuery (BitVec.ofNat 8 (7 : ChannelIndex).val)) ∧
    (framed (draining .full)).device ≠ .reset ∧
    AwaitsFrame (framed (draining .full)) .statusQuery := by decide

/-- Quota and watermark at their greatest value, a window that adjoins channel 3's, and no fallback; then
no window, their least value and a fallback. -/
theorem test_meets_ChannelDefineAccepted :
    let s := framed (withEntry (entryIn .armed .flag) (channelIn .idle))
    let a : ChannelDefineArgs := ⟨7, 1, 0x1FFF0140, 0, 128, 128, 0, 0, 0, 0xFF⟩
    let b : ChannelDefineArgs := ⟨7, 0, 3, 0, 1, 1, 0, 0, 0, 6⟩
    (AtExecutionPoint s (.channelDefine a) ∧ a.channel = BitVec.ofNat 8 (7 : ChannelIndex).val ∧
      a.windowPresent = (if true then 1 else 0) ∧ (true = true → a.windowBase.toNat % 64 = 0) ∧
      1 ≤ a.quota.toNat ∧ a.quota.toNat ≤ 128 ∧ 1 ≤ a.watermark.toNat ∧
      a.watermark.toNat ≤ a.quota.toNat ∧
      a.fallback = (match (none : Option ChannelIndex) with
        | none => 0xFF
        | some f => BitVec.ofNat 8 f.val) ∧
      (none : Option ChannelIndex) ≠ some 7 ∧ (s.channel 7).state = .disabled ∧
      (∀ d : ChannelIndex, d ≠ 7 →
        windowsApart (some a.windowBase) (s.channel d).config.windowBase = true) ∧
      ∀ i : EntryIndex, (s.entry i).state = .free ∨
        64 ≤ ((s.entry i).address - a.windowBase).toNat) ∧
    AtExecutionPoint s (.channelDefine b) ∧ b.windowPresent = (if false then 1 else 0) ∧
      1 ≤ b.quota.toNat ∧
      b.watermark.toNat ≤ b.quota.toNat ∧
      b.fallback = (match (some 6 : Option ChannelIndex) with
        | none => 0xFF
        | some f => BitVec.ofNat 8 f.val) ∧
      (some 6 : Option ChannelIndex) ≠ some 7 := by decide

theorem test_meets_ChannelEnabledOrReinstated :
    AtExecutionPoint (framed (withChannel (channelIn .disabled)))
      (.channelEnable (BitVec.ofNat 8 (3 : ChannelIndex).val)) ∧
    AtExecutionPoint (framed (withChannel (channelIn .lapsed)))
      (.channelReinstate (BitVec.ofNat 8 (3 : ChannelIndex).val)) ∧
    ((framed (withChannel (channelIn .disabled))).channel 3).state = .disabled ∧
    ((framed (withChannel (channelIn .lapsed))).channel 3).state = .lapsed := by decide

theorem test_meets_ChannelDisabledWithoutPurge :
    let d : Instr := .channelDisable (BitVec.ofNat 8 (3 : ChannelIndex).val) 0
    AtExecutionPoint (framed (withChannel served)) d ∧
    ((framed (withChannel served)).channel 3).state ≠ .disabled ∧
    AtExecutionPoint (framed State.reset) d ∧
    ((framed State.reset).channel 3).state = .disabled := by decide

/-- In service, and DISABLED with what a DISABLED channel can hold. -/
theorem test_meets_ChannelPurged :
    let s := framed (withChannel served)
    let u := framed (withChannel { channelIn .disabled with queued := [record 4 0], pendingSet := [16] })
    let p : Instr := .channelDisablePurge (BitVec.ofNat 8 (3 : ChannelIndex).val)
    (AtExecutionPoint s p ∧ (s.channel 3).state ≠ .disabled) ∧ AtExecutionPoint u p ∧
      (u.channel 3).state = .disabled ∧ channelFits (u.channel 3) ∧ (u.channel 3).alert = false := by
  decide

/-- Both ends of the ranges. -/
theorem test_meets_TimingSetAndLinkResume :
    AtExecutionPoint (framed (stalled State.reset)) (.timingSet 1 65535) ∧
    AtExecutionPoint (framed (stalled State.reset)) (.timingSet 4096 1) ∧ 1 ≤ (1 : Half).toNat ∧
    (4096 : Half).toNat ≤ 4096 ∧ 1 ≤ (65535 : Half).toNat ∧
    AtExecutionPoint (framed (stalled State.reset)) .linkResume ∧
    (framed (stalled State.reset)).link = .stalled := by decide

theorem test_meets_FaultMaskAndCollect :
    AtExecutionPoint (framed State.reset) (.faultMaskSet 0xFF) ∧
    AtExecutionPoint (framed State.reset) .faultCollect := by decide

theorem test_meets_DeviceResetStartsTheDrain :
    AtExecutionPoint (framed (writing [] State.reset)) (.deviceReset 0) ∧
    (framed (writing [] State.reset)).ring ≠ [] ∧
    AtExecutionPoint (framed State.reset) (.deviceReset 1) ∧ (framed State.reset).ring = [] := by
  decide

/-- The command byte and the first argument byte of the frame held. -/
def heldDisable : State :=
  { draining .full with
    management := { selectLow := true, phase := .arguments 0x22 [9], bits := [false], shifted := [] } }

theorem test_meets_KnownCommandsBusyInDrain :
    isDraining heldDisable = true ∧ AwaitsFrame heldDisable (.channelDisable 9 7) ∧
    (Instr.channelDisable 9 7).wellFormed = true ∧
    frameOf (.channelDisable 9 7) = some ((frameCounts .channelDisable).1 :: [9, 7]) ∧
    Command.channelDisable ≠ .statusQuery := by decide

/-- The argument errors of WATCH_DEFINE. -/
abbrev badWatch (a : WatchDefineArgs) : Prop :=
  a.address.toNat % 4 ≠ 0 ∨ a.enableMask = 0 ∨ 3 ≤ a.mode.toNat ∨ 8 ≤ a.channel.toNat ∨
    2 ≤ a.reconcile.toNat ∨ (a.mode = 2 ∧ a.threshold = 0)

/-- The argument errors of CHANNEL_DEFINE of channel 7. -/
abbrev badChannel (a : ChannelDefineArgs) : Prop :=
  2 ≤ a.windowPresent.toNat ∨ (a.windowPresent = 1 ∧ a.windowBase.toNat % 64 ≠ 0) ∨
    a.quota.toNat = 0 ∨ 128 < a.quota.toNat ∨ a.watermark.toNat = 0 ∨
    a.quota.toNat < a.watermark.toNat ∨ a.fallback.toNat = (7 : ChannelIndex).val ∨
    (8 ≤ a.fallback.toNat ∧ a.fallback ≠ 0xFF)

set_option maxRecDepth 20000 in
/-- WATCH_DEFINE: each test the first that fails, at its boundary. -/
theorem test_meets_RefusalsFollowTheOrder_watch :
    let s := framed (withEntry (entryIn .armed .flag) (channelIn .idle))
    AtExecutionPoint s (.watchDefine (exampleDefine 64)) ∧
    AtExecutionPoint s (.watchDefine (exampleDefine 63)) ∧
    64 ≤ (exampleDefine 64).index.toNat ∧ (exampleDefine 63).index.toNat < 64 ∧
    (∃ j : EntryIndex, j.val ≠ (exampleDefine 63).index.toNat ∧ (s.entry j).state ≠ .free ∧
      (s.entry j).address = 0x24000000) ∧
    ¬ ∃ j : EntryIndex, j.val ≠ (exampleDefine 63).index.toNat ∧ (s.entry j).state ≠ .free ∧
      (s.entry j).address = 0x1FFF013C := by decide

theorem test_meets_RefusalsFollowTheOrder_watchValues :
    let a := exampleDefine 63
    badWatch { a with address := 0x60000022 } ∧ badWatch { a with enableMask := 0 } ∧
    badWatch { a with mode := 3 } ∧ badWatch { a with channel := 8 } ∧
    badWatch { a with reconcile := 2 } ∧ badWatch { a with mode := 2 } ∧ ¬ badWatch a := by decide

/-- The last word of channel 3's window lies in it. -/
theorem test_meets_RefusalsFollowTheOrder_overlap :
    ¬ OutsideWindows (framed (withChannel (channelIn .idle))) 0x1FFF013C := by
  rw [← windowAt_none_iff]
  decide

set_option maxRecDepth 20000 in
/-- CHANNEL_DEFINE: each test the first that fails, at its boundary. -/
theorem test_meets_RefusalsFollowTheOrder_channel :
    let s := framed (withEntry (entryIn .armed .flag) (channelIn .idle))
    AtExecutionPoint s (.channelDefine ⟨8, 1, 0x1FFF0100, 0, 2, 2, 0, 0, 0, 0xFF⟩) ∧
    8 ≤ (8 : Byte).toNat ∧ (7 : Byte).toNat = (7 : ChannelIndex).val ∧
    (s.channel 3).state ≠ .disabled ∧ (s.channel 7).state = .disabled ∧
    (∃ d : ChannelIndex, d ≠ 7 ∧
      windowsApart (some 0x1FFF0100) (s.channel d).config.windowBase = false) ∧
    ∃ i : EntryIndex, (s.entry i).state ≠ .free ∧
      ((s.entry i).address - 0x24000000).toNat < 64 := by decide

theorem test_meets_RefusalsFollowTheOrder_channelValues :
    let a : ChannelDefineArgs := ⟨7, 1, 0x1FFF0100, 0, 2, 2, 0, 0, 0, 0xFF⟩
    badChannel { a with windowPresent := 2 } ∧ badChannel { a with windowBase := 0x1FFF0104 } ∧
    badChannel { a with quota := 0 } ∧ badChannel { a with quota := 129 } ∧
    badChannel { a with watermark := 0 } ∧ badChannel { a with watermark := 3 } ∧
    badChannel { a with fallback := 7 } ∧ badChannel { a with fallback := 8 } ∧
    badChannel { a with fallback := 0xFE } ∧ ¬ badChannel a := by
  refine ⟨?_, ?_, ?_, ?_, ?_, ?_, ?_, ?_, ?_, ?_⟩ <;> decide

theorem test_meets_RefusalsFollowTheOrder_rest :
    let s := framed (withChannel (channelIn .idle))
    (∀ c ∈ [Instr.watchRelease 64, .watchQuery 64, .channelEnable 8, .channelReinstate 8,
        .channelQuery 8, .channelDisablePurge 8, .channelDisable 8 0, .channelDisable 3 2,
        .channelEnable 3, .channelReinstate 3, .timingSet 0 1, .timingSet 4097 1, .timingSet 1 0,
        .linkResume, .deviceReset 2], AtExecutionPoint s c) ∧
    64 ≤ (64 : Byte).toNat ∧ 8 ≤ (8 : Byte).toNat ∧ 2 ≤ (2 : Byte).toNat ∧
    (s.channel 3).state ≠ .disabled ∧ (s.channel 3).state ≠ .lapsed ∧
    (0 : Half).toNat = 0 ∧ 4096 < (4097 : Half).toNat ∧ s.link = .active := by decide

/-- A port in a position, with seven bits of the byte `b` sampled. -/
def lastEdge (p : FramePhase) (b : Byte) : ManagementPort :=
  { selectLow := true, phase := p, bits := [b[7], b[6], b[5], b[4], b[3], b[2], b[1]], shifted := [] }

/-- Each position at the last edge of its byte: the command byte of WATCH_DEFINE, its argument byte before
the last, and the bytes behind the execution point with a response left and without. -/
theorem test_meets_FrameEventsOfThePort_positions :
    (lastEdge .command 0x10).phase = .command ∧
    (∃ cmd : Command, (frameCounts cmd).1 = 0x10 ∧ (frameCounts cmd).2.1 ≠ 0) ∧
    (lastEdge (.arguments 0x10 (List.replicate 20 0)) 1).phase =
      .arguments (frameCounts .watchDefine).1 (List.replicate 20 0) ∧
    (List.replicate 20 (0 : Byte)).length + 1 < (frameCounts .watchDefine).2.1 ∧
    (∀ p ∈ [FramePhase.turnaround 0x11 .ok [1], .result 0x11 .ok [1], .result 0x3A .ok [],
        .response 0x11 [1], .response 0x38 [1, 2], .trailing 0x3A],
      (lastEdge p 0xFF).phase = p ∧ (lastEdge p 0xFF).selectLow = true) := by
  refine ⟨rfl, ⟨.watchDefine, rfl, by decide⟩, ?_⟩
  decide

/-- Chip select high; a bit within a byte; a byte that names no command; a rise with edges sampled, of a
whole frame but its last bit; a rise without; and one behind the execution point. -/
theorem test_meets_FrameEventsOfThePort :
    (State.reset.device ≠ .reset ∧ State.reset.management.selectLow = false) ∧
    ((framed State.reset).management.selectLow = true ∧
      (framed State.reset).management.phase ≠ .noFrame ∧
      (framed State.reset).management.bits.length < 7) ∧
    ((framed (draining .full)).device ≠ .reset ∧
      AwaitsFrame (framed (draining .full)) (.unknownCommand 0xFF) ∧
      ∀ cmd : Command, (frameCounts cmd).1 ≠ 0xFF) ∧
    ((framed State.reset).device ≠ .reset ∧ awaitsCommand (framed State.reset).management = true ∧
      heldBits (framed State.reset).management = [] ∧
      (Instr.watchRelease 5).wellFormed = true ∧ frameOf (.watchRelease 5) = some [0x11, 5] ∧
      (frameBits [0x11, 5]).take 15 <+: frameBits [0x11, 5] ∧
      ((frameBits [0x11, 5]).take 15).length < 8 * [(0x11 : Byte), 5].length) ∧
    ((framed State.reset).management.phase = .command ∧
      (framed State.reset).management.bits = []) ∧
    (after .faultCollect (framed State.reset)).management.phase = .turnaround 0x39 .ok [1] ∧
      (after .faultCollect (framed State.reset)).management.bits = [] := by
  refine ⟨by decide, by decide, ⟨by decide, by decide, fun cmd => by cases cmd <;> decide⟩, ?_, by decide,
    by decide, by decide⟩
  decide

/-- A command with arguments, one without, and a byte that names none; and the bits of the first, all but
the last. -/
theorem test_meets_FramesRoundTrip :
    (Instr.channelDisable 9 7).wellFormed = true ∧
    frameOf (.channelDisable 9 7) = some (0x22 :: [9, 7]) ∧ 2 ≤ [(9 : Byte), 7].length ∧
    Instr.faultCollect.wellFormed = true ∧ frameOf .faultCollect = some (0x39 :: []) ∧
    (Instr.unknownCommand 0xFF).wellFormed = true ∧
    frameOf (.unknownCommand 0xFF) = some (0xFF :: []) ∧
    State.reset.device ≠ .reset ∧ State.reset.management.selectLow = false ∧
    23 < 8 * [(0x22 : Byte), 9, 7].length := by decide

/-- Bit 31 rises and qualifies; and a word with no byte enabled. -/
theorem test_meets_QualifyingMaskAndMerge :
    let e : Entry := { Entry.powerOn with enableMask := 0x80000000, riseMask := 0x80000000 }
    31 < 32 ∧ masksWithin e ∧ (qualifyingMask e 0 0x80000000)[31] = true ∧ 3 < 4 ∧
    (⟨5, 0⟩ : WriteWord).enables = 0 := by decide

/-- The address one word behind entry 16's matches nothing; entry 16's own matches it. -/
theorem test_meets_WordsReachTheirEntry :
    let s := withEntry (entryIn .armed .record) (channelIn .idle)
    (∀ i : EntryIndex, (s.entry i).state = .free ∨ (s.entry i).address ≠ 0x24000004) ∧
    (s.entry 16).state ≠ .free ∧ (s.entry 16).address = 0x24000000 := by decide

/-- Each clause: nothing qualifies; FLAG; RECORD; COUNT one below the threshold, and at it. -/
theorem test_meets_EvaluationByMode :
    qualifyingMask (entryIn .armed .flag) 0 0x10 = 0 ∧
    (∀ m : Mode, qualifyingMask (entryIn .armed m) 0 8 ≠ 0 ∧ (entryIn .armed m).mode = m) ∧
    (entryIn .armed .count).count.toNat + 1 < (entryIn .armed .count).threshold.toNat ∧
    (entryIn .armed .count).threshold.toNat ≤
      ({ entryIn .armed .count with count := 1 } : Entry).count.toNat + 1 := by
  refine ⟨by decide, fun m => ?_, by decide, by decide⟩
  cases m <;> decide

/-- Each clause, the watermark of 2 reached and one below it, with the hold-off of 5 and of 0. -/
theorem test_meets_DeliveryByState :
    (let k : Channel := { channelIn .idle with queued := [record 0 0] }
     k.state = .idle ∧ k.config.holdoff ≠ 0 ∧ ¬ k.config.watermark.toNat ≤ k.queued.length ∧
      ({ k.config with holdoff := 0 } : ChannelConfig).holdoff = 0) ∧
    (let k : Channel := { channelIn .holdoff with queued := [record 0 0, record 1 0] }
     k.state = .holdoff ∧ k.config.watermark.toNat ≤ k.queued.length ∧
      ¬ k.config.watermark.toNat ≤ k.queued.tail.length) ∧
    (channelIn .lapsed).state ≠ .idle ∧ (channelIn .lapsed).state ≠ .holdoff ∧
    [(0 : EntryIndex), 63].Pairwise (· < ·) := by decide

/-- A state in use, with a command waiting: the window, the entry and the drain-free ring of a part in
the middle of its work. -/
def busy : State :=
  { withEntry { entryIn .armed .record with pendingMask := 1 }
      { served with pendingSet := [16], serviceTimer := .running 100 } with
    pending := [.record 4 3], freeRecords := 125
    ring := [.forwarded ⟨9, 0x24000000, .write []⟩ true], responseTimer := .running 9 }

theorem test_meets_PoolAndQuotaKept :
    PoolConserved busy ∧ WithinQuota busy ∧ ∃ t, step busy = .next t :=
  ⟨by decide, by decide, _, rfl⟩

theorem test_meets_AlertAndFaultLinesKept :
    AlertsFollowState busy ∧ FaultLineFollows busy ∧ ∃ t, step busy = .next t :=
  ⟨by decide, by decide, _, rfl⟩

theorem test_meets_RingAndPrimingLawsKept :
    RingLaw busy ∧ PrimingQueueLaw busy ∧ AwaitsRead busy ∧ ResetHolds busy ∧
      ∃ t, step busy = .next t :=
  ⟨by decide, by decide, by decide, by decide, _, rfl⟩

theorem test_meets_PendingMasksKept : PendingLaw busy ∧ ∃ t, step busy = .next t :=
  ⟨by decide, _, rfl⟩

theorem test_meets_ServiceAndTimerLawsKept :
    ServiceLaw busy ∧ ResponseTimerLaw busy ∧ StalledUnarmed busy ∧ ResetHolds busy ∧
      ∃ t, step busy = .next t :=
  ⟨by decide, by decide, by decide, by decide, _, rfl⟩

theorem test_meets_ConfigurationLawsKept :
    WatchedAddresses busy ∧ ConfigInRange busy ∧ EntriesShaped busy ∧ ∃ t, step busy = .next t :=
  ⟨by decide, by decide, by decide, _, rfl⟩

end Sys2Proof.Tests
end

/-! SUPPORT and PROOFS. What a command can do to the tables, to the transit path and to the device state,
and the proofs of the statements that cite chapter 1. -/

namespace Sys2Proof.Proofs

open Sys2Proof Sys2Proof.Machine Sys2Proof.Safety

/-! ### A valid response in full -/

theorem withTransit_primingCompletion (s : State) (ring : List Slot) (tm : Timer) (h : SlotIndex)
    (i : EntryIndex) (g : Byte) (w : Option Word) :
    primingCompletion (s.withTransit ring tm h) i g w =
      (primingCompletion s i g w).withTransit ring tm h := by
  unfold primingCompletion primingOkay primingFault
  rw [withTransit_entry]
  split
  · cases w with
    | some w =>
      dsimp only
      split
      · rfl
      · rw [withTransit_evaluate]; rfl
      · rfl
    | none =>
      simp only [enqueuePriming_eq]
      split <;> rfl
  · rfl

/-- The hand-off reads neither the ring nor the response timer. -/
theorem withTransit_handOn (s : State) (ring : List Slot) (tm : Timer) (h : SlotIndex) (x : Slot)
    (r : DownResponse) :
    handOn (s.withTransit ring tm h) x r = (handOn s x r).withTransit ring tm h := by
  unfold handOn
  split
  · split
    · split
      · exact withTransit_foldl (fun s ring tm h => withTransit_writeWord s ring tm h _) _ _ _ _ _
      · exact withTransit_foldl withTransit_faultWord _ _ _ _ _
    · split
      · exact withTransit_foldl withTransit_readWord _ _ _ _ _
      · rfl
  · exact withTransit_primingCompletion _ _ _ _ _ _ _
  · rfl

/-- A valid response in a RUNNING device: the hand-off on the state before, with the slot completed and
the COMPLETE priming slots at the head gone. -/
theorem exec_valid_handOn {s : State} {r : DownResponse} {k : Nat} {x : Slot}
    (hd : s.device = .running) (hl : s.link = .active) (he : ExpectedAt s k x)
    (ht : r.tag = s.head + Fin.ofNat 32 k) :
    let ring := s.ring.set k (completeSlot x r)
    exec (.downstreamResponse r) s = .next { handOn s x r with
      ring := ring.dropWhile silent
      head := headAfter s.head ring
      responseTimer := timerAfter s ring } := by
  intro ring
  rw [exec_valid_response_running hd hl he ht]
  exact congrArg (fun u => Host.Outcome.next (leaveSilently u))
    (withTransit_handOn s ring (timerAfter s ring) s.head x r)

theorem isDraining_iff (s : State) : isDraining s = true ↔ ∃ sc, s.device = .draining sc := by
  unfold isDraining
  cases s.device <;> simp

/-- A valid response to a forwarded request, with its answer and its hand-off as given: a drain does not
hand it on, and goes on, since the answered slot waits for the fabric (R148, R199). -/
theorem exec_valid_forwarded {s u : State} {r : DownResponse} {k : Nat} {q : Request} {x : Slot}
    (hl : s.link = .active) (he : ExpectedAt s k (.forwarded q true))
    (ht : r.tag = s.head + Fin.ofNat 32 k) (hx : answeredSlot q (passedBack q.payload r) = x)
    (hu : handOn s (.forwarded q true) r = u) :
    let ring := s.ring.set k x
    let after := fun u : State => { u with
      ring := ring.dropWhile silent
      head := headAfter s.head ring
      responseTimer := timerAfter s ring }
    (s.device = .running → exec (.downstreamResponse r) s = .next (after u)) ∧
    (isDraining s = true → exec (.downstreamResponse r) s = .next (after s)) := by
  subst hx hu
  intro ring after
  refine ⟨fun hd => exec_valid_handOn hd hl he ht, fun hd => ?_⟩
  obtain ⟨sc, hd⟩ := (isDraining_iff s).1 hd
  have hk : k < s.ring.length := (List.getElem?_eq_some_iff.1 he.1).1
  have hring : ring.dropWhile silent ≠ [] := by
    rw [ne_eq, List.dropWhile_eq_nil_iff]
    intro h
    exact absurd (h _ (List.mem_set hk _)) (by simp [answeredSlot, silent])
  rw [exec_valid_response_draining hd hl he ht]
  exact congrArg Host.Outcome.next (if_neg hring)

theorem isOkay_iff (r : DownResponse) : isOkay r = true ↔ r.status = 0 := beq_iff_eq

/-- Settles O26: the hand-off of a valid response, at a WRITE with OKAY. -/
theorem okayWriteEvaluated : Obligations.OkayWriteEvaluated := by
  intro s r k q ws _ hl he ht hr hq
  have hx : answeredSlot q (passedBack q.payload r) =
      .answered q.source true q.address ws.length { status := .okay, data := [] } := by
    simp [answeredSlot, passedBack, hq, (isOkay_iff r).2 hr, isWrite, payloadLength]
  have hu : handOn s (.forwarded q true) r =
      (withAddresses q.address ws).foldl (writeWord q.source) s := by
    simp [handOn, hq, (isOkay_iff r).2 hr]
  exact exec_valid_forwarded hl he ht hx hu

/-- Settles O27: the hand-off of a valid response, at a READ with OKAY. -/
theorem okayReadReconciled : Obligations.OkayReadReconciled := by
  intro s r k q n _ hl he ht hr hq
  have hx : answeredSlot q (passedBack q.payload r) = .answered q.source false q.address n.toNat
      { status := .okay, data := r.data.toList.take n.toNat } := by
    simp [answeredSlot, passedBack, hq, (isOkay_iff r).2 hr, isWrite, payloadLength, responseWords]
  have hu : handOn s (.forwarded q true) r =
      (withAddresses q.address (r.data.toList.take n.toNat)).foldl readWord s := by
    simp [handOn, hq, (isOkay_iff r).2 hr, responseWords]
  exact exec_valid_forwarded hl he ht hx hu

/-- Settles O28: the hand-off of a valid response, at a request that failed. -/
theorem faultResponsePassedBack : Obligations.FaultResponsePassedBack := by
  intro s r k q hne hl he ht hr
  have hf : isOkay r = false := Bool.eq_false_iff.2 (mt (isOkay_iff r).1 hr)
  constructor
  · intro ws hq
    have hx : answeredSlot q (passedBack q.payload r) =
        .answered q.source true q.address ws.length { status := .fault, data := [] } := by
      simp [answeredSlot, passedBack, blankResponse, zeroWords, hq, hf, isWrite, payloadLength]
    have hu : handOn s (.forwarded q true) r = (withAddresses q.address ws).foldl faultWord s := by
      simp [handOn, hq, hf]
    exact exec_valid_forwarded hl he ht hx hu
  · intro n hq
    have hx : answeredSlot q (passedBack q.payload r) = .answered q.source false q.address n.toNat
        { status := .fault, data := List.replicate n.toNat 0 } := by
      simp [answeredSlot, passedBack, blankResponse, zeroWords, hq, hf, isWrite, payloadLength]
    have hu : handOn s (.forwarded q true) r = s := by simp [handOn, hq, hf]
    obtain ⟨running, draining⟩ := exec_valid_forwarded hl he ht hx hu
    cases hd : s.device with
    | reset => exact absurd hd hne
    | running => exact running hd
    | draining sc => exact draining ((isDraining_iff s).2 ⟨sc, hd⟩)

theorem arm_of_not_queued {s : State} {i : EntryIndex} (h : i ∉ s.primingQueue) :
    arm s i = s.setEntry i { s.entry i with state := .armed } := by
  unfold arm leavePriming
  rw [removeIndex_of_not_mem (by exact h)]

theorem primingCompletion_okay {s : State} {i : EntryIndex} {g : Byte}
    (hg : (s.entry i).generation = g) (w : Word) :
    primingCompletion s i g (some w) = primingOkay s i w := if_pos hg

theorem primingOkay_priming {s : State} {i : EntryIndex} (h : (s.entry i).state = .priming)
    (w : Word) : primingOkay s i w = arm (replaceShadow s i w) i := by
  simp [primingOkay, h]

theorem primingOkay_repriming {s : State} {i : EntryIndex} (h : (s.entry i).state = .repriming)
    (w : Word) : primingOkay s i w = arm (evaluate s i .unseen w) i := by
  simp [primingOkay, h]

/-- Settles O29: the hand-off of a valid response, at a priming read. -/
theorem primingReadCompletes : Obligations.PrimingReadCompletes := by
  intro s r k i g a hd hl he ht ring after
  have key : exec (.downstreamResponse r) s = .next (after
      (primingCompletion s i g (if isOkay r then some r.data[0] else none))) :=
    exec_valid_handOn hd hl he ht
  refine ⟨fun hg => ?_, fun hq hg hr hs => ?_, fun hq hg hr hs => ?_, fun hq hg hr hs => ?_⟩
  · rw [key]
    exact congrArg (fun u => Host.Outcome.next (after u)) (if_neg hg)
  · have e : primingCompletion s i g (some r.data[0]) =
        s.setEntry i { s.entry i with state := .armed, shadow := r.data[0] } := by
      rw [primingCompletion_okay hg, primingOkay_priming hs, arm_of_not_queued (by exact hq)]
      simp [replaceShadow]
    rw [key, if_pos ((isOkay_iff r).2 hr), e]
  · have hqe : i ∉ (evaluate s i .unseen r.data[0]).primingQueue := by
      obtain ⟨es, cs, n, h⟩ := evaluate_frame s i .unseen r.data[0]
      rw [h]
      exact hq
    have e : primingCompletion s i g (some r.data[0]) =
        (evaluate s i .unseen r.data[0]).setEntry i
          { (evaluate s i .unseen r.data[0]).entry i with state := .armed } := by
      rw [primingCompletion_okay hg, primingOkay_repriming hs, arm_of_not_queued hqe]
    rw [key, if_pos ((isOkay_iff r).2 hr), e]
  · have hf : isOkay r = false := Bool.eq_false_iff.2 (mt (isOkay_iff r).1 hr)
    rw [key, hf, if_neg (by decide), (primingCompletion_fault s (i, g)).1 ⟨hg, hs⟩, enqueuePriming_eq,
      if_neg hq]

/-! ### The drain and the scopes -/

/-- Settles O33: the leaving of a slot and a priming read's response are settled in the same step. -/
theorem drainEndsWithTheRing : Obligations.DrainEndsWithTheRing := by
  constructor
  · intro s sc n w a len resp rest hd hring u
    simp only [exec, execSlotLeave, hring]
    rw [settle_draining (sc := sc) (by exact hd)]
    rfl
  · intro s sc r k i g a hd hl he ht ring u
    have key : exec (.downstreamResponse r) s = .next (if u.ring = [] then applyScope sc u else u) :=
      exec_valid_response_draining hd hl he ht
    refine ⟨key, fun hone => ?_⟩
    have hk : k = 0 := by
      have := (List.getElem?_eq_some_iff.1 he.1).1
      rw [hone] at this
      simpa using this
    have hu : u.ring = [] := by simp [u, ring, hone, hk, silent]
    rw [key, if_pos hu]
    cases sc <;> rfl

/-- Settles O34: what FULL leaves, field by field. -/
theorem fullScopeApplies : Obligations.FullScopeApplies := by
  refine ⟨fun s => rfl, fun s hd hr => ?_, fun s h => ?_⟩
  · exact congrArg Host.Outcome.next (if_pos ⟨hd, hr⟩)
  · exact congrArg Host.Outcome.next (if_neg fun ⟨hd, hr⟩ => h.elim (absurd hd) (absurd hr))

theorem entry_applyKeepConfig (s : State) (i : EntryIndex) :
    (applyKeepConfig s).entry i = keepEntry (s.entry i) := by
  simp [State.entry, applyKeepConfig]

theorem channel_applyKeepConfig (s : State) (c : ChannelIndex) :
    (applyKeepConfig s).channel c = keepChannel (s.channel c) := by
  simp [State.channel, applyKeepConfig]

/-- Settles O35: what KEEP_CONFIG leaves, entry by entry and channel by channel. -/
theorem keepConfigScopeApplies : Obligations.KeepConfigScopeApplies := by
  refine ⟨fun s => ⟨_, rfl, fun i => ?_, fun c => ?_, ?_⟩, fun s hd hr => ?_, fun s h => ?_⟩
  · rw [applyScope, entry_applyKeepConfig, keepEntry]
  · rw [applyScope, channel_applyKeepConfig, keepChannel]
    by_cases h : (s.channel c).state = .disabled <;> simp [h, stopTimers, Channel.moveTo, calls]
  · have hq : definedEntries s.entries =
        (List.finRange 64).filter fun i => (s.entry i).state ≠ .free := by
      refine List.filter_congr fun i _ => ?_
      cases h : (s.entry i).state <;> simp_all [State.entry]
    rw [← hq]
    rfl
  · exact congrArg Host.Outcome.next (if_pos ⟨hd, hr⟩)
  · exact congrArg Host.Outcome.next (if_neg fun ⟨hd, hr⟩ => h.elim (absurd hd) (absurd hr))

/-! ### Words and their entries -/

theorem writeWord_none {s : State} {p : Word × WriteWord} (h : entryAt s p.1 = none) (n : Source) :
    writeWord n s p = s := by
  simp [writeWord, h]

theorem writeWord_some {s : State} {p : Word × WriteWord} {i : EntryIndex}
    (h : entryAt s p.1 = some i) (n : Source) :
    writeWord n s p = if (s.entry i).state = .armed then
      evaluate s i (.transition n) (merge (s.entry i).shadow p.2) else s := by
  simp [writeWord, h]

theorem readWord_none {s : State} {p : Word × Word} (h : entryAt s p.1 = none) : readWord s p = s := by
  simp [readWord, h]

theorem readWord_some {s : State} {p : Word × Word} {i : EntryIndex} (h : entryAt s p.1 = some i) :
    readWord s p = if (s.entry i).state = .armed ∧ (s.entry i).reconcile = true then
      evaluate s i .unseen p.2 else s := by
  simp [readWord, h]

theorem touched_iff (w : WriteWord) : touched w = true ↔ w.enables ≠ 0 := bne_iff_ne

theorem faultWord_none {s : State} {p : Word × WriteWord} (h : entryAt s p.1 = none) :
    faultWord s p = s := by
  simp [faultWord, h]

theorem faultWord_some {s : State} {p : Word × WriteWord} {i : EntryIndex}
    (h : entryAt s p.1 = some i) :
    faultWord s p = if p.2.enables ≠ 0 then reprime s i else s := by
  simp [faultWord, h, touched_iff]

/-- Settles O52: a word acts on the entry that the law of watched addresses makes the only match. -/
theorem wordsReachTheirEntry : Obligations.WordsReachTheirEntry := by
  intro s a
  constructor
  · intro h
    have hn : entryAt s a = none := entryAt_none h
    exact ⟨fun n w => writeWord_none (by exact hn) n, fun w => faultWord_none (by exact hn),
      fun d => readWord_none (by exact hn)⟩
  · intro i hs ha hw
    have hi : entryAt s a = some i := entryAt_some hs ha hw
    refine ⟨fun n w => writeWord_some (by exact hi) n, fun w => ?_,
      fun d => readWord_some (by exact hi)⟩
    rw [faultWord_some (by exact hi), reprime_eq]
    by_cases hA : (s.entry i).state = .armed <;> by_cases hE : w.enables = 0 <;> simp [hA, hE]

/-! ### Management commands at their execution point -/

/-- A command whose tests accept it, in a RUNNING device at its execution point. -/
theorem executeCommand_accepted {c : Instr} {cmd : Command} {args : List Byte}
    {body : State → Except ResultCode (State × List Byte)} {s t : State} {bytes : List Byte}
    (hp : AtExecutionPoint s c) (hf : frameOf c = some (commandCode cmd :: args))
    (h : body s = .ok (t, bytes)) :
    executeCommand cmd args body s =
      { t with management := executed t.management c (commandCode cmd) .ok bytes } := by
  rw [executeCommand_at_point hp hf, h]
  exact answer_eq hf .ok bytes t

theorem watchValues_accepted {a : WatchDefineArgs} {m : Mode} {c : ChannelIndex} {b : Bool}
    (hal : a.address.toNat % 4 = 0) (hen : a.enableMask ≠ 0) (hm : modeOf a.mode = some m)
    (hc : channelOf a.channel = some c) (hb : onOff a.reconcile = some b)
    (ht : m = .count → a.threshold ≠ 0) : watchValues a = .ok (m, c, b) := by
  have h1 : (a.address.toNat % 4 == 0 && a.enableMask != 0) = true := by
    rw [hal, Bool.and_eq_true]
    exact ⟨rfl, bne_iff_ne.2 hen⟩
  have h2 : (m != .count || a.threshold != 0) = true := by
    cases m with
    | flag => rfl
    | record => rfl
    | count => exact bne_iff_ne.2 (ht rfl)
  simp only [watchValues, hm, hc, hb, orRefuse_some_bind, require_bind, h1, h2, if_true]
  rfl

theorem watchDefineBody_accepted {a : WatchDefineArgs} {s : State} {i : EntryIndex} {m : Mode}
    {c : ChannelIndex} {b : Bool} (hi : entryOf a.index = some i) (hv : watchValues a = .ok (m, c, b))
    (hh : heldElsewhere s i a.address = false) (hw : inAnyWindow s a.address = false) :
    watchDefineBody a s = .ok (defineEntry s i (definedEntry (s.entry i) a m c b),
      [(s.entry i).generation + 1]) := by
  simp only [watchDefineBody, hi, hv, hh, hw, orRefuse_some_bind, ok_bind, require_bind, Bool.not_false,
    if_true]
  rfl

/-- Settles O37: the tests of WATCH_DEFINE pass, and its effect is the definition of the entry. -/
theorem watchDefineAccepted : Obligations.WatchDefineAccepted := by
  intro s a i m c b hp hi hal hen hm hc hb ht hdup hout old
  have hm' : modeOf a.mode = some m := by rw [hm]; cases m <;> rfl
  have hc' : channelOf a.channel = some c := by rw [hc, channelOf_number]
  have hb' : onOff a.reconcile = some b := by rw [hb, onOff_bool]
  have hi' : entryOf a.index = some i := by rw [hi, entryOf_index]
  have hheld : heldElsewhere s i a.address = false := by
    rw [Bool.eq_false_iff, ne_eq, heldElsewhere_iff]
    rintro ⟨j, hj, hfree, haddr⟩
    exact (hdup j hj).elim hfree fun h => h haddr
  have hwin : inAnyWindow s a.address = false := by
    rw [Bool.eq_false_iff, ne_eq, inAnyWindow_iff, not_not]
    exact hout
  have key := executeCommand_accepted hp rfl
    (watchDefineBody_accepted hi' (watchValues_accepted hal hen hm' hc' hb' ht) hheld hwin)
  rw [defineEntry, enqueuePriming_eq] at key
  exact congrArg Host.Outcome.next key

theorem watchReleaseBody_accepted {index : Byte} {s : State} {i : EntryIndex}
    (hi : entryOf index = some i) :
    watchReleaseBody index s = .ok (releaseEntry s i, [(s.entry i).generation + 1]) := by
  simp only [watchReleaseBody, hi, orRefuse_some_bind]
  rfl

/-- Settles O38: the effect of WATCH_RELEASE is the release of the entry. -/
theorem watchReleaseAccepted : Obligations.WatchReleaseAccepted := by
  intro s i c hp old
  exact congrArg Host.Outcome.next
    (executeCommand_accepted hp rfl (watchReleaseBody_accepted (entryOf_index i)))

/-- Where an entry's priming read is, in the words of the statements (R15, R47). -/
theorem primingIndication_eq (s : State) (i : EntryIndex) :
    primingIndication s i = if i ∈ s.primingQueue then .queued
      else if readInFlight s i then .inFlight else .none := rfl

theorem indicationCode_primingIndication (s : State) (i : EntryIndex) :
    indicationCode (primingIndication s i) =
      if i ∈ s.primingQueue then 1 else if readInFlight s i = true then 2 else 0 := by
  rw [primingIndication_eq]
  split
  · rfl
  · split <;> rfl

@[simp] theorem presentIf_true {n : Nat} (v : BitVec n) : presentIf true v = v := rfl

theorem halfBytes_presentIf (b : Bool) (v : Half) :
    halfBytes (presentIf b v) = if b then halfBytes v else [0, 0] := by
  cases b <;> simp [presentIf, halfBytes]

theorem wordBytes_presentIf (b : Bool) (v : Word) :
    wordBytes (presentIf b v) = if b then wordBytes v else [0, 0, 0, 0] := by
  cases b <;> simp [presentIf, wordBytes]

/-- A FREE entry is reported by its state, its generation and its priming indication alone (R208). -/
theorem entryBytes_free {e : Entry} (h : e.state = .free) (p : PrimingIndication) :
    entryBytes e p = [0, e.generation, indicationCode p] ++ List.replicate 31 0 := by
  simp [entryBytes, h, presentIf, entryStateCode, wordBytes, halfBytes]

/-- The bytes of an entry that is not FREE: count and threshold in COUNT mode, and the shadow where the
entry has one (R208). -/
theorem entryBytes_defined {e : Entry} (h : e.state ≠ .free) (p : PrimingIndication) :
    entryBytes e p = [entryStateCode e.state, e.generation, indicationCode p] ++
      (wordBytes e.address ++ wordBytes e.enableMask ++ wordBytes e.riseMask ++ wordBytes e.fallMask ++
        [(modeCode e.mode).setWidth 8, BitVec.ofNat 8 e.channel.val, if e.reconcile then 1 else 0] ++
        (if e.mode = .count then halfBytes e.threshold ++ halfBytes e.count else [0, 0, 0, 0]) ++
        (if e.state = .armed ∨ e.state = .repriming then wordBytes e.shadow else [0, 0, 0, 0]) ++
        wordBytes e.pendingMask) := by
  have hd : (e.state != .free) = true := bne_iff_ne.2 h
  have hr : (flagBit e.reconcile).setWidth 8 = if e.reconcile then 1 else 0 := by
    cases e.reconcile <;> rfl
  simp only [entryBytes, hd, hr, halfBytes_presentIf, wordBytes_presentIf, presentIf_true,
    Bool.true_and]
  by_cases hc : e.mode = .count <;> simp [hc]

theorem watchQueryBody_accepted (s : State) (i : EntryIndex) :
    watchQueryBody (BitVec.ofNat 8 i.val) s =
      .ok (s, entryBytes (s.entry i) (primingIndication s i)) := by
  simp only [watchQueryBody, entryOf_index, orRefuse_some_bind]
  rfl

theorem channelQueryBody_accepted (s : State) (c : ChannelIndex) :
    channelQueryBody (BitVec.ofNat 8 c.val) s =
      .ok (s.setChannel c { s.channel c with overRetire := false }, channelBytes (s.channel c)) := by
  simp only [channelQueryBody, channelOf_number, orRefuse_some_bind]
  rfl

/-- The flags byte of CHANNEL_QUERY, bit by bit and as a sum (section 12.3). -/
theorem channelFlags_eq : ∀ overflow overRetire present : Bool,
    ((flagBit overflow).setWidth 8 ||| (flagBit overRetire).setWidth 8 <<< 1 |||
      (flagBit present).setWidth 8 <<< 2 : Byte) =
    (if overflow then 1 else 0) + (if overRetire then 2 else 0) + (if present then 4 else 0) := by
  decide

/-- Outside RESET a STATUS_QUERY at its execution point is answered, during a drain too (R188). -/
theorem executeCommand_statusQuery {s t : State} {bytes : List Byte}
    {body : State → Except ResultCode (State × List Byte)} (hd : s.device ≠ .reset)
    (hf : AwaitsFrame s .statusQuery) (h : body s = .ok (t, bytes)) :
    executeCommand .statusQuery [] body s =
      { t with management := executed t.management .statusQuery 0x38 .ok bytes } := by
  unfold executeCommand
  rw [if_pos (takesFrame_of_awaits hd hf rfl), if_neg (by simp), h]
  exact answer_eq rfl .ok bytes t

/-- Settles O39: the three queries answer the bytes of the entry, of the channel and of the device. -/
theorem queriesAnswerTheState : Obligations.QueriesAnswerTheState := by
  refine ⟨?_, ?_, ?_⟩
  · intro s i q hp
    refine congrArg Host.Outcome.next
      ((executeCommand_accepted hp rfl (watchQueryBody_accepted s i)).trans ?_)
    by_cases hf : (s.entry i).state = .free
    · rw [entryBytes_free hf, indicationCode_primingIndication]
      simp [hf, commandCode]
    · rw [entryBytes_defined hf, indicationCode_primingIndication, if_neg hf]
      have hs : entryStateCode (s.entry i).state = match (s.entry i).state with
          | .free => 0
          | .priming => 1
          | .armed => 2
          | .repriming => 3 := by cases (s.entry i).state <;> rfl
      have hm : (modeCode (s.entry i).mode).setWidth 8 = match (s.entry i).mode with
          | .flag => 0
          | .record => 1
          | .count => 2 := by cases (s.entry i).mode <;> rfl
      rewrite [hs, hm]
      rfl
  · intro s c q hp k
    refine congrArg Host.Outcome.next
      ((executeCommand_accepted hp rfl (channelQueryBody_accepted s c)).trans ?_)
    have hs : (channelStateCode (s.channel c).state).setWidth 8 = match (s.channel c).state with
        | .disabled => 0
        | .idle => 1
        | .holdoff => 2
        | .alerting => 3
        | .inService => 4
        | .lapsed => 5 := by cases (s.channel c).state <;> rfl
    have hb : fallbackCode (s.channel c).config.fallback = match (s.channel c).config.fallback with
        | none => 0xFF
        | some f => BitVec.ofNat 8 f.val := by cases (s.channel c).config.fallback <;> rfl
    rewrite [channelBytes, hs, hb, channelFlags_eq]
    rfl
  · intro s hd hf
    refine congrArg Host.Outcome.next ((executeCommand_statusQuery hd hf rfl).trans ?_)
    have hs : deviceCode s.device = if s.device = .running then 1 else 2 := by
      cases h : s.device with
      | reset => exact absurd h hd
      | running => rfl
      | draining sc => rfl
    have hl : linkCode s.link = if s.link = .active then 0 else 1 := by cases s.link <;> rfl
    rewrite [statusBytes, hs, hl]
    rfl

/-! ### The state after power-on reset -/

/-- Settles O2: the values and the laws of `State.reset`, each by evaluation. -/
theorem powerOnStateMeetsTheLaws : Obligations.PowerOnStateMeetsTheLaws := by
  refine ⟨rfl, rfl, by decide, by decide, rfl, rfl, rfl, rfl, rfl, rfl, rfl, rfl, rfl, rfl, rfl, rfl, rfl,
    rfl, rfl, rfl, rfl, by decide, by decide, by decide, by decide, by decide, by decide, by decide,
    by decide, by decide, by decide, by decide, by decide, by decide, by decide, by decide⟩

section

variable {p : Prop} {s t u : State}

/-! ### What a command can do to an entry and to a channel -/

/-- What the commands but WATCH_DEFINE do to an entry, one act after another. An entry becomes ARMED only
under `arming`: by an OKAY priming completion, which an ACTIVE port alone takes (R11, R49, R50, R163). -/
inductive EntryMove (arming : Prop) (e : Entry) : Entry → Prop where
  | evaluated (shadow mask : Word) (count : Half) (watching : e.state = .armed ∨ e.state = .repriming)
    (counted : count = e.count ∨ e.mode = .count ∧ (count = 0 ∨ count.toNat < e.threshold.toNat)) :
    EntryMove arming e { e with shadow := shadow, pendingMask := mask, count := count }
  | collected : EntryMove arming e { e with pendingMask := 0 }
  | reprimed (watching : e.state = .armed) : EntryMove arming e { e with state := .repriming }
  | primed (allowed : arming) (waiting : e.state = .priming) (shadow : Word) :
    EntryMove arming e { e with state := .armed, shadow := shadow }
  | rearmed (allowed : arming) (waiting : e.state = .repriming) :
    EntryMove arming e { e with state := .armed }
  | released : EntryMove arming e (releasedEntry e)
  | kept : EntryMove arming e (keepEntry e)
  | fresh : EntryMove arming e .powerOn

/-- What the commands but CHANNEL_DEFINE do to a channel, one act after another. -/
inductive ChannelMove (k : Channel) : Channel → Prop where
  | pendingSet (l : List EntryIndex) : ChannelMove k { k with pendingSet := l }
  | appended (enabled : k.state ≠ .disabled) (room : queueLength k < k.config.quota.toNat) (r : Record) :
    ChannelMove k { k with queued := k.queued ++ [r], nextSequence := k.nextSequence + 1 }
  | lost : ChannelMove k (loseRecord k)
  | delivered : ChannelMove k (deliver k)
  | claimed (enabled : k.state ≠ .disabled) : ChannelMove k (claimChannel k)
  | handedOut (serving : k.state = .inService) (r : Record) (l : List Record)
    (oldest : k.queued = r :: l) :
    ChannelMove k { k with
      handed := k.handed ++ [r], queued := l, serviceTimer := startTimer k.config.serviceDeadline }
  | returned (serving : k.state = .inService) (n : Nat) : ChannelMove k (returnChannel k n)
  | refused : ChannelMove k { k with refused := saturate k.refused }
  | ticked : ChannelMove k (lowerChannel k)
  | heldOff (waiting : k.state = .holdoff) : ChannelMove k (enterAlerting k)
  | claimLapsed (calling : k.state = .alerting) : ChannelMove k (lapseChannel .claim k)
  | serviceLapsed (serving : k.state = .inService) : ChannelMove k (lapseChannel .service k)
  | enabled (off : k.state = .disabled) : ChannelMove k (enable k)
  | disabled : ChannelMove k (disable k)
  | freed : ChannelMove k { k with handed := [], queued := [] }
  | reinstated (lapsed : k.state = .lapsed) : ChannelMove k (settleContent k)
  | queried : ChannelMove k { k with overRetire := false }
  | kept : ChannelMove k (keepChannel k)
  | fresh : ChannelMove k .powerOn

/-- The divider and the timeout are in their ranges (R112). -/
def TimingInRange (s : State) : Prop :=
  1 ≤ s.tickDivider.toNat ∧ s.tickDivider.toNat ≤ 4096 ∧ s.responseTimeout ≠ 0

/-- From `s` to `t` every entry and every channel is moved as above, and the timing stays in its ranges. -/
structure Moves (arming : Prop) (s t : State) : Prop where
  entries : ∀ i, Relation.ReflTransGen (EntryMove arming) (s.entry i) (t.entry i)
  channels : ∀ c, Relation.ReflTransGen ChannelMove (s.channel c) (t.channel c)
  timing : TimingInRange s → TimingInRange t

/-- The device state, the link, the ring, the divider and the response timer with its timeout are left as
they are. -/
structure SameTransit (s t : State) : Prop where
  device : t.device = s.device
  link : t.link = s.link
  ring : t.ring = s.ring
  divider : t.tickDivider = s.tickDivider
  timer : t.responseTimer = s.responseTimer
  timeout : t.responseTimeout = s.responseTimeout

/-- A change of the tables that leaves the transit path as it is. -/
structure Local (arming : Prop) (s t : State) : Prop where
  moves : Moves arming s t
  transit : SameTransit s t

/-- The fields that `Moves` speaks of are left as they are. -/
structure SameTables (s t : State) : Prop where
  entries : t.entries = s.entries
  channels : t.channels = s.channels
  divider : t.tickDivider = s.tickDivider
  timeout : t.responseTimeout = s.responseTimeout

theorem TimingInRange.congr (hd : t.tickDivider = s.tickDivider)
    (ht : t.responseTimeout = s.responseTimeout) (h : TimingInRange s) : TimingInRange t := by
  unfold TimingInRange
  rw [hd, ht]
  exact h

theorem SameTables.moves (h : SameTables s t) : Moves p s t := by
  obtain ⟨he, hc, hd, ht⟩ := h
  refine ⟨fun i => ?_, fun c => ?_, TimingInRange.congr hd ht⟩
  · rw [entry_congr he]
  · rw [channel_congr hc]

theorem Moves.refl (s : State) : Moves p s s := ⟨fun _ => .refl, fun _ => .refl, id⟩

theorem Moves.trans (h : Moves p s t) (h' : Moves p t u) : Moves p s u :=
  ⟨fun i => (h.entries i).trans (h'.entries i), fun c => (h.channels c).trans (h'.channels c),
    fun hs => h'.timing (h.timing hs)⟩

theorem SameTransit.refl (s : State) : SameTransit s s := ⟨rfl, rfl, rfl, rfl, rfl, rfl⟩

theorem SameTransit.trans (h : SameTransit s t) (h' : SameTransit t u) : SameTransit s u :=
  ⟨h'.device.trans h.device, h'.link.trans h.link, h'.ring.trans h.ring, h'.divider.trans h.divider,
    h'.timer.trans h.timer, h'.timeout.trans h.timeout⟩

theorem Local.refl (s : State) : Local p s s := ⟨.refl s, .refl s⟩

theorem Local.trans (h : Local p s t) (h' : Local p t u) : Local p s u :=
  ⟨h.moves.trans h'.moves, h.transit.trans h'.transit⟩

theorem Local.foldl {α : Type} {f : State → α → State} (h : ∀ s a, Local p s (f s a)) (l : List α)
    (s : State) : Local p s (l.foldl f s) := by
  induction l generalizing s with
  | nil => exact .refl s
  | cons a l ih => exact (h s a).trans (ih _)

theorem Local.stepIf (b : Bool) (h : Local p s t) (h' : Local p t u) :
    Local p s (if b then u else t) := by
  split
  · exact h.trans h'
  · exact h

/-- A change outside the tables and outside the transit path. -/
theorem local_of_same (he : t.entries = s.entries) (hc : t.channels = s.channels)
    (h : SameTransit s t) : Local p s t :=
  ⟨SameTables.moves ⟨he, hc, h.divider, h.timeout⟩, h⟩

theorem setEntry_local {i : EntryIndex} {e : Entry} (h : EntryMove p (s.entry i) e) :
    Local p s (s.setEntry i e) := by
  refine ⟨⟨fun j => ?_, fun _ => .refl, id⟩, ⟨rfl, rfl, rfl, rfl, rfl, rfl⟩⟩
  by_cases hj : i = j
  · subst hj
    rw [entry_setEntry_same]
    exact .single h
  · rw [entry_setEntry_other _ _ hj]

theorem setChannel_local {c : ChannelIndex} {k : Channel} (h : ChannelMove (s.channel c) k) :
    Local p s (s.setChannel c k) := by
  refine ⟨⟨fun _ => .refl, fun d => ?_, id⟩, ⟨rfl, rfl, rfl, rfl, rfl, rfl⟩⟩
  by_cases hd : c = d
  · subst hd
    rw [channel_setChannel_same]
    exact .single h
  · rw [channel_setChannel_other _ _ hd]

theorem withFreeRecords_local (s : State) (n : Nat) : Local p s { s with freeRecords := n } :=
  local_of_same rfl rfl ⟨rfl, rfl, rfl, rfl, rfl, rfl⟩

theorem withPrimingQueue_local (s : State) (q : List EntryIndex) :
    Local p s { s with primingQueue := q } :=
  local_of_same rfl rfl ⟨rfl, rfl, rfl, rfl, rfl, rfl⟩

theorem withManagement_local (s : State) (m : ManagementPort) : Local p s { s with management := m } :=
  local_of_same rfl rfl ⟨rfl, rfl, rfl, rfl, rfl, rfl⟩

theorem withFaults_local (s : State) (flags : BitVec 7) : Local p s (s.withFaults flags) :=
  local_of_same rfl rfl ⟨rfl, rfl, rfl, rfl, rfl, rfl⟩

theorem withFaultMask_local (s : State) (mask : BitVec 7) : Local p s (s.withFaultMask mask) :=
  local_of_same rfl rfl ⟨rfl, rfl, rfl, rfl, rfl, rfl⟩

theorem raise_local (s : State) (f : FaultFlag) : Local p s (s.raise f) := withFaults_local s _

theorem takeTickAt_local (s : State) (o : TickOwner) : Local p s (s.takeTickAt o) :=
  local_of_same rfl rfl ⟨rfl, rfl, rfl, rfl, rfl, rfl⟩

theorem coverTick_local (b : Bool) (s t : State) : Local p t (coverTick b s t) := by
  cases b <;> exact local_of_same rfl rfl ⟨rfl, rfl, rfl, rfl, rfl, rfl⟩

/-! ### Records, deliveries and evaluations -/

theorem deliverTo_local (s : State) (c : ChannelIndex) : Local p s (deliverTo s c) :=
  setChannel_local .delivered

theorem appendRecord_local {c : ChannelIndex} (h : canCreate s c = true) (body : RecordBody)
    (ts : Word) : Local p s (appendRecord s c body ts) := by
  obtain ⟨hs, hq, -⟩ := (canCreate_iff s c).1 h
  exact (setChannel_local (.appended hs hq _)).trans (withFreeRecords_local _ _)

theorem createRecord_local (s : State) (c : ChannelIndex) (body : RecordBody) :
    Local p s (createRecord s c body) := by
  unfold createRecord
  split
  next h => exact appendRecord_local h body _
  next => exact setChannel_local .lost

/-- An entry that has a shadow to evaluate against (R3). -/
def Watching (e : Entry) : Prop := e.state = .armed ∨ e.state = .repriming

theorem addPending_local {i : EntryIndex} (h : Watching (s.entry i)) (mask : Word) :
    Local p s (addPending s i mask) := by
  rw [addPending_eq]
  exact (setEntry_local (.evaluated (s.entry i).shadow _ _ h (.inl rfl))).trans
    (setChannel_local (.pendingSet _))

theorem qualifyingEvent_flag {i : EntryIndex} (hm : (s.entry i).mode = .flag) (cause : Cause)
    (ch : Change) :
    qualifyingEvent s i cause ch = deliverTo (addPending s i ch.mask) (s.entry i).channel := by
  simp only [qualifyingEvent, hm]

theorem qualifyingEvent_record {i : EntryIndex} (hm : (s.entry i).mode = .record) (cause : Cause)
    (ch : Change) :
    qualifyingEvent s i cause ch =
      deliverTo (createRecord (addPending s i ch.mask) (s.entry i).channel (recordBody cause ch))
        (s.entry i).channel := by
  simp only [qualifyingEvent, hm]

theorem qualifyingEvent_below {i : EntryIndex} (hm : (s.entry i).mode = .count)
    (hlt : (s.entry i).count.toNat + 1 < (s.entry i).threshold.toNat) (cause : Cause) (ch : Change) :
    qualifyingEvent s i cause ch =
      s.setEntry i { s.entry i with count := (s.entry i).count + 1 } := by
  simp only [qualifyingEvent, hm, if_pos hlt]

theorem qualifyingEvent_threshold {i : EntryIndex} (hm : (s.entry i).mode = .count)
    (hge : ¬ (s.entry i).count.toNat + 1 < (s.entry i).threshold.toNat) (cause : Cause) (ch : Change) :
    qualifyingEvent s i cause ch =
      deliverTo (createRecord (s.setEntry i { s.entry i with count := 0 }) (s.entry i).channel
        (countBody cause ch)) (s.entry i).channel := by
  simp only [qualifyingEvent, hm, if_neg hge]

theorem qualifyingEvent_local {i : EntryIndex} (h : Watching (s.entry i)) (cause : Cause)
    (ch : Change) : Local p s (qualifyingEvent s i cause ch) := by
  have counted : ∀ n : Half, n = 0 ∨ n.toNat < (s.entry i).threshold.toNat →
      (s.entry i).mode = .count → Local p s (s.setEntry i { s.entry i with count := n }) :=
    fun n hn hm => setEntry_local (.evaluated _ _ _ h (.inr ⟨hm, hn⟩))
  cases hm : (s.entry i).mode with
  | flag =>
    rw [qualifyingEvent_flag hm]
    exact (addPending_local h _).trans (deliverTo_local _ _)
  | record =>
    rw [qualifyingEvent_record hm]
    exact ((addPending_local h _).trans (createRecord_local _ _ _)).trans (deliverTo_local _ _)
  | count =>
    by_cases hlt : (s.entry i).count.toNat + 1 < (s.entry i).threshold.toNat
    · rw [qualifyingEvent_below hm hlt]
      refine counted _ (.inr ?_) hm
      have := Nat.mod_le ((s.entry i).count.toNat + 1) (2 ^ 16)
      rw [BitVec.toNat_add]
      exact lt_of_le_of_lt this hlt
    · rw [qualifyingEvent_threshold hm hlt]
      exact ((counted 0 (.inl rfl) hm).trans (createRecord_local _ _ _)).trans (deliverTo_local _ _)

/-- An evaluation replaces the shadow behind a qualifying event, or at once where no bit qualifies. -/
theorem evaluate_eq (s : State) (i : EntryIndex) (cause : Cause) (new : Word) :
    evaluate s i cause new = replaceShadow s i new ∨
      ∃ ch, evaluate s i cause new = replaceShadow (qualifyingEvent s i cause ch) i new := by
  unfold evaluate
  dsimp only
  split
  · exact .inl rfl
  · exact .inr ⟨_, rfl⟩

theorem replaceShadow_local {i : EntryIndex} (h : Watching (s.entry i)) (new : Word) :
    Local p s (replaceShadow s i new) :=
  setEntry_local (.evaluated new _ _ h (.inl rfl))

theorem evaluate_local {i : EntryIndex} (h : Watching (s.entry i)) (cause : Cause) (new : Word) :
    Local p s (evaluate s i cause new) := by
  rcases evaluate_eq s i cause new with he | ⟨ch, he⟩
  · rw [he]
    exact replaceShadow_local h new
  · have hs : ((qualifyingEvent s i cause ch).entry i).state = (s.entry i).state := by
      obtain ⟨m, n, hen⟩ := evaluate_entry_same s i cause new
      rw [he, replaceShadow, entry_setEntry_same] at hen
      injection hen
    rw [he]
    refine (qualifyingEvent_local h cause ch).trans (replaceShadow_local ?_ new)
    unfold Watching
    rw [hs]
    exact h

/-! ### Priming, responses and the stall -/

theorem enqueuePriming_local (s : State) (i : EntryIndex) : Local p s (enqueuePriming s i) := by
  rw [enqueuePriming_eq]
  exact withPrimingQueue_local s _

theorem reprime_local (s : State) (i : EntryIndex) : Local p s (reprime s i) := by
  unfold reprime
  split
  next h => exact (setEntry_local (.reprimed h)).trans (enqueuePriming_local _ _)
  next => exact .refl s

theorem arm_local {i : EntryIndex} (hp : p) (h : (s.entry i).state = .repriming) :
    Local p s (arm s i) :=
  (setEntry_local (.rearmed hp h)).trans (withPrimingQueue_local _ _)

theorem arm_replaceShadow_local {i : EntryIndex} (hp : p) (h : (s.entry i).state = .priming)
    (w : Word) : Local p s (arm (replaceShadow s i w) i) := by
  have e : arm (replaceShadow s i w) i =
      leavePriming (s.setEntry i { s.entry i with state := .armed, shadow := w }) i := by
    simp [arm, replaceShadow]
  rw [e]
  exact (setEntry_local (.primed hp h w)).trans (withPrimingQueue_local _ _)

theorem primingOkay_local (hp : p) (s : State) (i : EntryIndex) (w : Word) :
    Local p s (primingOkay s i w) := by
  cases hs : (s.entry i).state with
  | free => simpa [primingOkay, hs] using Local.refl s
  | armed => simpa [primingOkay, hs] using Local.refl s
  | priming =>
    rw [primingOkay_priming hs]
    exact arm_replaceShadow_local hp hs w
  | repriming =>
    have he : ((evaluate s i .unseen w).entry i).state = .repriming := by
      obtain ⟨m, n, he⟩ := evaluate_entry_same s i .unseen w
      rw [he]
      exact hs
    rw [primingOkay_repriming hs]
    exact (evaluate_local (.inr hs) _ _).trans (arm_local hp he)

theorem primingFailed_local (s : State) (i : EntryIndex) (g : Byte) :
    Local p s (primingCompletion s i g none) := by
  by_cases h : waitsRead s (i, g)
  · rw [(primingCompletion_fault s (i, g)).1 h]
    exact enqueuePriming_local s i
  · rw [(primingCompletion_fault s (i, g)).2 h]
    exact .refl s

theorem primingCompletion_local (hp : p) (s : State) (i : EntryIndex) (g : Byte) (w : Option Word) :
    Local p s (primingCompletion s i g w) := by
  cases w with
  | none => exact primingFailed_local s i g
  | some w =>
    unfold primingCompletion
    split
    · exact primingOkay_local hp s i w
    · exact .refl s

theorem writeWord_local (n : Source) (s : State) (x : Word × WriteWord) :
    Local p s (writeWord n s x) := by
  cases hi : entryAt s x.1 with
  | none => rw [writeWord_none hi]; exact .refl s
  | some i =>
    rw [writeWord_some hi]
    split
    next h => exact evaluate_local (.inl h) _ _
    next => exact .refl s

theorem readWord_local (s : State) (x : Word × Word) : Local p s (readWord s x) := by
  cases hi : entryAt s x.1 with
  | none => rw [readWord_none hi]; exact .refl s
  | some i =>
    rw [readWord_some hi]
    split
    next h => exact evaluate_local (.inl h.1) _ _
    next => exact .refl s

theorem faultWord_local (s : State) (x : Word × WriteWord) : Local p s (faultWord s x) := by
  cases hi : entryAt s x.1 with
  | none => rw [faultWord_none hi]; exact .refl s
  | some i =>
    rw [faultWord_some hi]
    split
    · exact reprime_local s i
    · exact .refl s

theorem handOn_local (hp : p) (s : State) (x : Slot) (r : DownResponse) : Local p s (handOn s x r) := by
  unfold handOn
  split
  · split
    · split
      · exact .foldl (writeWord_local _) _ _
      · exact .foldl faultWord_local _ _
    · split
      · exact .foldl readWord_local _ _
      · exact .refl s
  · exact primingCompletion_local hp _ _ _ _
  · exact .refl s

/-- Behind the failing of the slots, a stall reaches the entries and the priming queue alone. -/
theorem stall_local (s : State) : Local p (failOutstanding s) (stall s) := by
  by_cases h : s.device = .running
  · rw [stall_running h]
    exact (Local.foldl (f := fun t (x : EntryIndex × Byte) => primingCompletion t x.1 x.2 none)
      (fun t x => primingFailed_local t x.1 x.2) _ _).trans (.foldl reprime_local _ _)
  · rw [stall_draining h]
    exact .refl _

theorem stall_moves (s : State) : Moves p s (stall s) := by
  have hf : SameTables s (failOutstanding s) := ⟨rfl, rfl, rfl, rfl⟩
  exact hf.moves.trans (stall_local s).moves

/-! ### Resets and the drain -/

theorem fresh_moves (he : t.entries = freshEntries) (hc : t.channels = freshChannels)
    (hd : t.tickDivider = Config.defaultDivider) (ht : t.responseTimeout = Config.defaultTimeout) :
    Moves p s t := by
  have hentry : ∀ i, t.entry i = .powerOn := fun i => by simp [State.entry, he, freshEntries]
  have hchannel : ∀ c, t.channel c = .powerOn := fun c => by simp [State.channel, hc, freshChannels]
  refine ⟨fun i => ?_, fun c => ?_, fun _ => ?_⟩
  · rw [hentry]
    exact .single .fresh
  · rw [hchannel]
    exact .single .fresh
  · unfold TimingInRange
    rw [hd, ht]
    decide

theorem applyKeepConfig_moves (s : State) : Moves p s (applyKeepConfig s) := by
  refine ⟨fun i => ?_, fun c => ?_, id⟩
  · rw [entry_applyKeepConfig]
    exact .single .kept
  · rw [channel_applyKeepConfig]
    exact .single .kept

theorem applyScope_moves (sc : Scope) (s : State) : Moves p s (applyScope sc s) := by
  cases sc with
  | full => exact fresh_moves rfl rfl rfl rfl
  | keepConfig => exact applyKeepConfig_moves s

theorem endDrain_moves (s : State) : Moves p s (endDrain s) := by
  unfold endDrain
  split
  · split
    · exact applyScope_moves _ s
    · exact .refl s
  · exact .refl s

theorem leaveSilently_sameTables (s : State) : SameTables s (leaveSilently s) := ⟨rfl, rfl, rfl, rfl⟩

theorem settle_moves (s : State) : Moves p s (settle s) :=
  (leaveSilently_sameTables s).moves.trans (endDrain_moves _)

theorem takeValid_moves (hp : p) (s : State) (k : Nat) (r : DownResponse) :
    Moves p s (takeValid s k r) := by
  unfold takeValid
  dsimp only
  have done : ∀ ring tm, Moves p s { s with ring := ring, responseTimer := tm } :=
    fun _ _ => SameTables.moves ⟨rfl, rfl, rfl, rfl⟩
  split
  · split
    · exact (done _ _).trans (handOn_local hp _ _ _).moves
    · exact done _ _
  · exact done _ _

theorem takeInvalid_moves (s : State) : Moves p s (takeInvalid s) :=
  (raise_local s .order).moves.trans (stall_moves _)

theorem checkOrder_moves (hp : p) (s : State) (r : DownResponse) : Moves p s (checkOrder s r) := by
  unfold checkOrder
  split
  · split
    · exact takeValid_moves hp s _ r
    · exact takeInvalid_moves s
  · exact takeInvalid_moves s

/-! ### Accesses and requests -/

theorem serveAccess_local {c : ChannelIndex} {n : Source} {a : WindowAccess}
    (h : serves (s.channel c) n a = true) : Local p s (serveAccess s c a).1 := by
  have hs : (s.channel c).state ≠ .disabled := by
    simp only [serves, Bool.and_eq_true, bne_iff_ne] at h
    exact h.1.2
  have hi : (∀ m, a ≠ .claim m) → (s.channel c).state = .inService := by
    intro hne
    simp only [serves, Bool.and_eq_true] at h
    cases a with
    | claim m => exact absurd rfl (hne m)
    | collect => simpa using h.2
    | record => simpa using h.2
    | returnService m => simpa using h.2
  cases a with
  | claim m => exact setChannel_local (.claimed hs)
  | collect =>
    simp only [serveAccess, serveCollect]
    split
    · exact .refl s
    · exact (setChannel_local (.pendingSet _)).trans (setEntry_local .collected)
  | record =>
    simp only [serveAccess, serveRecord]
    split
    · exact .refl s
    next r l hq => exact setChannel_local (.handedOut (hi (by simp)) r l hq)
  | returnService m =>
    exact (setChannel_local (.returned (hi (by simp)) _)).trans (withFreeRecords_local _ _)

theorem takeAccess_local (s : State) (c : ChannelIndex) (w : Nat) (q : Request) :
    Local p s (takeAccess s c w q).1 := by
  have refused : Local p s (refuseAccess s c) := setChannel_local .refused
  cases hr : recognise w q.payload with
  | none => rw [takeAccess_unmatched hr]; exact refused
  | some a =>
    cases hs : serves (s.channel c) q.source a with
    | true => rw [takeAccess_served hr hs]; exact serveAccess_local hs
    | false => rw [takeAccess_refused hr hs]; exact refused

theorem allocate_sameTables (s : State) (x : Slot) : SameTables s (allocate s x) := ⟨rfl, rfl, rfl, rfl⟩

theorem offerRequest_moves (s : State) (q : Request) : Moves p s (offerRequest s q) := by
  rcases offerRequest_cases s q with h | ⟨-, resp, h⟩ | ⟨-, c, w, resp, h⟩ | ⟨-, -, h⟩ <;> rw [h]
  · exact .refl s
  · exact (allocate_sameTables s _).moves
  · exact (takeAccess_local s c w q).moves.trans (allocate_sameTables _ _).moves
  · exact (allocate_sameTables s _).moves

theorem offerAccess_moves (s : State) (c : ChannelIndex) (n : Source) (w : Nat) (x : Payload) :
    Moves p s (offerAccess s c n w x) := by
  rcases offerAccess_cases s c n w x with h | ⟨q, h⟩ <;> rw [h]
  · exact .refl s
  · exact offerRequest_moves s q

/-! ### Ticks and expiries -/

theorem lowerTimers_moves (s : State) : Moves p s (lowerTimers s) := by
  refine ⟨fun _ => .refl, fun c => ?_, id⟩
  by_cases hd : s.device = .running
  · by_cases ha : awaitsTick s (.channel c) = true
    · have e : (lowerTimers s).channel c = lowerChannel (s.channel c) := by
        simp [lowerTimers, State.channel, hd, tickChannel, ha]
      rw [e]
      exact .single .ticked
    · have e : (lowerTimers s).channel c = s.channel c := by
        simp [lowerTimers, State.channel, hd, tickChannel, ha]
      rw [e]
  · have e : (lowerTimers s).channel c = s.channel c := by simp [lowerTimers, State.channel, hd]
    rw [e]

theorem giveNotice_local (s : State) (c : ChannelIndex) (cause : LapseCause) (ts : Word) :
    Local p s (giveNotice s c cause ts) := by
  have raised : Local p s (s.raise .lapseLost) := raise_local s _
  unfold giveNotice
  split
  · exact raised
  · split
    next h => exact (appendRecord_local h _ _).trans (deliverTo_local _ _)
    next => exact raised

theorem takeHoldoffExpiry_local (s : State) (c : ChannelIndex) : Local p s (takeHoldoffExpiry s c) := by
  unfold takeHoldoffExpiry
  split
  next h => exact setChannel_local (.heldOff h)
  next => exact .refl s

theorem takeClaimExpiry_local (s : State) (c : ChannelIndex) (ts : Word) :
    Local p s (takeClaimExpiry s c ts) := by
  unfold takeClaimExpiry
  split
  next h => exact (setChannel_local (.claimLapsed h)).trans (giveNotice_local _ _ _ _)
  next => exact .refl s

theorem takeServiceExpiry_local (s : State) (c : ChannelIndex) (ts : Word) :
    Local p s (takeServiceExpiry s c ts) := by
  unfold takeServiceExpiry
  split
  next h => exact (setChannel_local (.serviceLapsed h)).trans (giveNotice_local _ _ _ _)
  next => exact .refl s

theorem takeExpiries_local (k : Channel) (s : State) (c : ChannelIndex) :
    Local p s (takeExpiries k s c) :=
  (((Local.refl s).stepIf _ (takeHoldoffExpiry_local s c)).stepIf _
    (takeClaimExpiry_local _ _ _)).stepIf _ (takeServiceExpiry_local _ _ _)

theorem takeResponseExpiry_moves (s : State) : Moves p s (takeResponseExpiry s) :=
  ((raise_local s .stall).moves.trans (stall_moves _)).trans
    (settle_moves _)

/-! ### What an accepted management command does -/

theorem bind_eq_ok {α β : Type} {x : Except ResultCode α} {f : α → Except ResultCode β} {b : β} :
    (x >>= f) = .ok b ↔ ∃ a, x = .ok a ∧ f a = .ok b := by
  cases x with
  | error r => simp [error_bind]
  | ok a => simp [ok_bind]

theorem orRefuse_eq_ok {α : Type} {r : ResultCode} {o : Option α} {a : α} :
    orRefuse r o = .ok a ↔ o = some a := by
  cases o <;> simp [orRefuse]

theorem require_eq_ok {r : ResultCode} {b : Bool} {x : Unit} : require r b = .ok x ↔ b = true := by
  cases b <;> simp

/-- Where a management command leaves anything but the port itself changed, its tests have accepted it. -/
theorem executeCommand_effect (cmd : Command) (args : List Byte)
    (body : State → Except ResultCode (State × List Byte)) (s : State) :
    (∃ m, executeCommand cmd args body s = { s with management := m }) ∨
    ∃ t bytes m, body s = .ok (t, bytes) ∧ (isDraining s = true → cmd = .statusQuery) ∧
      executeCommand cmd args body s = { t with management := m } := by
  rcases executeCommand_cases cmd args body s with h | ⟨r, h⟩ | ⟨t, bytes, hb, h, -, hd⟩
  · exact .inl ⟨s.management, h⟩
  · exact .inl ⟨_, h⟩
  · exact .inr ⟨t, bytes, _, hb, hd, h⟩

theorem executeCommand_local {cmd : Command} {args : List Byte}
    {body : State → Except ResultCode (State × List Byte)}
    (h : ∀ t bytes, body s = .ok (t, bytes) → Local p s t) :
    Local p s (executeCommand cmd args body s) := by
  rcases executeCommand_effect cmd args body s with ⟨m, he⟩ | ⟨t, bytes, m, hb, -, he⟩ <;> rw [he]
  · exact withManagement_local s m
  · exact (h t bytes hb).trans (withManagement_local t m)

theorem executeCommand_moves {cmd : Command} {args : List Byte}
    {body : State → Except ResultCode (State × List Byte)}
    (h : ∀ t bytes, body s = .ok (t, bytes) → Moves p s t) :
    Moves p s (executeCommand cmd args body s) := by
  rcases executeCommand_effect cmd args body s with ⟨m, he⟩ | ⟨t, bytes, m, hb, -, he⟩ <;> rw [he]
  · exact (withManagement_local s m).moves
  · exact (h t bytes hb).trans (withManagement_local t m).moves

theorem releaseEntry_local (s : State) (i : EntryIndex) : Local p s (releaseEntry s i) :=
  ((setChannel_local (.pendingSet _)).trans (setEntry_local .released)).trans
    (withPrimingQueue_local _ _)

theorem disableChannel_local (s : State) (c : ChannelIndex) : Local p s (disableChannel s c) := by
  unfold disableChannel
  split
  · exact .refl s
  · exact setChannel_local .disabled

theorem freeQueue_local (s : State) (c : ChannelIndex) : Local p s (freeQueue s c) :=
  (setChannel_local .freed).trans (withFreeRecords_local _ _)

theorem purgePending_local (s : State) (c : ChannelIndex) : Local p s (purgePending s c) :=
  (Local.foldl (f := fun t i => t.setEntry i { t.entry i with pendingMask := 0 })
    (fun _ _ => setEntry_local .collected) _ _).trans (setChannel_local (.pendingSet _))

theorem purgeChannel_local (s : State) (c : ChannelIndex) : Local p s (purgeChannel s c) :=
  ((disableChannel_local s c).trans (freeQueue_local _ c)).trans (purgePending_local _ c)

theorem watchReleaseBody_local {index : Byte} {bytes : List Byte}
    (h : watchReleaseBody index s = .ok (t, bytes)) : Local p s t := by
  obtain ⟨i, -, h⟩ := bind_eq_ok.1 h
  cases h
  exact releaseEntry_local s i

theorem watchQueryBody_local {index : Byte} {bytes : List Byte}
    (h : watchQueryBody index s = .ok (t, bytes)) : Local p s t := by
  obtain ⟨i, -, h⟩ := bind_eq_ok.1 h
  cases h
  exact .refl s

theorem channelEnableBody_local {channel : Byte} {bytes : List Byte}
    (h : channelEnableBody channel s = .ok (t, bytes)) : Local p s t := by
  obtain ⟨c, -, h⟩ := bind_eq_ok.1 h
  obtain ⟨_, hs, h⟩ := bind_eq_ok.1 h
  cases h
  exact setChannel_local (.enabled (beq_iff_eq.1 (require_eq_ok.1 hs)))

theorem channelDisableBody_local {channel purge : Byte} {bytes : List Byte}
    (h : channelDisableBody channel purge s = .ok (t, bytes)) : Local p s t := by
  obtain ⟨c, -, h⟩ := bind_eq_ok.1 h
  obtain ⟨purged, -, h⟩ := bind_eq_ok.1 h
  cases h
  cases purged with
  | false => exact disableChannel_local s c
  | true => exact purgeChannel_local s c

theorem channelReinstateBody_local {channel : Byte} {bytes : List Byte}
    (h : channelReinstateBody channel s = .ok (t, bytes)) : Local p s t := by
  obtain ⟨c, -, h⟩ := bind_eq_ok.1 h
  obtain ⟨_, hs, h⟩ := bind_eq_ok.1 h
  cases h
  exact setChannel_local (.reinstated (beq_iff_eq.1 (require_eq_ok.1 hs)))

theorem channelQueryBody_local {channel : Byte} {bytes : List Byte}
    (h : channelQueryBody channel s = .ok (t, bytes)) : Local p s t := by
  obtain ⟨c, -, h⟩ := bind_eq_ok.1 h
  cases h
  exact setChannel_local .queried

/-- An accepted TIMING_SET stores two values in their ranges (R112, R186). -/
theorem timingSetBody_ok {divider timeout : Half} {bytes : List Byte}
    (h : timingSetBody divider timeout s = .ok (t, bytes)) :
    t = { s with tickDivider := divider, responseTimeout := timeout } ∧ TimingInRange t := by
  obtain ⟨_, hv, h⟩ := bind_eq_ok.1 h
  cases h
  have hv := require_eq_ok.1 hv
  simp only [Bool.and_eq_true, bne_iff_ne, decide_eq_true_eq] at hv
  obtain ⟨⟨hd, hle⟩, ht⟩ := hv
  refine ⟨rfl, ?_, hle, ht⟩
  exact Nat.pos_of_ne_zero fun h0 => hd (BitVec.eq_of_toNat_eq h0)

theorem timingSetBody_moves {divider timeout : Half} {bytes : List Byte}
    (h : timingSetBody divider timeout s = .ok (t, bytes)) : Moves p s t := by
  obtain ⟨he, ht⟩ := timingSetBody_ok h
  subst he
  exact ⟨fun _ => .refl, fun _ => .refl, fun _ => ht⟩

theorem linkResumeBody_ok {bytes : List Byte} (h : linkResumeBody s = .ok (t, bytes)) :
    t = { s with link := .active } := by
  obtain ⟨-, -, h⟩ := bind_eq_ok.1 h
  cases h
  rfl

theorem deviceResetBody_ok {scope : Byte} {bytes : List Byte}
    (h : deviceResetBody scope s = .ok (t, bytes)) :
    ∃ sc, t = endDrain { s with device := .draining sc } := by
  obtain ⟨sc, -, h⟩ := bind_eq_ok.1 h
  cases h
  exact ⟨sc, rfl⟩

theorem deviceResetBody_moves {scope : Byte} {bytes : List Byte}
    (h : deviceResetBody scope s = .ok (t, bytes)) : Moves p s t := by
  obtain ⟨sc, rfl⟩ := deviceResetBody_ok h
  have hd : SameTables s { s with device := .draining sc } := ⟨rfl, rfl, rfl, rfl⟩
  exact hd.moves.trans (endDrain_moves _)

theorem riseSelect_local (s : State) : Local p s (riseSelect s) := by
  unfold riseSelect
  dsimp only
  split
  · exact (withManagement_local s _).trans (raise_local _ _)
  · exact withManagement_local s _

/-! ### What a command does -/

/-- The commands that reach neither the device state nor the transit path nor the downstream port, but
for the two definitions. -/
def calm : Instr → Bool
  | .holdoffExpiry _ | .claimDeadlineExpiry _ | .serviceDeadlineExpiry _ | .watchRelease _
  | .watchQuery _ | .channelEnable _ | .channelDisable _ _ | .channelDisablePurge _
  | .channelReinstate _ | .channelQuery _ | .faultMaskSet _ | .statusQuery | .faultCollect
  | .unknownCommand _ | .frameDiscard _ | .frameCutAfterExecution _ | .frameBegin _ => true
  | _ => false

theorem exec_calm {c : Instr} (hc : calm c = true) (h : exec c s = .next t) : Local p s t := by
  cases c with
  | holdoffExpiry c =>
    cases h
    split
    · exact (takeTickAt_local s _).trans (takeHoldoffExpiry_local _ c)
    · exact .refl s
  | claimDeadlineExpiry c =>
    cases h
    split
    · exact (takeTickAt_local s _).trans (takeClaimExpiry_local _ c _)
    · exact .refl s
  | serviceDeadlineExpiry c =>
    cases h
    split
    · exact (takeTickAt_local s _).trans (takeServiceExpiry_local _ c _)
    · exact .refl s
  | watchRelease i => cases h; exact executeCommand_local fun _ _ => watchReleaseBody_local
  | watchQuery i => cases h; exact executeCommand_local fun _ _ => watchQueryBody_local
  | channelEnable c => cases h; exact executeCommand_local fun _ _ => channelEnableBody_local
  | channelDisable c b => cases h; exact executeCommand_local fun _ _ => channelDisableBody_local
  | channelDisablePurge c => cases h; exact executeCommand_local fun _ _ => channelDisableBody_local
  | channelReinstate c => cases h; exact executeCommand_local fun _ _ => channelReinstateBody_local
  | channelQuery c => cases h; exact executeCommand_local fun _ _ => channelQueryBody_local
  | faultMaskSet m =>
    cases h
    refine executeCommand_local fun _ _ hb => ?_
    cases hb
    exact withFaultMask_local s _
  | statusQuery =>
    cases h
    refine executeCommand_local fun _ _ hb => ?_
    cases hb
    exact .refl s
  | faultCollect =>
    cases h
    refine executeCommand_local fun _ _ hb => ?_
    cases hb
    exact withFaults_local s _
  | unknownCommand code =>
    cases h
    split
    · exact withManagement_local s _
    · exact .refl s
  | frameDiscard bits => cases h; exact (withManagement_local s _).trans (riseSelect_local _)
  | frameCutAfterExecution bits => cases h; exact (withManagement_local s _).trans (riseSelect_local _)
  | frameBegin bits =>
    cases h
    split <;> exact withManagement_local s _
  | _ => cases hc

/-- Outside RESET, TICK lowers the timers, takes the expiries of the channels while RUNNING, and then that
of the response timer, where it is next and the port is ACTIVE. -/
theorem execTick_cases {order : List ChannelIndex} (h : execTick order s = .next t) :
    (s.device = .reset ∧ t = s) ∨
    (s.device ≠ .reset ∧ ∃ u, Local p (lowerTimers (advanceTimebase s)) u ∧
      (s.device ≠ .running → u = lowerTimers (advanceTimebase s)) ∧
      t = if awaitsTick s .port && expiresNext s.responseTimer && s.link == .active then
        takeResponseExpiry u else u) := by
  cases h
  by_cases hr : s.device = .reset
  · exact .inl ⟨hr, if_pos hr⟩
  refine .inr ⟨hr, if s.device = .running then
    ((expiryOrder order).filter fun c => awaitsTick s (.channel c)).foldl
      (fun t c => takeExpiries (s.channel c) t c) (lowerTimers (advanceTimebase s))
    else lowerTimers (advanceTimebase s), ?_, fun hn => if_neg hn, if_neg hr⟩
  split
  · exact .foldl (fun _ _ => takeExpiries_local _ _ _) _ _
  · exact .refl _

theorem execTick_moves {order : List ChannelIndex} (h : execTick order s = .next t) : Moves p s t := by
  rcases execTick_cases (p := p) h with ⟨-, rfl⟩ | ⟨-, u, hu, -, rfl⟩
  · exact .refl t
  have ha : SameTables s (advanceTimebase s) := ⟨rfl, rfl, rfl, rfl⟩
  have hm : Moves p s u := (ha.moves.trans (lowerTimers_moves _)).trans hu.moves
  split
  · exact hm.trans (takeResponseExpiry_moves _)
  · exact hm

/-- Every command but the two definitions moves each entry and each channel as `EntryMove` and
`ChannelMove` list it, and arms an entry only while the port is ACTIVE. -/
theorem exec_moves {c : Instr} (hw : ∀ a, c ≠ .watchDefine a) (hc : ∀ a, c ≠ .channelDefine a)
    (h : exec c s = .next t) : Moves (s.link = .active) s t := by
  by_cases hcalm : calm c = true
  · exact (exec_calm hcalm h).moves
  cases c with
  | watchDefine a => exact absurd rfl (hw a)
  | channelDefine a => exact absurd rfl (hc a)
  | resetNFall => cases h; exact fresh_moves rfl rfl rfl rfl
  | resetNRise =>
    cases h
    split
    · exact SameTables.moves ⟨rfl, rfl, rfl, rfl⟩
    · exact .refl s
  | tick order => exact execTick_moves h
  | responseTimerExpiry =>
    cases h
    split
    · exact (takeTickAt_local s _).moves.trans (takeResponseExpiry_moves _)
    · exact .refl s
  | requestAccept q b => cases h; exact (offerRequest_moves s q).trans (coverTick_local b s _).moves
  | claim n c len b => cases h; exact (offerAccess_moves s c n 0 _).trans (coverTick_local b s _).moves
  | collect n c => cases h; exact offerAccess_moves s c n 2 _
  | record n c b => cases h; exact (offerAccess_moves s c n 8 _).trans (coverTick_local b s _).moves
  | returnService n c count b =>
    cases h
    exact (offerAccess_moves s c n 4 _).trans (coverTick_local b s _).moves
  | refusedWindowAccess n c w x => cases h; exact offerAccess_moves s c n _ x
  | primingIssue =>
    cases h
    split
    · split
      · exact SameTables.moves ⟨rfl, rfl, rfl, rfl⟩
      · exact .refl s
    · exact .refl s
  | downstreamSend =>
    cases h
    split
    · split
      · exact SameTables.moves ⟨rfl, rfl, rfl, rfl⟩
      · exact .refl s
    · exact .refl s
  | downstreamResponse r b =>
    cases h
    refine Moves.trans ?_ (coverTick_local b s _).moves
    by_cases hr : s.device = .reset
    · rw [if_pos hr]
      exact .refl s
    rw [if_neg hr]
    cases hl : s.link with
    | stalled => exact (raise_local s .late).moves
    | active =>
      rw [if_neg (by decide)]
      exact (checkOrder_moves rfl s r).trans (settle_moves _)
  | slotLeave =>
    cases h
    split
    · refine Moves.trans ?_ (settle_moves _)
      exact SameTables.moves ⟨rfl, rfl, rfl, rfl⟩
    · exact settle_moves s
  | scopeFullApply =>
    cases h
    split
    · exact applyScope_moves .full s
    · exact .refl s
  | scopeKeepConfigApply =>
    cases h
    split
    · exact applyKeepConfig_moves s
    · exact .refl s
  | timingSet d t => cases h; exact executeCommand_moves fun _ _ => timingSetBody_moves
  | linkResume =>
    cases h
    refine executeCommand_moves fun _ _ hb => ?_
    rw [linkResumeBody_ok hb]
    exact SameTables.moves ⟨rfl, rfl, rfl, rfl⟩
  | deviceReset sc => cases h; exact executeCommand_moves fun _ _ => deviceResetBody_moves
  | _ => exact absurd rfl hcalm

/-! ### From the moves to the laws -/

/-- What every act of a chain keeps, the chain keeps. -/
theorem keeps_of_chain {α : Type} {r : α → α → Prop} {P : α → Prop}
    (h : ∀ a b, r a b → P a → P b) {a b : α} (hab : Relation.ReflTransGen r a b) (ha : P a) : P b := by
  induction hab with
  | refl => exact ha
  | tail _ hbc ih => exact h _ _ hbc ih

/-- What every command keeps, whatever commands wait, every step keeps. -/
theorem step_keeps {P : State → Prop} (hq : ∀ s l, P s → P { s with pending := l })
    (h : ∀ c s t, P s → exec c s = .next t → P t) (s t : State) (hs : P s) (hst : step s = .next t) :
    P t := by
  unfold step at hst
  split at hst
  · cases hst
    exact hs
  next c rest _ => exact h c _ t (hq s rest hs) hst

/-! ### The two definitions -/

theorem watchValues_ok {a : WatchDefineArgs} {m : Mode} {c : ChannelIndex} {b : Bool}
    (h : watchValues a = .ok (m, c, b)) :
    a.address.toNat % 4 = 0 ∧ a.enableMask ≠ 0 ∧ (m = .count → a.threshold ≠ 0) := by
  obtain ⟨m', -, h⟩ := bind_eq_ok.1 h
  obtain ⟨c', -, h⟩ := bind_eq_ok.1 h
  obtain ⟨b', -, h⟩ := bind_eq_ok.1 h
  obtain ⟨_, hv, h⟩ := bind_eq_ok.1 h
  obtain ⟨_, ht, h⟩ := bind_eq_ok.1 h
  cases h
  have hv := require_eq_ok.1 hv
  have ht := require_eq_ok.1 ht
  simp only [Bool.and_eq_true, beq_iff_eq, bne_iff_ne, Bool.or_eq_true] at hv ht
  exact ⟨hv.1, hv.2, fun hm => ht.resolve_left fun hne => hne hm⟩

/-- WATCH_DEFINE changes nothing but the port, or defines the entry it names, whose address no other
entry and no window holds (R178). -/
theorem exec_watchDefine_effect {a : WatchDefineArgs} (h : exec (.watchDefine a) s = .next t) :
    (∃ m, t = { s with management := m }) ∨
    ∃ i m c b mg, watchValues a = .ok (m, c, b) ∧ heldElsewhere s i a.address = false ∧
      inAnyWindow s a.address = false ∧
      t = { defineEntry s i (definedEntry (s.entry i) a m c b) with management := mg } := by
  cases h
  rcases executeCommand_effect .watchDefine (watchDefineBytes a) (watchDefineBody a) s with
    h | ⟨t, bytes, mg, hb, -, h⟩
  · exact .inl h
  · obtain ⟨i, -, hb⟩ := bind_eq_ok.1 hb
    obtain ⟨⟨m, c, b⟩, hv, hb⟩ := bind_eq_ok.1 hb
    obtain ⟨_, hh, hb⟩ := bind_eq_ok.1 hb
    obtain ⟨_, hw, hb⟩ := bind_eq_ok.1 hb
    cases hb
    have hh := require_eq_ok.1 hh
    have hw := require_eq_ok.1 hw
    exact .inr ⟨i, m, c, b, mg, hv, by simpa using hh, by simpa using hw, h⟩

/-- CHANNEL_DEFINE changes nothing but the port, or defines the DISABLED channel it names, whose window
keeps the law of watched addresses (R181). -/
theorem exec_channelDefine_effect {a : ChannelDefineArgs} (h : exec (.channelDefine a) s = .next t) :
    (∃ m, t = { s with management := m }) ∨
    ∃ c cfg mg, configOf c a = .ok cfg ∧ (s.channel c).state = .disabled ∧ clashes s c cfg = false ∧
      t = { defineChannel s c cfg with management := mg } := by
  cases h
  rcases executeCommand_effect .channelDefine (channelDefineBytes a) (channelDefineBody a) s with
    h | ⟨t, bytes, mg, hb, -, h⟩
  · exact .inl h
  · obtain ⟨c, -, hb⟩ := bind_eq_ok.1 hb
    obtain ⟨cfg, hcfg, hb⟩ := bind_eq_ok.1 hb
    obtain ⟨_, hs, hb⟩ := bind_eq_ok.1 hb
    obtain ⟨_, hw, hb⟩ := bind_eq_ok.1 hb
    cases hb
    have hs := require_eq_ok.1 hs
    have hw := require_eq_ok.1 hw
    exact .inr ⟨c, cfg, mg, hcfg, beq_iff_eq.1 hs, by simpa using hw, h⟩

theorem defineEntry_entry (s : State) (i j : EntryIndex) (e : Entry) :
    (defineEntry s i e).entry j = if i = j then e else s.entry j := by
  unfold defineEntry
  rw [enqueuePriming_eq]
  exact entry_setEntry (leavePendingSet s i) i j e

theorem defineEntry_channels (s : State) (i : EntryIndex) (e : Entry) :
    (defineEntry s i e).channels = (leavePendingSet s i).channels := by
  unfold defineEntry
  rw [enqueuePriming_eq]
  rfl

/-- The entry's old channel loses the entry from its pending set, and no channel anything else (R9). -/
theorem defineEntry_channel (s : State) (i : EntryIndex) (e : Entry) (c : ChannelIndex) :
    ∃ l, (defineEntry s i e).channel c = { s.channel c with pendingSet := l } := by
  rw [channel_congr (defineEntry_channels s i e), leavePendingSet, channel_setChannel]
  split
  next h => exact ⟨_, by rw [h]⟩
  next => exact ⟨_, rfl⟩

theorem defineChannel_channel (s : State) (c d : ChannelIndex) (cfg : ChannelConfig) :
    (defineChannel s c cfg).channel d =
      if c = d then restartAccounting { s.channel c with handed := [], queued := [] } cfg
      else s.channel d := by
  have hf : ∀ e, (freeQueue s c).channel e =
      if c = e then { s.channel c with handed := [], queued := [] } else s.channel e :=
    fun e => channel_setChannel s c e _
  unfold defineChannel
  rw [channel_setChannel, hf, hf]
  split <;> simp

/-- A law of the tables that every chain of moves keeps, and both definitions, every step keeps. -/
theorem step_keeps_tables {P : State → Prop}
    (moved : ∀ {p : Prop} {s t : State}, Moves p s t → P s → P t)
    (watch : ∀ {s : State} {i : EntryIndex} {a : WatchDefineArgs} {m : Mode} {c : ChannelIndex}
      {b : Bool}, watchValues a = .ok (m, c, b) → heldElsewhere s i a.address = false →
      inAnyWindow s a.address = false → P s → P (defineEntry s i (definedEntry (s.entry i) a m c b)))
    (channel : ∀ {s : State} {c : ChannelIndex} {a : ChannelDefineArgs} {cfg : ChannelConfig},
      configOf c a = .ok cfg → clashes s c cfg = false → P s → P (defineChannel s c cfg))
    (s t : State) (hs : P s) (hst : step s = .next t) : P t := by
  have port : ∀ u m, P u → P { u with management := m } :=
    fun u m => moved (p := False) (withManagement_local u m).moves
  have queue : ∀ u l, P u → P { u with pending := l } :=
    fun u l => moved (p := False) (SameTables.moves ⟨rfl, rfl, rfl, rfl⟩)
  refine step_keeps queue (fun c s t hs h => ?_) s t hs hst
  by_cases hw : ∃ a, c = .watchDefine a
  · obtain ⟨a, rfl⟩ := hw
    rcases exec_watchDefine_effect h with ⟨m, rfl⟩ | ⟨i, m, c, b, mg, hv, hh, hw, rfl⟩
    · exact port s m hs
    · exact port _ mg (watch hv hh hw hs)
  by_cases hc : ∃ a, c = .channelDefine a
  · obtain ⟨a, rfl⟩ := hc
    rcases exec_channelDefine_effect h with ⟨m, rfl⟩ | ⟨c, cfg, mg, hcfg, -, hw, rfl⟩
    · exact port s m hs
    · exact port _ mg (channel hcfg hw hs)
  exact moved (exec_moves (fun a e => hw ⟨a, e⟩) (fun a e => hc ⟨a, e⟩) h) hs

/-! ### The law of service (R79, R99, R113) -/

/-- A channel with nothing HANDED and no timer running. -/
structure Quiet (k : Channel) : Prop where
  handed : k.handed = []
  holdoff : k.holdoffTimer = .stopped
  claim : k.claimTimer = .stopped
  service : k.serviceTimer = .stopped

/-- A quiet channel fits in any state. -/
theorem Quiet.fits {k : Channel} (h : Quiet k) : channelFits k := by
  obtain ⟨hh, ho, hc, hs⟩ := h
  simp [channelFits, hh, ho, hc, hs]

theorem quiet_of_fits {k : Channel} (h : channelFits k)
    (hst : k.state ≠ .holdoff ∧ k.state ≠ .alerting ∧ k.state ≠ .inService) : Quiet k := by
  obtain ⟨hh, ho, hc, hs, -⟩ := h
  obtain ⟨no, nc, ns⟩ := hst
  exact ⟨not_not.1 (mt hh ns), not_not.1 (mt ho no), not_not.1 (mt hc nc), not_not.1 (mt hs ns)⟩

/-- Out of service nothing is HANDED and the service timer is stopped. -/
theorem outOfService_of_fits {k : Channel} (h : channelFits k) (hst : k.state ≠ .inService) :
    k.handed = [] ∧ k.serviceTimer = .stopped :=
  ⟨not_not.1 (mt h.1 hst), not_not.1 (mt h.2.2.2.1 hst)⟩

theorem enterAlerting_fits {k : Channel} (h : k.handed = [] ∧ k.serviceTimer = .stopped) :
    channelFits (enterAlerting k) := by
  obtain ⟨hh, hs⟩ := h
  refine ⟨fun hne => absurd hh hne, fun hne => absurd rfl hne, fun _ => rfl, fun hne => absurd hs hne,
    ?_, startTimer_ticksLeft _, ?_⟩
  · simp [enterAlerting]
  · simp [hs]

theorem leaveIdle_fits {k : Channel} (h : Quiet k) : channelFits (leaveIdle k) := by
  obtain ⟨hh, ho, hc, hs⟩ := h
  unfold leaveIdle
  split
  · exact enterAlerting_fits ⟨hh, hs⟩
  · exact ⟨fun hne => absurd hh hne, fun _ => rfl, fun hne => absurd hc hne, fun hne => absurd hs hne,
      startTimer_ticksLeft _, by simp [hc], by simp [hs]⟩

theorem deliver_fits {k : Channel} (h : channelFits k) : channelFits (deliver k) := by
  unfold deliver
  split
  next hst => exact leaveIdle_fits (quiet_of_fits h (by simp [hst]))
  next hst =>
    split
    · exact enterAlerting_fits (outOfService_of_fits h (by simp [hst]))
    · exact h
  next => exact h

theorem Quiet.moveTo {k : Channel} (h : Quiet k) (st : ChannelState) : Quiet (k.moveTo st) :=
  ⟨h.handed, h.holdoff, h.claim, h.service⟩

theorem settleContent_fits {k : Channel} (h : Quiet k) : channelFits (settleContent k) := by
  unfold settleContent
  split
  · exact enterAlerting_fits ⟨h.handed, h.service⟩
  · exact (h.moveTo .idle).fits

theorem enable_fits {k : Channel} (h : Quiet k) : channelFits (enable k) := by
  unfold enable
  dsimp only
  split
  · exact leaveIdle_fits (h.moveTo .idle)
  · exact (h.moveTo .idle).fits

theorem claimChannel_fits {k : Channel} (h : channelFits k) : channelFits (claimChannel k) := by
  unfold claimChannel
  split
  · exact h
  · exact ⟨fun _ => rfl, fun hne => absurd rfl hne, fun hne => absurd rfl hne, fun _ => rfl,
      by simp, by simp, startTimer_ticksLeft _⟩

theorem returnChannel_fits {k : Channel} (h : channelFits k) (hst : k.state = .inService) (n : Nat) :
    channelFits (returnChannel k n) := by
  obtain ⟨-, ho, hc, -⟩ := h
  have hq : k.holdoffTimer = .stopped ∧ k.claimTimer = .stopped :=
    ⟨not_not.1 (mt ho (by simp [hst])), not_not.1 (mt hc (by simp [hst]))⟩
  exact settleContent_fits ⟨rfl, hq.1, hq.2, rfl⟩

theorem lowerChannel_fits {k : Channel} (h : channelFits k) : channelFits (lowerChannel k) := by
  obtain ⟨hh, ho, hc, hs, -⟩ := h
  exact ⟨hh, fun hne => ho (lowerTimer_running hne), fun hne => hc (lowerTimer_running hne),
    fun hne => hs (lowerTimer_running hne), lowerTimer_ticksLeft _, lowerTimer_ticksLeft _,
    lowerTimer_ticksLeft _⟩

theorem ChannelMove.fits {k k' : Channel} (h : ChannelMove k k') (hk : channelFits k) :
    channelFits k' := by
  cases h with
  | pendingSet l => exact hk
  | appended _ _ r => exact hk
  | lost => exact hk
  | delivered => exact deliver_fits hk
  | claimed he => exact claimChannel_fits hk
  | handedOut hst r l hq =>
    obtain ⟨-, ho, hc, -, lo, lc, -⟩ := hk
    exact ⟨fun _ => hst, ho, hc, fun _ => hst, lo, lc, startTimer_ticksLeft _⟩
  | returned hst n => exact returnChannel_fits hk hst n
  | refused => exact hk
  | ticked => exact lowerChannel_fits hk
  | heldOff hst => exact enterAlerting_fits (outOfService_of_fits hk (by simp [hst]))
  | claimLapsed hst =>
    have hh := (outOfService_of_fits hk (by simp [hst])).1
    exact Quiet.fits ⟨hh, rfl, rfl, rfl⟩
  | serviceLapsed hst => exact Quiet.fits ⟨rfl, rfl, rfl, rfl⟩
  | enabled hst => exact enable_fits (quiet_of_fits hk (by simp [hst]))
  | disabled => exact Quiet.fits ⟨rfl, rfl, rfl, rfl⟩
  | freed =>
    obtain ⟨-, rest⟩ := hk
    exact ⟨fun hne => absurd rfl hne, rest⟩
  | reinstated hst => exact settleContent_fits (quiet_of_fits hk (by simp [hst]))
  | queried => exact hk
  | kept => exact Quiet.fits ⟨rfl, rfl, rfl, rfl⟩
  | fresh => exact Quiet.fits ⟨rfl, rfl, rfl, rfl⟩

theorem step_keeps_serviceLaw (s t : State) : ServiceLaw s → step s = .next t → ServiceLaw t := by
  refine step_keeps_tables (fun hm hs d => ?_) (fun _ _ _ hs d => ?_) (fun _ _ hs d => ?_) s t
  · exact keeps_of_chain (fun _ _ h => h.fits) (hm.channels d) (hs d)
  · obtain ⟨l, hd⟩ := defineEntry_channel _ _ _ d
    rw [hd]
    exact hs d
  · rw [defineChannel_channel]
    split
    next h =>
      obtain ⟨-, rest⟩ := hs d
      rw [h]
      exact ⟨fun hne => absurd rfl hne, rest⟩
    next => exact hs d

/-! ### The ranges of the configuration (R78, R112) -/

theorem leaveIdle_config (k : Channel) : (leaveIdle k).config = k.config := by
  unfold leaveIdle
  split <;> rfl

theorem settleContent_config (k : Channel) : (settleContent k).config = k.config := by
  unfold settleContent
  split <;> rfl

theorem enable_config (k : Channel) : (enable k).config = k.config := by
  unfold enable
  dsimp only
  split
  · exact leaveIdle_config _
  · rfl

theorem claimChannel_config (k : Channel) : (claimChannel k).config = k.config := by
  unfold claimChannel
  split <;> rfl

/-- No move writes a configuration, but for the power-on one (R78, R106). -/
theorem ChannelMove.config {k k' : Channel} (h : ChannelMove k k') :
    k'.config = k.config ∨ k'.config = .powerOn := by
  cases h with
  | delivered => exact .inl (deliver_config k)
  | claimed _ => exact .inl (claimChannel_config k)
  | returned _ n => exact .inl (settleContent_config _)
  | enabled _ => exact .inl (enable_config k)
  | reinstated _ => exact .inl (settleContent_config k)
  | fresh => exact .inr rfl
  | _ => exact .inl rfl

theorem configInRange_powerOn (c : ChannelIndex) : configInRange c .powerOn := by
  refine ⟨rfl, ?_, ?_, ?_, ?_, ?_⟩ <;>
    simp [ChannelConfig.powerOn, Config.defaultQuota, Config.defaultWatermark]

theorem configOf_inRange {c : ChannelIndex} {a : ChannelDefineArgs} {cfg : ChannelConfig}
    (h : configOf c a = .ok cfg) : configInRange c cfg := by
  obtain ⟨present, -, h⟩ := bind_eq_ok.1 h
  obtain ⟨_, hb, h⟩ := bind_eq_ok.1 h
  obtain ⟨_, hq, h⟩ := bind_eq_ok.1 h
  obtain ⟨_, hw, h⟩ := bind_eq_ok.1 h
  obtain ⟨fallback, hf, h⟩ := bind_eq_ok.1 h
  cases h
  have hb := require_eq_ok.1 hb
  have hq := require_eq_ok.1 hq
  have hw := require_eq_ok.1 hw
  have hf := orRefuse_eq_ok.1 hf
  simp only [Bool.and_eq_true, bne_iff_ne, decide_eq_true_eq] at hq hw
  have pos : ∀ v : Byte, v ≠ 0 → 1 ≤ v.toNat :=
    fun v hv => Nat.pos_of_ne_zero fun h0 => hv (BitVec.eq_of_toNat_eq h0)
  refine ⟨?_, pos _ hq.1, hq.2, pos _ hw.1, hw.2, ?_⟩
  · cases present with
    | false => rfl
    | true => simpa [Config.windowBytes] using hb
  · rintro rfl
    unfold fallbackOf at hf
    split at hf
    · cases hf
    · split at hf
      · split at hf
        · cases hf
        next hne => cases hf; exact hne rfl
      · cases hf

theorem defineEntry_timing (s : State) (i : EntryIndex) (e : Entry) :
    (defineEntry s i e).tickDivider = s.tickDivider ∧
      (defineEntry s i e).responseTimeout = s.responseTimeout := by
  unfold defineEntry
  rw [enqueuePriming_eq]
  exact ⟨rfl, rfl⟩

theorem step_keeps_configInRange (s t : State) :
    ConfigInRange s → step s = .next t → ConfigInRange t := by
  refine step_keeps_tables (fun hm hs => ⟨fun d => ?_, hm.timing hs.2⟩)
    (fun _ _ _ hs => ⟨fun d => ?_, ?_⟩) (fun hcfg _ hs => ⟨fun d => ?_, hs.2⟩) s t
  · refine keeps_of_chain (P := fun k => configInRange d k.config) (fun k k' h hk => ?_)
      (hm.channels d) (hs.1 d)
    rcases h.config with hc | hc <;> rw [hc]
    · exact hk
    · exact configInRange_powerOn d
  · obtain ⟨l, hd⟩ := defineEntry_channel _ _ _ d
    rw [hd]
    exact hs.1 d
  · obtain ⟨hd, ht⟩ := defineEntry_timing _ _ _
    exact TimingInRange.congr hd ht hs.2
  · rw [defineChannel_channel]
    split
    next h => exact h ▸ configOf_inRange hcfg
    next => exact hs.1 d

/-! ### The fields that an entry's state and mode fix (R2, R3, R10, R30, R49) -/

theorem entryShape_powerOn (g : Byte) : entryShape { Entry.powerOn with generation := g } := by
  refine ⟨fun _ => rfl, ?_, ?_, ?_, ?_⟩ <;> simp [Entry.powerOn]

/-- A FREE entry with its pending mask cleared is the same entry. -/
theorem entryShape_collected {e : Entry} (h : entryShape e) :
    entryShape { e with pendingMask := 0 } := by
  obtain ⟨hf, hp, hm, hc, ha⟩ := h
  refine ⟨fun hs => ?_, fun hs => ?_, hm, hc, ha⟩
  · have := hf hs
    rw [this]
    rfl
  · obtain ⟨h1, -, h3⟩ := hp hs
    exact ⟨h1, rfl, h3⟩

theorem entryShape_evaluated {e : Entry} (h : entryShape e)
    (hw : e.state = .armed ∨ e.state = .repriming) (shadow mask : Word) {count : Half}
    (hn : count = e.count ∨ e.mode = .count ∧ (count = 0 ∨ count.toNat < e.threshold.toNat)) :
    entryShape { e with shadow := shadow, pendingMask := mask, count := count } := by
  obtain ⟨-, -, hm, hc, ha⟩ := h
  have hnf : e.state ≠ .free ∧ e.state ≠ .priming := by
    rcases hw with hw | hw <;> simp [hw]
  refine ⟨fun hs => absurd hs hnf.1, fun hs => absurd hs hnf.2, fun hne => ?_, fun hmode => ?_, ha⟩
  · rcases hn with rfl | ⟨hmode, -⟩
    · exact hm hne
    · exact absurd hmode hne
  · have := hc hmode
    rcases hn with rfl | ⟨-, rfl | hlt⟩
    · exact this
    · exact Nat.zero_lt_of_lt this
    · exact hlt

theorem keepEntry_shaped {e : Entry} (h : entryShape e) : entryShape (keepEntry e) := by
  unfold keepEntry
  split
  · exact h
  next hs =>
    obtain ⟨-, -, hm, hc, ha⟩ := h
    exact ⟨by simp, fun _ => ⟨rfl, rfl, rfl⟩, fun hne => ⟨(hm hne).1, rfl⟩,
      fun hmode => Nat.zero_lt_of_lt (hc hmode), fun _ => ha hs⟩

theorem EntryMove.shaped {e e' : Entry} (h : EntryMove p e e') (he : entryShape e) : entryShape e' := by
  have ⟨_, _, hm, hc, ha⟩ := he
  cases h with
  | evaluated shadow mask count hw hn => exact entryShape_evaluated he hw shadow mask hn
  | collected => exact entryShape_collected he
  | reprimed hw => exact ⟨by simp, by simp, hm, hc, fun _ => ha (by simp [hw])⟩
  | primed _ hw shadow => exact ⟨by simp, by simp, hm, hc, fun _ => ha (by simp [hw])⟩
  | rearmed _ hw => exact ⟨by simp, by simp, hm, hc, fun _ => ha (by simp [hw])⟩
  | released => exact entryShape_powerOn _
  | kept => exact keepEntry_shaped he
  | fresh => exact entryShape_powerOn 0

theorem definedEntry_shaped {a : WatchDefineArgs} {m : Mode} {c : ChannelIndex} {b : Bool}
    (h : watchValues a = .ok (m, c, b)) (old : Entry) : entryShape (definedEntry old a m c b) := by
  obtain ⟨hal, hen, ht⟩ := watchValues_ok h
  refine ⟨by simp [definedEntry], fun _ => ⟨rfl, rfl, rfl⟩, fun hne => ⟨if_neg hne, rfl⟩, fun hm => ?_,
    fun _ => ⟨hal, hen⟩⟩
  have : (definedEntry old a m c b).threshold = a.threshold := if_pos hm
  rw [this]
  exact Nat.pos_of_ne_zero fun h0 => ht hm (BitVec.eq_of_toNat_eq h0)

theorem step_keeps_entriesShaped (s t : State) :
    EntriesShaped s → step s = .next t → EntriesShaped t := by
  refine step_keeps_tables (fun hm hs i => ?_) (fun hv _ _ hs j => ?_) (fun _ _ hs => hs) s t
  · exact keeps_of_chain (fun _ _ h => h.shaped) (hm.entries i) (hs i)
  · rw [defineEntry_entry]
    split
    · exact definedEntry_shaped hv _
    · exact hs j

/-! ### The law of watched addresses (R8) -/

/-- A move defines no entry: an entry that is not FREE behind it was not FREE before, at the same
address. -/
theorem EntryMove.address {e e' : Entry} (h : EntryMove p e e') (he : e'.state ≠ .free) :
    e.state ≠ .free ∧ e'.address = e.address := by
  cases h with
  | evaluated => exact ⟨he, rfl⟩
  | collected => exact ⟨he, rfl⟩
  | reprimed hw => exact ⟨by simp [hw], rfl⟩
  | primed _ hw => exact ⟨by simp [hw], rfl⟩
  | rearmed _ hw => exact ⟨by simp [hw], rfl⟩
  | released => exact absurd rfl he
  | kept =>
    unfold keepEntry at he ⊢
    split at he
    · exact absurd ‹_› he
    next hs => exact ⟨hs, by rw [if_neg hs]⟩
  | fresh => exact absurd rfl he

/-- Where no entry takes an address and no channel a window, the law of watched addresses is kept. -/
theorem watchedAddresses_of_less
    (he : ∀ i, (t.entry i).state ≠ .free →
      (s.entry i).state ≠ .free ∧ (t.entry i).address = (s.entry i).address)
    (hc : ∀ c, (t.channel c).config.windowBase = none ∨
      (t.channel c).config.windowBase = (s.channel c).config.windowBase)
    (hs : WatchedAddresses s) : WatchedAddresses t := by
  obtain ⟨distinct, outside, apart⟩ := hs
  refine ⟨fun i j hij hi hj => ?_, fun i c hi => ?_, fun c d hcd => ?_⟩
  · obtain ⟨hi, hai⟩ := he i hi
    obtain ⟨hj, haj⟩ := he j hj
    rw [hai, haj]
    exact distinct i j hij hi hj
  · obtain ⟨hi, hai⟩ := he i hi
    have := outside i c hi
    rw [hai]
    unfold channelCovers at this ⊢
    rcases hc c with h | h <;> rw [h]
    exact this
  · have := apart c d hcd
    rcases hc c with h | h <;> rcases hc d with h' | h' <;> rw [h, h']
    · rfl
    · rfl
    · cases (s.channel c).config.windowBase <;> rfl
    · exact this

theorem Moves.watchedAddresses (hm : Moves p s t) (hs : WatchedAddresses s) : WatchedAddresses t := by
  refine watchedAddresses_of_less (fun i => ?_) (fun c => ?_) hs
  · refine keeps_of_chain (P := fun e => e.state ≠ .free →
      (s.entry i).state ≠ .free ∧ e.address = (s.entry i).address) (fun e e' h ih he => ?_)
      (hm.entries i) (fun h => ⟨h, rfl⟩)
    obtain ⟨hf, ha⟩ := h.address he
    rw [ha]
    exact ih hf
  · refine keeps_of_chain (P := fun k => k.config.windowBase = none ∨
      k.config.windowBase = (s.channel c).config.windowBase) (fun k k' h ih => ?_)
      (hm.channels c) (.inr rfl)
    rcases h.config with hc | hc <;> rw [hc]
    · exact ih
    · exact .inl rfl

theorem windowsApart_comm (a b : Option Word) : windowsApart a b = windowsApart b a := by
  cases a <;> cases b <;> simp [windowsApart, windowsMeet_comm]

theorem channelCovers_outside {a : Word} (h : inAnyWindow s a = false) (c : ChannelIndex) :
    channelCovers (s.channel c) a = false := by
  unfold inAnyWindow at h
  rw [List.any_eq_false] at h
  simpa using h c (List.mem_finRange c)

theorem defineEntry_watchedAddresses {i : EntryIndex} {e : Entry}
    (hh : heldElsewhere s i e.address = false) (hw : inAnyWindow s e.address = false)
    (hs : WatchedAddresses s) : WatchedAddresses (defineEntry s i e) := by
  obtain ⟨distinct, outside, apart⟩ := hs
  have held : ∀ j, j ≠ i → (s.entry j).state ≠ .free → (s.entry j).address ≠ e.address := by
    intro j hj hf ha
    rw [Bool.eq_false_iff, ne_eq, heldElsewhere_iff] at hh
    exact hh ⟨j, hj, hf, ha⟩
  have covers : ∀ c a,
      channelCovers ((defineEntry s i e).channel c) a = channelCovers (s.channel c) a := by
    intro c a
    obtain ⟨l, hc⟩ := defineEntry_channel s i e c
    rw [hc]
    rfl
  refine ⟨fun j k hjk => ?_, fun j c => ?_, fun c d hcd => ?_⟩
  · rw [defineEntry_entry, defineEntry_entry]
    by_cases hj : i = j <;> by_cases hk : i = k
    · exact absurd (hj.symm.trans hk) hjk
    · rw [if_pos hj, if_neg hk]
      exact fun _ hf ha => held k (Ne.symm hk) hf ha.symm
    · rw [if_neg hj, if_pos hk]
      exact fun hf _ ha => held j (Ne.symm hj) hf ha
    · rw [if_neg hj, if_neg hk]
      exact distinct j k hjk
  · rw [defineEntry_entry, covers]
    split
    · exact fun _ => channelCovers_outside hw c
    · exact outside j c
  · obtain ⟨_, hc⟩ := defineEntry_channel s i e c
    obtain ⟨_, hd⟩ := defineEntry_channel s i e d
    rw [hc, hd]
    exact apart c d hcd

theorem defineChannel_watchedAddresses {c : ChannelIndex} {cfg : ChannelConfig}
    (hw : clashes s c cfg = false) (hs : WatchedAddresses s) :
    WatchedAddresses (defineChannel s c cfg) := by
  obtain ⟨distinct, outside, apart⟩ := hs
  have config : ∀ d, ((defineChannel s c cfg).channel d).config.windowBase =
      if c = d then cfg.windowBase else (s.channel d).config.windowBase := by
    intro d
    rw [defineChannel_channel]
    split <;> rfl
  have clear : ∀ base, cfg.windowBase = some base →
      (∀ d, d ≠ c → windowsApart (some base) (s.channel d).config.windowBase = true) ∧
      ∀ i, (s.entry i).state ≠ .free → inWindow base (s.entry i).address = false := by
    intro base hb
    have hn : ¬ windowClashes s c base = true := by
      unfold clashes at hw
      rw [hb] at hw
      simpa using hw
    rw [windowClashes_iff, not_or] at hn
    refine ⟨fun d hd => ?_, fun i hi => ?_⟩
    · by_contra h
      exact hn.1 ⟨d, hd, by simpa using h⟩
    · exact decide_eq_false fun h => hn.2 ⟨i, hi, h⟩
  have apartNew : ∀ d, d ≠ c →
      windowsApart cfg.windowBase (s.channel d).config.windowBase = true := by
    intro d hd
    cases hb : cfg.windowBase with
    | none => rfl
    | some base => exact (clear base hb).1 d hd
  refine ⟨distinct, fun i d hi => ?_, fun d e hde => ?_⟩
  · unfold channelCovers
    rw [config]
    by_cases hd : c = d
    · rw [if_pos hd]
      cases hb : cfg.windowBase with
      | none => rfl
      | some base => exact (clear base hb).2 i hi
    · rw [if_neg hd]
      exact outside i d hi
  · rw [config, config]
    by_cases hd : c = d <;> by_cases he : c = e
    · exact absurd (hd.symm.trans he) hde
    · rw [if_pos hd, if_neg he]
      exact apartNew e (Ne.symm he)
    · rw [if_neg hd, if_pos he, windowsApart_comm]
      exact apartNew d (Ne.symm hd)
    · rw [if_neg hd, if_neg he]
      exact apart d e hde

theorem step_keeps_watchedAddresses (s t : State) :
    WatchedAddresses s → step s = .next t → WatchedAddresses t :=
  step_keeps_tables (fun hm => hm.watchedAddresses)
    (fun _ hh hw => defineEntry_watchedAddresses hh hw)
    (fun _ hw => defineChannel_watchedAddresses hw) s t

/-- Settles O60: each law by what the moves and the two definitions do to it. -/
theorem configurationLawsKept : Obligations.ConfigurationLawsKept :=
  ⟨step_keeps_watchedAddresses, step_keeps_configInRange, step_keeps_entriesShaped⟩

/-! ### Commands that leave the transit path as it is -/

theorem defineEntry_transit (s : State) (i : EntryIndex) (e : Entry) :
    SameTransit s (defineEntry s i e) := by
  unfold defineEntry
  rw [enqueuePriming_eq]
  exact ⟨rfl, rfl, rfl, rfl, rfl, rfl⟩

theorem defineChannel_transit (s : State) (c : ChannelIndex) (cfg : ChannelConfig) :
    SameTransit s (defineChannel s c cfg) := ⟨rfl, rfl, rfl, rfl, rfl, rfl⟩

theorem exec_watchDefine_transit {a : WatchDefineArgs} (h : exec (.watchDefine a) s = .next t) :
    SameTransit s t := by
  rcases exec_watchDefine_effect h with ⟨m, rfl⟩ | ⟨i, m, c, b, mg, -, -, -, rfl⟩
  · exact (withManagement_local (p := False) s m).transit
  · exact (defineEntry_transit s i _).trans (withManagement_local (p := False) _ mg).transit

theorem exec_channelDefine_transit {a : ChannelDefineArgs} (h : exec (.channelDefine a) s = .next t) :
    SameTransit s t := by
  rcases exec_channelDefine_effect h with ⟨m, rfl⟩ | ⟨c, cfg, mg, -, -, -, rfl⟩
  · exact (withManagement_local (p := False) s m).transit
  · exact (defineChannel_transit s c cfg).trans (withManagement_local (p := False) _ mg).transit

/-! ### The law of the response timer (R158, R161) -/

/-- The law reads the ring by its OUTSTANDING slots alone. -/
theorem responseTimerLaw_congr (h : ResponseTimerLaw s) (htime : t.responseTimeout = s.responseTimeout)
    (htimer : t.responseTimer = s.responseTimer)
    (hring : t.ring.any outstanding = s.ring.any outstanding) (hlink : t.link = s.link) :
    ResponseTimerLaw t := by
  unfold ResponseTimerLaw
  rw [htime, htimer, hring, hlink]
  exact h

theorem SameTransit.responseTimerLaw (h : SameTransit s t) (hs : ResponseTimerLaw s) :
    ResponseTimerLaw t :=
  responseTimerLaw_congr hs h.timeout h.timer (by rw [h.ring]) h.link

/-- With no slot OUTSTANDING and the timer stopped the law holds. -/
theorem responseTimerLaw_of_idle (htime : t.responseTimeout ≠ 0) (htimer : t.responseTimer = .stopped)
    (hring : t.ring.any outstanding = false) : ResponseTimerLaw t := by
  refine ⟨htime, by simp [htimer], ?_, fun _ => hring⟩
  simp [htimer, hring]

/-- With a slot OUTSTANDING, the timer running and the port ACTIVE the law holds. -/
theorem responseTimerLaw_of_running {n : Nat} (htime : t.responseTimeout ≠ 0)
    (htimer : t.responseTimer = .running n) (hn : n ≠ 0) (hring : t.ring.any outstanding = true)
    (hlink : t.link = .active) : ResponseTimerLaw t := by
  refine ⟨htime, by simpa [htimer] using hn, ?_, by simp [hlink]⟩
  simp [htimer, hring]

theorem startTimer_running {v : Half} (h : v ≠ 0) : ∃ n, startTimer v = .running n ∧ n ≠ 0 :=
  ⟨v.toNat, startTimer_pos h, fun h0 => h (BitVec.eq_of_toNat_eq h0)⟩

theorem allocate_responseTimerLaw {x : Slot} (hx : outstanding x = true → s.link = .active)
    (hs : ResponseTimerLaw s) : ResponseTimerLaw (allocate s x) := by
  cases ho : outstanding x with
  | false => exact responseTimerLaw_congr hs rfl (by simp [allocate, ho]) (by simp [allocate, ho]) rfl
  | true =>
    cases hr : s.ring.any outstanding with
    | true =>
      exact responseTimerLaw_congr hs rfl (by simp [allocate, hr]) (by simp [allocate, hr]) rfl
    | false =>
      obtain ⟨n, hn, hpos⟩ := startTimer_running hs.1
      refine responseTimerLaw_of_running hs.1 (n := n) ?_ hpos ?_ (hx ho)
      · simp [allocate, ho, hr, hn]
      · simp [allocate, ho]

theorem offerRequest_responseTimerLaw (q : Request) (hs : ResponseTimerLaw s) :
    ResponseTimerLaw (offerRequest s q) := by
  have answered : ∀ resp, outstanding (answeredSlot q resp) = true → s.link = .active :=
    fun _ h => by cases h
  rcases offerRequest_cases s q with h | ⟨-, resp, h⟩ | ⟨-, c, w, resp, h⟩ | ⟨-, hl, h⟩ <;> rw [h]
  · exact hs
  · exact allocate_responseTimerLaw (answered resp) hs
  · have ht := (takeAccess_local (p := False) s c w q).transit
    exact allocate_responseTimerLaw (fun h => by cases h) (ht.responseTimerLaw hs)
  · exact allocate_responseTimerLaw (fun _ => hl) hs

theorem offerAccess_responseTimerLaw (c : ChannelIndex) (n : Source) (w : Nat) (x : Payload)
    (hs : ResponseTimerLaw s) : ResponseTimerLaw (offerAccess s c n w x) := by
  rcases offerAccess_cases s c n w x with h | ⟨q, h⟩ <;> rw [h]
  · exact hs
  · exact offerRequest_responseTimerLaw q hs

theorem failOutstanding_responseTimerLaw (h : s.responseTimeout ≠ 0) :
    ResponseTimerLaw (failOutstanding s) := by
  refine responseTimerLaw_of_idle h rfl ?_
  simp [failOutstanding]

theorem stall_responseTimerLaw (h : s.responseTimeout ≠ 0) : ResponseTimerLaw (stall s) :=
  (stall_local (p := False) s).transit.responseTimerLaw (failOutstanding_responseTimerLaw h)

/-- COMPLETE priming slots are not OUTSTANDING. -/
theorem any_outstanding_dropWhile (l : List Slot) :
    (l.dropWhile silent).any outstanding = l.any outstanding := by
  induction l with
  | nil => rfl
  | cons x l ih =>
    rw [List.dropWhile_cons]
    split
    next h =>
      have hx : outstanding x = false := by cases x <;> simp_all [silent, outstanding]
      rw [ih, List.any_cons, hx, Bool.false_or]
    next => rfl

theorem leaveSilently_responseTimerLaw (hs : ResponseTimerLaw s) : ResponseTimerLaw (leaveSilently s) :=
  responseTimerLaw_congr hs rfl rfl (any_outstanding_dropWhile _) rfl

theorem applyScope_responseTimerLaw (sc : Scope) (h : s.responseTimeout ≠ 0) :
    ResponseTimerLaw (applyScope sc s) := by
  cases sc with
  | full => exact responseTimerLaw_of_idle (show Config.defaultTimeout ≠ 0 by decide) rfl rfl
  | keepConfig => exact responseTimerLaw_of_idle h rfl rfl

theorem endDrain_responseTimerLaw (hs : ResponseTimerLaw s) : ResponseTimerLaw (endDrain s) := by
  unfold endDrain
  split
  · split
    · exact applyScope_responseTimerLaw _ hs.1
    · exact hs
  · exact hs

theorem settle_responseTimerLaw (hs : ResponseTimerLaw s) : ResponseTimerLaw (settle s) :=
  endDrain_responseTimerLaw (leaveSilently_responseTimerLaw hs)

theorem takeResponseExpiry_responseTimerLaw (h : s.responseTimeout ≠ 0) :
    ResponseTimerLaw (takeResponseExpiry s) :=
  settle_responseTimerLaw (stall_responseTimerLaw (by exact h))

/-- A valid response restarts the timer where a slot is left OUTSTANDING, and stops it otherwise. -/
theorem timerAfter_responseTimerLaw (ring : List Slot) (h : s.responseTimeout ≠ 0)
    (hl : s.link = .active) :
    ResponseTimerLaw { s with ring := ring, responseTimer := timerAfter s ring } := by
  cases hr : ring.any outstanding with
  | false => exact responseTimerLaw_of_idle h (by simp [timerAfter, hr]) hr
  | true =>
    obtain ⟨n, hn, hpos⟩ := startTimer_running h
    exact responseTimerLaw_of_running h (n := n) (by simp [timerAfter, hr, hn]) hpos hr hl

theorem takeValid_responseTimerLaw (k : Nat) (r : DownResponse) (h : s.responseTimeout ≠ 0)
    (hl : s.link = .active) : ResponseTimerLaw (takeValid s k r) := by
  have hd := timerAfter_responseTimerLaw (s.ring.modify k (completeSlot · r)) h hl
  unfold takeValid
  dsimp only
  split
  · split
    · exact (handOn_local (p := True) trivial _ _ _).transit.responseTimerLaw hd
    · exact hd
  · exact hd

theorem checkOrder_responseTimerLaw (r : DownResponse) (h : s.responseTimeout ≠ 0)
    (hl : s.link = .active) : ResponseTimerLaw (checkOrder s r) := by
  have hi : ResponseTimerLaw (takeInvalid s) := stall_responseTimerLaw (by exact h)
  unfold checkOrder
  split
  · split
    · exact takeValid_responseTimerLaw _ r h hl
    · exact hi
  · exact hi

theorem any_outstanding_modify_markSent (l : List Slot) (k : Nat) :
    (l.modify k markSent).any outstanding = l.any outstanding := by
  induction l generalizing k with
  | nil => simp
  | cons x l ih => cases k <;> simp [ih]

/-- A tick that is no expiry leaves a running timer running. -/
theorem lowerTimer_unexpired {tm : Timer} (h : expiresNext tm = false) :
    lowerTimer tm ≠ .stopped ↔ tm ≠ .stopped := by
  cases tm with
  | stopped => simp [lowerTimer]
  | running n =>
    have hn : ¬ n ≤ 1 := by simpa [expiresNext] using h
    simp [lowerTimer, hn]

/-- A TICK without an expiry at the port keeps the law: the timer runs on, or has taken its tick. -/
theorem lowerTimers_responseTimerLaw (hs : ResponseTimerLaw s) (h : ResponseUnexpired s) :
    ResponseTimerLaw (lowerTimers (advanceTimebase s)) := by
  obtain ⟨htime, hticks, hruns, hstalled⟩ := hs
  have hl : .port ∉ s.tickTaken →
      (lowerTimer s.responseTimer ≠ .stopped ↔ s.responseTimer ≠ .stopped) := by
    intro hp
    rcases h.resolve_left hp with hx | hx
    · exact lowerTimer_unexpired hx
    · have hst : s.responseTimer = .stopped := by
        by_contra hne
        exact absurd (hruns.1 hne) (by simp [hstalled hx])
      rw [hst]
      rfl
  have htimer : (lowerTimers (advanceTimebase s)).responseTimer = responseTicked s :=
    lowerTimers_responseTimer _
  have hticked : ticksLeft (responseTicked s) ∧
      (responseTicked s ≠ .stopped ↔ s.responseTimer ≠ .stopped) := by
    by_cases hp : TickOwner.port ∈ s.tickTaken
    · simp only [responseTicked, if_pos hp]
      exact ⟨hticks, trivial⟩
    · simp only [responseTicked, if_neg hp]
      exact ⟨lowerTimer_ticksLeft _, hl hp⟩
  obtain ⟨hleft, hrun⟩ := hticked
  refine ⟨htime, ?_, ?_, hstalled⟩
  · rw [htimer]
    exact hleft
  · rw [htimer]
    exact hrun.trans hruns

theorem execTick_responseTimerLaw {order : List ChannelIndex} (h : execTick order s = .next t)
    (hs : ResponseTimerLaw s) : ResponseTimerLaw t := by
  rcases execTick_cases (p := False) h with ⟨-, rfl⟩ | ⟨-, u, hu, -, rfl⟩
  · exact hs
  split
  · refine takeResponseExpiry_responseTimerLaw ?_
    rw [hu.transit.timeout]
    exact hs.1
  next hn =>
    refine hu.transit.responseTimerLaw (lowerTimers_responseTimerLaw hs ?_)
    by_contra hx
    obtain ⟨hp, he, hl⟩ : _ ∧ _ ∧ _ := by simpa only [ResponseUnexpired, not_or] using hx
    have hl : s.link = .active := by
      cases hk : s.link with
      | active => rfl
      | stalled => exact absurd hk hl
    refine hn ?_
    rw [Bool.and_eq_true, Bool.and_eq_true, awaitsTick_iff, beq_iff_eq]
    exact ⟨⟨hp, by simpa using he⟩, hl⟩

theorem exec_responseTimerLaw {c : Instr} (hs : ResponseTimerLaw s) (h : exec c s = .next t) :
    ResponseTimerLaw t := by
  have covered : ∀ b u, ResponseTimerLaw u → ResponseTimerLaw (coverTick b s u) :=
    fun b u => (coverTick_local (p := False) b s u).transit.responseTimerLaw
  by_cases hcalm : calm c = true
  · exact (exec_calm (p := False) hcalm h).transit.responseTimerLaw hs
  cases c with
  | resetNFall =>
    cases h
    exact responseTimerLaw_of_idle (show Config.defaultTimeout ≠ 0 by decide) rfl rfl
  | resetNRise =>
    cases h
    split <;> exact hs
  | tick order => exact execTick_responseTimerLaw h hs
  | responseTimerExpiry =>
    cases h
    split
    · exact takeResponseExpiry_responseTimerLaw (by exact hs.1)
    · exact hs
  | requestAccept q b => cases h; exact covered b _ (offerRequest_responseTimerLaw q hs)
  | claim n c len b => cases h; exact covered b _ (offerAccess_responseTimerLaw c n _ _ hs)
  | collect n c => cases h; exact offerAccess_responseTimerLaw c n _ _ hs
  | record n c b => cases h; exact covered b _ (offerAccess_responseTimerLaw c n _ _ hs)
  | returnService n c count b => cases h; exact covered b _ (offerAccess_responseTimerLaw c n _ _ hs)
  | refusedWindowAccess n c w x => cases h; exact offerAccess_responseTimerLaw c n _ x hs
  | primingIssue =>
    cases h
    split
    next hp =>
      have hl : s.link = .active := by
        simp only [primingPresents, Bool.and_eq_true, beq_iff_eq] at hp
        exact hp.1.1.2
      split
      · exact allocate_responseTimerLaw (fun _ => hl) hs
      · exact hs
    next => exact hs
  | downstreamSend =>
    cases h
    split
    · split
      · exact responseTimerLaw_congr hs rfl rfl (any_outstanding_modify_markSent _ _) rfl
      · exact hs
    · exact hs
  | downstreamResponse r b =>
    cases h
    refine covered b _ ?_
    by_cases hr : s.device = .reset
    · rw [if_pos hr]
      exact hs
    rw [if_neg hr]
    cases hl : s.link with
    | stalled => exact hs
    | active => exact settle_responseTimerLaw (checkOrder_responseTimerLaw r hs.1 hl)
  | slotLeave =>
    cases h
    split
    next n w a len resp rest hring =>
      refine settle_responseTimerLaw (responseTimerLaw_congr hs rfl rfl ?_ rfl)
      rw [hring]
      rfl
    next => exact settle_responseTimerLaw hs
  | scopeFullApply =>
    cases h
    split
    · exact applyScope_responseTimerLaw .full hs.1
    · exact hs
  | scopeKeepConfigApply =>
    cases h
    split
    · exact applyScope_responseTimerLaw .keepConfig hs.1
    · exact hs
  | watchDefine a => exact (exec_watchDefine_transit h).responseTimerLaw hs
  | channelDefine a => exact (exec_channelDefine_transit h).responseTimerLaw hs
  | timingSet d v =>
    cases h
    rcases executeCommand_effect .timingSet (timingSetBytes d v) (timingSetBody d v) s with
      ⟨m, h⟩ | ⟨t, bytes, m, hb, -, h⟩ <;> rw [h]
    · exact hs
    · obtain ⟨rfl, -, -, htime⟩ := timingSetBody_ok hb
      obtain ⟨-, rest⟩ := hs
      exact ⟨htime, rest⟩
  | linkResume =>
    cases h
    rcases executeCommand_effect .linkResume [] linkResumeBody s with
      ⟨m, h⟩ | ⟨t, bytes, m, hb, -, h⟩ <;> rw [h]
    · exact hs
    · obtain rfl := linkResumeBody_ok hb
      obtain ⟨htime, hticks, hruns, -⟩ := hs
      exact ⟨htime, hticks, hruns, fun hl => by cases hl⟩
  | deviceReset sc =>
    cases h
    rcases executeCommand_effect .deviceReset [sc] (deviceResetBody sc) s with
      ⟨m, h⟩ | ⟨t, bytes, m, hb, -, h⟩ <;> rw [h]
    · exact hs
    · obtain ⟨sc, rfl⟩ := deviceResetBody_ok hb
      exact endDrain_responseTimerLaw (s := { s with device := .draining sc }) hs
  | _ => exact absurd rfl hcalm

theorem step_keeps_responseTimerLaw (s t : State) :
    ResponseTimerLaw s → step s = .next t → ResponseTimerLaw t :=
  step_keeps (fun _ _ hs => hs) (fun _ _ _ => exec_responseTimerLaw) s t

/-! ### The device state and the link -/

/-- No entry is ARMED (R13). -/
def Unarmed (s : State) : Prop := ∀ i : EntryIndex, (s.entry i).state ≠ .armed

/-- What a command but RESET_N_FALL can do to the device state and to the link. -/
inductive PortStep (s t : State) : Prop where
  | same (device : t.device = s.device) (link : t.link = s.link)
  | rose (before : s.device = .reset) (device : t.device = .running) (link : t.link = s.link)
  | drains (sc : Scope) (device : t.device = .draining sc)
  | restarted (device : t.device = .running) (link : t.link = .active)
  | resumed (device : t.device = s.device) (link : t.link = .active)
  | stalled (device : t.device = s.device) (unarmed : t.device = .running → Unarmed t)

theorem SameTransit.portStep (h : SameTransit s t) : PortStep s t := .same h.device h.link

theorem portStep_of_before (hd : u.device = s.device) (hl : u.link = s.link) (h : PortStep u t) :
    PortStep s t := by
  cases h with
  | same d l => exact .same (d.trans hd) (l.trans hl)
  | rose b d l => exact .rose (hd.symm.trans b) d (l.trans hl)
  | drains sc d => exact .drains sc d
  | restarted d l => exact .restarted d l
  | resumed d l => exact .resumed (d.trans hd) l
  | stalled d h => exact .stalled (d.trans hd) h

theorem portStep_of_after (h : PortStep s t) (hd : u.device = t.device) (hl : u.link = t.link)
    (he : u.entries = t.entries) : PortStep s u := by
  cases h with
  | same d l => exact .same (hd.trans d) (hl.trans l)
  | rose b d l => exact .rose b (hd.trans d) (hl.trans l)
  | drains sc d => exact .drains sc (hd.trans d)
  | restarted d l => exact .restarted (hd.trans d) (hl.trans l)
  | resumed d l => exact .resumed (hd.trans d) (hl.trans l)
  | stalled d hu =>
    refine .stalled (hd.trans d) fun hr i => ?_
    rw [entry_congr he]
    exact hu (hd.symm.trans hr) i

theorem reprime_unarmed_same (s : State) (i : EntryIndex) : ((reprime s i).entry i).state ≠ .armed := by
  rw [reprime_eq]
  split
  next h =>
    have e : ∀ q, ({ s.setEntry i { s.entry i with state := .repriming } with
        primingQueue := q } : State).entry i = { s.entry i with state := .repriming } :=
      fun _ => entry_setEntry_same s i _
    rw [e]
    simp
  next h => exact h

theorem reprime_unarmed_other {i j : EntryIndex} (h : (s.entry j).state ≠ .armed) :
    ((reprime s i).entry j).state ≠ .armed := by
  by_cases hij : i = j
  · rw [← hij]
    exact reprime_unarmed_same s i
  · rw [reprime_eq]
    split
    · have e : ∀ q, ({ s.setEntry i { s.entry i with state := .repriming } with
          primingQueue := q } : State).entry j = s.entry j := fun _ => entry_setEntry_other s _ hij
      rw [e]
      exact h
    · exact h

/-- Behind the reprimings of a list of entries none of the list is ARMED. -/
theorem foldl_reprime_unarmed (l : List EntryIndex) (s : State) (i : EntryIndex)
    (h : i ∈ l ∨ (s.entry i).state ≠ .armed) : ((l.foldl reprime s).entry i).state ≠ .armed := by
  induction l generalizing s with
  | nil => simpa using h
  | cons j l ih =>
    refine ih (reprime s j) ?_
    rcases h with h | h
    · rcases List.mem_cons.1 h with rfl | h
      · exact .inr (reprime_unarmed_same s i)
      · exact .inl h
    · exact .inr (reprime_unarmed_other h)

/-- The stall of a RUNNING part leaves no entry ARMED (R13, R160). -/
theorem stall_unarmed (h : s.device = .running) : Unarmed (stall s) := by
  intro i
  rw [stall_running h]
  exact foldl_reprime_unarmed _ _ i (.inl (List.mem_finRange i))

theorem stall_portStep (s : State) : PortStep s (stall s) := by
  have hd : (stall s).device = s.device := (stall_local (p := False) s).transit.device
  exact .stalled hd fun hr => stall_unarmed (hd.symm.trans hr)

/-- What follows on a change of the ring leaves device state, link and tables, or ends the drain. -/
theorem settle_cases (s : State) :
    settle s = leaveSilently s ∨
      ∃ sc, s.device = .draining sc ∧ settle s = applyScope sc (leaveSilently s) := by
  cases hd : s.device with
  | reset => exact .inl (by simp [settle, endDrain, hd])
  | running => exact .inl (settle_running hd)
  | draining sc =>
    rw [settle_draining hd]
    split
    · exact .inr ⟨sc, rfl, rfl⟩
    · exact .inl rfl

theorem applyScope_portStep (sc : Scope) (s : State) : PortStep u (applyScope sc s) := by
  cases sc <;> exact .restarted rfl rfl

theorem portStep_settle (h : PortStep s u) : PortStep s (settle u) := by
  rcases settle_cases u with he | ⟨sc, -, he⟩ <;> rw [he]
  · exact portStep_of_after h rfl rfl rfl
  · exact applyScope_portStep sc _

theorem takeResponseExpiry_portStep (hd : u.device = s.device) (hl : u.link = s.link) :
    PortStep s (takeResponseExpiry u) :=
  portStep_of_before hd hl
    (portStep_settle (portStep_of_before (u := u.raise .stall) rfl rfl (stall_portStep _)))

theorem takeValid_transit (s : State) (k : Nat) (r : DownResponse) :
    (takeValid s k r).device = s.device ∧ (takeValid s k r).link = s.link := by
  unfold takeValid
  dsimp only
  split
  · split
    · exact ⟨(handOn_local (p := True) trivial _ _ _).transit.device,
        (handOn_local (p := True) trivial _ _ _).transit.link⟩
    · exact ⟨rfl, rfl⟩
  · exact ⟨rfl, rfl⟩

theorem checkOrder_portStep (s : State) (r : DownResponse) : PortStep s (checkOrder s r) := by
  have hi : PortStep s (takeInvalid s) :=
    portStep_of_before (u := s.raise .order) rfl rfl (stall_portStep _)
  unfold checkOrder
  split
  · split
    · obtain ⟨hd, hl⟩ := takeValid_transit s ‹Nat› r
      exact .same hd hl
    · exact hi
  · exact hi

theorem offerRequest_portStep (s : State) (q : Request) : PortStep s (offerRequest s q) := by
  rcases offerRequest_cases s q with h | ⟨-, resp, h⟩ | ⟨-, c, w, resp, h⟩ | ⟨-, -, h⟩ <;> rw [h]
  · exact .same rfl rfl
  · exact .same rfl rfl
  · have ht := (takeAccess_local (p := False) s c w q).transit
    exact .same ht.device ht.link
  · exact .same rfl rfl

theorem offerAccess_portStep (s : State) (c : ChannelIndex) (n : Source) (w : Nat) (x : Payload) :
    PortStep s (offerAccess s c n w x) := by
  rcases offerAccess_cases s c n w x with h | ⟨q, h⟩ <;> rw [h]
  · exact .same rfl rfl
  · exact offerRequest_portStep s q

theorem portStep_coverTick (b : Bool) (h : PortStep s t) : PortStep s (coverTick b s t) :=
  portStep_of_after h (coverTick_device s b t) (coverTick_link s b t) (coverTick_entries s b t)

theorem executeCommand_portStep {cmd : Command} {args : List Byte}
    {body : State → Except ResultCode (State × List Byte)}
    (h : ∀ t bytes, body s = .ok (t, bytes) → PortStep s t) :
    PortStep s (executeCommand cmd args body s) := by
  rcases executeCommand_effect cmd args body s with ⟨m, he⟩ | ⟨t, bytes, m, hb, -, he⟩ <;> rw [he]
  · exact .same rfl rfl
  · exact portStep_of_after (h t bytes hb) rfl rfl rfl

theorem endDrain_draining (sc : Scope) (s : State) :
    PortStep s (endDrain { s with device := .draining sc }) := by
  unfold endDrain
  dsimp only
  split
  · exact applyScope_portStep sc _
  · exact .drains sc rfl

theorem execTick_portStep {order : List ChannelIndex} (h : execTick order s = .next t) :
    PortStep s t := by
  rcases execTick_cases (p := False) h with ⟨-, rfl⟩ | ⟨-, u, hu, -, rfl⟩
  · exact .same rfl rfl
  split
  · exact takeResponseExpiry_portStep hu.transit.device hu.transit.link
  · exact .same hu.transit.device hu.transit.link

theorem exec_portStep {c : Instr} (hc : c ≠ .resetNFall) (h : exec c s = .next t) :
    PortStep s t := by
  by_cases hcalm : calm c = true
  · exact (exec_calm (p := False) hcalm h).transit.portStep
  cases c with
  | resetNFall => exact absurd rfl hc
  | resetNRise =>
    cases h
    split
    next hr => exact .rose hr rfl rfl
    next => exact .same rfl rfl
  | tick order => exact execTick_portStep h
  | responseTimerExpiry =>
    cases h
    split
    · exact takeResponseExpiry_portStep rfl rfl
    · exact .same rfl rfl
  | requestAccept q b => cases h; exact portStep_coverTick b (offerRequest_portStep s q)
  | claim n c len b => cases h; exact portStep_coverTick b (offerAccess_portStep s c n _ _)
  | collect n c => cases h; exact offerAccess_portStep s c n _ _
  | record n c b => cases h; exact portStep_coverTick b (offerAccess_portStep s c n _ _)
  | returnService n c count b => cases h; exact portStep_coverTick b (offerAccess_portStep s c n _ _)
  | refusedWindowAccess n c w x => cases h; exact offerAccess_portStep s c n _ x
  | primingIssue =>
    cases h
    split
    · split <;> exact .same rfl rfl
    · exact .same rfl rfl
  | downstreamSend =>
    cases h
    split
    · split <;> exact .same rfl rfl
    · exact .same rfl rfl
  | downstreamResponse r b =>
    cases h
    refine portStep_coverTick b ?_
    split
    · exact .same rfl rfl
    · split
      · exact .same rfl rfl
      · exact portStep_settle (checkOrder_portStep s r)
  | slotLeave =>
    cases h
    split
    · exact portStep_settle (.same rfl rfl)
    · exact portStep_settle (.same rfl rfl)
  | scopeFullApply =>
    cases h
    split
    · exact applyScope_portStep .full s
    · exact .same rfl rfl
  | scopeKeepConfigApply =>
    cases h
    split
    · exact applyScope_portStep .keepConfig s
    · exact .same rfl rfl
  | watchDefine a => exact (exec_watchDefine_transit h).portStep
  | channelDefine a => exact (exec_channelDefine_transit h).portStep
  | timingSet d v =>
    cases h
    refine executeCommand_portStep fun _ _ hb => ?_
    rw [(timingSetBody_ok hb).1]
    exact .same rfl rfl
  | linkResume =>
    cases h
    refine executeCommand_portStep fun _ _ hb => ?_
    rw [linkResumeBody_ok hb]
    exact .resumed rfl rfl
  | deviceReset sc =>
    cases h
    refine executeCommand_portStep fun _ _ hb => ?_
    obtain ⟨sc, rfl⟩ := deviceResetBody_ok hb
    exact endDrain_draining sc s
  | _ => exact absurd rfl hcalm

/-! ### While RESET_N is low (R197) -/

/-- The part with RESET_N low: the waiting commands and the level of chip select are the outside's. -/
def heldLow (l : List Instr) (selectLow : Bool) : State :=
  { State.reset with
    pending := l, device := .reset
    management := { selectLow := selectLow, phase := .noFrame, bits := [], shifted := [] } }

theorem heldLow_resetHolds (l : List Instr) (b : Bool) : ResetHolds (heldLow l b) := fun _ => rfl

theorem clockIn_noFrame (bits : List Bool) {m : ManagementPort} (h : m.phase = .noFrame) :
    clockIn bits m = m := by
  induction bits with
  | nil => rfl
  | cons b l ih =>
    have he : bitExecutes m b = false := by simp [bitExecutes, h, byteExecutes]
    have hsm : sampleBit m b = m := by simp [sampleBit, h, outputByte]
    simp [clockIn, he, hsm, ih]

theorem clockSelect_noFrame (bits : List Bool) (h : s.management.phase = .noFrame) :
    clockSelect s bits = s := by
  rw [clockSelect, clockIn_noFrame bits h]

theorem executeCommand_heldLow (l : List Instr) (b : Bool) (cmd : Command) (args : List Byte)
    (body : State → Except ResultCode (State × List Byte)) :
    executeCommand cmd args body (heldLow l b) = heldLow l b := executeCommand_outside rfl body

theorem offerRequest_heldLow (l : List Instr) (b : Bool) (q : Request) :
    offerRequest (heldLow l b) q = heldLow l b := rfl

theorem offerAccess_heldLow (l : List Instr) (b : Bool) (c : ChannelIndex) (n : Source) (w : Nat)
    (x : Payload) : offerAccess (heldLow l b) c n w x = heldLow l b := by
  rcases offerAccess_cases (heldLow l b) c n w x with h | ⟨q, h⟩ <;> rw [h]
  exact offerRequest_heldLow l b q

/-- With RESET_N low a command moves the level of chip select alone, until the pin rises. -/
theorem exec_heldLow {c : Instr} (hc : c ≠ .resetNRise) (l : List Instr) (b : Bool)
    (h : exec c (heldLow l b) = .next t) : ∃ b', t = heldLow l b' := by
  have hcover : ∀ v, coverTick v (heldLow l b) (heldLow l b) = heldLow l b :=
    fun v => coverTick_self v _
  cases c with
  | resetNRise => exact absurd rfl hc
  | requestAccept q v => cases h; exact ⟨b, by rw [offerRequest_heldLow, hcover]⟩
  | claim n c len v => cases h; exact ⟨b, by rw [offerAccess_heldLow, hcover]⟩
  | collect n c => cases h; exact ⟨b, by rw [offerAccess_heldLow]⟩
  | record n c v => cases h; exact ⟨b, by rw [offerAccess_heldLow, hcover]⟩
  | returnService n c count v => cases h; exact ⟨b, by rw [offerAccess_heldLow, hcover]⟩
  | refusedWindowAccess n c w x => cases h; exact ⟨b, by rw [offerAccess_heldLow]⟩
  | downstreamResponse r v => cases h; exact ⟨b, hcover v⟩
  | frameDiscard bits => cases h; exact ⟨false, by rw [clockSelect_noFrame bits rfl]; rfl⟩
  | frameCutAfterExecution bits => cases h; exact ⟨false, by rw [clockSelect_noFrame bits rfl]; rfl⟩
  | frameBegin bits =>
    cases h
    refine ⟨true, ?_⟩
    cases b with
    | false => exact clockSelect_noFrame bits rfl
    | true => exact clockSelect_noFrame bits rfl
  | resetNFall | tick | holdoffExpiry | claimDeadlineExpiry | serviceDeadlineExpiry
  | responseTimerExpiry | primingIssue | downstreamSend | slotLeave | scopeFullApply
  | scopeKeepConfigApply | unknownCommand => cases h; exact ⟨b, rfl⟩
  | _ => cases h; exact ⟨b, executeCommand_heldLow l b _ _ _⟩

theorem exec_resetHolds {c : Instr} (hs : ResetHolds s) (h : exec c s = .next t) : ResetHolds t := by
  by_cases hfall : c = .resetNFall
  · subst hfall
    cases h
    exact heldLow_resetHolds _ _
  by_cases hr : s.device = .reset
  · rw [hs hr] at h
    by_cases hrise : c = .resetNRise
    · subst hrise
      cases h
      exact fun hd => by cases hd
    · obtain ⟨b, rfl⟩ := exec_heldLow hrise _ _ h
      exact heldLow_resetHolds _ b
  · intro hd
    cases exec_portStep hfall h with
    | same d _ => exact absurd (d.symm.trans hd) hr
    | rose b _ _ => exact absurd b hr
    | drains sc d => exact absurd (d.symm.trans hd) (by simp)
    | restarted d _ => exact absurd (d.symm.trans hd) (by simp)
    | resumed d _ => exact absurd (d.symm.trans hd) hr
    | stalled d _ => exact absurd (d.symm.trans hd) hr

/-! ### The stalled port (R13, R160) -/

theorem EntryMove.unarmed {e e' : Entry} (hp : ¬ p) (h : EntryMove p e e') (he : e.state ≠ .armed) :
    e'.state ≠ .armed := by
  cases h with
  | evaluated => exact he
  | collected => exact he
  | reprimed => simp
  | primed allowed => exact absurd allowed hp
  | rearmed allowed => exact absurd allowed hp
  | released => simp [releasedEntry, Entry.powerOn]
  | kept =>
    unfold keepEntry
    split
    · exact he
    · simp
  | fresh => simp [Entry.powerOn]

/-- While the port is STALLED no command arms an entry (R163). -/
theorem exec_unarmed {c : Instr} (hl : s.link = .stalled) (hs : Unarmed s) (h : exec c s = .next t) :
    Unarmed t := by
  intro i
  by_cases hw : ∃ a, c = .watchDefine a
  · obtain ⟨a, rfl⟩ := hw
    rcases exec_watchDefine_effect h with ⟨m, rfl⟩ | ⟨j, m, c, b, mg, -, -, -, rfl⟩
    · exact hs i
    · have he := defineEntry_entry s j i (definedEntry (s.entry j) a m c b)
      refine (congrArg (fun e : Entry => e.state ≠ .armed) he).mpr ?_
      split
      · simp [definedEntry]
      · exact hs i
  by_cases hc : ∃ a, c = .channelDefine a
  · obtain ⟨a, rfl⟩ := hc
    rcases exec_channelDefine_effect h with ⟨m, rfl⟩ | ⟨c, cfg, mg, -, -, -, rfl⟩ <;> exact hs i
  have hm := exec_moves (fun a e => hw ⟨a, e⟩) (fun a e => hc ⟨a, e⟩) h
  exact keeps_of_chain (P := fun e : Entry => e.state ≠ .armed)
    (fun _ _ h => h.unarmed (by simp [hl])) (hm.entries i) (hs i)

theorem exec_stalledUnarmed {c : Instr} (hs : StalledUnarmed s) (hr : ResetHolds s)
    (h : exec c s = .next t) : StalledUnarmed t := by
  intro hd hl
  by_cases hfall : c = .resetNFall
  · subst hfall
    cases h
    cases hd
  have hne : LinkState.active ≠ .stalled := by decide
  cases exec_portStep hfall h with
  | same d l =>
    have hls := l.symm.trans hl
    exact exec_unarmed hls (hs (d.symm.trans hd) hls) h
  | rose b _ l =>
    have hactive : s.link = .active := by rw [hr b]; rfl
    exact absurd (hactive.symm.trans (l.symm.trans hl)) hne
  | drains sc d => exact absurd (d.symm.trans hd) (by simp)
  | restarted _ l => exact absurd (l.symm.trans hl) hne
  | resumed _ l => exact absurd (l.symm.trans hl) hne
  | stalled _ unarmed => exact unarmed hd

theorem step_keeps_stalledUnarmed (s t : State) (hs : StalledUnarmed s ∧ ResetHolds s)
    (hst : step s = .next t) : StalledUnarmed t ∧ ResetHolds t := by
  refine step_keeps (P := fun s => StalledUnarmed s ∧ ResetHolds s) (fun u l hu => ⟨hu.1, fun hd => ?_⟩)
    (fun c s t hs h => ⟨exec_stalledUnarmed hs.1 hs.2 h, exec_resetHolds hs.2 h⟩) s t hs hst
  exact congrArg (fun v : State => { v with pending := l }) (hu.2 hd)

/-- Settles O59: the channels' law by the moves, the response timer's command by command, and the stalled
port's by what a command can do to the device state and the link. -/
theorem serviceAndTimerLawsKept : Obligations.ServiceAndTimerLawsKept :=
  ⟨step_keeps_serviceLaw, step_keeps_responseTimerLaw, step_keeps_stalledUnarmed⟩

/-! ### Through a drain (R14, R53, R77, R110, R115, R175, R199) -/

/-- The reports and the configuration that a drain holds, and the drain itself. -/
structure Held (s t : State) : Prop where
  device : t.device = s.device
  entries : t.entries = s.entries
  channels : t.channels = s.channels
  freeRecords : t.freeRecords = s.freeRecords
  primingQueue : t.primingQueue = s.primingQueue
  divider : t.tickDivider = s.tickDivider
  timeout : t.responseTimeout = s.responseTimeout
  faultMask : t.faultMask = s.faultMask

theorem Held.refl (s : State) : Held s s := ⟨rfl, rfl, rfl, rfl, rfl, rfl, rfl, rfl⟩

theorem Held.trans (h : Held s t) (h' : Held t u) : Held s u :=
  ⟨h'.device.trans h.device, h'.entries.trans h.entries, h'.channels.trans h.channels,
    h'.freeRecords.trans h.freeRecords, h'.primingQueue.trans h.primingQueue,
    h'.divider.trans h.divider, h'.timeout.trans h.timeout,
    h'.faultMask.trans h.faultMask⟩

theorem not_running_of_draining (h : isDraining s = true) : s.device ≠ .running := by
  obtain ⟨sc, h⟩ := (isDraining_iff s).1 h
  simp [h]

/-- A drain that goes on behind a change of the ring has lost COMPLETE priming slots alone. -/
theorem settle_held (hd : isDraining u = true) (h : (settle u).device = u.device) :
    Held u (settle u) := by
  rcases settle_cases u with he | ⟨sc, -, he⟩
  · rw [he]
    exact ⟨rfl, rfl, rfl, rfl, rfl, rfl, rfl, rfl⟩
  · have hr : u.device = .running := by
      rw [← h, he]
      cases sc <;> rfl
    exact absurd hr (not_running_of_draining hd)

theorem stall_held (hn : s.device ≠ .running) : Held s (stall s) := by
  rw [stall_draining hn]
  exact ⟨rfl, rfl, rfl, rfl, rfl, rfl, rfl, rfl⟩

theorem takeInvalid_held (hn : s.device ≠ .running) : Held s (takeInvalid s) := by
  have hr : Held s (s.raise .order) := ⟨rfl, rfl, rfl, rfl, rfl, rfl, rfl, rfl⟩
  exact hr.trans (stall_held (by exact hn))

theorem takeValid_held (hn : s.device ≠ .running) (k : Nat) (r : DownResponse) :
    Held s (takeValid s k r) := by
  unfold takeValid
  simp only [if_neg hn]
  split <;> exact ⟨rfl, rfl, rfl, rfl, rfl, rfl, rfl, rfl⟩

theorem checkOrder_held (hn : s.device ≠ .running) (r : DownResponse) : Held s (checkOrder s r) := by
  unfold checkOrder
  split
  · split
    · exact takeValid_held hn _ r
    · exact takeInvalid_held hn
  · exact takeInvalid_held hn

theorem Held.draining (h : Held s t) (hd : isDraining s = true) : isDraining t = true := by
  rw [isDraining_iff, h.device]
  exact (isDraining_iff s).1 hd

/-- What a step does at the ring and then settles, where the drain goes on behind it. -/
theorem Held.settled (h : Held s u) (hd : isDraining s = true) (hs : (settle u).device = s.device) :
    Held s (settle u) :=
  h.trans (settle_held (h.draining hd) (hs.trans h.device.symm))

theorem takeResponseExpiry_held (hd : isDraining s = true)
    (h : (takeResponseExpiry s).device = s.device) : Held s (takeResponseExpiry s) := by
  have hr : Held s (s.raise .stall) := ⟨rfl, rfl, rfl, rfl, rfl, rfl, rfl, rfl⟩
  exact (hr.trans (stall_held (by exact not_running_of_draining hd))).settled hd h

theorem execTick_held {order : List ChannelIndex} (hd : isDraining s = true)
    (h : execTick order s = .next t) (hs : t.device = s.device) : Held s t := by
  have hn := not_running_of_draining hd
  rcases execTick_cases (p := False) h with ⟨-, rfl⟩ | ⟨-, u, -, hu, rfl⟩
  · exact .refl t
  have hl : Held s (lowerTimers (advanceTimebase s)) :=
    ⟨rfl, rfl, if_neg hn, rfl, rfl, rfl, rfl, rfl⟩
  rw [hu hn] at hs ⊢
  split at hs
  next hx =>
    rw [if_pos hx]
    exact hl.trans (takeResponseExpiry_held (hl.draining hd) (hs.trans hl.device.symm))
  next hx =>
    rw [if_neg hx]
    exact hl

/-- A drain accepts no request (R132, R199). -/
theorem offerRequest_draining (hd : isDraining s = true) (q : Request) : offerRequest s q = s := by
  have hn : ¬ Granted s := fun hg => not_running_of_draining hd hg.1
  rcases offerRequest_cases s q with h | ⟨hg, -⟩ | ⟨hg, -⟩ | ⟨hg, -⟩
  · exact h
  all_goals exact absurd hg hn

theorem offerAccess_draining (hd : isDraining s = true) (c : ChannelIndex) (n : Source) (w : Nat)
    (x : Payload) : offerAccess s c n w x = s := by
  rcases offerAccess_cases s c n w x with h | ⟨q, h⟩
  · exact h
  · rw [h, offerRequest_draining hd]

theorem withManagement_held (s : State) (m : ManagementPort) : Held s { s with management := m } :=
  ⟨rfl, rfl, rfl, rfl, rfl, rfl, rfl, rfl⟩

/-- A drain answers every command but STATUS_QUERY with BUSY (R175). -/
theorem executeCommand_held (hd : isDraining s = true) {cmd : Command} (hc : cmd ≠ .statusQuery)
    (args : List Byte) (body : State → Except ResultCode (State × List Byte)) :
    Held s (executeCommand cmd args body s) := by
  rcases executeCommand_effect cmd args body s with ⟨m, he⟩ | ⟨t, bytes, m, -, hq, -⟩
  · rw [he]
    exact withManagement_held s m
  · exact absurd (hq hd) hc

theorem riseSelect_held (s : State) : Held s (riseSelect s) := by
  unfold riseSelect
  dsimp only
  split <;> exact ⟨rfl, rfl, rfl, rfl, rfl, rfl, rfl, rfl⟩

theorem exec_held {c : Instr} (hd : isDraining s = true) (h : exec c s = .next t)
    (hs : t.device = s.device) : Held s t := by
  have hn := not_running_of_draining hd
  cases c with
  | resetNFall =>
    cases h
    obtain ⟨sc, hsc⟩ := (isDraining_iff s).1 hd
    exact absurd (hs.trans hsc) (by simp)
  | resetNRise =>
    cases h
    split at hs
    · exact absurd hs.symm hn
    next hr =>
      rw [if_neg hr]
      exact .refl s
  | tick order => exact execTick_held hd h hs
  | holdoffExpiry c => cases h; rw [if_neg fun hx => hn hx.1]; exact .refl s
  | claimDeadlineExpiry c => cases h; rw [if_neg fun hx => hn hx.1]; exact .refl s
  | serviceDeadlineExpiry c => cases h; rw [if_neg fun hx => hn hx.1]; exact .refl s
  | responseTimerExpiry =>
    cases h
    have ht : Held s (s.takeTickAt .port) := ⟨rfl, rfl, rfl, rfl, rfl, rfl, rfl, rfl⟩
    split at hs
    next hx =>
      rw [if_pos hx]
      exact ht.trans (takeResponseExpiry_held (ht.draining hd) hs)
    next hx =>
      rw [if_neg hx]
      exact .refl s
  | requestAccept q b => cases h; rw [offerRequest_draining hd, coverTick_self]; exact .refl s
  | claim n c len b => cases h; rw [offerAccess_draining hd, coverTick_self]; exact .refl s
  | collect n c => cases h; rw [offerAccess_draining hd]; exact .refl s
  | record n c b => cases h; rw [offerAccess_draining hd, coverTick_self]; exact .refl s
  | returnService n c count b => cases h; rw [offerAccess_draining hd, coverTick_self]; exact .refl s
  | refusedWindowAccess n c w x => cases h; rw [offerAccess_draining hd]; exact .refl s
  | primingIssue =>
    cases h
    have hp : primingPresents s = false := by simp [primingPresents, hn]
    rw [hp]
    exact .refl s
  | downstreamSend =>
    cases h
    split
    · split
      · exact ⟨rfl, rfl, rfl, rfl, rfl, rfl, rfl, rfl⟩
      · exact .refl s
    · exact .refl s
  | downstreamResponse r b =>
    cases h
    have hcover : ∀ v, Held v (coverTick b s v) := by
      intro v
      cases b <;> exact ⟨rfl, rfl, rfl, rfl, rfl, rfl, rfl, rfl⟩
    refine Held.trans ?_ (hcover _)
    rw [coverTick_device] at hs
    split at hs
    next hx => rw [if_pos hx]; exact .refl s
    next hx =>
      rw [if_neg hx]
      split at hs
      next hl => rw [if_pos hl]; exact ⟨rfl, rfl, rfl, rfl, rfl, rfl, rfl, rfl⟩
      next hl => rw [if_neg hl]; exact (checkOrder_held hn r).settled hd hs
  | slotLeave =>
    cases h
    revert hs
    split
    next n w a len resp rest _ =>
      intro hs
      have hp : Held s { s with ring := rest, head := s.head + 1, upstreamOut := some resp } :=
        ⟨rfl, rfl, rfl, rfl, rfl, rfl, rfl, rfl⟩
      exact hp.settled hd hs
    next => exact fun hs => (Held.refl s).settled hd hs
  | scopeFullApply =>
    cases h
    split at hs
    · exact absurd hs.symm hn
    next hx => rw [if_neg hx]; exact .refl s
  | scopeKeepConfigApply =>
    cases h
    split at hs
    · exact absurd hs.symm hn
    next hx => rw [if_neg hx]; exact .refl s
  | statusQuery =>
    cases h
    rcases executeCommand_effect .statusQuery [] (fun t => .ok (t, statusBytes t)) s with
      ⟨m, he⟩ | ⟨t, bytes, m, hb, -, he⟩ <;> rw [he]
    · exact withManagement_held s m
    · cases hb
      exact withManagement_held s m
  | unknownCommand code =>
    cases h
    split
    · exact withManagement_held s _
    · exact .refl s
  | frameDiscard bits => cases h; exact (withManagement_held s _).trans (riseSelect_held _)
  | frameCutAfterExecution bits => cases h; exact (withManagement_held s _).trans (riseSelect_held _)
  | frameBegin bits =>
    cases h
    split <;> exact withManagement_held s _
  | _ => cases h; exact executeCommand_held hd (by simp) _ _

/-- Settles O36: no command reaches the reports in a drain, and the scope's application ends it. -/
theorem drainHoldsTheReports : Obligations.DrainHoldsTheReports := by
  intro c s t hd h hs
  obtain ⟨-, he, hc, hf, hq, hv, ht, hm⟩ := exec_held hd h hs
  exact ⟨he, hc, hf, hq, hv, ht, hm⟩

end

end Sys2Proof.Proofs

/-! SUPPORT and PROOFS. The evaluation of an entry, a delivery, the pending masks with the pending sets, and
the proofs of the statements that cite chapter 2. -/

namespace Sys2Proof.Proofs

open Sys2Proof Sys2Proof.Machine Sys2Proof.Safety

section

variable {s t : State}

/-! ### The qualifying mask and the merge (R22, R25) -/

theorem getElem_qualifyingMask (e : Entry) (old new : Word) {j : Nat} (hj : j < 32) :
    (qualifyingMask e old new)[j] = true ↔
      (old[j] = false ∧ new[j] = true ∧ e.riseMask[j] = true) ∨
      (old[j] = true ∧ new[j] = false ∧ e.fallMask[j] = true) := by
  simp [qualifyingMask, and_assoc]

/-- A mask lies in another exactly where its bits do. -/
theorem masked_iff (m enable : Word) :
    m &&& ~~~ enable = 0 ↔ ∀ (j : Nat) (_ : j < 32), m[j] = true → enable[j] = true := by
  constructor
  · intro h j hj hm
    have hbit : (m &&& ~~~ enable)[j] = false := by simp [h]
    simpa [hm] using hbit
  · intro h
    refine BitVec.eq_of_getElem_eq fun j hj => ?_
    cases hm : m[j] with
    | false => simp [hm]
    | true => simp [hm, h j hj hm]

/-- With the rise and fall masks inside the enable mask, so is every qualifying mask (R25). -/
theorem qualifyingMask_within {e : Entry} (h : masksWithin e) (old new : Word) :
    qualifyingMask e old new &&& ~~~ e.enableMask = 0 := by
  obtain ⟨hrise, hfall, -⟩ := h
  rw [masked_iff] at *
  intro j hj hq
  rcases (getElem_qualifyingMask e old new hj).1 hq with ⟨-, -, hr⟩ | ⟨-, -, hf⟩
  · exact hrise j hj hr
  · exact hfall j hj hf

theorem getLsbD_merge (shadow : Word) (w : WriteWord) {k j : Nat} (hk : k < 4) (hj : j < 8) :
    (merge shadow w).getLsbD (8 * k + j) =
      if w.enables[k] = true then w.data.getLsbD (8 * k + j) else shadow.getLsbD (8 * k + j) := by
  have hlt : 8 * k + j < 32 := by omega
  have hmask : (byteMask w.enables)[8 * k + j] = w.enables[k] :=
    byteMask_bits w.enables ⟨k, hk⟩ ⟨j, hj⟩
  simp only [BitVec.getLsbD_eq_getElem hlt]
  cases hb : w.enables[k] <;> simp [merge, hmask, hb]

/-- A word with no byte enable on changes nothing (R22). -/
theorem merge_untouched {w : WriteWord} (h : w.enables = 0) (shadow : Word) :
    merge shadow w = shadow := by
  have hmask : byteMask w.enables = 0#32 := by rw [h]; rfl
  rw [merge, hmask, BitVec.and_zero, BitVec.zero_or]
  exact BitVec.and_allOnes

/-- Settles O51: both functions bit by bit, the merge by the byte that a bit belongs to. -/
theorem qualifyingMaskAndMerge : Obligations.QualifyingMaskAndMerge := by
  refine ⟨fun e old new j hj => ⟨getElem_qualifyingMask e old new hj, fun hm => ?_⟩,
    fun shadow w k hk => ?_, fun shadow w h => merge_untouched h shadow⟩
  · exact (masked_iff _ _).1 (qualifyingMask_within hm old new) j hj
  · refine BitVec.eq_of_getLsbD_eq fun j hj => ?_
    have hbit := getLsbD_merge shadow w hk hj
    cases hb : w.enables[k] <;> simpa [hb, hj] using hbit

/-! ### A delivery, and the order of a pending set (R34, R82 to R86) -/

theorem deliver_idle {k : Channel} (h : k.state = .idle) : deliver k = leaveIdle k := by
  simp only [deliver, h]

theorem deliver_holdoff {k : Channel} (h : k.state = .holdoff) :
    deliver k = if k.config.watermark.toNat ≤ k.queued.length then enterAlerting k else k := by
  simp only [deliver, h]

theorem deliver_other {k : Channel} (hi : k.state ≠ .idle) (hh : k.state ≠ .holdoff) :
    deliver k = k := by
  unfold deliver
  split
  next h => exact absurd h hi
  next h => exact absurd h hh
  next => rfl

theorem mem_insertIndex {i j : EntryIndex} {l : List EntryIndex} :
    j ∈ insertIndex i l ↔ j = i ∨ j ∈ l := by
  induction l with
  | nil => simp [insertIndex]
  | cons k l ih =>
    unfold insertIndex
    split
    · simp
    · split
      next h => simp [h]
      next => simp [ih, or_left_comm]

theorem insertIndex_sorted {l : List EntryIndex} (i : EntryIndex) (h : l.Pairwise (· < ·)) :
    (insertIndex i l).Pairwise (· < ·) := by
  induction l with
  | nil => simp [insertIndex]
  | cons k l ih =>
    obtain ⟨hk, hl⟩ := List.pairwise_cons.1 h
    unfold insertIndex
    split
    next hlt =>
      refine List.pairwise_cons.2 ⟨fun j hj => ?_, h⟩
      rcases List.mem_cons.1 hj with rfl | hj
      · exact hlt
      · exact hlt.trans (hk j hj)
    next hlt =>
      split
      · exact h
      next hne =>
        refine List.pairwise_cons.2 ⟨fun j hj => ?_, ih hl⟩
        rcases mem_insertIndex.1 hj with rfl | hj
        · exact lt_of_le_of_ne (not_lt.1 hlt) (Ne.symm hne)
        · exact hk j hj

/-- Settles O54: `deliver` by the channel's state, and the pending set's order by its insertion. -/
theorem deliveryByState : Obligations.DeliveryByState := by
  refine ⟨fun k => ⟨fun hi h => ?_, fun hi h0 hw => ?_, fun hh h => ?_, fun hh h => ?_, deliver_other⟩,
    fun i l h => ⟨insertIndex_sorted i h, fun j => mem_insertIndex⟩⟩
  · rw [deliver_idle hi]
    exact if_pos h
  · rw [deliver_idle hi, leaveIdle, if_neg (not_or.2 ⟨h0, hw⟩), startTimer_pos h0]
    rfl
  · rw [deliver_holdoff hh]
    exact if_pos h
  · rw [deliver_holdoff hh]
    exact if_neg h

/-! ### One evaluation (R24 to R30) -/

theorem evaluate_unqualified {i : EntryIndex} {new : Word}
    (h : qualifyingMask (s.entry i) (s.entry i).shadow new = 0) (cause : Cause) :
    evaluate s i cause new = replaceShadow s i new := by
  simp only [evaluate, if_pos h]

/-- What an evaluation hands to record creation (R31). -/
def changeOf (s : State) (i : EntryIndex) (new : Word) : Change where
  entry := i
  generation := (s.entry i).generation
  old := (s.entry i).shadow
  new := new
  mask := qualifyingMask (s.entry i) (s.entry i).shadow new

theorem evaluate_qualified {i : EntryIndex} {new : Word}
    (h : qualifyingMask (s.entry i) (s.entry i).shadow new ≠ 0) (cause : Cause) :
    evaluate s i cause new = replaceShadow (qualifyingEvent s i cause (changeOf s i new)) i new := by
  simp only [evaluate, if_neg h, changeOf]

theorem replaceShadow_setEntry (s : State) (i : EntryIndex) (e : Entry) (new : Word) :
    replaceShadow (s.setEntry i e) i new = s.setEntry i { e with shadow := new } := by
  simp [replaceShadow]

/-- The shadow of an entry that is written before its channel and the pool. -/
theorem replaceShadow_reported (s : State) (i : EntryIndex) (e : Entry) (c : ChannelIndex) (k : Channel)
    (n : Nat) (new : Word) :
    replaceShadow { (s.setEntry i e).setChannel c k with freeRecords := n } i new =
      { (s.setEntry i { e with shadow := new }).setChannel c k with freeRecords := n } :=
  congrArg (fun u : State => { u.setChannel c k with freeRecords := n })
    (replaceShadow_setEntry s i e new)

/-- A record asked for at channel `c`, which stands as `q`, and the delivery there: created where there is
room, lost and counted elsewhere (R63, R64, R82). -/
theorem deliverTo_createRecord (s : State) (c : ChannelIndex) (q : Channel) (body : RecordBody) :
    let room := q.state ≠ .disabled ∧ q.handed.length + q.queued.length < q.config.quota.toNat ∧
      0 < s.freeRecords
    deliverTo (createRecord (s.setChannel c q) c body) c =
      { s.setChannel c (deliver (if room then { q with
          queued := q.queued ++ [{ body, sequence := q.nextSequence, timestamp := s.tickCounter
                                   redelivery := 0 }]
          nextSequence := q.nextSequence + 1 }
        else { q with
          nextSequence := q.nextSequence + 1
          lost := if q.lost = 65535 then 65535 else q.lost + 1
          overflow := true })) with
        freeRecords := if room then s.freeRecords - 1 else s.freeRecords } := by
  intro room
  have hcan : canCreate (s.setChannel c q) c = true ↔ room := by
    rw [canCreate_iff, channel_setChannel_same]
    rfl
  by_cases hr : room
  · rw [deliverTo_createRecord_room (hcan.2 hr), if_pos hr, if_pos hr, channel_setChannel_same,
      setChannel_setChannel]
    rfl
  · rw [deliverTo_createRecord_full (Bool.eq_false_iff.2 (mt hcan.1 hr)), if_neg hr, if_neg hr,
      channel_setChannel_same, setChannel_setChannel, loseRecord, saturate_half]
    rfl

/-- Settles O53: an evaluation by its mask and the entry's mode, the record by `deliverTo_createRecord`. -/
theorem evaluationByMode : Obligations.EvaluationByMode := by
  intro s i cause new e k m ch room joined asked
  refine ⟨fun hm => ?_, fun hm hmode => ?_, fun hm hmode => ?_, fun hm hmode hlt => ?_,
    fun hm hmode hge => ?_⟩
  · exact evaluate_unqualified hm cause
  all_goals rw [evaluate_qualified hm]
  · rw [qualifyingEvent_flag hmode, addPending_eq, deliverTo, channel_setChannel_same,
      setChannel_setChannel]
    exact replaceShadow_reported s i _ _ _ s.freeRecords new
  · rw [qualifyingEvent_record hmode, addPending_eq, deliverTo_createRecord]
    refine (replaceShadow_reported s i _ _ _ _ new).trans ?_
    cases cause <;> rfl
  · rw [qualifyingEvent_below hmode hlt, replaceShadow_setEntry]
  · rw [qualifyingEvent_threshold hmode (not_lt.2 hge),
      ← setChannel_channel (s.setEntry i _) (s.entry i).channel, deliverTo_createRecord]
    refine (replaceShadow_reported s i _ _ _ _ new).trans ?_
    cases cause <;> rfl

/-! ### The law of pending masks, entry by entry and set by set (R33, R34) -/

/-- What the law reads of an entry is as before, and an entry in use stays in use. -/
structure SameMasks (e e' : Entry) : Prop where
  enable : e'.enableMask = e.enableMask
  rise : e'.riseMask = e.riseMask
  fall : e'.fallMask = e.fallMask
  pending : e'.pendingMask = e.pendingMask
  mode : e'.mode = e.mode
  channel : e'.channel = e.channel
  defined : e.state ≠ .free → e'.state ≠ .free

theorem SameMasks.refl (e : Entry) : SameMasks e e := ⟨rfl, rfl, rfl, rfl, rfl, rfl, id⟩

theorem SameMasks.within {e e' : Entry} (h : SameMasks e e') (he : masksWithin e) : masksWithin e' := by
  obtain ⟨hrise, hfall, hmask, hmode⟩ := he
  unfold masksWithin
  rw [h.enable, h.rise, h.fall, h.pending, h.mode]
  refine ⟨hrise, hfall, hmask, fun hp => ?_⟩
  obtain ⟨hstate, hcount⟩ := hmode hp
  exact ⟨h.defined hstate, hcount⟩

/-- A cleared pending mask needs nothing of the entry's state and mode. -/
theorem masksWithin_of_clear {e : Entry} (hrise : e.riseMask &&& ~~~ e.enableMask = 0)
    (hfall : e.fallMask &&& ~~~ e.enableMask = 0) (hp : e.pendingMask = 0) : masksWithin e := by
  refine ⟨hrise, hfall, ?_, fun h => absurd hp h⟩
  rw [hp]
  exact BitVec.zero_and

theorem masksWithin_powerOn (g : Byte) : masksWithin { Entry.powerOn with generation := g } :=
  masksWithin_of_clear BitVec.zero_and BitVec.zero_and rfl

theorem masksWithin_cleared {e : Entry} (h : masksWithin e) :
    masksWithin { e with pendingMask := 0 } := by
  obtain ⟨hrise, hfall, -⟩ := h
  exact masksWithin_of_clear hrise hfall rfl

theorem masksWithin_definedEntry (old : Entry) (a : WatchDefineArgs) (m : Mode) (c : ChannelIndex)
    (b : Bool) : masksWithin (definedEntry old a m c b) := by
  have reduced : ∀ x y : Word, x &&& y &&& ~~~ y = 0 := fun x y => by
    rw [masked_iff]
    intro j hj h
    rw [BitVec.getElem_and, Bool.and_eq_true] at h
    exact h.2
  exact masksWithin_of_clear (reduced _ _) (reduced _ _) rfl

theorem keepEntry_pendingMask {e : Entry} (h : masksWithin e) : (keepEntry e).pendingMask = 0 := by
  unfold keepEntry
  split
  next hf =>
    obtain ⟨-, -, -, hmode⟩ := h
    by_contra hp
    exact (hmode hp).1 hf
  next => rfl

theorem masksWithin_keepEntry {e : Entry} (h : masksWithin e) : masksWithin (keepEntry e) := by
  unfold keepEntry
  split
  · exact h
  · obtain ⟨hrise, hfall, -⟩ := h
    exact masksWithin_of_clear hrise hfall rfl

/-- The law where it reads the same of every entry and every channel. -/
theorem pendingLaw_of_same (he : ∀ i, SameMasks (s.entry i) (t.entry i))
    (hc : ∀ c, (t.channel c).pendingSet = (s.channel c).pendingSet) (hs : PendingLaw s) :
    PendingLaw t := by
  obtain ⟨within, sets⟩ := hs
  refine ⟨fun i => (he i).within (within i), fun c => ?_⟩
  rw [hc]
  refine ⟨(sets c).1, fun i => ?_⟩
  rw [(he i).channel, (he i).pending]
  exact (sets c).2 i

/-- The law where one entry is written, and the pending sets follow it. -/
theorem pendingLaw_of_entry {i : EntryIndex} (hs : PendingLaw s)
    (he : masksWithin (t.entry i)) (others : ∀ j, i ≠ j → t.entry j = s.entry j)
    (sorted : ∀ c, (t.channel c).pendingSet.Pairwise (· < ·))
    (member : ∀ c, i ∈ (t.channel c).pendingSet ↔
      (t.entry i).channel = c ∧ (t.entry i).pendingMask ≠ 0)
    (kept : ∀ c j, i ≠ j → (j ∈ (t.channel c).pendingSet ↔ j ∈ (s.channel c).pendingSet)) :
    PendingLaw t := by
  obtain ⟨within, sets⟩ := hs
  refine ⟨fun j => ?_, fun c => ⟨sorted c, fun j => ?_⟩⟩
  · by_cases hj : i = j
    · exact hj ▸ he
    · rw [others j hj]
      exact within j
  · by_cases hj : i = j
    · exact hj ▸ member c
    · rw [others j hj, kept c j hj]
      exact (sets c).2 j

/-- The law where no bit is pending and every pending set is empty. -/
theorem pendingLaw_of_clear (he : ∀ i, masksWithin (t.entry i)) (hp : ∀ i, (t.entry i).pendingMask = 0)
    (hc : ∀ c, (t.channel c).pendingSet = []) : PendingLaw t := by
  refine ⟨he, fun c => ?_⟩
  rw [hc]
  exact ⟨.nil, fun i => by simp [hp]⟩

theorem setEntry_pendingLaw {i : EntryIndex} {e : Entry} (he : SameMasks (s.entry i) e)
    (hs : PendingLaw s) : PendingLaw (s.setEntry i e) := by
  refine pendingLaw_of_same (s := s) (fun j => ?_) (fun _ => rfl) hs
  rw [entry_setEntry]
  split
  next h => rw [← h]; exact he
  next => exact .refl _

theorem setChannel_pendingLaw {c : ChannelIndex} {k : Channel}
    (hk : k.pendingSet = (s.channel c).pendingSet) (hs : PendingLaw s) :
    PendingLaw (s.setChannel c k) := by
  refine pendingLaw_of_same (s := s) (fun _ => .refl _) (fun d => ?_) hs
  rw [channel_setChannel]
  split
  next h => rw [hk, h]
  next => rfl

/-! ### An entry that joins and an entry that leaves its pending set (R27, R9, R10, R95) -/

theorem or_mask_ne_zero {m mask : Word} (h : mask ≠ 0) : m ||| mask ≠ 0 :=
  fun h0 => h (BitVec.or_eq_zero_iff.1 h0).2

theorem addPending_pendingLaw {i : EntryIndex} {mask : Word} (hst : (s.entry i).state ≠ .free)
    (hmode : (s.entry i).mode ≠ .count) (hmask : mask &&& ~~~ (s.entry i).enableMask = 0)
    (hne : mask ≠ 0) (hs : PendingLaw s) : PendingLaw (addPending s i mask) := by
  have hentry : (addPending s i mask).entry i =
      { s.entry i with pendingMask := (s.entry i).pendingMask ||| mask } := by
    rw [addPending_entry, if_pos rfl]
  have hset : ∀ c, ((addPending s i mask).channel c).pendingSet =
      if (s.entry i).channel = c ∧ (s.entry i).pendingMask = 0 then
        insertIndex i (s.channel c).pendingSet else (s.channel c).pendingSet := by
    intro c
    rw [addPending_eq, channel_setChannel]
    by_cases hc : (s.entry i).channel = c
    · subst hc
      simp
    · simp [hc]
  have ⟨within, sets⟩ := hs
  refine pendingLaw_of_entry (i := i) hs ?_ (fun j hj => ?_) (fun c => ?_) (fun c => ?_) fun c j hj => ?_
  · obtain ⟨hrise, hfall, hp, -⟩ := within i
    rw [hentry]
    refine ⟨hrise, hfall, ?_, fun _ => ⟨hst, hmode⟩⟩
    rw [BitVec.and_comm] at hp hmask ⊢
    rw [BitVec.and_or_distrib_left, hp, hmask]
    rfl
  · rw [addPending_entry, if_neg hj]
  · rw [hset]
    split
    · exact insertIndex_sorted i (sets c).1
    · exact (sets c).1
  · rw [hentry, hset]
    split
    next h => exact iff_of_true (mem_insertIndex.2 (.inl rfl)) ⟨h.1, or_mask_ne_zero hne⟩
    next h =>
      rw [(sets c).2]
      exact and_congr_right fun hc => ⟨fun _ => or_mask_ne_zero hne, fun _ hp => h ⟨hc, hp⟩⟩
  · rw [hset]
    split
    · simp [mem_insertIndex, Ne.symm hj]
    · rfl

theorem leavePendingSet_pendingSet (s : State) (i : EntryIndex) (c : ChannelIndex) :
    ((leavePendingSet s i).channel c).pendingSet =
      if (s.entry i).channel = c then removeIndex i (s.channel c).pendingSet
      else (s.channel c).pendingSet := by
  rw [leavePendingSet, channel_setChannel]
  split
  next h => rw [h]
  next => rfl

/-- Entry `i` leaves its pending set and is written with no bit pending. -/
theorem withdrawn_pendingLaw {i : EntryIndex} {e : Entry} (he : masksWithin e) (hp : e.pendingMask = 0)
    (hs : PendingLaw s) : PendingLaw ((leavePendingSet s i).setEntry i e) := by
  have ⟨_, sets⟩ := hs
  refine pendingLaw_of_entry (i := i) hs ?_ (fun j hj => entry_setEntry_other _ _ hj) (fun c => ?_)
    (fun c => ?_) fun c j hj => ?_
  · rw [entry_setEntry_same]
    exact he
  · rw [channel_setEntry, leavePendingSet_pendingSet]
    split
    · exact (sets c).1.filter _
    · exact (sets c).1
  · rw [entry_setEntry_same, channel_setEntry, leavePendingSet_pendingSet]
    refine iff_of_false ?_ fun h => h.2 hp
    split
    · simp [removeIndex]
    next hc => exact fun hi => hc (((sets c).2 i).1 hi).1
  · rw [channel_setEntry, leavePendingSet_pendingSet]
    split
    · simp [removeIndex, Ne.symm hj]
    · rfl

/-- COLLECT of a set's first member is that member's withdrawal (R95). -/
theorem serveCollect_cons {c : ChannelIndex} {i : EntryIndex} {l : List EntryIndex}
    (h : (s.channel c).pendingSet = i :: l) (hs : PendingLaw s) :
    (serveCollect s c).1 = (leavePendingSet s i).setEntry i { s.entry i with pendingMask := 0 } := by
  obtain ⟨-, sets⟩ := hs
  obtain ⟨sorted, member⟩ := sets c
  rw [h] at sorted member
  have hc : (s.entry i).channel = c := ((member i).1 List.mem_cons_self).1
  have hl : removeIndex i (i :: l) = l := by
    have hi : i ∉ l := fun hi => lt_irrefl i ((List.pairwise_cons.1 sorted).1 i hi)
    rw [removeIndex, List.filter_cons_of_neg (by simp)]
    exact removeIndex_of_not_mem hi
  simp only [serveCollect, h, leavePendingSet, hc, hl]

/-! ### A disable with purge (R35, R73, R105) -/

/-- A purge of the pending set writes the masks of its members and the set itself. -/
theorem purgePending_spec (s : State) (c : ChannelIndex) :
    ∃ es, purgePending s c =
        { s.setChannel c { s.channel c with pendingSet := [] } with entries := es } ∧
      ∀ i : EntryIndex, (purgePending s c).entry i =
        if i ∈ (s.channel c).pendingSet then { s.entry i with pendingMask := 0 } else s.entry i := by
  obtain ⟨es, heq, hentry⟩ := clearPending_spec (s.channel c).pendingSet s
  refine ⟨es, ?_, hentry⟩
  unfold purgePending
  rw [heq]
  rfl

theorem purgePending_pendingSet (s : State) (c d : ChannelIndex) :
    ((purgePending s c).channel d).pendingSet = if c = d then [] else (s.channel d).pendingSet := by
  obtain ⟨es, heq, -⟩ := purgePending_spec s c
  have hk : (purgePending s c).channel d =
      (s.setChannel c { s.channel c with pendingSet := [] }).channel d := by
    rw [heq]
    rfl
  rw [hk, channel_setChannel]
  split <;> rfl

theorem purgePending_pendingLaw (c : ChannelIndex) (hs : PendingLaw s) :
    PendingLaw (purgePending s c) := by
  obtain ⟨within, sets⟩ := hs
  obtain ⟨-, -, hentry⟩ := purgePending_spec s c
  have hmember : ∀ i, i ∈ (s.channel c).pendingSet ↔
      (s.entry i).channel = c ∧ (s.entry i).pendingMask ≠ 0 := (sets c).2
  have hchannel : ∀ i, ((purgePending s c).entry i).channel = (s.entry i).channel := fun i => by
    rw [hentry]
    split <;> rfl
  have hpending : ∀ i, ((purgePending s c).entry i).pendingMask ≠ 0 ↔
      (s.entry i).channel ≠ c ∧ (s.entry i).pendingMask ≠ 0 := fun i => by
    rw [hentry]
    split
    next hi => simp [((hmember i).1 hi).1]
    next hi => exact ⟨fun hp => ⟨fun hc => hi ((hmember i).2 ⟨hc, hp⟩), hp⟩, And.right⟩
  refine ⟨fun i => ?_, fun d => ?_⟩
  · rw [hentry]
    split
    · exact masksWithin_cleared (within i)
    · exact within i
  · rw [purgePending_pendingSet]
    obtain ⟨sorted, member⟩ := sets d
    split
    next hd =>
      refine ⟨.nil, fun i => ?_⟩
      rw [hchannel, hpending, ← hd]
      simp +contextual
    next hd =>
      refine ⟨sorted, fun i => ?_⟩
      rw [hchannel, hpending, member]
      exact ⟨fun ⟨h, hp⟩ => ⟨h, h ▸ Ne.symm hd, hp⟩, fun ⟨h, _, hp⟩ => ⟨h, hp⟩⟩

/-- The disable of a channel that is DISABLED with nothing HANDED, no timer running and its line released
changes nothing. -/
theorem disable_quiet {k : Channel} (hst : k.state = .disabled) (halert : k.alert = false)
    (hq : Quiet k) : disable k = k := by
  obtain ⟨hh, ho, hc, hv⟩ := hq
  cases k
  simp_all [disable, stopTimers, revert, Channel.moveTo, calls]

/-- The disable in front of a purge: a channel in any state is left alike (R104, R105). -/
theorem disableChannel_eq {c : ChannelIndex}
    (hoff : (s.channel c).state = .disabled → channelFits (s.channel c) ∧ (s.channel c).alert = false) :
    disableChannel s c = s.setChannel c (disable (s.channel c)) := by
  unfold disableChannel
  split
  next hd =>
    obtain ⟨hfits, halert⟩ := hoff hd
    rw [disable_quiet hd halert (quiet_of_fits hfits (by simp [hd])), setChannel_channel]
  next => rfl

theorem queueLength_disable (k : Channel) :
    queueLength (disable k) = k.handed.length + k.queued.length := by
  simp [queueLength, disable]

/-- A disable with purge of a channel in any state (R73, R105). -/
theorem purgeChannel_spec {c : ChannelIndex}
    (hoff : (s.channel c).state = .disabled → channelFits (s.channel c) ∧ (s.channel c).alert = false) :
    ∃ es, purgeChannel s c =
        { s.setChannel c { s.channel c with
            state := .disabled, alert := false, handed := [], queued := [], pendingSet := []
            holdoffTimer := .stopped, claimTimer := .stopped, serviceTimer := .stopped } with
          entries := es
          freeRecords := s.freeRecords + (s.channel c).handed.length + (s.channel c).queued.length } ∧
      ∀ i : EntryIndex, (purgeChannel s c).entry i =
        if i ∈ (s.channel c).pendingSet then { s.entry i with pendingMask := 0 } else s.entry i := by
  have hfreed : freeQueue (disableChannel s c) c =
      { s.setChannel c { disable (s.channel c) with handed := [], queued := [] } with
        freeRecords := s.freeRecords + (s.channel c).handed.length + (s.channel c).queued.length } := by
    rw [disableChannel_eq hoff, freeQueue, channel_setChannel_same, setChannel_setChannel,
      queueLength_disable, Nat.add_assoc]
    rfl
  have hchannel : ∀ n, ({ s.setChannel c { disable (s.channel c) with handed := [], queued := [] } with
      freeRecords := n } : State).channel c = { disable (s.channel c) with handed := [], queued := [] } :=
    fun _ => channel_setChannel_same s c _
  obtain ⟨es, heq, hentry⟩ := purgePending_spec (freeQueue (disableChannel s c) c) c
  refine ⟨es, ?_, fun i => ?_⟩
  · rw [purgeChannel, heq, hfreed, hchannel]
    exact congrArg (fun u : State => { u with
      entries := es
      freeRecords := s.freeRecords + (s.channel c).handed.length + (s.channel c).queued.length })
      (setChannel_setChannel s c _ _)
  · rw [purgeChannel, hentry, hfreed, hchannel]
    rfl

theorem channelDisableBody_purge (s : State) (c : ChannelIndex) :
    channelDisableBody (BitVec.ofNat 8 c.val) 1 s = .ok (purgeChannel s c, []) := by
  simp only [channelDisableBody, channelOf_number, orRefuse_some_bind]
  rfl

/-- Settles O43: both rows execute `purgeChannel`. -/
theorem channelPurged : Obligations.ChannelPurged := by
  intro s c p hp hoff
  obtain ⟨es, heq, hentry⟩ := purgeChannel_spec hoff
  have key := executeCommand_accepted hp rfl (channelDisableBody_purge s c)
  refine ⟨_, congrArg Host.Outcome.next key, congrArg Host.Outcome.next key, hentry, ?_⟩
  rw [heq]
  rfl

/-! ### The law of pending masks through records, evaluations and priming -/

/-- The law reads the two tables alone. -/
theorem pendingLaw_congr (hs : PendingLaw s) (he : t.entries = s.entries)
    (hc : t.channels = s.channels) : PendingLaw t :=
  pendingLaw_of_same (fun i => entry_congr he i ▸ .refl _) (fun c => by rw [channel_congr hc]) hs

theorem deliverTo_pendingLaw (c : ChannelIndex) (hs : PendingLaw s) : PendingLaw (deliverTo s c) :=
  setChannel_pendingLaw (deliver_pendingSet _) hs

theorem appendRecord_pendingLaw (c : ChannelIndex) (body : RecordBody) (ts : Word) (hs : PendingLaw s) :
    PendingLaw (appendRecord s c body ts) :=
  pendingLaw_congr (setChannel_pendingLaw (c := c) (by rfl) hs) rfl rfl

theorem createRecord_pendingLaw (c : ChannelIndex) (body : RecordBody) (hs : PendingLaw s) :
    PendingLaw (createRecord s c body) := by
  unfold createRecord
  split
  · exact appendRecord_pendingLaw c body _ hs
  · exact setChannel_pendingLaw (by rfl) hs

theorem qualifyingEvent_pendingLaw {i : EntryIndex} (hst : (s.entry i).state ≠ .free) (cause : Cause)
    {ch : Change} (hmask : ch.mask &&& ~~~ (s.entry i).enableMask = 0) (hne : ch.mask ≠ 0)
    (hs : PendingLaw s) : PendingLaw (qualifyingEvent s i cause ch) := by
  have added : (s.entry i).mode ≠ .count → PendingLaw (addPending s i ch.mask) :=
    fun hmode => addPending_pendingLaw hst hmode hmask hne hs
  have counted : ∀ n, PendingLaw (s.setEntry i { s.entry i with count := n }) :=
    fun n => setEntry_pendingLaw ⟨rfl, rfl, rfl, rfl, rfl, rfl, id⟩ hs
  cases hmode : (s.entry i).mode with
  | flag =>
    rw [qualifyingEvent_flag hmode]
    exact deliverTo_pendingLaw _ (added (by simp [hmode]))
  | record =>
    rw [qualifyingEvent_record hmode]
    exact deliverTo_pendingLaw _ (createRecord_pendingLaw _ _ (added (by simp [hmode])))
  | count =>
    by_cases hlt : (s.entry i).count.toNat + 1 < (s.entry i).threshold.toNat
    · rw [qualifyingEvent_below hmode hlt]
      exact counted _
    · rw [qualifyingEvent_threshold hmode hlt]
      exact deliverTo_pendingLaw _ (createRecord_pendingLaw _ _ (counted 0))

theorem replaceShadow_pendingLaw (i : EntryIndex) (new : Word) (hs : PendingLaw s) :
    PendingLaw (replaceShadow s i new) :=
  setEntry_pendingLaw ⟨rfl, rfl, rfl, rfl, rfl, rfl, id⟩ hs

theorem evaluate_pendingLaw {i : EntryIndex} (hst : (s.entry i).state ≠ .free) (cause : Cause)
    (new : Word) (hs : PendingLaw s) : PendingLaw (evaluate s i cause new) := by
  by_cases hm : qualifyingMask (s.entry i) (s.entry i).shadow new = 0
  · rw [evaluate_unqualified hm]
    exact replaceShadow_pendingLaw i new hs
  · rw [evaluate_qualified hm]
    exact replaceShadow_pendingLaw i new
      (qualifyingEvent_pendingLaw hst cause (qualifyingMask_within (hs.1 i) _ _) hm hs)

theorem enqueuePriming_pendingLaw (i : EntryIndex) (hs : PendingLaw s) :
    PendingLaw (enqueuePriming s i) := by
  rw [enqueuePriming_eq]
  exact pendingLaw_congr hs rfl rfl

theorem reprime_pendingLaw (i : EntryIndex) (hs : PendingLaw s) : PendingLaw (reprime s i) := by
  unfold reprime
  split
  · exact enqueuePriming_pendingLaw i
      (setEntry_pendingLaw ⟨rfl, rfl, rfl, rfl, rfl, rfl, fun _ => by simp⟩ hs)
  · exact hs

theorem arm_pendingLaw (i : EntryIndex) (hs : PendingLaw s) : PendingLaw (arm s i) :=
  pendingLaw_congr (setEntry_pendingLaw (i := i) (e := { s.entry i with state := .armed })
    ⟨rfl, rfl, rfl, rfl, rfl, rfl, fun _ => by simp⟩ hs) rfl rfl

theorem primingOkay_pendingLaw (i : EntryIndex) (w : Word) (hs : PendingLaw s) :
    PendingLaw (primingOkay s i w) := by
  unfold primingOkay
  split
  · exact arm_pendingLaw i (replaceShadow_pendingLaw i w hs)
  next h => exact arm_pendingLaw i (evaluate_pendingLaw (by simp [h]) _ w hs)
  · exact hs

theorem primingCompletion_pendingLaw (i : EntryIndex) (g : Byte) (w : Option Word) (hs : PendingLaw s) :
    PendingLaw (primingCompletion s i g w) := by
  unfold primingCompletion
  split
  · cases w with
    | some w => exact primingOkay_pendingLaw i w hs
    | none =>
      obtain ⟨q, h⟩ := primingFault_frame s i
      exact pendingLaw_congr hs (by rw [h]) (by rw [h])
  · exact hs

/-! ### The law of pending masks through responses and the stall -/

theorem writeWord_pendingLaw (n : Source) (x : Word × WriteWord) (hs : PendingLaw s) :
    PendingLaw (writeWord n s x) := by
  unfold writeWord
  split
  · split
    next h => exact evaluate_pendingLaw (by simp [h]) _ _ hs
    next => exact hs
  · exact hs

theorem readWord_pendingLaw (x : Word × Word) (hs : PendingLaw s) : PendingLaw (readWord s x) := by
  unfold readWord
  split
  · split
    next h => exact evaluate_pendingLaw (by simp [h.1]) _ _ hs
    next => exact hs
  · exact hs

theorem faultWord_pendingLaw (x : Word × WriteWord) (hs : PendingLaw s) :
    PendingLaw (faultWord s x) := by
  unfold faultWord
  split
  · split
    · exact reprime_pendingLaw _ hs
    · exact hs
  · exact hs

theorem handOn_pendingLaw (x : Slot) (r : DownResponse) (hs : PendingLaw s) :
    PendingLaw (handOn s x r) := by
  unfold handOn
  split
  · split
    · split
      · exact List.foldlRecOn _ _ hs fun _ h x _ => writeWord_pendingLaw _ x h
      · exact List.foldlRecOn _ _ hs fun _ h x _ => faultWord_pendingLaw x h
    · split
      · exact List.foldlRecOn _ _ hs fun _ h x _ => readWord_pendingLaw x h
      · exact hs
  · exact primingCompletion_pendingLaw _ _ _ hs
  · exact hs

theorem raise_pendingLaw (f : FaultFlag) (hs : PendingLaw s) : PendingLaw (s.raise f) :=
  pendingLaw_congr hs rfl rfl

theorem stall_pendingLaw (hs : PendingLaw s) : PendingLaw (stall s) := by
  have hf : PendingLaw (failOutstanding s) := pendingLaw_congr hs rfl rfl
  by_cases h : s.device = .running
  · rw [stall_running h]
    have hp := List.foldlRecOn (outstandingPriming s.ring) _ hf
      fun _ hu x _ => primingCompletion_pendingLaw x.1 x.2 none hu
    exact List.foldlRecOn _ _ hp fun _ hu i _ => reprime_pendingLaw i hu
  · rw [stall_draining h]
    exact hf

theorem fresh_pendingLaw (he : t.entries = freshEntries) (hc : t.channels = freshChannels) :
    PendingLaw t := by
  have hentry : ∀ i, t.entry i = .powerOn := fun i => by simp [State.entry, he, freshEntries]
  refine pendingLaw_of_clear (fun i => ?_) (fun i => ?_) fun c => ?_
  · rw [hentry]
    exact masksWithin_powerOn 0
  · rw [hentry]
    rfl
  · simp [State.channel, hc, freshChannels, Channel.powerOn]

theorem applyScope_pendingLaw (sc : Scope) (hs : PendingLaw s) : PendingLaw (applyScope sc s) := by
  cases sc with
  | full => exact fresh_pendingLaw rfl rfl
  | keepConfig =>
    refine pendingLaw_of_clear (fun i => ?_) (fun i => ?_) fun c => ?_
    · rw [applyScope, entry_applyKeepConfig]
      exact masksWithin_keepEntry (hs.1 i)
    · rw [applyScope, entry_applyKeepConfig]
      exact keepEntry_pendingMask (hs.1 i)
    · rw [applyScope, channel_applyKeepConfig]
      rfl

theorem endDrain_pendingLaw (hs : PendingLaw s) : PendingLaw (endDrain s) := by
  unfold endDrain
  split
  · split
    · exact applyScope_pendingLaw _ hs
    · exact hs
  · exact hs

theorem settle_pendingLaw (hs : PendingLaw s) : PendingLaw (settle s) :=
  endDrain_pendingLaw (pendingLaw_congr hs rfl rfl)

theorem takeResponseExpiry_pendingLaw (hs : PendingLaw s) : PendingLaw (takeResponseExpiry s) :=
  settle_pendingLaw (stall_pendingLaw (raise_pendingLaw .stall hs))

theorem checkOrder_pendingLaw (r : DownResponse) (hs : PendingLaw s) : PendingLaw (checkOrder s r) := by
  have invalid : PendingLaw (takeInvalid s) := stall_pendingLaw (raise_pendingLaw .order hs)
  have valid : ∀ k, PendingLaw (takeValid s k r) := fun k => by
    unfold takeValid
    dsimp only
    split
    · split
      · exact handOn_pendingLaw _ r (pendingLaw_congr hs rfl rfl)
      · exact pendingLaw_congr hs rfl rfl
    · exact pendingLaw_congr hs rfl rfl
  unfold checkOrder
  split
  · split
    · exact valid _
    · exact invalid
  · exact invalid

/-! ### The law of pending masks through accesses, ticks and lapses -/

theorem settleContent_pendingSet (k : Channel) : (settleContent k).pendingSet = k.pendingSet := by
  unfold settleContent
  split <;> rfl

theorem returnChannel_pendingSet (k : Channel) (n : Nat) :
    (returnChannel k n).pendingSet = k.pendingSet :=
  settleContent_pendingSet _

theorem leaveIdle_pendingSet (k : Channel) : (leaveIdle k).pendingSet = k.pendingSet := by
  unfold leaveIdle
  split <;> rfl

theorem enable_pendingSet (k : Channel) : (enable k).pendingSet = k.pendingSet := by
  unfold enable
  dsimp only
  split
  · exact leaveIdle_pendingSet _
  · rfl

theorem claimChannel_pendingSet (k : Channel) : (claimChannel k).pendingSet = k.pendingSet := by
  unfold claimChannel
  split <;> rfl

theorem lapseChannel_pendingSet (cause : LapseCause) (k : Channel) :
    (lapseChannel cause k).pendingSet = k.pendingSet := by
  cases cause <;> rfl

theorem serveAccess_pendingLaw (c : ChannelIndex) (a : WindowAccess) (hs : PendingLaw s) :
    PendingLaw (serveAccess s c a).1 := by
  cases a with
  | claim n => exact setChannel_pendingLaw (claimChannel_pendingSet _) hs
  | collect =>
    cases hset : (s.channel c).pendingSet with
    | nil => simpa only [serveAccess, serveCollect, hset] using hs
    | cons i l =>
      rw [serveAccess, serveCollect_cons hset hs]
      exact withdrawn_pendingLaw (masksWithin_cleared (hs.1 i)) rfl hs
  | record =>
    simp only [serveAccess, serveRecord]
    split
    · exact hs
    · exact setChannel_pendingLaw (by rfl) hs
  | returnService n =>
    exact pendingLaw_congr (setChannel_pendingLaw (returnChannel_pendingSet _ _) hs) rfl rfl

theorem takeAccess_pendingLaw (c : ChannelIndex) (w : Nat) (q : Request) (hs : PendingLaw s) :
    PendingLaw (takeAccess s c w q).1 := by
  have refused : PendingLaw (refuseAccess s c) := setChannel_pendingLaw (by rfl) hs
  unfold takeAccess
  split
  · split
    · exact serveAccess_pendingLaw c _ hs
    · exact refused
  · exact refused

theorem offerRequest_pendingLaw (q : Request) (hs : PendingLaw s) : PendingLaw (offerRequest s q) := by
  rcases offerRequest_cases s q with h | ⟨-, resp, h⟩ | ⟨-, c, w, resp, h⟩ | ⟨-, -, h⟩ <;> rw [h]
  · exact hs
  · exact pendingLaw_congr hs rfl rfl
  · exact pendingLaw_congr (takeAccess_pendingLaw c w q hs) rfl rfl
  · exact pendingLaw_congr hs rfl rfl

theorem offerAccess_pendingLaw (c : ChannelIndex) (n : Source) (w : Nat) (x : Payload)
    (hs : PendingLaw s) : PendingLaw (offerAccess s c n w x) := by
  rcases offerAccess_cases s c n w x with h | ⟨q, h⟩ <;> rw [h]
  · exact hs
  · exact offerRequest_pendingLaw q hs

theorem coverTick_pendingLaw (b : Bool) (u : State) (hs : PendingLaw s) :
    PendingLaw (coverTick b u s) :=
  pendingLaw_congr hs (coverTick_entries u b s) (coverTick_channels u b s)

theorem lapse_pendingLaw (c : ChannelIndex) (cause : LapseCause) (ts : Word) (hs : PendingLaw s) :
    PendingLaw (lapse s c cause ts) := by
  have hl := setChannel_pendingLaw (lapseChannel_pendingSet cause (s.channel c)) hs
  unfold lapse giveNotice
  split
  · exact raise_pendingLaw _ hl
  · split
    · exact deliverTo_pendingLaw _ (appendRecord_pendingLaw _ _ _ hl)
    · exact raise_pendingLaw _ hl

theorem takeHoldoffExpiry_pendingLaw (c : ChannelIndex) (hs : PendingLaw s) :
    PendingLaw (takeHoldoffExpiry s c) := by
  unfold takeHoldoffExpiry
  split
  · exact setChannel_pendingLaw (enterAlerting_pendingSet _) hs
  · exact hs

theorem takeClaimExpiry_pendingLaw (c : ChannelIndex) (ts : Word) (hs : PendingLaw s) :
    PendingLaw (takeClaimExpiry s c ts) := by
  unfold takeClaimExpiry
  split
  · exact lapse_pendingLaw c _ ts hs
  · exact hs

theorem takeServiceExpiry_pendingLaw (c : ChannelIndex) (ts : Word) (hs : PendingLaw s) :
    PendingLaw (takeServiceExpiry s c ts) := by
  unfold takeServiceExpiry
  split
  · exact lapse_pendingLaw c _ ts hs
  · exact hs

theorem pendingLaw_stepIf (b : Bool) (hs : PendingLaw s) (h : PendingLaw s → PendingLaw t) :
    PendingLaw (if b then t else s) := by
  split
  · exact h hs
  · exact hs

theorem takeExpiries_pendingLaw (k : Channel) (c : ChannelIndex) (hs : PendingLaw s) :
    PendingLaw (takeExpiries k s c) :=
  pendingLaw_stepIf _ (pendingLaw_stepIf _ (pendingLaw_stepIf _ hs (takeHoldoffExpiry_pendingLaw c))
    (takeClaimExpiry_pendingLaw c _)) (takeServiceExpiry_pendingLaw c _)

theorem lowerTimers_pendingLaw (hs : PendingLaw s) : PendingLaw (lowerTimers s) := by
  refine pendingLaw_of_same (fun i => .refl (s.entry i)) (fun c => ?_) hs
  by_cases hd : s.device = .running
  · rw [channel_lowerTimers hd, channelTicked]
    split <;> rfl
  · simp [lowerTimers, State.channel, hd]

theorem execTick_pendingLaw {order : List ChannelIndex} (hs : PendingLaw s)
    (h : execTick order s = .next t) : PendingLaw t := by
  cases h
  have hl : PendingLaw (lowerTimers (advanceTimebase s)) :=
    lowerTimers_pendingLaw (pendingLaw_congr hs rfl rfl)
  by_cases hr : s.device = .reset
  · rw [if_pos hr]
    exact hs
  rw [if_neg hr]
  refine pendingLaw_stepIf _ ?_ takeResponseExpiry_pendingLaw
  split
  · exact List.foldlRecOn _ _ hl fun _ hu c _ => takeExpiries_pendingLaw _ c hu
  · exact hl

/-! ### The law of pending masks through the management commands -/

theorem executeCommand_pendingLaw {cmd : Command} {args : List Byte}
    {body : State → Except ResultCode (State × List Byte)} (hs : PendingLaw s)
    (h : ∀ t bytes, body s = .ok (t, bytes) → PendingLaw t) :
    PendingLaw (executeCommand cmd args body s) := by
  rcases executeCommand_effect cmd args body s with ⟨m, he⟩ | ⟨t, bytes, m, hb, -, he⟩ <;> rw [he]
  · exact pendingLaw_congr hs rfl rfl
  · exact pendingLaw_congr (h t bytes hb) rfl rfl

theorem disableChannel_pendingLaw (c : ChannelIndex) (hs : PendingLaw s) :
    PendingLaw (disableChannel s c) := by
  unfold disableChannel
  split
  · exact hs
  · exact setChannel_pendingLaw (by rfl) hs

theorem freeQueue_pendingLaw (c : ChannelIndex) (hs : PendingLaw s) : PendingLaw (freeQueue s c) :=
  pendingLaw_congr (setChannel_pendingLaw (c := c) (by rfl) hs) rfl rfl

theorem riseSelect_pendingLaw (hs : PendingLaw s) : PendingLaw (riseSelect s) := by
  unfold riseSelect
  dsimp only
  split <;> exact pendingLaw_congr hs rfl rfl

theorem defineEntry_pendingLaw {i : EntryIndex} {e : Entry} (he : masksWithin e)
    (hp : e.pendingMask = 0) (hs : PendingLaw s) : PendingLaw (defineEntry s i e) :=
  enqueuePriming_pendingLaw i (withdrawn_pendingLaw he hp hs)

theorem releaseEntry_pendingLaw (i : EntryIndex) (hs : PendingLaw s) : PendingLaw (releaseEntry s i) :=
  pendingLaw_congr (withdrawn_pendingLaw (masksWithin_powerOn _) rfl hs) rfl rfl

theorem channelDisableBody_pendingLaw {channel purge : Byte} {bytes : List Byte} (hs : PendingLaw s)
    (h : channelDisableBody channel purge s = .ok (t, bytes)) : PendingLaw t := by
  obtain ⟨c, -, h⟩ := bind_eq_ok.1 h
  obtain ⟨purged, -, h⟩ := bind_eq_ok.1 h
  have hd := disableChannel_pendingLaw c hs
  cases h
  cases purged with
  | false => exact hd
  | true => exact purgePending_pendingLaw c (freeQueue_pendingLaw c hd)

theorem defineChannel_pendingLaw (c : ChannelIndex) (cfg : ChannelConfig) (hs : PendingLaw s) :
    PendingLaw (defineChannel s c cfg) :=
  setChannel_pendingLaw (by rfl) (freeQueue_pendingLaw c hs)

/-! ### Every command keeps the law of pending masks -/

theorem exec_calm_pendingLaw {c : Instr} (hcalm : calm c = true) (hs : PendingLaw s)
    (h : exec c s = .next t) : PendingLaw t := by
  cases c with
  | holdoffExpiry c =>
    cases h
    split
    · exact takeHoldoffExpiry_pendingLaw c (pendingLaw_congr hs rfl rfl)
    · exact hs
  | claimDeadlineExpiry c =>
    cases h
    split
    · exact takeClaimExpiry_pendingLaw c _ (pendingLaw_congr hs rfl rfl)
    · exact hs
  | serviceDeadlineExpiry c =>
    cases h
    split
    · exact takeServiceExpiry_pendingLaw c _ (pendingLaw_congr hs rfl rfl)
    · exact hs
  | watchRelease i =>
    cases h
    refine executeCommand_pendingLaw hs fun t bytes hb => ?_
    obtain ⟨i, -, hb⟩ := bind_eq_ok.1 hb
    cases hb
    exact releaseEntry_pendingLaw i hs
  | watchQuery i =>
    cases h
    refine executeCommand_pendingLaw hs fun t bytes hb => ?_
    obtain ⟨i, -, hb⟩ := bind_eq_ok.1 hb
    cases hb
    exact hs
  | channelEnable c =>
    cases h
    refine executeCommand_pendingLaw hs fun t bytes hb => ?_
    obtain ⟨c, -, hb⟩ := bind_eq_ok.1 hb
    obtain ⟨-, -, hb⟩ := bind_eq_ok.1 hb
    cases hb
    exact setChannel_pendingLaw (enable_pendingSet _) hs
  | channelDisable c b =>
    cases h
    exact executeCommand_pendingLaw hs fun _ _ => channelDisableBody_pendingLaw hs
  | channelDisablePurge c =>
    cases h
    exact executeCommand_pendingLaw hs fun _ _ => channelDisableBody_pendingLaw hs
  | channelReinstate c =>
    cases h
    refine executeCommand_pendingLaw hs fun t bytes hb => ?_
    obtain ⟨c, -, hb⟩ := bind_eq_ok.1 hb
    obtain ⟨-, -, hb⟩ := bind_eq_ok.1 hb
    cases hb
    exact setChannel_pendingLaw (settleContent_pendingSet _) hs
  | channelQuery c =>
    cases h
    refine executeCommand_pendingLaw hs fun t bytes hb => ?_
    obtain ⟨c, -, hb⟩ := bind_eq_ok.1 hb
    cases hb
    exact setChannel_pendingLaw (by rfl) hs
  | faultMaskSet m =>
    cases h
    refine executeCommand_pendingLaw hs fun t bytes hb => ?_
    cases hb
    exact pendingLaw_congr hs rfl rfl
  | statusQuery =>
    cases h
    refine executeCommand_pendingLaw hs fun t bytes hb => ?_
    cases hb
    exact hs
  | faultCollect =>
    cases h
    refine executeCommand_pendingLaw hs fun t bytes hb => ?_
    cases hb
    exact pendingLaw_congr hs rfl rfl
  | unknownCommand code =>
    cases h
    split
    · exact pendingLaw_congr hs rfl rfl
    · exact hs
  | frameDiscard bits => cases h; exact riseSelect_pendingLaw (pendingLaw_congr hs rfl rfl)
  | frameCutAfterExecution bits => cases h; exact riseSelect_pendingLaw (pendingLaw_congr hs rfl rfl)
  | frameBegin bits =>
    cases h
    split <;> exact pendingLaw_congr hs rfl rfl
  | _ => cases hcalm

theorem exec_pendingLaw {c : Instr} (hs : PendingLaw s) (h : exec c s = .next t) : PendingLaw t := by
  by_cases hcalm : calm c = true
  · exact exec_calm_pendingLaw hcalm hs h
  cases c with
  | resetNFall => cases h; exact fresh_pendingLaw rfl rfl
  | resetNRise => cases h; split <;> exact hs
  | tick order => exact execTick_pendingLaw hs h
  | responseTimerExpiry =>
    cases h
    split
    · exact takeResponseExpiry_pendingLaw (pendingLaw_congr hs rfl rfl)
    · exact hs
  | requestAccept q b => cases h; exact coverTick_pendingLaw b s (offerRequest_pendingLaw q hs)
  | claim n c len b => cases h; exact coverTick_pendingLaw b s (offerAccess_pendingLaw c n _ _ hs)
  | collect n c => cases h; exact offerAccess_pendingLaw c n _ _ hs
  | record n c b => cases h; exact coverTick_pendingLaw b s (offerAccess_pendingLaw c n _ _ hs)
  | returnService n c count b =>
    cases h
    exact coverTick_pendingLaw b s (offerAccess_pendingLaw c n _ _ hs)
  | refusedWindowAccess n c w x => cases h; exact offerAccess_pendingLaw c n _ x hs
  | primingIssue =>
    cases h
    split
    · split <;> exact pendingLaw_congr hs rfl rfl
    · exact hs
  | downstreamSend =>
    cases h
    split
    · split <;> exact pendingLaw_congr hs rfl rfl
    · exact hs
  | downstreamResponse r b =>
    cases h
    refine coverTick_pendingLaw b s ?_
    split
    · exact hs
    · split
      · exact raise_pendingLaw _ hs
      · exact settle_pendingLaw (checkOrder_pendingLaw r hs)
  | slotLeave =>
    cases h
    split
    · exact settle_pendingLaw (pendingLaw_congr hs rfl rfl)
    · exact settle_pendingLaw hs
  | scopeFullApply =>
    cases h
    split
    · exact applyScope_pendingLaw .full hs
    · exact hs
  | scopeKeepConfigApply =>
    cases h
    split
    · exact applyScope_pendingLaw .keepConfig hs
    · exact hs
  | watchDefine a =>
    rcases exec_watchDefine_effect h with ⟨m, rfl⟩ | ⟨i, m, c, b, mg, -, -, -, rfl⟩
    · exact pendingLaw_congr hs rfl rfl
    · exact pendingLaw_congr
        (defineEntry_pendingLaw (masksWithin_definedEntry (s.entry i) a m c b) rfl hs) rfl rfl
  | channelDefine a =>
    rcases exec_channelDefine_effect h with ⟨m, rfl⟩ | ⟨c, cfg, mg, -, -, -, rfl⟩
    · exact pendingLaw_congr hs rfl rfl
    · exact pendingLaw_congr (defineChannel_pendingLaw c cfg hs) rfl rfl
  | timingSet d v =>
    cases h
    refine executeCommand_pendingLaw hs fun t bytes hb => ?_
    obtain ⟨rfl, -⟩ := timingSetBody_ok hb
    exact pendingLaw_congr hs rfl rfl
  | linkResume =>
    cases h
    refine executeCommand_pendingLaw hs fun t bytes hb => ?_
    rw [linkResumeBody_ok hb]
    exact pendingLaw_congr hs rfl rfl
  | deviceReset sc =>
    cases h
    refine executeCommand_pendingLaw hs fun t bytes hb => ?_
    obtain ⟨sc, rfl⟩ := deviceResetBody_ok hb
    exact endDrain_pendingLaw (pendingLaw_congr hs rfl rfl)
  | _ => exact absurd rfl hcalm

/-- Settles O58: the law is kept command by command. -/
theorem pendingMasksKept : Obligations.PendingMasksKept :=
  step_keeps (fun _ _ hs => pendingLaw_congr hs rfl rfl) fun _ _ _ => exec_pendingLaw

end

end Sys2Proof.Proofs

/-! SUPPORT and PROOFS. The laws of the ring, of the priming queue and of waiting entries through every
command, and the proofs of the statements that cite chapter 3. -/

namespace Sys2Proof.Proofs

open Sys2Proof Sys2Proof.Machine Sys2Proof.Safety

section

variable {s t u : State}

/-! ### Waiting entries and their reads (R46) -/

/-- An entry that waits for a priming read (R46). -/
def Waiting (e : Entry) : Prop := e.state = .priming ∨ e.state = .repriming

/-- Entry `i`, where it waits, has its read queued or in flight (R46). -/
def Awaited (s : State) (i : EntryIndex) : Prop :=
  Waiting (s.entry i) → i ∈ s.primingQueue ∨ readInFlight s i = true

/-- The fields of an entry by which its read is known (R46, R48). -/
def SameWait (e e' : Entry) : Prop := e'.state = e.state ∧ e'.generation = e.generation

theorem SameWait.waiting_iff {e e' : Entry} (h : SameWait e e') : Waiting e' ↔ Waiting e := by
  simp only [Waiting, h.1]

/-- The law of the priming queue and the law of waiting entries are kept from `s` to `t`. -/
structure Primes (s t : State) : Prop where
  queue : PrimingQueueLaw s → PrimingQueueLaw t
  awaits : AwaitsRead s → AwaitsRead t

/-- The law of the ring is kept as well. -/
structure KeepsLaws (s t : State) : Prop extends Primes s t where
  ring : RingLaw s → RingLaw t

theorem Primes.refl (s : State) : Primes s s := ⟨id, id⟩

theorem Primes.trans (h : Primes s t) (h' : Primes t u) : Primes s u :=
  ⟨h'.queue ∘ h.queue, h'.awaits ∘ h.awaits⟩

theorem KeepsLaws.refl (s : State) : KeepsLaws s s := ⟨.refl s, id⟩

theorem KeepsLaws.trans (h : KeepsLaws s t) (h' : KeepsLaws t u) : KeepsLaws s u :=
  ⟨h.toPrimes.trans h'.toPrimes, h'.ring ∘ h.ring⟩

theorem KeepsLaws.foldl {α : Type} {f : State → α → State} (h : ∀ s a, KeepsLaws s (f s a))
    (l : List α) (s : State) : KeepsLaws s (l.foldl f s) := by
  induction l generalizing s with
  | nil => exact .refl s
  | cons a l ih => exact (h s a).trans (ih _)

theorem KeepsLaws.stepIf (b : Bool) (h : KeepsLaws s t) (h' : KeepsLaws t u) :
    KeepsLaws s (if b then u else t) := by
  split
  · exact h.trans h'
  · exact h

theorem mem_outstandingPriming {ring : List Slot} {p : EntryIndex × Byte} :
    p ∈ outstandingPriming ring ↔ ∃ a sent, Slot.primingRead p.1 p.2 a sent ∈ ring := by
  unfold outstandingPriming
  rw [List.mem_filterMap]
  constructor
  · rintro ⟨x, hx, h⟩
    cases x with
    | primingRead i g a sent => cases h; exact ⟨a, sent, hx⟩
    | _ => cases h
  · rintro ⟨a, sent, h⟩
    exact ⟨_, h, rfl⟩

/-- A change in which every awaited read stays awaited, in the same device state. -/
theorem awaitsRead_of_awaited (hd : t.device = s.device) (h : ∀ i, Awaited s i → Awaited t i)
    (hs : AwaitsRead s) : AwaitsRead t :=
  fun hr i => h i (hs (hd.symm.trans hr) i)

/-- The law of waiting entries speaks of a RUNNING part alone. -/
theorem awaitsRead_of_not_running (h : t.device ≠ .running) : AwaitsRead t := fun hr => absurd hr h

theorem primingQueueLaw_of_same (hq : t.primingQueue = s.primingQueue)
    (he : ∀ i, SameWait (s.entry i) (t.entry i)) (hs : PrimingQueueLaw s) : PrimingQueueLaw t := by
  obtain ⟨nodup, waiting⟩ := hs
  refine ⟨hq ▸ nodup, fun i hi => (he i).waiting_iff.2 (waiting i (hq ▸ hi))⟩

/-- A change that keeps the entries' states and generations, the priming queue and the reads in the
ring. -/
theorem primes_of_same (hd : t.device = s.device) (hq : t.primingQueue = s.primingQueue)
    (hr : outstandingPriming s.ring ⊆ outstandingPriming t.ring)
    (he : ∀ i, SameWait (s.entry i) (t.entry i)) : Primes s t := by
  refine ⟨primingQueueLaw_of_same hq he, awaitsRead_of_awaited hd fun i hi hw => ?_⟩
  rw [hq, readInFlight_iff, (he i).2]
  rcases hi ((he i).waiting_iff.1 hw) with h | h
  · exact .inl h
  · exact .inr (hr ((readInFlight_iff s i).1 h))

/-- The law of the ring reads the ring and whether a drain goes on. -/
theorem ringLaw_of_same (hd : t.device = s.device) (hr : t.ring = s.ring) (hs : RingLaw s) :
    RingLaw t := by
  have hdr : isDraining t = isDraining s := by simp only [isDraining, hd]
  unfold RingLaw
  rw [hr, hdr]
  exact hs

theorem keepsLaws_of_same (hd : t.device = s.device) (hq : t.primingQueue = s.primingQueue)
    (hr : t.ring = s.ring) (he : ∀ i, SameWait (s.entry i) (t.entry i)) : KeepsLaws s t :=
  ⟨primes_of_same hd hq (by rw [hr]; exact fun _ h => h) he, ringLaw_of_same hd hr⟩

theorem keepsLaws_of_eq (he : t.entries = s.entries) (hd : t.device = s.device)
    (hq : t.primingQueue = s.primingQueue) (hr : t.ring = s.ring) : KeepsLaws s t :=
  keepsLaws_of_same hd hq hr fun i => by rw [entry_congr he]; exact ⟨rfl, rfl⟩

/-! ### An entry that is written, joins the priming queue or leaves it -/

theorem setEntry_keepsLaws {i : EntryIndex} {e : Entry} (h : SameWait (s.entry i) e) :
    KeepsLaws s (s.setEntry i e) := by
  refine keepsLaws_of_same rfl rfl rfl fun j => ?_
  rw [entry_setEntry]
  split
  next hj => exact hj ▸ h
  next => exact ⟨rfl, rfl⟩

theorem setChannel_keepsLaws (s : State) (c : ChannelIndex) (k : Channel) :
    KeepsLaws s (s.setChannel c k) := keepsLaws_of_eq rfl rfl rfl rfl

theorem raise_keepsLaws (s : State) (f : FaultFlag) : KeepsLaws s (s.raise f) :=
  keepsLaws_of_eq rfl rfl rfl rfl

/-- Another entry's read is not touched by a write of entry `i`. -/
theorem awaited_setEntry_other {i j : EntryIndex} {e : Entry} {q : List EntryIndex} (hij : i ≠ j)
    (hq : j ∈ s.primingQueue → j ∈ q) (h : Awaited s j) :
    Awaited { s.setEntry i e with primingQueue := q } j := by
  have he : ({ s.setEntry i e with primingQueue := q } : State).entry j = s.entry j :=
    entry_setEntry_other s e hij
  intro hw
  rw [he] at hw
  rw [readInFlight_iff, he]
  exact (h hw).imp hq (readInFlight_iff s j).1

/-- An entry that takes a waiting state joins the priming queue (R42, R46). -/
theorem enqueue_setEntry_keepsLaws {e : Entry} (s : State) (i : EntryIndex) (h : Waiting e) :
    KeepsLaws s (enqueuePriming (s.setEntry i e) i) := by
  have hmem : ∀ j, j ∈ (enqueuePriming (s.setEntry i e) i).primingQueue ↔
      j = i ∨ j ∈ s.primingQueue := fun j => mem_enqueuePriming
  refine ⟨⟨fun ⟨nodup, waiting⟩ => ⟨nodup_enqueuePriming i nodup, fun j hj => ?_⟩, ?_⟩, ?_⟩
  · have he : (enqueuePriming (s.setEntry i e) i).entry j = if i = j then e else s.entry j := by
      rw [enqueuePriming_eq]; exact entry_setEntry s i j e
    rw [he]
    split
    next => exact h
    next hij => exact waiting j (((hmem j).1 hj).resolve_left fun hji => hij hji.symm)
  · refine awaitsRead_of_awaited (by rw [enqueuePriming_eq]; rfl) fun j hj => ?_
    by_cases hij : i = j
    · exact fun _ => .inl ((hmem j).2 (.inl hij.symm))
    · rw [enqueuePriming_eq] at hmem ⊢
      exact awaited_setEntry_other hij (fun hq => (hmem j).2 (.inr hq)) hj
  · rw [enqueuePriming_eq]
    exact ringLaw_of_same rfl rfl

theorem enqueuePriming_keepsLaws {i : EntryIndex} (h : Waiting (s.entry i)) :
    KeepsLaws s (enqueuePriming s i) := by
  have := enqueue_setEntry_keepsLaws s i h
  rwa [setEntry_entry] at this

theorem mem_removeIndex {i j : EntryIndex} {l : List EntryIndex} :
    j ∈ removeIndex i l ↔ j ∈ l ∧ j ≠ i := by
  simp [removeIndex]

/-- An entry that takes a state in which it does not wait leaves the priming queue (R43, R46). -/
theorem leave_setEntry_keepsLaws {e : Entry} (s : State) (i : EntryIndex) (h : ¬ Waiting e) :
    KeepsLaws s (leavePriming (s.setEntry i e) i) := by
  have he : ∀ j, (leavePriming (s.setEntry i e) i).entry j = if i = j then e else s.entry j :=
    fun j => entry_setEntry s i j e
  refine ⟨⟨fun ⟨nodup, waiting⟩ => ⟨nodup.filter _, fun j hj => ?_⟩, ?_⟩, ringLaw_of_same rfl rfl⟩
  · obtain ⟨hq, hne⟩ := mem_removeIndex.1 hj
    rw [he, if_neg (Ne.symm hne)]
    exact waiting j hq
  · refine awaitsRead_of_awaited rfl fun j hj => ?_
    by_cases hij : i = j
    · intro hw
      rw [he, if_pos hij] at hw
      exact absurd hw h
    · exact awaited_setEntry_other hij (fun hq => mem_removeIndex.2 ⟨hq, Ne.symm hij⟩) hj

theorem reprime_keepsLaws (s : State) (i : EntryIndex) : KeepsLaws s (reprime s i) := by
  unfold reprime
  split
  · exact enqueue_setEntry_keepsLaws s i (.inr rfl)
  · exact .refl s

theorem arm_keepsLaws (s : State) (i : EntryIndex) : KeepsLaws s (arm s i) :=
  leave_setEntry_keepsLaws s i (by simp [Waiting])

/-! ### Evaluations and what a response hands on -/

theorem replaceShadow_keepsLaws (s : State) (i : EntryIndex) (new : Word) :
    KeepsLaws s (replaceShadow s i new) := setEntry_keepsLaws ⟨rfl, rfl⟩

/-- An evaluation neither arms an entry nor changes its generation (R24, R27). -/
theorem evaluate_sameWait (s : State) (i j : EntryIndex) (cause : Cause) (new : Word) :
    SameWait (s.entry j) ((evaluate s i cause new).entry j) := by
  by_cases hij : i = j
  · subst hij
    obtain ⟨p, n, h⟩ := evaluate_entry_same s i cause new
    rw [h]
    exact ⟨rfl, rfl⟩
  · rw [evaluate_entry_other s hij]
    exact ⟨rfl, rfl⟩

theorem evaluate_keepsLaws (s : State) (i : EntryIndex) (cause : Cause) (new : Word) :
    KeepsLaws s (evaluate s i cause new) := by
  obtain ⟨es, cs, n, h⟩ := evaluate_frame s i cause new
  exact keepsLaws_of_same (by rw [h]) (by rw [h]) (by rw [h]) fun j => evaluate_sameWait s i j cause new

theorem primingCompletion_keepsLaws (s : State) (i : EntryIndex) (g : Byte) (w : Option Word) :
    KeepsLaws s (primingCompletion s i g w) := by
  unfold primingCompletion
  split
  · cases w with
    | some w =>
      dsimp only [primingOkay]
      split
      · exact (replaceShadow_keepsLaws s i w).trans (arm_keepsLaws _ i)
      · exact (evaluate_keepsLaws s i _ w).trans (arm_keepsLaws _ i)
      · exact .refl s
    | none =>
      dsimp only [primingFault]
      split
      next h => exact enqueuePriming_keepsLaws (.inl h)
      next h => exact enqueuePriming_keepsLaws (.inr h)
      · exact .refl s
  · exact .refl s

theorem writeWord_keepsLaws (n : Source) (s : State) (x : Word × WriteWord) :
    KeepsLaws s (writeWord n s x) := by
  unfold writeWord
  split
  · split
    · exact evaluate_keepsLaws _ _ _ _
    · exact .refl s
  · exact .refl s

theorem readWord_keepsLaws (s : State) (x : Word × Word) : KeepsLaws s (readWord s x) := by
  unfold readWord
  split
  · split
    · exact evaluate_keepsLaws _ _ _ _
    · exact .refl s
  · exact .refl s

theorem faultWord_keepsLaws (s : State) (x : Word × WriteWord) : KeepsLaws s (faultWord s x) := by
  unfold faultWord
  split
  · split
    · exact reprime_keepsLaws s _
    · exact .refl s
  · exact .refl s

theorem handOn_keepsLaws (s : State) (x : Slot) (r : DownResponse) : KeepsLaws s (handOn s x r) := by
  unfold handOn
  split
  · split
    · split
      · exact .foldl (writeWord_keepsLaws _) _ _
      · exact .foldl faultWord_keepsLaws _ _
    · split
      · exact .foldl readWord_keepsLaws _ _
      · exact .refl s
  · exact primingCompletion_keepsLaws _ _ _ _
  · exact .refl s

/-! ### The completion of a slot -/

theorem mem_set_of_mem {l : List Slot} {k : Nat} {x y z : Slot} (hx : l[k]? = some x) (hy : y ∈ l) :
    y = x ∨ y ∈ l.set k z := by
  obtain ⟨j, hj⟩ := List.mem_iff_getElem?.1 hy
  by_cases hk : k = j
  · subst hk
    exact .inl (Option.some.inj (hj.symm.trans hx))
  · exact .inr (List.mem_iff_getElem?.2 ⟨j, by rw [List.getElem?_set_ne hk, hj]⟩)

/-- A completion that its entry does not wait for is disregarded (R48). -/
theorem primingCompletion_unawaited {i : EntryIndex} {g : Byte} (h : ¬ waitsRead s (i, g))
    (w : Option Word) : primingCompletion s i g w = s := by
  cases w with
  | none => exact (primingCompletion_fault s (i, g)).2 h
  | some w =>
    by_cases hg : (s.entry i).generation = g
    · rw [primingCompletion_okay hg, primingOkay]
      split
      next hs => exact absurd ⟨hg, .inl hs⟩ h
      next hs => exact absurd ⟨hg, .inr hs⟩ h
      next => rfl
    · exact if_neg hg

/-- A priming completion answers its read: an entry that waits behind it for a read of that generation
stands on the priming queue (R49, R50, R51). -/
theorem primingCompletion_answers (s : State) (i : EntryIndex) (g : Byte) (w : Option Word)
    (hafter : waitsRead (primingCompletion s i g w) (i, g)) :
    i ∈ (primingCompletion s i g w).primingQueue := by
  by_cases hbefore : waitsRead s (i, g)
  · cases w with
    | none =>
      rw [(primingCompletion_fault s (i, g)).1 hbefore]
      exact mem_enqueuePriming.2 (.inl rfl)
    | some w =>
      have armed : ((primingCompletion s i g (some w)).entry i).state = .armed := by
        obtain ⟨hg, hs⟩ := hbefore
        rw [primingCompletion_okay hg]
        rcases hs with hs | hs
        · rw [primingOkay_priming hs, arm_entry_same]
        · rw [primingOkay_repriming hs, arm_entry_same]
      exact absurd hafter.2 (by simp [armed])
  · rw [primingCompletion_unawaited hbefore] at hafter
    exact absurd hafter hbefore

/-- A read leaves the ring without harm once its entry, where it waits for it, stands on the queue. -/
theorem primes_dropping_read {i : EntryIndex} {g : Byte} (hq : waitsRead s (i, g) → i ∈ s.primingQueue)
    {ring : List Slot} (hr : outstandingPriming s.ring ⊆ (i, g) :: outstandingPriming ring)
    (tm : Timer) (h : SlotIndex) : Primes s (s.withTransit ring tm h) := by
  refine ⟨id, awaitsRead_of_awaited rfl fun j hj hw => ?_⟩
  rw [readInFlight_iff]
  rcases hj hw with hj | hj
  · exact .inl hj
  · rcases List.mem_cons.1 (hr ((readInFlight_iff s j).1 hj)) with heq | hj
    · cases heq
      exact .inl (hq ⟨rfl, hw⟩)
    · exact .inr hj

/-- A completed slot's priming read, where it held one, is the only read that leaves the ring. -/
theorem outstandingPriming_set {l : List Slot} {k : Nat} {x z : Slot} (hx : l[k]? = some x) :
    outstandingPriming l ⊆ outstandingPriming [x] ++ outstandingPriming (l.set k z) := by
  intro p hp
  obtain ⟨a, sent, hp⟩ := mem_outstandingPriming.1 hp
  rw [List.mem_append]
  refine (mem_set_of_mem (z := z) hx hp).imp (fun h => ?_) fun h => ?_
  · exact mem_outstandingPriming.2 ⟨a, sent, by simp [h]⟩
  · exact mem_outstandingPriming.2 ⟨a, sent, h⟩

theorem reports_ring (h : Reports s t) : t.ring = s.ring := by
  obtain ⟨_, _, _, _, rfl⟩ := h
  rfl

/-- A valid response in a RUNNING device: the slot completes and the response is handed on. -/
theorem handOn_completed_primes {k : Nat} {x : Slot} (hx : s.ring[k]? = some x) (r : DownResponse)
    (tm : Timer) :
    Primes s (handOn (s.withTransit (s.ring.set k (completeSlot x r)) tm s.head) x r) := by
  have hr := outstandingPriming_set (z := completeSlot x r) hx
  rw [withTransit_handOn]
  have unread : outstandingPriming [x] = [] →
      Primes s ((handOn s x r).withTransit (s.ring.set k (completeSlot x r)) tm s.head) := by
    intro hnone
    rw [hnone] at hr
    rw [← withTransit_handOn]
    have completed : Primes s (s.withTransit (s.ring.set k (completeSlot x r)) tm s.head) :=
      primes_of_same rfl rfl hr fun _ => ⟨rfl, rfl⟩
    exact completed.trans (handOn_keepsLaws _ x r).toPrimes
  cases x with
  | primingRead i g a sent =>
    refine (handOn_keepsLaws s (.primingRead i g a sent) r).toPrimes.trans
      (primes_dropping_read (i := i) (g := g) (primingCompletion_answers s i g _) ?_ _ _)
    rw [reports_ring (primingCompletion_reports s i g _)]
    exact hr
  | _ => exact unread rfl

theorem takeValid_primes (s : State) (k : Nat) (r : DownResponse) : Primes s (takeValid s k r) := by
  have unchanged : ∀ (ring : List Slot) tm, s.device ≠ .running →
      Primes s { s with ring := ring, responseTimer := tm } :=
    fun ring tm hd => ⟨id, fun _ => awaitsRead_of_not_running hd⟩
  unfold takeValid
  dsimp only
  split
  next x hx =>
    split
    next => rw [modify_eq_set _ hx]; exact handOn_completed_primes hx r _
    next hd => exact unchanged _ _ hd
  next hx =>
    have hk : s.ring.modify k (completeSlot · r) = s.ring :=
      List.modify_eq_self (List.getElem?_eq_none_iff.1 hx)
    rw [hk]
    exact primes_of_same rfl rfl (fun _ h => h) fun _ => ⟨rfl, rfl⟩

/-! ### The stall -/

/-- The entries that a stall's failed priming reads bring onto the priming queue (R51, R52). -/
structure Rejoins (s : State) (l : List EntryIndex) : Prop where
  nodup : l.Nodup
  sublist : List.Sublist l (((outstandingPriming s.ring).filter fun p =>
    p.2 = (s.entry p.1).generation).map Prod.fst)
  mem : ∀ i, i ∈ l ↔ i ∉ s.primingQueue ∧ Waiting (s.entry i) ∧ readInFlight s i = true

/-- The completions of a stall's failed priming reads change the priming queue alone. -/
theorem failedReads_eq (s : State) :
    ∃ l, Rejoins s l ∧ (outstandingPriming s.ring).foldl
        (fun t p => primingCompletion t p.1 p.2 none) (failOutstanding s) =
      { failOutstanding s with primingQueue := s.primingQueue ++ l } := by
  obtain ⟨l, h, nodup, sublist, hl⟩ :=
    foldl_primingCompletion (outstandingPriming s.ring) (failOutstanding s)
  refine ⟨l, ⟨nodup, sublist, fun i => ?_⟩, h⟩
  rw [hl, readInFlight_iff]
  refine and_congr_right fun _ => ⟨?_, fun ⟨hw, hread⟩ => ⟨_, hread, rfl, hw⟩⟩
  rintro ⟨g, hread, hg, hw⟩
  have hg : (s.entry i).generation = g := hg
  exact ⟨hw, hg ▸ hread⟩

/-- Every entry that waits for a failed read joins the queue, so no read is lost. -/
theorem failedReads_primes (s : State) :
    Primes s ((outstandingPriming s.ring).foldl (fun t p => primingCompletion t p.1 p.2 none)
      (failOutstanding s)) := by
  obtain ⟨l, hl, h⟩ := failedReads_eq s
  rw [h]
  refine ⟨fun ⟨nodup, waiting⟩ => ⟨?_, fun i hi => ?_⟩,
    awaitsRead_of_awaited rfl fun i hi hw => .inl (List.mem_append.2 ?_)⟩
  · refine List.nodup_append.2 ⟨nodup, hl.nodup, fun a ha b hb hab => ?_⟩
    exact ((hl.mem b).1 hb).1 (hab ▸ ha)
  · exact (List.mem_append.1 hi).elim (waiting i) fun h => ((hl.mem i).1 h).2.1
  · by_cases hq : i ∈ s.primingQueue
    · exact .inl hq
    · exact .inr ((hl.mem i).2 ⟨hq, hw, (hi hw).resolve_left hq⟩)

theorem stall_primes (s : State) : Primes s (stall s) := by
  by_cases hd : s.device = .running
  · rw [stall_running hd]
    exact (failedReads_primes s).trans (KeepsLaws.foldl reprime_keepsLaws _ _).toPrimes
  · rw [stall_draining hd]
    exact ⟨id, fun _ => awaitsRead_of_not_running hd⟩

theorem stall_ring (s : State) : (stall s).ring = s.ring.map failSlot := reports_ring (stall_reports s)

/-! ### The drain's end, and what a change of the ring brings about -/

/-- With the ring empty and no drain going on the law of the ring holds. -/
theorem ringLaw_of_empty (hr : t.ring = []) (hd : isDraining t = false) : RingLaw t := by
  simp [RingLaw, hr, hd]

theorem applyScope_ringLaw (sc : Scope) (s : State) : RingLaw (applyScope sc s) := by
  cases sc <;> exact ringLaw_of_empty rfl rfl

theorem mem_definedEntries {es : Vector Entry 64} {i : EntryIndex} :
    i ∈ definedEntries es ↔ es[i.val].state ≠ .free := by
  simp [definedEntries]

/-- With every entry FREE and the priming queue empty both laws hold (R16, R17, R53). -/
theorem laws_of_fresh (he : t.entries = freshEntries) (hq : t.primingQueue = []) :
    PrimingQueueLaw t ∧ AwaitsRead t := by
  have hentry : ∀ i, t.entry i = .powerOn := fun i => by simp [State.entry, he, freshEntries]
  refine ⟨⟨by simp [hq], by simp [hq]⟩, fun _ i hw => ?_⟩
  rw [hentry] at hw
  simp [Entry.powerOn] at hw

/-- Either scope leaves exactly the entries that wait on the priming queue (R17, R18, R53). -/
theorem applyScope_laws (sc : Scope) (s : State) :
    PrimingQueueLaw (applyScope sc s) ∧ AwaitsRead (applyScope sc s) := by
  cases sc with
  | full => exact laws_of_fresh rfl rfl
  | keepConfig =>
    have hentry := entry_applyKeepConfig s
    have hmem : ∀ i, i ∈ (applyKeepConfig s).primingQueue ↔ (s.entry i).state ≠ .free :=
      fun i => mem_definedEntries
    have nodup : (definedEntries s.entries).Nodup := (List.nodup_finRange 64).filter _
    refine ⟨⟨nodup, fun i hi => .inl ?_⟩, fun _ i hw => .inl ?_⟩
    · rw [applyScope, hentry, keepEntry, if_neg ((hmem i).1 hi)]
    · refine (hmem i).2 fun hfree => ?_
      rw [applyScope, hentry, keepEntry, if_pos hfree, hfree] at hw
      simp at hw

theorem applyScope_primes (sc : Scope) (s : State) : Primes u (applyScope sc s) :=
  ⟨fun _ => (applyScope_laws sc s).1, fun _ => (applyScope_laws sc s).2⟩

theorem applyScope_keepsLaws (sc : Scope) (s : State) : KeepsLaws u (applyScope sc s) :=
  ⟨applyScope_primes sc s, fun _ => applyScope_ringLaw sc s⟩

theorem endDrain_primes (s : State) : Primes s (endDrain s) := by
  unfold endDrain
  split
  · split
    · exact applyScope_primes _ s
    · exact .refl s
  · exact .refl s

/-- A drain that finds the ring empty ends, and one that goes on has a slot in use (R200). -/
theorem endDrain_ringLaw (hlen : s.ring.length ≤ 32)
    (hloud : (s.ring.head?.all fun x => !silent x) = true) : RingLaw (endDrain s) := by
  unfold endDrain
  split
  next sc hd =>
    split
    · exact applyScope_ringLaw sc s
    next hne => exact ⟨hlen, hloud, fun _ hr => hne (by simp [hr])⟩
  next hd =>
    refine ⟨hlen, hloud, fun hdr => ?_⟩
    obtain ⟨sc, hsc⟩ := (isDraining_iff s).1 hdr
    exact absurd hsc (hd sc)

/-- COMPLETE priming slots hold no read. -/
theorem outstandingPriming_dropWhile (l : List Slot) :
    outstandingPriming l ⊆ outstandingPriming (l.dropWhile silent) := by
  intro p hp
  obtain ⟨a, sent, hp⟩ := mem_outstandingPriming.1 hp
  rw [← List.takeWhile_append_dropWhile (p := silent) (l := l), List.mem_append] at hp
  refine mem_outstandingPriming.2 ⟨a, sent, hp.resolve_left fun ht => ?_⟩
  exact absurd (List.mem_takeWhile_imp ht) (by simp [silent])

theorem leaveSilently_primes (s : State) : Primes s (leaveSilently s) :=
  primes_of_same rfl rfl (outstandingPriming_dropWhile _) fun _ => ⟨rfl, rfl⟩

theorem settle_primes (s : State) : Primes s (settle s) :=
  (leaveSilently_primes s).trans (endDrain_primes _)

theorem settle_ringLaw (h : s.ring.length ≤ 32) : RingLaw (settle s) :=
  endDrain_ringLaw ((List.length_dropWhile_le silent s.ring).trans h) (leaveSilently_loud s)

/-- A change that lengthens the ring by no slot, with what follows at once. -/
theorem Primes.settled (h : Primes s u) (hlen : u.ring.length ≤ s.ring.length) :
    KeepsLaws s (settle u) :=
  ⟨h.trans (settle_primes u), fun hs => settle_ringLaw (hlen.trans hs.1)⟩

theorem takeResponseExpiry_keepsLaws (s : State) : KeepsLaws s (takeResponseExpiry s) :=
  (raise_keepsLaws s .stall).trans
    ((stall_primes _).settled (by simp [stall_ring]))

theorem takeValid_ring_length (s : State) (k : Nat) (r : DownResponse) :
    (takeValid s k r).ring.length = s.ring.length := by
  unfold takeValid
  dsimp only
  split
  · split
    · simp [reports_ring (handOn_reports _ _ r)]
    · simp
  · simp

theorem takeInvalid_primes (s : State) : Primes s (takeInvalid s) :=
  (raise_keepsLaws s .order).toPrimes.trans (stall_primes _)

/-- A response taken while the port is ACTIVE, with what follows at once. -/
theorem settle_checkOrder_keepsLaws (s : State) (r : DownResponse) :
    KeepsLaws s (settle (checkOrder s r)) := by
  have invalid : KeepsLaws s (settle (takeInvalid s)) :=
    (takeInvalid_primes s).settled (by simp [takeInvalid, stall_ring])
  unfold checkOrder
  split
  · split
    · exact (takeValid_primes s _ r).settled (takeValid_ring_length s _ r).le
    · exact invalid
  · exact invalid
/-! ### A slot allocated at the tail, and the sending of a request -/

theorem hasFreeSlot_iff (s : State) : hasFreeSlot s = true ↔ s.ring.length < 32 := decide_eq_true_iff

/-- A slot that is no COMPLETE priming slot takes the tail, where a slot is free (R139, R142). -/
theorem ringLaw_append {x : Slot} (hr : t.ring = s.ring ++ [x]) (hroom : s.ring.length < 32)
    (hx : silent x = false) (hs : RingLaw s) : RingLaw t := by
  obtain ⟨-, hloud, -⟩ := hs
  refine ⟨by simp [hr]; omega, ?_, by simp [hr]⟩
  rw [hr]
  cases hring : s.ring with
  | nil => simp [hx]
  | cons y l => simpa [hring] using hloud

theorem allocate_keepsLaws {x : Slot} (hroom : s.ring.length < 32) (hx : silent x = false) :
    KeepsLaws s (allocate s x) := by
  refine ⟨primes_of_same rfl rfl (fun p hp => ?_) fun _ => ⟨rfl, rfl⟩, ringLaw_append rfl hroom hx⟩
  obtain ⟨a, sent, hp⟩ := mem_outstandingPriming.1 hp
  exact mem_outstandingPriming.2 ⟨a, sent, List.mem_append_left _ hp⟩

/-- A priming read whose slot is marked sent, or whose slot is not, stays in the ring. -/
theorem primingRead_mem_modify_markSent {l : List Slot} {k : Nat} {i : EntryIndex} {g : Byte} {a : Word}
    {sent : Bool} (h : Slot.primingRead i g a sent ∈ l) :
    ∃ sent', Slot.primingRead i g a sent' ∈ l.modify k markSent := by
  cases hk : l[k]? with
  | none => exact ⟨sent, by rwa [List.modify_eq_self (List.getElem?_eq_none_iff.1 hk)]⟩
  | some x =>
    rw [modify_eq_set _ hk]
    rcases mem_set_of_mem (z := markSent x) hk h with rfl | h
    · exact ⟨true, List.mem_set (List.getElem?_eq_some_iff.1 hk).1 _⟩
    · exact ⟨sent, h⟩

@[simp] theorem silent_markSent (x : Slot) : silent (markSent x) = silent x := by cases x <;> rfl

theorem head?_modify_markSent (l : List Slot) (k : Nat) :
    ((l.modify k markSent).head?.all fun x => !silent x) = l.head?.all fun x => !silent x := by
  cases l with
  | nil => simp
  | cons x l => cases k <;> simp

/-- The sending of a request marks its slot alone (R141). -/
theorem sent_keepsLaws (s : State) (k : Nat) (out : Option DownRequest) :
    KeepsLaws s { s with ring := s.ring.modify k markSent, downstreamOut := out } := by
  refine ⟨primes_of_same rfl rfl (fun p hp => ?_) fun _ => ⟨rfl, rfl⟩, fun ⟨hlen, hloud, hdrain⟩ =>
    ⟨by simpa using hlen, ?_, ?_⟩⟩
  · obtain ⟨a, sent, hp⟩ := mem_outstandingPriming.1 hp
    obtain ⟨sent', hp⟩ := primingRead_mem_modify_markSent hp
    exact mem_outstandingPriming.2 ⟨a, sent', hp⟩
  · rw [head?_modify_markSent]
    exact hloud
  · exact fun hd hr => hdrain hd (by simpa using hr)

/-- A priming read in the ring takes the place of its entry on the queue (R43, R45). -/
theorem primingIssue_keepsLaws {i : EntryIndex} {rest : List EntryIndex}
    (hq : s.primingQueue = i :: rest) (hroom : s.ring.length < 32) :
    KeepsLaws s { allocate s (primingSlot s i) with primingQueue := rest } := by
  refine ⟨⟨fun ⟨nodup, waiting⟩ => ?_, awaitsRead_of_awaited rfl fun j hj hw => ?_⟩,
    ringLaw_append rfl hroom rfl⟩
  · rw [hq] at nodup waiting
    exact ⟨(List.nodup_cons.1 nodup).2, fun j hj => waiting j (List.mem_cons_of_mem i hj)⟩
  · rw [readInFlight_iff]
    rcases hj hw with hj | hj
    · rw [hq] at hj
      rcases List.mem_cons.1 hj with rfl | hj
      · have hread := List.mem_append_right s.ring (List.mem_singleton.2 (rfl : primingSlot s j = _))
        exact .inr (mem_outstandingPriming.2 ⟨_, false, hread⟩)
      · exact .inl hj
    · obtain ⟨a, sent, hj⟩ := mem_outstandingPriming.1 ((readInFlight_iff s j).1 hj)
      exact .inr (mem_outstandingPriming.2 ⟨a, sent, List.mem_append_left _ hj⟩)

/-! ### Accesses and requests -/

theorem serveAccess_keepsLaws (s : State) (c : ChannelIndex) (a : WindowAccess) :
    KeepsLaws s (serveAccess s c a).1 := by
  cases a with
  | claim n => exact setChannel_keepsLaws s c _
  | collect =>
    simp only [serveAccess, serveCollect]
    split
    · exact .refl s
    · exact (setChannel_keepsLaws s c _).trans (setEntry_keepsLaws ⟨rfl, rfl⟩)
  | record =>
    simp only [serveAccess, serveRecord]
    split
    · exact .refl s
    · exact setChannel_keepsLaws s c _
  | returnService n => exact keepsLaws_of_eq rfl rfl rfl rfl

theorem takeAccess_keepsLaws (s : State) (c : ChannelIndex) (w : Nat) (q : Request) :
    KeepsLaws s (takeAccess s c w q).1 := by
  unfold takeAccess
  split
  · split
    · exact serveAccess_keepsLaws s c _
    · exact setChannel_keepsLaws s c _
  · exact setChannel_keepsLaws s c _

theorem offerRequest_keepsLaws (s : State) (q : Request) : KeepsLaws s (offerRequest s q) := by
  rcases offerRequest_cases s q with
    h | ⟨⟨-, hroom, -⟩, resp, h⟩ | ⟨⟨-, hroom, -⟩, c, w, resp, h⟩ | ⟨⟨-, hroom, -⟩, -, h⟩ <;> rw [h]
  · exact .refl s
  · exact allocate_keepsLaws hroom rfl
  · have hring : (takeAccess s c w q).1.ring = s.ring :=
      (takeAccess_local (p := False) s c w q).transit.ring
    exact (takeAccess_keepsLaws s c w q).trans (allocate_keepsLaws (by rw [hring]; exact hroom) rfl)
  · exact allocate_keepsLaws hroom rfl

theorem offerAccess_keepsLaws (s : State) (c : ChannelIndex) (n : Source) (w : Nat) (x : Payload) :
    KeepsLaws s (offerAccess s c n w x) := by
  rcases offerAccess_cases s c n w x with h | ⟨q, h⟩ <;> rw [h]
  · exact .refl s
  · exact offerRequest_keepsLaws s q

theorem coverTick_keepsLaws (b : Bool) (s u : State) : KeepsLaws u (coverTick b s u) :=
  keepsLaws_of_eq (coverTick_entries s b u) (coverTick_device s b u) (coverTick_primingQueue s b u)
    (coverTick_ring s b u)

/-! ### Ticks and expiries -/

theorem giveNotice_keepsLaws (s : State) (c : ChannelIndex) (cause : LapseCause) (ts : Word) :
    KeepsLaws s (giveNotice s c cause ts) := by
  unfold giveNotice
  split
  · exact raise_keepsLaws s _
  · split
    · exact keepsLaws_of_eq rfl rfl rfl rfl
    · exact raise_keepsLaws s _

theorem lapse_keepsLaws (s : State) (c : ChannelIndex) (cause : LapseCause) (ts : Word) :
    KeepsLaws s (lapse s c cause ts) :=
  (setChannel_keepsLaws s c _).trans (giveNotice_keepsLaws _ c cause ts)

theorem takeHoldoffExpiry_keepsLaws (s : State) (c : ChannelIndex) :
    KeepsLaws s (takeHoldoffExpiry s c) := by
  unfold takeHoldoffExpiry
  split
  · exact setChannel_keepsLaws s c _
  · exact .refl s

theorem takeClaimExpiry_keepsLaws (s : State) (c : ChannelIndex) (ts : Word) :
    KeepsLaws s (takeClaimExpiry s c ts) := by
  unfold takeClaimExpiry
  split
  · exact lapse_keepsLaws s c _ ts
  · exact .refl s

theorem takeServiceExpiry_keepsLaws (s : State) (c : ChannelIndex) (ts : Word) :
    KeepsLaws s (takeServiceExpiry s c ts) := by
  unfold takeServiceExpiry
  split
  · exact lapse_keepsLaws s c _ ts
  · exact .refl s

theorem takeExpiries_keepsLaws (k : Channel) (s : State) (c : ChannelIndex) :
    KeepsLaws s (takeExpiries k s c) :=
  (((KeepsLaws.refl s).stepIf _ (takeHoldoffExpiry_keepsLaws s c)).stepIf _
    (takeClaimExpiry_keepsLaws _ _ _)).stepIf _ (takeServiceExpiry_keepsLaws _ _ _)

theorem takeTickAt_keepsLaws (s : State) (o : TickOwner) : KeepsLaws s (s.takeTickAt o) :=
  keepsLaws_of_eq rfl rfl rfl rfl

theorem execTick_keepsLaws {order : List ChannelIndex} (h : execTick order s = .next t) :
    KeepsLaws s t := by
  cases h
  have hl : KeepsLaws s (lowerTimers (advanceTimebase s)) := keepsLaws_of_eq rfl rfl rfl rfl
  by_cases hr : s.device = .reset
  · rw [if_pos hr]
    exact .refl s
  rw [if_neg hr]
  refine KeepsLaws.stepIf _ ?_ (takeResponseExpiry_keepsLaws _)
  split
  · exact hl.trans (.foldl (fun _ _ => takeExpiries_keepsLaws _ _ _) _ _)
  · exact hl

/-! ### Management commands -/

theorem withManagement_keepsLaws (s : State) (m : ManagementPort) :
    KeepsLaws s { s with management := m } := keepsLaws_of_eq rfl rfl rfl rfl

theorem executeCommand_keepsLaws {cmd : Command} {args : List Byte}
    {body : State → Except ResultCode (State × List Byte)}
    (h : ∀ t bytes, body s = .ok (t, bytes) → KeepsLaws s t) :
    KeepsLaws s (executeCommand cmd args body s) := by
  rcases executeCommand_effect cmd args body s with ⟨m, he⟩ | ⟨t, bytes, m, hb, -, he⟩ <;> rw [he]
  · exact withManagement_keepsLaws s m
  · exact (h t bytes hb).trans (withManagement_keepsLaws t m)

theorem defineEntry_keepsLaws (s : State) (i : EntryIndex) {e : Entry} (h : Waiting e) :
    KeepsLaws s (defineEntry s i e) :=
  (setChannel_keepsLaws s _ _).trans (enqueue_setEntry_keepsLaws _ i h)

theorem releaseEntry_keepsLaws (s : State) (i : EntryIndex) : KeepsLaws s (releaseEntry s i) :=
  (setChannel_keepsLaws s _ _).trans
    (leave_setEntry_keepsLaws _ i (by simp [Waiting, releasedEntry, Entry.powerOn]))

theorem disableChannel_keepsLaws (s : State) (c : ChannelIndex) : KeepsLaws s (disableChannel s c) := by
  unfold disableChannel
  split
  · exact .refl s
  · exact setChannel_keepsLaws s c _

theorem freeQueue_keepsLaws (s : State) (c : ChannelIndex) : KeepsLaws s (freeQueue s c) :=
  keepsLaws_of_eq rfl rfl rfl rfl

theorem purgePending_keepsLaws (s : State) (c : ChannelIndex) : KeepsLaws s (purgePending s c) :=
  (KeepsLaws.foldl (f := fun t i => t.setEntry i { t.entry i with pendingMask := 0 })
    (fun _ _ => setEntry_keepsLaws ⟨rfl, rfl⟩) _ _).trans (setChannel_keepsLaws _ c _)

theorem purgeChannel_keepsLaws (s : State) (c : ChannelIndex) : KeepsLaws s (purgeChannel s c) :=
  ((disableChannel_keepsLaws s c).trans (freeQueue_keepsLaws _ c)).trans (purgePending_keepsLaws _ c)

theorem channelDisableBody_keepsLaws {channel purge : Byte} {bytes : List Byte}
    (h : channelDisableBody channel purge s = .ok (t, bytes)) : KeepsLaws s t := by
  obtain ⟨c, -, h⟩ := bind_eq_ok.1 h
  obtain ⟨purged, -, h⟩ := bind_eq_ok.1 h
  cases h
  cases purged with
  | false => exact disableChannel_keepsLaws s c
  | true => exact purgeChannel_keepsLaws s c

/-- The start of a drain, which ends at once where the ring is empty (R198, R200). -/
theorem deviceReset_keepsLaws (sc : Scope) (s : State) :
    KeepsLaws s (endDrain { s with device := .draining sc }) := by
  have started : Primes s { s with device := .draining sc } :=
    ⟨id, fun _ => awaitsRead_of_not_running (by simp)⟩
  exact ⟨started.trans (endDrain_primes _), fun ⟨hlen, hloud, _⟩ => endDrain_ringLaw hlen hloud⟩

theorem riseSelect_keepsLaws (s : State) : KeepsLaws s (riseSelect s) := by
  unfold riseSelect
  dsimp only
  split <;> exact keepsLaws_of_eq rfl rfl rfl rfl

/-! ### Every command keeps the three laws -/

theorem exec_calm_keepsLaws {c : Instr} (hcalm : calm c = true) (h : exec c s = .next t) :
    KeepsLaws s t := by
  cases c with
  | holdoffExpiry c =>
    cases h
    split
    · exact (takeTickAt_keepsLaws s _).trans (takeHoldoffExpiry_keepsLaws _ c)
    · exact .refl s
  | claimDeadlineExpiry c =>
    cases h
    split
    · exact (takeTickAt_keepsLaws s _).trans (takeClaimExpiry_keepsLaws _ c _)
    · exact .refl s
  | serviceDeadlineExpiry c =>
    cases h
    split
    · exact (takeTickAt_keepsLaws s _).trans (takeServiceExpiry_keepsLaws _ c _)
    · exact .refl s
  | watchRelease i =>
    cases h
    refine executeCommand_keepsLaws fun t bytes hb => ?_
    obtain ⟨i, -, hb⟩ := bind_eq_ok.1 hb
    cases hb
    exact releaseEntry_keepsLaws s i
  | watchQuery i =>
    cases h
    refine executeCommand_keepsLaws fun t bytes hb => ?_
    obtain ⟨i, -, hb⟩ := bind_eq_ok.1 hb
    cases hb
    exact .refl s
  | channelEnable c =>
    cases h
    refine executeCommand_keepsLaws fun t bytes hb => ?_
    obtain ⟨c, -, hb⟩ := bind_eq_ok.1 hb
    obtain ⟨-, -, hb⟩ := bind_eq_ok.1 hb
    cases hb
    exact setChannel_keepsLaws s c _
  | channelDisable c b => cases h; exact executeCommand_keepsLaws fun _ _ => channelDisableBody_keepsLaws
  | channelDisablePurge c => cases h; exact executeCommand_keepsLaws fun _ _ => channelDisableBody_keepsLaws
  | channelReinstate c =>
    cases h
    refine executeCommand_keepsLaws fun t bytes hb => ?_
    obtain ⟨c, -, hb⟩ := bind_eq_ok.1 hb
    obtain ⟨-, -, hb⟩ := bind_eq_ok.1 hb
    cases hb
    exact setChannel_keepsLaws s c _
  | channelQuery c =>
    cases h
    refine executeCommand_keepsLaws fun t bytes hb => ?_
    obtain ⟨c, -, hb⟩ := bind_eq_ok.1 hb
    cases hb
    exact setChannel_keepsLaws s c _
  | faultMaskSet m =>
    cases h
    refine executeCommand_keepsLaws fun t bytes hb => ?_
    cases hb
    exact keepsLaws_of_eq rfl rfl rfl rfl
  | statusQuery =>
    cases h
    refine executeCommand_keepsLaws fun t bytes hb => ?_
    cases hb
    exact .refl s
  | faultCollect =>
    cases h
    refine executeCommand_keepsLaws fun t bytes hb => ?_
    cases hb
    exact keepsLaws_of_eq rfl rfl rfl rfl
  | unknownCommand code =>
    cases h
    split
    · exact withManagement_keepsLaws s _
    · exact .refl s
  | frameDiscard bits => cases h; exact (withManagement_keepsLaws s _).trans (riseSelect_keepsLaws _)
  | frameCutAfterExecution bits =>
    cases h
    exact (withManagement_keepsLaws s _).trans (riseSelect_keepsLaws _)
  | frameBegin bits =>
    cases h
    split <;> exact withManagement_keepsLaws s _
  | _ => cases hcalm

/-- Every command but the rise of RESET_N, which needs the power-on values behind it, keeps the laws. -/
theorem exec_keepsLaws {c : Instr} (hrise : c ≠ .resetNRise) (h : exec c s = .next t) :
    KeepsLaws s t := by
  by_cases hcalm : calm c = true
  · exact exec_calm_keepsLaws hcalm h
  cases c with
  | resetNFall =>
    cases h
    exact ⟨⟨fun _ => (laws_of_fresh rfl rfl).1, fun _ => awaitsRead_of_not_running (by simp)⟩,
      fun _ => ringLaw_of_empty rfl rfl⟩
  | resetNRise => exact absurd rfl hrise
  | tick order => exact execTick_keepsLaws h
  | responseTimerExpiry =>
    cases h
    split
    · exact (takeTickAt_keepsLaws s _).trans (takeResponseExpiry_keepsLaws _)
    · exact .refl s
  | requestAccept q b =>
    cases h
    exact (offerRequest_keepsLaws s q).trans (coverTick_keepsLaws b s _)
  | claim n c len b => cases h; exact (offerAccess_keepsLaws s c n _ _).trans (coverTick_keepsLaws b s _)
  | collect n c => cases h; exact offerAccess_keepsLaws s c n _ _
  | record n c b => cases h; exact (offerAccess_keepsLaws s c n _ _).trans (coverTick_keepsLaws b s _)
  | returnService n c count b =>
    cases h
    exact (offerAccess_keepsLaws s c n _ _).trans (coverTick_keepsLaws b s _)
  | refusedWindowAccess n c w x => cases h; exact offerAccess_keepsLaws s c n _ x
  | primingIssue =>
    cases h
    split
    next hp =>
      have hroom : s.ring.length < 32 := by
        rw [Bool.and_eq_true, hasFreeSlot_iff] at hp
        exact hp.2
      split
      next i rest hq => exact primingIssue_keepsLaws hq hroom
      next => exact .refl s
    next => exact .refl s
  | downstreamSend =>
    cases h
    split
    · split
      · exact sent_keepsLaws s _ _
      · exact .refl s
    · exact .refl s
  | downstreamResponse r b =>
    cases h
    refine KeepsLaws.trans ?_ (coverTick_keepsLaws b s _)
    split
    · exact .refl s
    · split
      · exact raise_keepsLaws s _
      · exact settle_checkOrder_keepsLaws s r
  | slotLeave =>
    cases h
    split
    next n w a len resp rest hring =>
      refine Primes.settled (primes_of_same rfl rfl ?_ fun _ => ⟨rfl, rfl⟩) (by simp [hring])
      rw [hring]
      exact fun p hp => hp
    next => exact (Primes.refl s).settled le_rfl
  | scopeFullApply =>
    cases h
    split
    · exact applyScope_keepsLaws .full s
    · exact .refl s
  | scopeKeepConfigApply =>
    cases h
    split
    · exact applyScope_keepsLaws .keepConfig s
    · exact .refl s
  | watchDefine a =>
    rcases exec_watchDefine_effect h with ⟨m, rfl⟩ | ⟨i, m, c, b, mg, -, -, -, rfl⟩
    · exact withManagement_keepsLaws s m
    · exact (defineEntry_keepsLaws s i (.inl rfl)).trans (withManagement_keepsLaws _ mg)
  | channelDefine a =>
    rcases exec_channelDefine_effect h with ⟨m, rfl⟩ | ⟨c, cfg, mg, -, -, -, rfl⟩ <;>
      exact keepsLaws_of_eq rfl rfl rfl rfl
  | timingSet d v =>
    cases h
    refine executeCommand_keepsLaws fun t bytes hb => ?_
    obtain ⟨rfl, -⟩ := timingSetBody_ok hb
    exact keepsLaws_of_eq rfl rfl rfl rfl
  | linkResume =>
    cases h
    refine executeCommand_keepsLaws fun t bytes hb => ?_
    rw [linkResumeBody_ok hb]
    exact keepsLaws_of_eq rfl rfl rfl rfl
  | deviceReset sc =>
    cases h
    refine executeCommand_keepsLaws fun t bytes hb => ?_
    obtain ⟨sc, rfl⟩ := deviceResetBody_ok hb
    exact deviceReset_keepsLaws sc s
  | _ => exact absurd rfl hcalm

/-! ### The rise of RESET_N, and every step -/

theorem exec_resetNRise_cases (h : exec .resetNRise s = .next t) :
    t = s ∨ s.device = .reset ∧ t = { s with device := .running } := by
  cases h
  split
  next hd => exact .inr ⟨hd, rfl⟩
  next => exact .inl rfl

theorem exec_ringLaw {c : Instr} (hs : RingLaw s) (h : exec c s = .next t) : RingLaw t := by
  by_cases hrise : c = .resetNRise
  · subst hrise
    rcases exec_resetNRise_cases h with rfl | ⟨-, rfl⟩
    · exact hs
    · obtain ⟨hlen, hloud, -⟩ := hs
      exact ⟨hlen, hloud, fun hd => by cases hd⟩
  · exact (exec_keepsLaws hrise h).ring hs

theorem exec_primingQueueLaw {c : Instr} (hs : PrimingQueueLaw s) (h : exec c s = .next t) :
    PrimingQueueLaw t := by
  by_cases hrise : c = .resetNRise
  · subst hrise
    rcases exec_resetNRise_cases h with rfl | ⟨-, rfl⟩ <;> exact hs
  · exact (exec_keepsLaws hrise h).queue hs

/-- Where RESET_N rises every entry is FREE, so none waits (R16, R197). -/
theorem exec_awaitsRead {c : Instr} (hs : AwaitsRead s) (hr : ResetHolds s) (h : exec c s = .next t) :
    AwaitsRead t := by
  by_cases hrise : c = .resetNRise
  · subst hrise
    rcases exec_resetNRise_cases h with rfl | ⟨hd, rfl⟩
    · exact hs
    · rw [hr hd]
      exact (laws_of_fresh rfl rfl).2
  · exact (exec_keepsLaws hrise h).awaits hs

/-- The waiting commands are no block's value. -/
theorem resetHolds_withPending (l : List Instr) (hs : ResetHolds s) :
    ResetHolds { s with pending := l } :=
  fun hd => congrArg (fun u : State => { u with pending := l }) (hs hd)

/-- Settles O57: each law is kept command by command; the rise of RESET_N finds the power-on values. -/
theorem ringAndPrimingLawsKept : Obligations.RingAndPrimingLawsKept :=
  ⟨step_keeps (fun _ _ hs => hs) fun _ _ _ => exec_ringLaw,
    step_keeps (fun _ _ hs => hs) fun _ _ _ => exec_primingQueueLaw,
    step_keeps (P := fun s => AwaitsRead s ∧ ResetHolds s)
      (fun _ l hs => ⟨hs.1, resetHolds_withPending l hs.2⟩)
      fun _ _ _ hs h => ⟨exec_awaitsRead hs.1 hs.2 h, exec_resetHolds hs.2 h⟩⟩
/-! ### A stall in full, and the issue of a priming read -/

/-- The stall of a RUNNING part: behind the priming queue stand the entries of the failed reads, then
those that were ARMED, ascending (R13, R52, R160). -/
theorem stall_eq (hd : s.device = .running) (hq : PrimingQueueLaw s) :
    ∃ es l, Rejoins s l ∧
      (∀ i : EntryIndex, es[i.val] = if (s.entry i).state = .armed then
        { s.entry i with state := .repriming } else s.entry i) ∧
      stall s = { failOutstanding s with
        entries := es
        primingQueue := s.primingQueue ++ l ++
          (List.finRange 64).filter (fun i => (s.entry i).state = .armed) } := by
  obtain ⟨l, hl, reads⟩ := failedReads_eq s
  have unqueued : ∀ i ∈ List.finRange 64, (s.entry i).state = .armed → i ∉ s.primingQueue ++ l := by
    intro i _ harmed hi
    have hw : Waiting (s.entry i) := (List.mem_append.1 hi).elim (hq.2 i) fun h => ((hl.mem i).1 h).2.1
    simp [Waiting, harmed] at hw
  obtain ⟨es, reprimed, hentry⟩ := foldl_reprime (List.finRange 64) (List.nodup_finRange 64)
    { failOutstanding s with primingQueue := s.primingQueue ++ l } unqueued
  simp only [List.mem_finRange, true_and, reprimed] at hentry
  refine ⟨es, l, hl, fun i => ?_, ?_⟩
  · exact hentry i
  · rw [stall_running hd, reads]
    exact reprimed

/-- The stall of a RUNNING part with the flag of its cause and what follows at once. -/
theorem settle_stall_running (f : FaultFlag) (hd : s.device = .running) (hq : PrimingQueueLaw s) :
    Stalls s (settle (stall (s.raise f))) (faultBit f) := by
  obtain ⟨es, l, hl, hentry, h⟩ := stall_eq (s := s.raise f) hd hq
  rw [h, settle_running (by exact hd)]
  exact ⟨hentry, ⟨l, rfl, hl.nodup, hl.sublist, hl.mem⟩, rfl⟩

/-- The stall of a DRAINING part with the flag of its cause, where a ring left empty ends the drain
(R14, R160, R200). -/
theorem settle_stall_draining (f : FaultFlag) {sc : Scope} (hd : s.device = .draining sc) :
    settle (stall (s.raise f)) = if (stalledInDrain s (faultBit f)).ring = [] then
        applyScope sc (stalledInDrain s (faultBit f))
      else stalledInDrain s (faultBit f) := by
  have hne : (s.raise f).device ≠ .running := by
    rw [raise_device, hd]
    simp
  rw [stall_draining hne, settle_draining (sc := sc) (by exact hd)]
  rfl

theorem exec_responseTimerExpiry_due (hd : s.device ≠ .reset) (hl : s.link = .active)
    (ht : s.responseTimer = .running 1) (hp : .port ∉ s.tickTaken) :
    exec .responseTimerExpiry s = .next (settle (stall ((s.takeTickAt .port).raise .stall))) := by
  have hx : expiresNext s.responseTimer = true := by rw [ht]; rfl
  exact congrArg Host.Outcome.next (if_pos ⟨hd, hl, (awaitsTick_iff s .port).2 hp, hx⟩)

/-- Settles O12: an expiry that is due is a stall with STALL as its flag. -/
theorem responseTimerExpiryStalls : Obligations.ResponseTimerExpiryStalls := by
  refine ⟨fun s hd hl ht hp hq => ?_, fun s sc hd hl ht hp => ?_, fun s h => ?_⟩
  · exact ⟨_, exec_responseTimerExpiry_due (by simp [hd]) hl ht hp,
      settle_stall_running (s := s.takeTickAt .port) .stall hd hq⟩
  · exact (exec_responseTimerExpiry_due (by simp [hd]) hl ht hp).trans
      (congrArg Host.Outcome.next (settle_stall_draining (s := s.takeTickAt .port) .stall hd))
  · refine congrArg Host.Outcome.next (if_neg fun ⟨hd, hl, hp, hx⟩ => ?_)
    rcases h with h | h | h | h
    · exact hd h
    · simp [hl] at h
    · exact (awaitsTick_iff s .port).1 hp h
    · simp [hx] at h

/-- A response that carries no expected slot's tag stalls the port (R143, R157). -/
theorem exec_invalid_response {r : DownResponse} (hd : s.device ≠ .reset) (hl : s.link = .active)
    (ht : ∀ k x, ExpectedAt s k x → r.tag ≠ s.head + Fin.ofNat 32 k) :
    exec (.downstreamResponse r) s = .next (settle (stall (s.raise .order))) := by
  have invalid : checkOrder s r = takeInvalid s := by
    unfold checkOrder
    split
    next k hk =>
      obtain ⟨x, hx⟩ := expectedAt_of_expectedPlace hk
      exact if_neg fun htag => ht k x hx htag.symm
    next => rfl
  simp only [exec, execDownstreamResponse, coverTick_false]
  rw [if_neg hd, if_neg (by simp [hl]), invalid]
  rfl

/-- Settles O30: a response out of order is a stall with ORDER as its flag. -/
theorem invalidResponseStalls : Obligations.InvalidResponseStalls := by
  intro s r hl ht
  refine ⟨fun hd hq => ?_, fun sc hd => ?_⟩
  · exact ⟨_, exec_invalid_response (by simp [hd]) hl ht, settle_stall_running .order hd hq⟩
  · exact (exec_invalid_response (by simp [hd]) hl ht).trans
      (congrArg Host.Outcome.next (settle_stall_draining .order hd))

/-! ### The issue of a priming read -/

theorem primingPresents_iff (s : State) :
    primingPresents s = true ↔ s.device = .running ∧ s.link = .active ∧ s.primingQueue ≠ [] := by
  simp [primingPresents, and_assoc]

theorem allocate_primingSlot (s : State) (i : EntryIndex) :
    allocate s (primingSlot s i) = { s with
      ring := s.ring ++ [.primingRead i (s.entry i).generation (s.entry i).address false]
      responseTimer :=
        if s.ring.any outstanding then s.responseTimer else startTimer s.responseTimeout } := by
  cases h : s.ring.any outstanding <;> simp [allocate, primingSlot, outstanding, h]

/-- Settles O23: the grant needs the presenting queue and the free slot, and forms the head's read. -/
theorem primingReadIssued : Obligations.PrimingReadIssued := by
  refine ⟨fun s i rest hd hl hroom hq => ?_, fun s h => ?_⟩
  · have granted : (primingPresents s && hasFreeSlot s) = true := by
      rw [Bool.and_eq_true, primingPresents_iff, hasFreeSlot_iff]
      exact ⟨⟨hd, hl, by simp [hq]⟩, hroom⟩
    have key : exec .primingIssue s =
        .next { allocate s (primingSlot s i) with primingQueue := rest } := by
      simp only [exec, execPrimingIssue]
      rw [if_pos granted, hq]
    exact key.trans (congrArg (fun u : State => Host.Outcome.next { u with primingQueue := rest })
      (allocate_primingSlot s i))
  · refine congrArg Host.Outcome.next (if_neg fun granted => ?_)
    rw [Bool.and_eq_true, primingPresents_iff, hasFreeSlot_iff] at granted
    obtain ⟨⟨hd, hl, hq⟩, hroom⟩ := granted
    rcases h with h | h | h | h
    · exact h hd
    · simp [hl] at h
    · exact hq h
    · omega

end

end Sys2Proof.Proofs

/-! SUPPORT and PROOFS. The lengths of the channel queues and the pool through every command, and the
proofs of the statements that cite chapter 4. -/

namespace Sys2Proof.Proofs

open Sys2Proof Sys2Proof.Machine Sys2Proof.Safety

section

variable {s t : State}

/-! ### The length of a queue behind each act of its channel (R69, R71, R72) -/

@[simp] theorem queueLength_enterAlerting (k : Channel) :
    queueLength (enterAlerting k) = queueLength k := rfl

@[simp] theorem queueLength_revert (k : Channel) : queueLength (revert k) = queueLength k := by
  simp [queueLength]

@[simp] theorem queueLength_leaveIdle (k : Channel) : queueLength (leaveIdle k) = queueLength k := by
  unfold leaveIdle
  split <;> rfl

@[simp] theorem queueLength_deliver (k : Channel) : queueLength (deliver k) = queueLength k := by
  simp [queueLength]

@[simp] theorem queueLength_settleContent (k : Channel) :
    queueLength (settleContent k) = queueLength k := by
  unfold settleContent
  split <;> rfl

@[simp] theorem queueLength_enable (k : Channel) : queueLength (enable k) = queueLength k := by
  unfold enable
  dsimp only
  split
  · exact queueLength_leaveIdle _
  · rfl

@[simp] theorem queueLength_claimChannel (k : Channel) :
    queueLength (claimChannel k) = queueLength k := by
  unfold claimChannel
  split <;> rfl

@[simp] theorem queueLength_lapseChannel (cause : LapseCause) (k : Channel) :
    queueLength (lapseChannel cause k) = queueLength k := by
  cases cause with
  | claim => rfl
  | service => exact queueLength_revert k

/-- A record appended at the tail (R61). -/
theorem queueLength_appended (k : Channel) (r : Record) (n : Half) :
    queueLength { k with queued := k.queued ++ [r], nextSequence := n } = queueLength k + 1 := by
  simp [queueLength, Nat.add_assoc]

/-- The oldest QUEUED record becomes the last HANDED one (R70). -/
theorem queueLength_handedOut {k : Channel} {r : Record} {l : List Record} (h : k.queued = r :: l)
    (v : Timer) :
    queueLength { k with handed := k.handed ++ [r], queued := l, serviceTimer := v } =
      queueLength k := by
  simp only [queueLength, h, List.length_append, List.length_cons, List.length_nil]
  omega

/-- A RETURN of `n` takes the oldest `n` HANDED records, or all, out of the queue (R71). -/
theorem queueLength_returnChannel (k : Channel) (n : Nat) :
    queueLength (returnChannel k n) + min n k.handed.length = queueLength k := by
  have h : queueLength (returnChannel k n) = k.handed.length - n + k.queued.length := by
    rw [returnChannel, queueLength_settleContent]
    simp [queueLength, revert]
  rw [h, queueLength]
  omega

/-! ### The law of quota (R66) -/

/-- No act takes a queue past its channel's quota: creation alone lengthens it, and needs room there. -/
theorem ChannelMove.withinQuota {k k' : Channel} (h : ChannelMove k k')
    (hk : queueLength k ≤ k.config.quota.toNat) : queueLength k' ≤ k'.config.quota.toNat := by
  cases h with
  | appended _ room r =>
    rw [queueLength_appended]
    exact room
  | handedOut _ r l oldest =>
    rw [queueLength_handedOut oldest]
    exact hk
  | returned _ n =>
    have hlen := queueLength_returnChannel k n
    rw [show (returnChannel k n).config = k.config from settleContent_config _]
    omega
  | delivered => rwa [queueLength_deliver, deliver_config]
  | claimed _ => rwa [queueLength_claimChannel, claimChannel_config]
  | enabled _ => rwa [queueLength_enable, enable_config]
  | reinstated _ => rwa [queueLength_settleContent, settleContent_config]
  | serviceLapsed _ => rwa [queueLength_lapseChannel]
  | disabled => exact (queueLength_disable k).le.trans hk
  | freed => exact Nat.zero_le _
  | kept => exact Nat.zero_le _
  | fresh => exact Nat.zero_le _
  | _ => exact hk

theorem step_keeps_withinQuota (s t : State) : WithinQuota s → step s = .next t → WithinQuota t := by
  refine step_keeps_tables (fun hm hs d => ?_) (fun _ _ _ hs d => ?_) (fun _ _ hs d => ?_) s t
  · exact keeps_of_chain (P := fun k => queueLength k ≤ k.config.quota.toNat)
      (fun _ _ h => h.withinQuota) (hm.channels d) (hs d)
  · obtain ⟨l, hd⟩ := defineEntry_channel _ _ _ d
    rw [hd]
    exact hs d
  · rw [defineChannel_channel]
    split
    · exact Nat.zero_le _
    · exact hs d

/-! ### The pool behind each shared operation (R56) -/

/-- Conservation reads the pool and the channels alone. -/
theorem poolConserved_congr (hs : PoolConserved s) (hc : t.channels = s.channels)
    (hf : t.freeRecords = s.freeRecords) : PoolConserved t := by
  unfold PoolConserved
  rw [recordsHeld_congr hc, hf]
  exact hs

/-- What one queue gains the pool loses, and the other way round. -/
theorem poolConserved_exchange {c : ChannelIndex} {k : Channel} {n : Nat} (hs : PoolConserved s)
    (h : n + queueLength k = s.freeRecords + queueLength (s.channel c)) :
    PoolConserved { s.setChannel c k with freeRecords := n } := by
  have hheld := recordsHeld_setChannel s c k
  have hn : recordsHeld { s.setChannel c k with freeRecords := n } = recordsHeld (s.setChannel c k) :=
    recordsHeld_congr rfl
  unfold PoolConserved at hs ⊢
  rw [hn]
  dsimp only
  omega

theorem setChannel_pool {c : ChannelIndex} {k : Channel} (h : queueLength k = queueLength (s.channel c))
    (hs : PoolConserved s) : PoolConserved (s.setChannel c k) :=
  poolConserved_exchange (n := s.freeRecords) hs (by rw [h])

/-- A record is taken from a pool that has one (R61, R63). -/
theorem appendRecord_pool {c : ChannelIndex} (h : canCreate s c = true) (body : RecordBody) (ts : Word)
    (hs : PoolConserved s) : PoolConserved (appendRecord s c body ts) := by
  obtain ⟨-, -, hfree⟩ := (canCreate_iff s c).1 h
  refine poolConserved_exchange hs ?_
  rw [queueLength_appended]
  omega

theorem createRecord_pool (c : ChannelIndex) (body : RecordBody) (hs : PoolConserved s) :
    PoolConserved (createRecord s c body) := by
  unfold createRecord
  split
  next h => exact appendRecord_pool h body _ hs
  next => exact setChannel_pool (by rfl) hs

theorem deliverTo_pool (c : ChannelIndex) (hs : PoolConserved s) : PoolConserved (deliverTo s c) :=
  setChannel_pool (queueLength_deliver _) hs

/-- A queue freed goes back to the pool whole (R73, R74). -/
theorem freeQueue_pool (c : ChannelIndex) (hs : PoolConserved s) : PoolConserved (freeQueue s c) :=
  poolConserved_exchange hs (by simp [queueLength])

/-! ### The pool behind an evaluation, a response and the stall -/

theorem setEntry_pool (i : EntryIndex) (e : Entry) (hs : PoolConserved s) :
    PoolConserved (s.setEntry i e) :=
  poolConserved_congr hs rfl rfl

theorem addPending_pool (i : EntryIndex) (mask : Word) (hs : PoolConserved s) :
    PoolConserved (addPending s i mask) := by
  rw [addPending_eq]
  exact setChannel_pool (by rfl) (setEntry_pool i _ hs)

theorem qualifyingEvent_pool (i : EntryIndex) (cause : Cause) (ch : Change) (hs : PoolConserved s) :
    PoolConserved (qualifyingEvent s i cause ch) := by
  cases hm : (s.entry i).mode with
  | flag =>
    rw [qualifyingEvent_flag hm]
    exact deliverTo_pool _ (addPending_pool i _ hs)
  | record =>
    rw [qualifyingEvent_record hm]
    exact deliverTo_pool _ (createRecord_pool _ _ (addPending_pool i _ hs))
  | count =>
    by_cases hlt : (s.entry i).count.toNat + 1 < (s.entry i).threshold.toNat
    · rw [qualifyingEvent_below hm hlt]
      exact setEntry_pool i _ hs
    · rw [qualifyingEvent_threshold hm hlt]
      exact deliverTo_pool _ (createRecord_pool _ _ (setEntry_pool i _ hs))

theorem evaluate_pool (i : EntryIndex) (cause : Cause) (new : Word) (hs : PoolConserved s) :
    PoolConserved (evaluate s i cause new) := by
  rcases evaluate_eq s i cause new with he | ⟨ch, he⟩ <;> rw [he]
  · exact setEntry_pool i _ hs
  · exact setEntry_pool i _ (qualifyingEvent_pool i cause ch hs)

theorem reprime_pool (i : EntryIndex) (hs : PoolConserved s) : PoolConserved (reprime s i) := by
  rw [reprime_eq]
  split
  · exact poolConserved_congr hs rfl rfl
  · exact hs

theorem primingCompletion_pool (i : EntryIndex) (g : Byte) (w : Option Word) (hs : PoolConserved s) :
    PoolConserved (primingCompletion s i g w) := by
  unfold primingCompletion
  split
  · cases w with
    | some w =>
      simp only [primingOkay]
      split
      · exact poolConserved_congr hs rfl rfl
      · exact poolConserved_congr (evaluate_pool i .unseen w hs) rfl rfl
      · exact hs
    | none =>
      obtain ⟨q, h⟩ := primingFault_frame s i
      exact poolConserved_congr hs (by rw [h]) (by rw [h])
  · exact hs

theorem writeWord_pool (n : Source) (x : Word × WriteWord) (hs : PoolConserved s) :
    PoolConserved (writeWord n s x) := by
  unfold writeWord
  split
  · split
    · exact evaluate_pool _ _ _ hs
    · exact hs
  · exact hs

theorem readWord_pool (x : Word × Word) (hs : PoolConserved s) : PoolConserved (readWord s x) := by
  unfold readWord
  split
  · split
    · exact evaluate_pool _ _ _ hs
    · exact hs
  · exact hs

theorem faultWord_pool (x : Word × WriteWord) (hs : PoolConserved s) :
    PoolConserved (faultWord s x) := by
  obtain ⟨es, q, h⟩ := faultWord_frame s x
  rw [h]
  exact poolConserved_congr hs rfl rfl

theorem handOn_pool (x : Slot) (r : DownResponse) (hs : PoolConserved s) :
    PoolConserved (handOn s x r) := by
  unfold handOn
  split
  · split
    · split
      · exact List.foldlRecOn _ _ hs fun _ h x _ => writeWord_pool _ x h
      · exact List.foldlRecOn _ _ hs fun _ h x _ => faultWord_pool x h
    · split
      · exact List.foldlRecOn _ _ hs fun _ h x _ => readWord_pool x h
      · exact hs
  · exact primingCompletion_pool _ _ _ hs
  · exact hs

theorem stall_pool (hs : PoolConserved s) : PoolConserved (stall s) := by
  have hf : PoolConserved (failOutstanding s) := poolConserved_congr hs rfl rfl
  by_cases h : s.device = .running
  · rw [stall_running h]
    have reads := List.foldlRecOn (outstandingPriming s.ring) _ hf
      fun _ hu x _ => primingCompletion_pool x.1 x.2 none hu
    exact List.foldlRecOn _ _ reads fun _ hu i _ => reprime_pool i hu
  · rw [stall_draining h]
    exact hf

/-- Either scope leaves every queue empty and the pool full (R75, R77). -/
theorem poolConserved_of_empty (hq : ∀ c, queueLength (t.channel c) = 0) (hf : t.freeRecords = 128) :
    PoolConserved t := by
  simp [PoolConserved, recordsHeld, hq, hf]

theorem poolConserved_fresh (hc : t.channels = freshChannels) (hf : t.freeRecords = 128) :
    PoolConserved t :=
  poolConserved_of_empty
    (fun c => by simp [State.channel, hc, freshChannels, Channel.powerOn, queueLength]) hf

theorem applyScope_pool (sc : Scope) (s : State) : PoolConserved (applyScope sc s) := by
  cases sc with
  | full => exact poolConserved_fresh rfl rfl
  | keepConfig =>
    refine poolConserved_of_empty (fun c => ?_) rfl
    rw [applyScope, channel_applyKeepConfig]
    rfl

theorem endDrain_pool (hs : PoolConserved s) : PoolConserved (endDrain s) := by
  unfold endDrain
  split
  · split
    · exact applyScope_pool _ s
    · exact hs
  · exact hs

theorem settle_pool (hs : PoolConserved s) : PoolConserved (settle s) :=
  endDrain_pool (poolConserved_congr hs rfl rfl)

theorem takeResponseExpiry_pool (hs : PoolConserved s) : PoolConserved (takeResponseExpiry s) :=
  settle_pool (stall_pool (poolConserved_congr hs rfl rfl))

theorem checkOrder_pool (r : DownResponse) (hs : PoolConserved s) : PoolConserved (checkOrder s r) := by
  have invalid : PoolConserved (takeInvalid s) := stall_pool (poolConserved_congr hs rfl rfl)
  have valid : ∀ k, PoolConserved (takeValid s k r) := fun k => by
    unfold takeValid
    dsimp only
    split
    · split
      · exact handOn_pool _ r (poolConserved_congr hs rfl rfl)
      · exact poolConserved_congr hs rfl rfl
    · exact poolConserved_congr hs rfl rfl
  unfold checkOrder
  split
  · split
    · exact valid _
    · exact invalid
  · exact invalid

/-! ### The pool behind accesses, ticks and lapses -/

/-- What a RETURN retires goes back to the pool (R71). -/
theorem serveReturn_pool (c : ChannelIndex) (n : Word) (hs : PoolConserved s) :
    PoolConserved (serveReturn s c n).1 := by
  refine poolConserved_exchange hs ?_
  have hlen := queueLength_returnChannel (s.channel c) n.toNat
  omega

theorem serveAccess_pool (c : ChannelIndex) (a : WindowAccess) (hs : PoolConserved s) :
    PoolConserved (serveAccess s c a).1 := by
  cases a with
  | claim n => exact setChannel_pool (queueLength_claimChannel _) hs
  | collect =>
    simp only [serveAccess, serveCollect]
    split
    · exact hs
    · exact setEntry_pool _ _ (setChannel_pool (by rfl) hs)
  | record =>
    simp only [serveAccess, serveRecord]
    split
    · exact hs
    next r l oldest => exact setChannel_pool (queueLength_handedOut oldest _) hs
  | returnService n => exact serveReturn_pool c n hs

theorem takeAccess_pool (c : ChannelIndex) (w : Nat) (q : Request) (hs : PoolConserved s) :
    PoolConserved (takeAccess s c w q).1 := by
  have refused : PoolConserved (refuseAccess s c) := setChannel_pool (by rfl) hs
  unfold takeAccess
  split
  · split
    · exact serveAccess_pool c _ hs
    · exact refused
  · exact refused

theorem offerRequest_pool (q : Request) (hs : PoolConserved s) : PoolConserved (offerRequest s q) := by
  rcases offerRequest_cases s q with h | ⟨-, resp, h⟩ | ⟨-, c, w, resp, h⟩ | ⟨-, -, h⟩ <;> rw [h]
  · exact hs
  · exact poolConserved_congr hs rfl rfl
  · exact poolConserved_congr (takeAccess_pool c w q hs) rfl rfl
  · exact poolConserved_congr hs rfl rfl

theorem offerAccess_pool (c : ChannelIndex) (n : Source) (w : Nat) (x : Payload)
    (hs : PoolConserved s) : PoolConserved (offerAccess s c n w x) := by
  rcases offerAccess_cases s c n w x with h | ⟨q, h⟩ <;> rw [h]
  · exact hs
  · exact offerRequest_pool q hs

theorem coverTick_pool (b : Bool) (u : State) (hs : PoolConserved s) :
    PoolConserved (coverTick b u s) :=
  poolConserved_congr hs (coverTick_channels u b s) (coverTick_freeRecords u b s)

theorem lapse_pool (c : ChannelIndex) (cause : LapseCause) (ts : Word) (hs : PoolConserved s) :
    PoolConserved (lapse s c cause ts) := by
  have hl := setChannel_pool (queueLength_lapseChannel cause (s.channel c)) hs
  unfold lapse giveNotice
  split
  · exact poolConserved_congr hl rfl rfl
  · split
    next h => exact deliverTo_pool _ (appendRecord_pool h _ ts hl)
    next => exact poolConserved_congr hl rfl rfl

theorem takeHoldoffExpiry_pool (c : ChannelIndex) (hs : PoolConserved s) :
    PoolConserved (takeHoldoffExpiry s c) :=
  iteInduction (fun _ => setChannel_pool (queueLength_enterAlerting _) hs) fun _ => hs

theorem takeClaimExpiry_pool (c : ChannelIndex) (ts : Word) (hs : PoolConserved s) :
    PoolConserved (takeClaimExpiry s c ts) :=
  iteInduction (fun _ => lapse_pool c .claim ts hs) fun _ => hs

theorem takeServiceExpiry_pool (c : ChannelIndex) (ts : Word) (hs : PoolConserved s) :
    PoolConserved (takeServiceExpiry s c ts) :=
  iteInduction (fun _ => lapse_pool c .service ts hs) fun _ => hs

theorem takeExpiries_pool (k : Channel) (c : ChannelIndex) (hs : PoolConserved s) :
    PoolConserved (takeExpiries k s c) := by
  have held : PoolConserved (if expiresNext k.holdoffTimer then takeHoldoffExpiry s c else s) :=
    iteInduction (fun _ => takeHoldoffExpiry_pool c hs) fun _ => hs
  have claimed := iteInduction (c := expiresNext k.claimTimer) (motive := PoolConserved)
    (fun _ => takeClaimExpiry_pool c s.tickCounter held) fun _ => held
  exact iteInduction (fun _ => takeServiceExpiry_pool c s.tickCounter claimed) fun _ => claimed

theorem lowerTimers_pool (hs : PoolConserved s) : PoolConserved (lowerTimers s) := by
  have hq : ∀ c, queueLength ((lowerTimers s).channel c) = queueLength (s.channel c) := fun c => by
    by_cases hd : s.device = .running
    · rw [channel_lowerTimers hd, channelTicked]
      split <;> rfl
    · simp [lowerTimers, State.channel, hd]
  unfold PoolConserved recordsHeld
  simp only [hq]
  exact hs

theorem execTick_pool {order : List ChannelIndex} (hs : PoolConserved s)
    (h : execTick order s = .next t) : PoolConserved t := by
  cases h
  have hl : PoolConserved (lowerTimers (advanceTimebase s)) :=
    lowerTimers_pool (poolConserved_congr hs rfl rfl)
  split
  · exact hs
  have expired := iteInduction (c := s.device = .running) (motive := PoolConserved)
    (fun _ => List.foldlRecOn ((expiryOrder order).filter fun c => awaitsTick s (.channel c))
      (fun t c => takeExpiries (s.channel c) t c) hl fun _ hu c _ => takeExpiries_pool _ c hu)
    fun _ => hl
  exact iteInduction (fun _ => takeResponseExpiry_pool expired) fun _ => expired

/-! ### The pool behind the management commands -/

theorem executeCommand_pool {cmd : Command} {args : List Byte}
    {body : State → Except ResultCode (State × List Byte)} (hs : PoolConserved s)
    (h : ∀ t bytes, body s = .ok (t, bytes) → PoolConserved t) :
    PoolConserved (executeCommand cmd args body s) := by
  rcases executeCommand_effect cmd args body s with ⟨m, he⟩ | ⟨t, bytes, m, hb, -, he⟩ <;> rw [he]
  · exact poolConserved_congr hs rfl rfl
  · exact poolConserved_congr (h t bytes hb) rfl rfl

theorem disableChannel_pool (c : ChannelIndex) (hs : PoolConserved s) :
    PoolConserved (disableChannel s c) :=
  iteInduction (fun _ => hs) fun _ => setChannel_pool (queueLength_disable _) hs

theorem purgePending_pool (c : ChannelIndex) (hs : PoolConserved s) :
    PoolConserved (purgePending s c) := by
  obtain ⟨es, h, -⟩ := purgePending_spec s c
  rw [h]
  exact poolConserved_congr (setChannel_pool (by rfl) hs) rfl rfl

theorem channelDisableBody_pool {channel purge : Byte} {bytes : List Byte} (hs : PoolConserved s)
    (h : channelDisableBody channel purge s = .ok (t, bytes)) : PoolConserved t := by
  obtain ⟨c, -, h⟩ := bind_eq_ok.1 h
  obtain ⟨purged, -, h⟩ := bind_eq_ok.1 h
  have hd := disableChannel_pool c hs
  cases h
  cases purged with
  | false => exact hd
  | true => exact purgePending_pool c (freeQueue_pool c hd)

theorem defineEntry_pool (i : EntryIndex) (e : Entry) (hs : PoolConserved s) :
    PoolConserved (defineEntry s i e) := by
  have hl : PoolConserved (leavePendingSet s i) := setChannel_pool (by rfl) hs
  rw [defineEntry, enqueuePriming_eq]
  exact poolConserved_congr hl rfl rfl

theorem defineChannel_pool (c : ChannelIndex) (cfg : ChannelConfig) (hs : PoolConserved s) :
    PoolConserved (defineChannel s c cfg) :=
  setChannel_pool (by rfl) (freeQueue_pool c hs)

theorem riseSelect_pool (hs : PoolConserved s) : PoolConserved (riseSelect s) :=
  iteInduction (fun _ => poolConserved_congr hs rfl rfl) fun _ => poolConserved_congr hs rfl rfl

/-! ### Every command conserves the records -/

theorem exec_calm_pool {c : Instr} (hcalm : calm c = true) (hs : PoolConserved s)
    (h : exec c s = .next t) : PoolConserved t := by
  have taken : ∀ o, PoolConserved (s.takeTickAt o) := fun _ => poolConserved_congr hs rfl rfl
  cases c with
  | holdoffExpiry c =>
    cases h
    exact iteInduction (fun _ => takeHoldoffExpiry_pool c (taken _)) fun _ => hs
  | claimDeadlineExpiry c =>
    cases h
    exact iteInduction (fun _ => takeClaimExpiry_pool c _ (taken _)) fun _ => hs
  | serviceDeadlineExpiry c =>
    cases h
    exact iteInduction (fun _ => takeServiceExpiry_pool c _ (taken _)) fun _ => hs
  | watchRelease i =>
    cases h
    refine executeCommand_pool hs fun t bytes hb => ?_
    obtain ⟨i, -, hb⟩ := bind_eq_ok.1 hb
    cases hb
    exact poolConserved_congr (setChannel_pool (by rfl) hs) rfl rfl
  | watchQuery i =>
    cases h
    refine executeCommand_pool hs fun t bytes hb => ?_
    obtain ⟨i, -, hb⟩ := bind_eq_ok.1 hb
    cases hb
    exact hs
  | channelEnable c =>
    cases h
    refine executeCommand_pool hs fun t bytes hb => ?_
    obtain ⟨c, -, hb⟩ := bind_eq_ok.1 hb
    obtain ⟨-, -, hb⟩ := bind_eq_ok.1 hb
    cases hb
    exact setChannel_pool (queueLength_enable _) hs
  | channelDisable c b => cases h; exact executeCommand_pool hs fun _ _ => channelDisableBody_pool hs
  | channelDisablePurge c =>
    cases h
    exact executeCommand_pool hs fun _ _ => channelDisableBody_pool hs
  | channelReinstate c =>
    cases h
    refine executeCommand_pool hs fun t bytes hb => ?_
    obtain ⟨c, -, hb⟩ := bind_eq_ok.1 hb
    obtain ⟨-, -, hb⟩ := bind_eq_ok.1 hb
    cases hb
    exact setChannel_pool (queueLength_settleContent _) hs
  | channelQuery c =>
    cases h
    refine executeCommand_pool hs fun t bytes hb => ?_
    obtain ⟨c, -, hb⟩ := bind_eq_ok.1 hb
    cases hb
    exact setChannel_pool (by rfl) hs
  | faultMaskSet m =>
    cases h
    refine executeCommand_pool hs fun t bytes hb => ?_
    cases hb
    exact poolConserved_congr hs rfl rfl
  | statusQuery =>
    cases h
    refine executeCommand_pool hs fun t bytes hb => ?_
    cases hb
    exact hs
  | faultCollect =>
    cases h
    refine executeCommand_pool hs fun t bytes hb => ?_
    cases hb
    exact poolConserved_congr hs rfl rfl
  | unknownCommand code =>
    cases h
    exact iteInduction (fun _ => poolConserved_congr hs rfl rfl) fun _ => hs
  | frameDiscard bits => cases h; exact riseSelect_pool (poolConserved_congr hs rfl rfl)
  | frameCutAfterExecution bits => cases h; exact riseSelect_pool (poolConserved_congr hs rfl rfl)
  | frameBegin bits =>
    cases h
    split <;> exact poolConserved_congr hs rfl rfl
  | _ => cases hcalm

theorem exec_pool {c : Instr} (hs : PoolConserved s) (h : exec c s = .next t) : PoolConserved t := by
  by_cases hcalm : calm c = true
  · exact exec_calm_pool hcalm hs h
  cases c with
  | resetNFall => cases h; exact poolConserved_fresh rfl rfl
  | resetNRise =>
    cases h
    exact iteInduction (fun _ => poolConserved_congr hs rfl rfl) fun _ => hs
  | tick order => exact execTick_pool hs h
  | responseTimerExpiry =>
    cases h
    exact iteInduction (fun _ => takeResponseExpiry_pool (poolConserved_congr hs rfl rfl)) fun _ => hs
  | requestAccept q b => cases h; exact coverTick_pool b s (offerRequest_pool q hs)
  | claim n c len b => cases h; exact coverTick_pool b s (offerAccess_pool c n _ _ hs)
  | collect n c => cases h; exact offerAccess_pool c n _ _ hs
  | record n c b => cases h; exact coverTick_pool b s (offerAccess_pool c n _ _ hs)
  | returnService n c count b => cases h; exact coverTick_pool b s (offerAccess_pool c n _ _ hs)
  | refusedWindowAccess n c w x => cases h; exact offerAccess_pool c n _ x hs
  | primingIssue =>
    cases h
    split
    · split <;> exact poolConserved_congr hs rfl rfl
    · exact hs
  | downstreamSend =>
    cases h
    split
    · split <;> exact poolConserved_congr hs rfl rfl
    · exact hs
  | downstreamResponse r b =>
    cases h
    refine coverTick_pool b s ?_
    split
    · exact hs
    · split
      · exact poolConserved_congr hs rfl rfl
      · exact settle_pool (checkOrder_pool r hs)
  | slotLeave =>
    cases h
    split
    · exact settle_pool (poolConserved_congr hs rfl rfl)
    · exact settle_pool hs
  | scopeFullApply => cases h; exact iteInduction (fun _ => applyScope_pool .full s) fun _ => hs
  | scopeKeepConfigApply =>
    cases h
    exact iteInduction (fun _ => applyScope_pool .keepConfig s) fun _ => hs
  | watchDefine a =>
    rcases exec_watchDefine_effect h with ⟨m, rfl⟩ | ⟨i, m, c, b, mg, -, -, -, rfl⟩
    · exact poolConserved_congr hs rfl rfl
    · exact poolConserved_congr (defineEntry_pool i (definedEntry (s.entry i) a m c b) hs) rfl rfl
  | channelDefine a =>
    rcases exec_channelDefine_effect h with ⟨m, rfl⟩ | ⟨c, cfg, mg, -, -, -, rfl⟩
    · exact poolConserved_congr hs rfl rfl
    · exact poolConserved_congr (defineChannel_pool c cfg hs) rfl rfl
  | timingSet d v =>
    cases h
    refine executeCommand_pool hs fun t bytes hb => ?_
    obtain ⟨rfl, -⟩ := timingSetBody_ok hb
    exact poolConserved_congr hs rfl rfl
  | linkResume =>
    cases h
    refine executeCommand_pool hs fun t bytes hb => ?_
    rw [linkResumeBody_ok hb]
    exact poolConserved_congr hs rfl rfl
  | deviceReset sc =>
    cases h
    refine executeCommand_pool hs fun t bytes hb => ?_
    obtain ⟨sc, rfl⟩ := deviceResetBody_ok hb
    exact endDrain_pool (poolConserved_congr hs rfl rfl)
  | _ => exact absurd rfl hcalm

/-- Settles O55: every command exchanges records between the pool and one queue at a time, and only
creation, which needs room below the quota, lengthens a queue. -/
theorem poolAndQuotaKept : Obligations.PoolAndQuotaKept :=
  ⟨step_keeps (fun _ _ hs => poolConserved_congr hs rfl rfl) fun _ _ _ => exec_pool,
    step_keeps_withinQuota⟩

/-! ### A lapse with its notice (R65, R72, R121, R122) -/

/-- A record's redelivery count, in the words of the statements (R72). -/
theorem redeliver_eq (r : Record) :
    redeliver r = { r with redelivery := if r.redelivery = 7 then 7 else r.redelivery + 1 } := by
  rw [redeliver, saturate_redelivery]

/-- The lapsing channel for cause CLAIM (R121). -/
theorem lapseChannel_claim (k : Channel) :
    lapseChannel .claim k = { k with
      state := .lapsed
      alert := true
      lapses := if k.lapses = 255 then 255 else k.lapses + 1
      holdoffTimer := .stopped
      claimTimer := .stopped
      serviceTimer := .stopped } := by
  rw [← saturate_byte]
  rfl

/-- The lapsing channel for cause SERVICE, with its reversion (R72, R121). -/
theorem lapseChannel_service (k : Channel) :
    lapseChannel .service k = { k with
      state := .lapsed
      alert := true
      handed := []
      queued := k.handed.map (fun r => { r with
        redelivery := if r.redelivery = 7 then 7 else r.redelivery + 1 }) ++ k.queued
      lapses := if k.lapses = 255 then 255 else k.lapses + 1
      holdoffTimer := .stopped
      claimTimer := .stopped
      serviceTimer := .stopped } := by
  simp only [← redeliver_eq, ← saturate_byte]
  rfl

theorem lapseChannel_config (cause : LapseCause) (k : Channel) :
    (lapseChannel cause k).config = k.config := by
  cases cause <;> rfl

/-- A lapse whose notice no fallback takes (R65). -/
theorem lapse_lost {c : ChannelIndex} {cause : LapseCause} (ts : Word)
    (h : ∀ f, (s.channel c).config.fallback = some f →
      canCreate (s.setChannel c (lapseChannel cause (s.channel c))) f = false) :
    lapse s c cause ts = (s.setChannel c (lapseChannel cause (s.channel c))).raise .lapseLost := by
  unfold lapse giveNotice
  rw [channel_setChannel_same, lapseChannel_config]
  split
  · rfl
  next f hf => rw [h f hf]; rfl

/-- A lapse whose notice the fallback takes (R122). -/
theorem lapse_noticed {c f : ChannelIndex} {cause : LapseCause} (ts : Word)
    (hf : (s.channel c).config.fallback = some f)
    (h : canCreate (s.setChannel c (lapseChannel cause (s.channel c))) f = true) :
    let u := s.setChannel c (lapseChannel cause (s.channel c))
    lapse s c cause ts =
      { u.setChannel f (deliver { u.channel f with
          queued := (u.channel f).queued ++ [
            { body := .lapse c cause, sequence := (u.channel f).nextSequence, timestamp := ts
              redelivery := 0 }]
          nextSequence := (u.channel f).nextSequence + 1 }) with
        freeRecords := s.freeRecords - 1 } := by
  intro u
  rw [← setChannel_freeRecords s c (lapseChannel cause (s.channel c)), ← deliverTo_appendRecord]
  unfold lapse giveNotice
  rw [channel_setChannel_same, lapseChannel_config, hf]
  exact if_pos h

/-- The outcomes of a lapse where no channel is its own fallback: LAPSE_LOST, or a record and a delivery
at the fallback (R65, R78, R122). -/
theorem lapse_outcomes {c : ChannelIndex} {cause : LapseCause} {k : Channel} {ts : Word}
    {o : Host.Outcome State Fault Refusal} (hself : (s.channel c).config.fallback ≠ some c)
    (hk : lapseChannel cause (s.channel c) = k) (ho : o = .next (lapse s c cause ts)) :
    let u := s.setChannel c k
    let lost : State := { u with
      faultFlags := s.faultFlags ||| 0x20
      faultLine := (s.faultFlags ||| 0x20) &&& s.faultMask != 0 }
    ((s.channel c).config.fallback = none → o = .next lost) ∧
    ∀ f : ChannelIndex, (s.channel c).config.fallback = some f →
      ((s.channel f).state = .disabled ∨
        (s.channel f).config.quota.toNat ≤
          (s.channel f).handed.length + (s.channel f).queued.length ∨ s.freeRecords = 0 →
        o = .next lost) ∧
      ((s.channel f).state ≠ .disabled →
        (s.channel f).handed.length + (s.channel f).queued.length <
          (s.channel f).config.quota.toNat → 0 < s.freeRecords →
        o = .next { u.setChannel f (deliver { s.channel f with
            queued := (s.channel f).queued ++ [
              { body := .lapse c cause, sequence := (s.channel f).nextSequence
                timestamp := ts, redelivery := 0 }]
            nextSequence := (s.channel f).nextSequence + 1 }) with
          freeRecords := s.freeRecords - 1 }) := by
  subst hk ho
  have other : ∀ f, (s.channel c).config.fallback = some f →
      (s.setChannel c (lapseChannel cause (s.channel c))).channel f = s.channel f :=
    fun f hf => channel_setChannel_other s _ fun hcf => hself (hcf ▸ hf)
  refine ⟨fun hnone => ?_, fun f hf => ⟨fun hfull => ?_, fun hst hroom hfree => ?_⟩⟩
  · rw [lapse_lost ts (by simp [hnone])]
    rfl
  · have full : canCreate (s.setChannel c (lapseChannel cause (s.channel c))) f = false := by
      rw [Bool.eq_false_iff, ne_eq, canCreate_iff, other f hf]
      rintro ⟨hst, hroom, hfree⟩
      rcases hfull with h | h | h
      · exact hst h
      · omega
      · exact absurd hfree (by simp [h])
    rw [lapse_lost ts fun f' hf' => Option.some.inj (hf.symm.trans hf') ▸ full]
    rfl
  · have room : canCreate (s.setChannel c (lapseChannel cause (s.channel c))) f = true := by
      rw [canCreate_iff, other f hf]
      exact ⟨hst, hroom, hfree⟩
    rw [lapse_noticed ts hf room, other f hf]

/-! ### The expiry rows of the claim timer and of the service timer -/

theorem expiry_due {c : ChannelIndex} {st : ChannelState} {tm : Timer} (hd : s.device = .running)
    (hst : (s.channel c).state = st) (ht : tm = .running 1) (htick : .channel c ∉ s.tickTaken) :
    s.device = .running ∧ (s.channel c).state = st ∧ awaitsTick s (.channel c) = true ∧
      expiresNext tm = true :=
  ⟨hd, hst, (awaitsTick_iff s _).2 htick, by rw [ht]; rfl⟩

theorem expiry_not_due {c : ChannelIndex} {st : ChannelState} {tm : Timer}
    (h : s.device ≠ .running ∨ (s.channel c).state ≠ st ∨ .channel c ∈ s.tickTaken ∨
      expiresNext tm = false) :
    ¬ (s.device = .running ∧ (s.channel c).state = st ∧ awaitsTick s (.channel c) = true ∧
      expiresNext tm = true) := by
  rw [awaitsTick_iff]
  rintro ⟨hd, hst, htick, due⟩
  rcases h with h | h | h | h
  · exact h hd
  · exact h hst
  · exact htick h
  · simp [due] at h

/-- Settles O10: an expiry that is due is a lapse with cause CLAIM. -/
theorem claimExpiryLapses : Obligations.ClaimExpiryLapses := by
  refine ⟨fun c s hd hst ht htick hself => ?_, fun c s h => ?_⟩
  · have key : exec (.claimDeadlineExpiry c) s =
        .next (lapse (s.takeTickAt (.channel c)) c .claim (s.tickCounter + 1)) :=
      congrArg Host.Outcome.next ((if_pos (expiry_due hd hst ht htick)).trans (if_pos hst))
    exact lapse_outcomes (s := s.takeTickAt (.channel c)) hself (lapseChannel_claim _) key
  · exact congrArg Host.Outcome.next (if_neg (expiry_not_due h))

/-- Settles O11: an expiry that is due is a lapse with cause SERVICE. -/
theorem serviceExpiryLapses : Obligations.ServiceExpiryLapses := by
  refine ⟨fun c s hd hst ht htick hself => ?_, fun c s h => ?_⟩
  · have key : exec (.serviceDeadlineExpiry c) s =
        .next (lapse (s.takeTickAt (.channel c)) c .service (s.tickCounter + 1)) :=
      congrArg Host.Outcome.next ((if_pos (expiry_due hd hst ht htick)).trans (if_pos hst))
    exact lapse_outcomes (s := s.takeTickAt (.channel c)) hself (lapseChannel_service _) key
  · exact congrArg Host.Outcome.next (if_neg (expiry_not_due h))

/-! ### An access that its channel serves (R88, R90, R135) -/

theorem allocate_answered (s : State) (q : Request) (resp : UpResponse) :
    allocate s (answeredSlot q resp) = { s with ring := s.ring ++ [answeredSlot q resp] } := rfl

/-- A row that names a word of channel `c`'s window, of a shape that the channel serves as it stands: the
access takes effect, and its response stands in the slot at the tail. -/
theorem offerAccess_served {c : ChannelIndex} {base : Word} (hg : Granted s) (hw : WindowAt s c base)
    (n : Source) {w : Nat} {x : Payload} {a : WindowAccess} (hl : payloadLength x ≠ 0) (hw' : w < 16)
    (hf : w % 8 + payloadLength x ≤ 8) (ha : recognise w x = some a)
    (hs : serves (s.channel c) n a = true) :
    offerAccess s c n w x = { (serveAccess s c a).1 with
      ring := (serveAccess s c a).1.ring ++ [.answered n (isWrite x) (wordAddress base w)
        (payloadLength x) { status := .okay, data := (serveAccess s c a).2 }] } := by
  refine (offerAccess_taken hg hw n hl hw' hf).trans ?_
  simp only [takeAccess_served (q := ⟨n, wordAddress base w, x⟩) ha hs]
  exact allocate_answered _ _ _

/-- In IN_SERVICE a channel serves every access of a permitted source (R89). -/
theorem serves_inService {k : Channel} {n : Source} (hp : k.config.permitted[n.val] = true)
    (hst : k.state = .inService) (a : WindowAccess) : serves k n a = true := by
  cases a <;> simp [serves, hp, hst]

/-! ### The fields of a record's words (section 12.2) -/

/-- A field is read back at its place. -/
theorem extract_field_same {n : Nat} (k : Nat) (v : BitVec n) (h : k + n ≤ 32) :
    (field k v).extractLsb' k n = v := by
  apply BitVec.eq_of_getLsbD_eq
  intro i hi
  simp [field, hi, show k + i < 32 by omega]

/-- A field leaves the bits beside it 0. -/
theorem extract_field_other {n a m : Nat} (k : Nat) (v : BitVec n) (h : a + m ≤ k ∨ k + n ≤ a) :
    (field k v).extractLsb' a m = 0 := by
  apply BitVec.eq_of_getLsbD_eq
  intro i hi
  rcases Nat.lt_or_ge (a + i) k with hk | hk
  · simp [field, hk]
  · simp [field, BitVec.getLsbD_of_ge v (a + i - k) (by omega)]

/-- Settles O20: RECORD in IN_SERVICE is `serveRecord`, and each field of its words is read back at its
place. -/
theorem recordHandsOutOldest : Obligations.RecordHandsOutOldest := by
  refine ⟨fun s n c base hg hw hp hst => ?_, fun r => ?_⟩
  · have key : exec (.record n c) s = .next { (serveRecord s c).1 with
        ring := (serveRecord s c).1.ring ++ [.answered n false (base + 0x20) 6
          { status := .okay, data := (serveRecord s c).2 }] } :=
      congrArg Host.Outcome.next (offerAccess_served hg hw n (w := 8) (x := .read 6) (a := .record)
        (by decide) (by decide) (by decide) rfl (serves_inService hp hst _))
    refine ⟨fun r rest hq => key.trans ?_, fun hq => key.trans ?_⟩
    · simp only [serveRecord, hq]
      rfl
    · simp only [serveRecord, hq]
      rfl
  · obtain ⟨_ | _ | ⟨_ | _, _⟩ | ⟨_, _ | _⟩, q, ts, d⟩ := r
    all_goals
      refine ⟨_, _, rfl, ?_⟩
      simp [BitVec.extractLsb'_or, bodyBits, sourceBits, flagBit, extract_field_same,
        extract_field_other]

/-- A channel in the middle of a service, behind a RETURN of `n` records (R71, R72, R97, R98). -/
theorem returnChannel_eq (k : Channel) (n : Nat) :
    let settled : Channel := { k with
      handed := []
      queued := (k.handed.drop n).map (fun r => { r with
        redelivery := if r.redelivery = 7 then 7 else r.redelivery + 1 }) ++ k.queued
      overRetire := k.overRetire || decide (k.handed.length < n)
      serviceTimer := .stopped }
    returnChannel k n =
      if settled.queued ≠ [] ∨ k.pendingSet ≠ [] ∨ k.overflow = true then
        { settled with
          state := .alerting
          alert := true
          holdoffTimer := .stopped
          claimTimer := startTimer k.config.claimDeadline }
      else { settled with state := .idle, alert := false } := by
  intro settled
  have content : hasContent settled = true ↔
      settled.queued ≠ [] ∨ k.pendingSet ≠ [] ∨ k.overflow = true := by
    simp only [hasContent, Bool.or_eq_true, Bool.not_eq_true', List.isEmpty_eq_false_iff, or_assoc]
    rfl
  have retired : returnChannel k n = settleContent settled := by
    simp only [settled, ← redeliver_eq]
    rfl
  rw [retired, settleContent]
  simp only [content]
  rfl

/-- Settles O21: RETURN in IN_SERVICE is `serveReturn`. -/
theorem returnEndsService : Obligations.ReturnEndsService := by
  intro s n c count base hg hw hp hst k settled
  have key := offerAccess_served hg hw n (w := 4)
    (x := .write [{ data := count, enables := 0xF }]) (a := .returnService count)
    Nat.one_ne_zero (by decide) (show 4 + 1 ≤ 8 by decide) rfl (serves_inService hp hst _)
  refine (congrArg Host.Outcome.next key).trans ?_
  simp only [serveAccess, serveReturn, returnChannel_eq]
  rfl

/-! ### CHANNEL_DEFINE and CHANNEL_DISABLE -/

theorem fallbackOf_code {c : ChannelIndex} {fallback : Option ChannelIndex} (h : fallback ≠ some c) :
    fallbackOf c (fallbackCode fallback) = some fallback := by
  cases fallback with
  | none => rfl
  | some f => exact fallbackOf_other fun hf => h (by rw [hf])

/-- The configuration that accepted arguments stand for (R181, R207). -/
theorem configOf_accepted {c : ChannelIndex} {a : ChannelDefineArgs} {present : Bool}
    {fallback : Option ChannelIndex} (hp : onOff a.windowPresent = some present)
    (hb : present = true → a.windowBase.toNat % 64 = 0) (hq : 1 ≤ a.quota.toNat)
    (hq' : a.quota.toNat ≤ 128) (hw : 1 ≤ a.watermark.toNat) (hw' : a.watermark.toNat ≤ a.quota.toNat)
    (hf : fallbackOf c a.fallback = some fallback) :
    configOf c a = .ok {
      windowBase := if present then some a.windowBase else none
      permitted := a.permitted, quota := a.quota, watermark := a.watermark
      holdoff := a.holdoff, claimDeadline := a.claimDeadline
      serviceDeadline := a.serviceDeadline, fallback := fallback } := by
  have nonzero : ∀ v : Byte, 1 ≤ v.toNat → v ≠ 0 := by
    rintro v hv rfl
    exact absurd hv (by decide)
  have aligned : (!present || a.windowBase.toNat % Config.windowBytes == 0) = true := by
    cases present with
    | false => rfl
    | true => exact beq_iff_eq.2 (hb rfl)
  have quota : (a.quota != 0 && decide (a.quota.toNat ≤ Config.poolSize)) = true := by
    rw [Bool.and_eq_true, bne_iff_ne, decide_eq_true_eq]
    exact ⟨nonzero _ hq, hq'⟩
  have watermark : (a.watermark != 0 && decide (a.watermark.toNat ≤ a.quota.toNat)) = true := by
    rw [Bool.and_eq_true, bne_iff_ne, decide_eq_true_eq]
    exact ⟨nonzero _ hw, hw'⟩
  simp only [configOf, hp, hf, orRefuse_some_bind, require_bind, aligned, quota, watermark, if_true]
  rfl

theorem channelDefineBody_accepted {a : ChannelDefineArgs} {c : ChannelIndex} {cfg : ChannelConfig}
    (hc : channelOf a.channel = some c) (hcfg : configOf c a = .ok cfg)
    (hst : (s.channel c).state = .disabled) (hclash : clashes s c cfg = false) :
    channelDefineBody a s = .ok (defineChannel s c cfg, []) := by
  simp only [channelDefineBody, hc, hcfg, hst, hclash, orRefuse_some_bind, ok_bind, require_bind,
    Bool.not_false, beq_self_eq_true, if_true]
  rfl

/-- The effect of CHANNEL_DEFINE, in the words of the statements (R74, R106). -/
theorem defineChannel_eq (s : State) (c : ChannelIndex) (cfg : ChannelConfig) :
    defineChannel s c cfg = { s.setChannel c { s.channel c with
        config := cfg, handed := [], queued := [], overflow := false, nextSequence := 0, lost := 0
        lapses := 0, refused := 0, reclaims := 0, overRetire := false } with
      freeRecords := s.freeRecords + (s.channel c).handed.length + (s.channel c).queued.length } := by
  have hk : (freeQueue s c).channel c = { s.channel c with handed := [], queued := [] } :=
    channel_setChannel_same s c _
  rw [defineChannel, hk, Nat.add_assoc]
  exact congrArg (fun u : State => { u with
    freeRecords := s.freeRecords + ((s.channel c).handed.length + (s.channel c).queued.length) })
    (setChannel_setChannel s c _ _)

/-- Settles O40: the tests of CHANNEL_DEFINE pass, and its effect is the definition of the channel. -/
theorem channelDefineAccepted : Obligations.ChannelDefineAccepted := by
  intro s a c present fallback hp hc hpresent hbase hq hq' hw hw' hfallback hself hst hwin
  have hf : a.fallback = fallbackCode fallback := hfallback.trans (by cases fallback <;> rfl)
  have hcfg := configOf_accepted (by rw [hpresent, onOff_bool]) hbase hq hq' hw hw'
    (by rw [hf, fallbackOf_code hself])
  have hclash : ∀ g : ChannelConfig, g.windowBase = (if present then some a.windowBase else none) →
      clashes s c g = false := by
    intro g hg
    cases present with
    | false => simp [clashes, hg]
    | true =>
      obtain ⟨apart, outside⟩ := hwin rfl
      simp only [clashes, hg, if_true]
      rw [Bool.eq_false_iff, ne_eq, windowClashes_iff]
      rintro (⟨d, hd, hmeet⟩ | ⟨i, hi, hin⟩)
      · simp [apart d hd] at hmeet
      · exact (outside i).elim hi fun h => by omega
  have hc' : channelOf a.channel = some c := by rw [hc, channelOf_number]
  have key := executeCommand_accepted hp rfl
    (channelDefineBody_accepted hc' hcfg hst (hclash _ rfl))
  rw [defineChannel_eq] at key
  exact congrArg Host.Outcome.next key

/-- A disable, in the words of the statements (R72, R104). -/
theorem disable_eq (k : Channel) : disable k = { k with
    state := .disabled
    alert := false
    handed := []
    queued := k.handed.map (fun r => { r with
      redelivery := if r.redelivery = 7 then 7 else r.redelivery + 1 }) ++ k.queued
    holdoffTimer := .stopped
    claimTimer := .stopped
    serviceTimer := .stopped } := by
  simp only [← redeliver_eq]
  rfl

/-- Settles O42: CHANNEL_DISABLE without purge executes `disableChannel`. -/
theorem channelDisabledWithoutPurge : Obligations.ChannelDisabledWithoutPurge := by
  intro s c d hp
  have body : channelDisableBody (BitVec.ofNat 8 c.val) 0 s = .ok (disableChannel s c, []) := by
    simp only [channelDisableBody, channelOf_number, orRefuse_some_bind]
    rfl
  have key := executeCommand_accepted hp rfl body
  refine ⟨fun hst => (congrArg Host.Outcome.next key).trans ?_,
    fun hst => (congrArg Host.Outcome.next key).trans ?_⟩
  · rw [disableChannel, if_neg hst, disable_eq]
    rfl
  · rw [disableChannel, if_pos hst]
    rfl

/-! ### A tick behind the lowering of its timers (R111 to R114) -/

theorem channel_tickLowered (s : State) (c : ChannelIndex) :
    (tickLowered s).channel c = channelTicked s c := by
  simp [State.channel]

theorem lowerTimers_running (hd : s.device = .running) :
    lowerTimers (advanceTimebase s) = tickLowered s := by
  have hc : tickChannel (advanceTimebase s) = channelTicked s := funext fun c => by
    by_cases h : TickOwner.channel c ∈ s.tickTaken <;>
      simp [tickChannel, awaitsTick, lowerChannel, channelTicked, h, State.channel]
  have hr : tickResponse (advanceTimebase s) = responseTicked s :=
    lowerTimers_responseTimer (advanceTimebase s)
  rw [lowerTimers, hc, hr, if_pos (by exact hd)]
  rfl

/-- TICK in a RUNNING device that brings the port no expiry. -/
theorem exec_tick_running (order : List ChannelIndex) (hd : s.device = .running)
    (hr : ResponseUnexpired s) :
    exec (.tick order) s = .next
      (((expiryOrder order).filter fun c => awaitsTick s (.channel c)).foldl
        (fun t c => takeExpiries (s.channel c) t c) (tickLowered s)) := by
  have port : ¬ (awaitsTick s .port && expiresNext s.responseTimer && s.link == .active) = true := by
    rw [Bool.and_eq_true, Bool.and_eq_true, awaitsTick_iff, beq_iff_eq]
    rintro ⟨⟨htick, due⟩, hl⟩
    rcases hr with h | h | h
    · exact htick h
    · simp [due] at h
    · simp [hl] at h
  simp only [exec, execTick]
  rw [if_neg (by simp [hd]), if_neg port, if_pos hd, lowerTimers_running hd]

/-- The expiry of the response timer at an ACTIVE port is taken with its TICK (R159). -/
theorem portExpiry_due (ht : s.responseTimer = .running 1) (htick : .port ∉ s.tickTaken)
    (hl : s.link = .active) :
    (awaitsTick s .port && expiresNext s.responseTimer && s.link == .active) = true := by
  rw [(awaitsTick_iff s .port).2 htick, ht, hl]
  rfl

/-- TICK in a RUNNING device whose response timer expires. -/
theorem exec_tick_response (order : List ChannelIndex) (hd : s.device = .running)
    (ht : s.responseTimer = .running 1) (htick : .port ∉ s.tickTaken) (hl : s.link = .active) :
    exec (.tick order) s = .next (takeResponseExpiry
      (((expiryOrder order).filter fun c => awaitsTick s (.channel c)).foldl
        (fun t c => takeExpiries (s.channel c) t c) (tickLowered s))) := by
  simp only [exec, execTick]
  rw [if_neg (by simp [hd]), if_pos (portExpiry_due ht htick hl), if_pos hd, lowerTimers_running hd]

/-! ### The expiries of one channel, by the timer that brings them -/

theorem takeExpiries_none {k : Channel} (ho : expiresNext k.holdoffTimer = false)
    (hc : expiresNext k.claimTimer = false) (hv : expiresNext k.serviceTimer = false) (s : State)
    (c : ChannelIndex) : takeExpiries k s c = s := by
  simp [takeExpiries, ho, hc, hv]

theorem takeExpiries_holdoff {k : Channel} (ho : k.holdoffTimer = .running 1)
    (hc : k.claimTimer = .stopped) (hv : k.serviceTimer = .stopped) (s : State) (c : ChannelIndex) :
    takeExpiries k s c = takeHoldoffExpiry s c := by
  simp [takeExpiries, ho, hc, hv, expiresNext]

theorem takeExpiries_claim {k : Channel} (ho : k.holdoffTimer = .stopped)
    (hc : k.claimTimer = .running 1) (hv : k.serviceTimer = .stopped) (s : State) (c : ChannelIndex) :
    takeExpiries k s c = takeClaimExpiry s c s.tickCounter := by
  simp [takeExpiries, ho, hc, hv, expiresNext]

theorem takeExpiries_service {k : Channel} (ho : k.holdoffTimer = .stopped)
    (hc : k.claimTimer = .stopped) (hv : k.serviceTimer = .running 1) (s : State) (c : ChannelIndex) :
    takeExpiries k s c = takeServiceExpiry s c s.tickCounter := by
  simp [takeExpiries, ho, hc, hv, expiresNext]

/-- The timer of a channel that the next tick expires: none, or one with the others stopped (R79). -/
inductive NextExpiry (k : Channel) : Prop where
  | none (holdoff : expiresNext k.holdoffTimer = false) (claim : expiresNext k.claimTimer = false)
    (service : expiresNext k.serviceTimer = false)
  | holdoff (due : k.holdoffTimer = .running 1) (claim : k.claimTimer = .stopped)
    (service : k.serviceTimer = .stopped)
  | claim (holdoff : k.holdoffTimer = .stopped) (due : k.claimTimer = .running 1)
    (service : k.serviceTimer = .stopped)
  | service (holdoff : k.holdoffTimer = .stopped) (claim : k.claimTimer = .stopped)
    (due : k.serviceTimer = .running 1)

theorem running_one_of_due {tm : Timer} (h : expiresNext tm = true) (ht : ticksLeft tm) :
    tm = .running 1 := by
  cases tm with
  | stopped => cases h
  | running n =>
    have hn : n ≤ 1 := of_decide_eq_true h
    have h0 : n ≠ 0 := fun h0 => ht (by rw [h0])
    rw [show n = 1 by omega]

theorem nextExpiry_of_fits {k : Channel} (h : channelFits k) : NextExpiry k := by
  obtain ⟨-, ho, hc, hv, lo, lc, lv⟩ := h
  have stopped : ∀ {tm : Timer} {st : ChannelState}, (tm ≠ .stopped → k.state = st) → k.state ≠ st →
      tm = .stopped := fun h hne => by_contra fun hr => hne (h hr)
  have runs : ∀ {tm : Timer} {st : ChannelState}, (tm ≠ .stopped → k.state = st) → tm = .running 1 →
      k.state = st := fun h he => h (by simp [he])
  by_cases dueHoldoff : expiresNext k.holdoffTimer = true
  · have due := running_one_of_due dueHoldoff lo
    have hst := runs ho due
    exact .holdoff due (stopped hc (by simp [hst])) (stopped hv (by simp [hst]))
  by_cases dueClaim : expiresNext k.claimTimer = true
  · have due := running_one_of_due dueClaim lc
    have hst := runs hc due
    exact .claim (stopped ho (by simp [hst])) due (stopped hv (by simp [hst]))
  by_cases dueService : expiresNext k.serviceTimer = true
  · have due := running_one_of_due dueService lv
    have hst := runs hv due
    exact .service (stopped ho (by simp [hst])) (stopped hc (by simp [hst])) due
  exact .none (Bool.eq_false_iff.2 dueHoldoff) (Bool.eq_false_iff.2 dueClaim) (Bool.eq_false_iff.2 dueService)

/-! ### A channel's state while the expiries of one tick are taken -/

/-- The state of a channel that has taken no expiry of its own on this tick, though it may have taken the
notices of others: the one in which its own expiry finds it. The channel stood as `k` before the tick. -/
structure Due (k : Channel) (st : ChannelState) : Prop where
  holdoff : k.holdoffTimer = .running 1 → st = .holdoff ∨ st = .alerting
  claim : k.claimTimer = .running 1 → st = .alerting
  service : k.serviceTimer = .running 1 → st = .inService

/-- The state of a channel that has taken its expiry of this tick, in which it has none left. -/
structure Spent (k : Channel) (st : ChannelState) : Prop where
  holdoff : k.holdoffTimer = .running 1 → st = .alerting
  claim : k.claimTimer = .running 1 → st = .lapsed
  service : k.serviceTimer = .running 1 → st = .lapsed

/-- What a delivery, or none, can make of a channel's state: it leaves IDLE, or HOLDOFF for ALERTING, or
stays (R82 to R84). -/
def Called (st st' : ChannelState) : Prop :=
  st' = st ∨ st = .idle ∨ st = .holdoff ∧ st' = .alerting

theorem deliver_called (k : Channel) : Called k.state (deliver k).state := by
  by_cases hi : k.state = .idle
  · exact .inr (.inl hi)
  by_cases hh : k.state = .holdoff
  · rw [deliver_holdoff hh]
    split
    · exact .inr (.inr ⟨hh, rfl⟩)
    · exact .inl rfl
  · rw [deliver_other hi hh]
    exact .inl rfl

theorem Due.called {k : Channel} {st st' : ChannelState} (h : Due k st) (hc : Called st st') :
    Due k st' := by
  obtain ⟨ho, hcl, hv⟩ := h
  rcases hc with rfl | rfl | ⟨rfl, rfl⟩
  · exact ⟨ho, hcl, hv⟩
  · exact ⟨fun h => by simpa using ho h, fun h => by simpa using hcl h, fun h => by simpa using hv h⟩
  · exact ⟨fun _ => .inr rfl, fun _ => rfl, fun h => by simpa using hv h⟩

theorem Spent.called {k : Channel} {st st' : ChannelState} (h : Spent k st) (hc : Called st st') :
    Spent k st' := by
  obtain ⟨ho, hcl, hv⟩ := h
  rcases hc with rfl | rfl | ⟨rfl, rfl⟩
  · exact ⟨ho, hcl, hv⟩
  · exact ⟨fun h => by simpa using ho h, fun h => by simpa using hcl h, fun h => by simpa using hv h⟩
  · exact ⟨fun _ => rfl, fun h => by simpa using hcl h, fun h => by simpa using hv h⟩

/-- A notice is at most a delivery to each channel. -/
theorem giveNotice_called (s : State) (c d : ChannelIndex) (cause : LapseCause) (ts : Word) :
    Called (s.channel d).state ((giveNotice s c cause ts).channel d).state := by
  unfold giveNotice
  split
  · exact .inl rfl
  next f _ =>
    split
    · rw [deliverTo_appendRecord]
      change Called _ ((s.setChannel f _).channel d).state
      rw [channel_setChannel]
      split
      next h => subst h; exact deliver_called _
      next => exact .inl rfl
    · exact .inl rfl

theorem lapse_called {c d : ChannelIndex} (h : c ≠ d) (s : State) (cause : LapseCause) (ts : Word) :
    Called (s.channel d).state ((lapse s c cause ts).channel d).state := by
  have := giveNotice_called (s.setChannel c (lapseChannel cause (s.channel c))) c d cause ts
  rwa [channel_setChannel_other _ _ h] at this

/-- The lapsing channel itself is LAPSED behind its notice (R121). -/
theorem lapse_state (s : State) (c : ChannelIndex) (cause : LapseCause) (ts : Word) :
    ((lapse s c cause ts).channel c).state = .lapsed := by
  have := giveNotice_called (s.setChannel c (lapseChannel cause (s.channel c))) c c cause ts
  rw [channel_setChannel_same, lapseChannel_state] at this
  rcases this with h | h | ⟨h, -⟩
  · exact h
  · cases h
  · cases h

/-- A lapse in the words of the statements. -/
theorem lapse_eq_lapsed (s : State) (c : ChannelIndex) (cause : LapseCause) (ts : Word) :
    lapse s c cause ts = lapsed s c cause ts := by
  have hk : lapseChannel cause (s.channel c) = { s.channel c with
      state := .lapsed
      alert := true
      handed := if cause = .service then [] else (s.channel c).handed
      queued := if cause = .service then
          (s.channel c).handed.map (fun r => { r with
            redelivery := if r.redelivery = 7 then 7 else r.redelivery + 1 }) ++ (s.channel c).queued
        else (s.channel c).queued
      lapses := if (s.channel c).lapses = 255 then 255 else (s.channel c).lapses + 1
      holdoffTimer := .stopped
      claimTimer := .stopped
      serviceTimer := .stopped } := by
    cases cause with
    | claim => exact lapseChannel_claim _
    | service => exact lapseChannel_service _
  unfold lapsed
  dsimp only
  rw [← hk]
  split
  next hnone => exact lapse_lost ts (by simp [hnone])
  next f hf =>
    split
    next room => exact lapse_noticed ts hf ((canCreate_iff _ f).2 room)
    next full =>
      exact lapse_lost ts fun f' hf' => Option.some.inj (hf.symm.trans hf') ▸
        Bool.eq_false_iff.2 (mt (canCreate_iff _ f).1 full)

/-! ### The expiry of one channel -/

/-- An expiry taken at channel `c` is at most a delivery to each other channel. -/
theorem takeExpiries_called {k : Channel} (hn : NextExpiry k) {c d : ChannelIndex} (h : c ≠ d)
    (t : State) : Called (t.channel d).state ((takeExpiries k t c).channel d).state := by
  cases hn with
  | none ho hc hv =>
    rw [takeExpiries_none ho hc hv]
    exact .inl rfl
  | holdoff ho hc hv =>
    rw [takeExpiries_holdoff ho hc hv, takeHoldoffExpiry]
    split
    · rw [channel_setChannel_other _ _ h]
      exact .inl rfl
    · exact .inl rfl
  | claim ho hc hv =>
    rw [takeExpiries_claim ho hc hv, takeClaimExpiry]
    split
    · exact lapse_called h t _ _
    · exact .inl rfl
  | service ho hc hv =>
    rw [takeExpiries_service ho hc hv, takeServiceExpiry]
    split
    · exact lapse_called h t _ _
    · exact .inl rfl

/-- The expiry of a channel that has not taken it, in the words of the statements; behind it none is
left. -/
theorem takeExpiries_of_due {k : Channel} (hn : NextExpiry k) {c : ChannelIndex} {t : State}
    (hd : Due k (t.channel c).state) :
    takeExpiries k t c = expired k t c ∧ Spent k ((takeExpiries k t c).channel c).state := by
  cases hn with
  | none ho hc hv =>
    have never : ∀ {tm : Timer}, expiresNext tm = false → tm ≠ .running 1 := by
      rintro _ h rfl
      cases h
    rw [takeExpiries_none ho hc hv]
    refine ⟨?_, fun h => absurd h (never ho), fun h => absurd h (never hc), fun h => absurd h (never hv)⟩
    simp [expired, never ho, never hc, never hv]
  | holdoff ho hc hv =>
    rw [takeExpiries_holdoff ho hc hv]
    refine ⟨by simp only [expired, if_pos ho]; rfl, fun _ => ?_, fun h => ?_, fun h => ?_⟩
    · rw [takeHoldoffExpiry]
      split
      · rw [channel_setChannel_same]
        rfl
      next hne => exact (hd.holdoff ho).resolve_left hne
    · simp [hc] at h
    · simp [hv] at h
  | claim ho hc hv =>
    have hst := hd.claim hc
    rw [takeExpiries_claim ho hc hv, takeClaimExpiry, if_pos hst]
    refine ⟨?_, fun h => ?_, fun _ => lapse_state t c _ _, fun _ => lapse_state t c _ _⟩
    · rw [lapse_eq_lapsed]
      simp [expired, ho, hc]
    · simp [ho] at h
  | service ho hc hv =>
    have hst := hd.service hv
    rw [takeExpiries_service ho hc hv, takeServiceExpiry, if_pos hst]
    refine ⟨?_, fun h => ?_, fun _ => lapse_state t c _ _, fun _ => lapse_state t c _ _⟩
    · rw [lapse_eq_lapsed]
      simp [expired, ho, hc, hv]
    · simp [ho] at h

/-- A channel named again has no expiry left. -/
theorem takeExpiries_of_spent {k : Channel} (hn : NextExpiry k) {c : ChannelIndex} {t : State}
    (hs : Spent k (t.channel c).state) : takeExpiries k t c = t := by
  cases hn with
  | none ho hc hv => exact takeExpiries_none ho hc hv t c
  | holdoff ho hc hv =>
    rw [takeExpiries_holdoff ho hc hv]
    exact if_neg (by simp [hs.holdoff ho])
  | claim ho hc hv =>
    rw [takeExpiries_claim ho hc hv]
    exact if_neg (by simp [hs.claim hc])
  | service ho hc hv =>
    rw [takeExpiries_service ho hc hv]
    exact if_neg (by simp [hs.service hv])

/-! ### The expiries of one tick, one after another (R68, R123) -/

/-- The expiries that a tick from `s` brings to the channels of `l`, taken one after another. -/
def takeAll (s : State) (l : List ChannelIndex) (t : State) : State :=
  l.foldl (fun t c => takeExpiries (s.channel c) t c) t

/-- In `t` the expiries of a tick from `s` have been taken at the channels of `V` and at no other. -/
structure TakenAt (s : State) (V : List ChannelIndex) (t : State) : Prop where
  spent : ∀ c ∈ V, Spent (s.channel c) (t.channel c).state
  due : ∀ c ∉ V, Due (s.channel c) (t.channel c).state

/-- Before the first expiry every channel is in the state in which the tick found it. -/
theorem takenAt_tickLowered (hs : ServiceLaw s) : TakenAt s [] (tickLowered s) := by
  refine ⟨fun c hc => absurd hc List.not_mem_nil, fun c _ => ?_⟩
  have hst : ((tickLowered s).channel c).state = (s.channel c).state := by
    rw [channel_tickLowered, channelTicked]
    split <;> rfl
  obtain ⟨-, ho, hc, hv, -⟩ := hs c
  rw [hst]
  exact ⟨fun h => .inl (ho (by simp [h])), fun h => hc (by simp [h]), fun h => hv (by simp [h])⟩

/-- One more channel takes its expiry, or has none left. -/
theorem TakenAt.step {V : List ChannelIndex} (hs : ServiceLaw s) (h : TakenAt s V t) (c : ChannelIndex) :
    (takeExpiries (s.channel c) t c = if c ∈ V then t else expired (s.channel c) t c) ∧
      TakenAt s (V ++ [c]) (takeExpiries (s.channel c) t c) := by
  have hn := nextExpiry_of_fits (hs c)
  have own : (takeExpiries (s.channel c) t c = if c ∈ V then t else expired (s.channel c) t c) ∧
      Spent (s.channel c) ((takeExpiries (s.channel c) t c).channel c).state := by
    split
    next hc =>
      have he := takeExpiries_of_spent hn (h.spent c hc)
      exact ⟨he, by rw [he]; exact h.spent c hc⟩
    next hc => exact takeExpiries_of_due hn (h.due c hc)
  refine ⟨own.1, fun d hd => ?_, fun d hd => ?_⟩
  · by_cases hcd : c = d
    · exact hcd ▸ own.2
    · have hdV : d ∈ V := by simpa [Ne.symm hcd] using hd
      exact (h.spent d hdV).called (takeExpiries_called hn hcd t)
  · have hcd : c ≠ d := by
      rintro rfl
      exact hd (by simp)
    exact (h.due d fun hdV => hd (List.mem_append_left _ hdV)).called (takeExpiries_called hn hcd t)

/-- The expiries at the channels of `L`, of which those in `V` have taken theirs. -/
theorem takeAll_of_takenAt {L V : List ChannelIndex} (hs : ServiceLaw s) (hL : L.Nodup)
    (h : TakenAt s V t) :
    takeAll s L t = (L.filter (· ∉ V)).foldl (fun t c => expired (s.channel c) t c) t ∧
      TakenAt s (V ++ L) (takeAll s L t) := by
  induction L generalizing V t with
  | nil => exact ⟨rfl, (List.append_nil V).symm ▸ h⟩
  | cons c L ih =>
    obtain ⟨hc, hL⟩ := List.nodup_cons.1 hL
    obtain ⟨he, h'⟩ := h.step hs c
    obtain ⟨hrest, htaken⟩ := ih hL h'
    have same : L.filter (· ∉ V ++ [c]) = L.filter (· ∉ V) := by
      refine List.filter_congr fun d hd => ?_
      have hdc : d ≠ c := fun e => hc (e ▸ hd)
      simp [hdc]
    have hcons : takeAll s (c :: L) t = takeAll s L (takeExpiries (s.channel c) t c) := rfl
    rw [hcons]
    refine ⟨?_, by simpa using htaken⟩
    rw [hrest, same, he]
    by_cases hcV : c ∈ V <;> simp [hcV]

/-- The expiries of a tick in the words of the statements: a channel that the environment has named takes
none again where the rest follow ascending (R68, R114, R123). -/
theorem takeAll_eq_tickExpired {order : List ChannelIndex} (hs : ServiceLaw s) (ho : order.Nodup) :
    takeAll s ((expiryOrder order).filter fun c => awaitsTick s (.channel c)) (tickLowered s) =
      tickExpired order s := by
  have awaits : ∀ l : List ChannelIndex, (l.filter fun c => awaitsTick s (.channel c)) =
      l.filter fun c => TickOwner.channel c ∉ s.tickTaken := fun _ => rfl
  obtain ⟨hfirst, taken⟩ := takeAll_of_takenAt hs
    (ho.filter fun c => TickOwner.channel c ∉ s.tickTaken) (takenAt_tickLowered hs)
  obtain ⟨hrest, -⟩ := takeAll_of_takenAt hs
    ((List.nodup_finRange 8).filter fun c => TickOwner.channel c ∉ s.tickTaken) taken
  have split : takeAll s ((expiryOrder order).filter fun c => TickOwner.channel c ∉ s.tickTaken)
      (tickLowered s) =
      takeAll s ((List.finRange 8).filter fun c => TickOwner.channel c ∉ s.tickTaken)
        (takeAll s (order.filter fun c => TickOwner.channel c ∉ s.tickTaken) (tickLowered s)) := by
    rw [expiryOrder, List.filter_append]
    exact List.foldl_append
  have rest : ((List.finRange 8).filter fun c => TickOwner.channel c ∉ s.tickTaken).filter
        (· ∉ [] ++ order.filter fun c => TickOwner.channel c ∉ s.tickTaken) =
      ((List.finRange 8).filter fun c => c ∉ order).filter fun c =>
        TickOwner.channel c ∉ s.tickTaken := by
    rw [List.filter_filter, List.filter_filter]
    refine List.filter_congr fun c _ => ?_
    by_cases hc : TickOwner.channel c ∈ s.tickTaken <;> simp [hc]
  have all : (order.filter fun c => TickOwner.channel c ∉ s.tickTaken).filter
        (· ∉ ([] : List ChannelIndex)) =
      order.filter fun c => TickOwner.channel c ∉ s.tickTaken :=
    List.filter_eq_self.2 fun _ _ => by simp
  rw [awaits, split, hrest, hfirst, rest, all, tickExpired, List.filter_append, List.foldl_append]

/-- A fold in which one act alone counts, and counts once. -/
theorem foldl_single {f : State → ChannelIndex → State} {c : ChannelIndex} {l : List ChannelIndex}
    (hc : c ∈ l) (hother : ∀ d ∈ l, d ≠ c → ∀ t, f t d = t) (hagain : ∀ t, f (f t c) c = f t c)
    (t : State) : l.foldl f t = f t c := by
  have spent : ∀ m : List ChannelIndex, (∀ d ∈ m, d ≠ c → ∀ t, f t d = t) →
      m.foldl f (f t c) = f t c := fun m hm => List.foldlRecOn (motive := (· = f t c)) m f rfl
    fun u hu d hd => by
      by_cases hdc : d = c
      · rw [hu, hdc, hagain]
      · rw [hm d hd hdc, hu]
  induction l with
  | nil => cases hc
  | cons d l ih =>
    have rest : ∀ e ∈ l, e ≠ c → ∀ t, f t e = t := fun e he => hother e (List.mem_cons_of_mem d he)
    by_cases hdc : d = c
    · rw [List.foldl_cons, hdc]
      exact spent l rest
    · rw [List.foldl_cons, hother d List.mem_cons_self hdc]
      exact ih ((List.mem_cons.1 hc).resolve_left (Ne.symm hdc)) rest

/-- A tick that brings an expiry to channel `c` alone. -/
theorem takeAll_single {c : ChannelIndex} {act : State → State} (order : List ChannelIndex)
    (htick : .channel c ∉ s.tickTaken) (hother : ∀ d, d ≠ c → ChannelUnexpired s d)
    (hact : ∀ t, takeExpiries (s.channel c) t c = act t) (hagain : ∀ t, act (act t) = act t) (t : State) :
    takeAll s ((expiryOrder order).filter fun c => awaitsTick s (.channel c)) t = act t := by
  rw [← hact]
  refine foldl_single ?_ (fun d hd hdc t => ?_) (fun t => by rw [hact, hact, hagain]) t
  · rw [List.mem_filter, awaitsTick_iff]
    exact ⟨List.mem_append_right _ (List.mem_finRange c), htick⟩
  · have awaits := (awaitsTick_iff s _).1 (List.mem_filter.1 hd).2
    obtain ⟨ho, hc, hv⟩ := (hother d hdc).resolve_left awaits
    exact takeExpiries_none ho hc hv t d

/-- A hold-off expiry taken again finds no HOLDOFF. -/
theorem takeHoldoffExpiry_again (c : ChannelIndex) (t : State) :
    takeHoldoffExpiry (takeHoldoffExpiry t c) c = takeHoldoffExpiry t c := by
  by_cases h : (t.channel c).state = .holdoff
  · have he : takeHoldoffExpiry t c = t.setChannel c (enterAlerting (t.channel c)) := if_pos h
    rw [he]
    exact if_neg (by simp)
  · have he : takeHoldoffExpiry t c = t := if_neg h
    rw [he, he]

/-- A service expiry taken again finds the channel LAPSED. -/
theorem takeServiceExpiry_again (c : ChannelIndex) (ts ts' : Word) (t : State) :
    takeServiceExpiry (takeServiceExpiry t c ts) c ts' = takeServiceExpiry t c ts := by
  by_cases h : (t.channel c).state = .inService
  · have he : takeServiceExpiry t c ts = lapse t c .service ts := if_pos h
    rw [he]
    exact if_neg (by simp [lapse_state])
  · have he : ∀ ts, takeServiceExpiry t c ts = t := fun _ => if_neg h
    rw [he, he]

theorem takeAll_device (s : State) (l : List ChannelIndex) (t : State) :
    (takeAll s l t).device = t.device :=
  (Local.foldl (p := False) (fun _ _ => takeExpiries_local _ _ _) l t).transit.device

theorem takeAll_keepsLaws (s : State) (l : List ChannelIndex) (t : State) :
    KeepsLaws t (takeAll s l t) :=
  .foldl (fun _ _ => takeExpiries_keepsLaws _ _ _) l t

/-! ### TICK with the expiries it brings -/

/-- A tick that expires the hold-off timer of channel `c` alone (R85, R86, R113). -/
theorem tick_holdoff {c : ChannelIndex} (order : List ChannelIndex) (hd : s.device = .running)
    (htick : .channel c ∉ s.tickTaken) (hst : (s.channel c).state = .holdoff)
    (ho : (s.channel c).holdoffTimer = .running 1) (hc : (s.channel c).claimTimer = .stopped)
    (hv : (s.channel c).serviceTimer = .stopped) (hother : ∀ d, d ≠ c → ChannelUnexpired s d)
    (hr : ResponseUnexpired s) :
    exec (.tick order) s = .next ((tickLowered s).setChannel c { s.channel c with
      state := .alerting
      alert := true
      holdoffTimer := .stopped
      claimTimer := startTimer (s.channel c).config.claimDeadline }) := by
  have hk : (tickLowered s).channel c = lowerChannel (s.channel c) := by
    rw [channel_tickLowered, channelTicked, if_neg htick]
    rfl
  have alerts : enterAlerting (lowerChannel (s.channel c)) = { s.channel c with
      state := .alerting
      alert := true
      holdoffTimer := .stopped
      claimTimer := startTimer (s.channel c).config.claimDeadline } := by
    simp [enterAlerting, lowerChannel, Channel.moveTo, calls, hv, lowerTimer]
  have taken := takeAll_single order htick hother (takeExpiries_holdoff ho hc hv · c)
    (takeHoldoffExpiry_again c) (tickLowered s)
  refine (exec_tick_running order hd hr).trans (congrArg Host.Outcome.next (taken.trans ?_))
  rw [takeHoldoffExpiry, if_pos (by rw [hk]; exact hst), hk, alerts]

/-- A tick touches the timers of a channel alone. -/
theorem channelTicked_frame (s : State) (c : ChannelIndex) :
    ∃ o cl v, channelTicked s c =
      { s.channel c with holdoffTimer := o, claimTimer := cl, serviceTimer := v } := by
  unfold channelTicked
  split
  · exact ⟨_, _, _, rfl⟩
  · exact ⟨_, _, _, rfl⟩

/-- A tick that expires the service timer of channel `c` alone, whose fallback `f` takes the notice (R72,
R118, R121, R122). -/
theorem tick_service {c f : ChannelIndex} (order : List ChannelIndex) (hd : s.device = .running)
    (htick : .channel c ∉ s.tickTaken) (hst : (s.channel c).state = .inService)
    (hv : (s.channel c).serviceTimer = .running 1) (ho : (s.channel c).holdoffTimer = .stopped)
    (hc : (s.channel c).claimTimer = .stopped) (hf : (s.channel c).config.fallback = some f)
    (hfc : f ≠ c) (hst' : (s.channel f).state ≠ .disabled)
    (hroom : (s.channel f).handed.length + (s.channel f).queued.length <
      (s.channel f).config.quota.toNat)
    (hfree : 0 < s.freeRecords) (hother : ∀ d, d ≠ c → ChannelUnexpired s d)
    (hr : ResponseUnexpired s) :
    exec (.tick order) s = .next
      { ((tickLowered s).setChannel c { s.channel c with
          state := .lapsed
          alert := true
          handed := []
          queued := (s.channel c).handed.map redeliver ++ (s.channel c).queued
          lapses := saturate (s.channel c).lapses
          serviceTimer := .stopped }).setChannel f (deliver { channelTicked s f with
            queued := (s.channel f).queued ++ [
              { body := .lapse c .service, sequence := (s.channel f).nextSequence
                timestamp := s.tickCounter + 1, redelivery := 0 }]
            nextSequence := (s.channel f).nextSequence + 1 }) with
        freeRecords := s.freeRecords - 1 } := by
  have hk : (tickLowered s).channel c = lowerChannel (s.channel c) := by
    rw [channel_tickLowered, channelTicked, if_neg htick]
    rfl
  have lapses : lapseChannel .service (lowerChannel (s.channel c)) = { s.channel c with
      state := .lapsed
      alert := true
      handed := []
      queued := (s.channel c).handed.map redeliver ++ (s.channel c).queued
      lapses := saturate (s.channel c).lapses
      serviceTimer := .stopped } := by
    simp [lapseChannel, lowerChannel, stopTimers, revert, Channel.moveTo, calls, ho, hc]
  have fallback : ((tickLowered s).setChannel c
      (lapseChannel .service ((tickLowered s).channel c))).channel f = channelTicked s f := by
    rw [channel_setChannel_other _ _ (Ne.symm hfc), channel_tickLowered]
  obtain ⟨o, cl, v, hframe⟩ := channelTicked_frame s f
  have room : canCreate ((tickLowered s).setChannel c
      (lapseChannel .service ((tickLowered s).channel c))) f = true := by
    rw [canCreate_iff, fallback, hframe]
    exact ⟨hst', hroom, hfree⟩
  have noticed := lapse_noticed (s := tickLowered s) (cause := .service) (s.tickCounter + 1)
    (by rw [hk]; exact hf) room
  have taken := takeAll_single order htick hother (takeExpiries_service ho hc hv · c)
    (fun t => takeServiceExpiry_again c _ _ t) (tickLowered s)
  refine (exec_tick_running order hd hr).trans (congrArg Host.Outcome.next (taken.trans ?_))
  rw [takeServiceExpiry, if_pos (by rw [hk]; exact hst)]
  refine noticed.trans ?_
  rw [fallback, hk, lapses, hframe]

/-- A lapse with its notice at a tick writes two channels and the pool. -/
theorem tickLowered_noticed_frame (s : State) (c f : ChannelIndex) (k q : Channel) (n : Nat) :
    let t : State := { ((tickLowered s).setChannel c k).setChannel f q with freeRecords := n }
    t = { s with
      tickCounter := s.tickCounter + 1
      tickPeriod := s.tickDivider
      tickTaken := []
      responseTimer := responseTicked s
      freeRecords := n
      channels := t.channels } := by
  dsimp only [State.setChannel]

/-- TICK in a DRAINING device counts on the response timer alone (R115, R158). -/
theorem exec_tick_draining {sc : Scope} (order : List ChannelIndex) (hd : s.device = .draining sc)
    (ht : s.responseTimer = .running 1) (htick : .port ∉ s.tickTaken) (hl : s.link = .active) :
    exec (.tick order) s = .next (takeResponseExpiry { s with
      tickCounter := s.tickCounter + 1
      tickPeriod := s.tickDivider
      tickTaken := []
      responseTimer := .stopped }) := by
  have hn : s.device ≠ .running := by simp [hd]
  have timer : tickResponse (advanceTimebase s) = .stopped := by
    rw [tickResponse, if_pos ((awaitsTick_iff (advanceTimebase s) .port).2 htick),
      advanceTimebase_responseTimer, ht]
    rfl
  have lowered : lowerTimers (advanceTimebase s) = { s with
      tickCounter := s.tickCounter + 1
      tickPeriod := s.tickDivider
      tickTaken := []
      responseTimer := .stopped } := by
    rw [lowerTimers, timer, if_neg (by exact hn)]
    rfl
  simp only [exec, execTick]
  rw [if_neg (by simp [hd]), if_pos (portExpiry_due ht htick hl), if_neg hn, lowered]

/-- Settles O8: one expiry by `tick_holdoff` and `tick_service`, any by `takeAll_eq_tickExpired`, and the
response timer's by the stall. -/
theorem tickTakesTheExpiryItBrings : Obligations.TickTakesTheExpiryItBrings := by
  refine ⟨?_, ?_, fun order s hd ho hs hr => ?_, fun order s hd ho hs ht htick hl hq => ?_,
    fun order s sc hd ht htick hl => ?_⟩
  · intro order s c hd htick hst ho hc hv hother hr
    refine ⟨_, tick_holdoff order hd htick hst ho hc hv hother hr, channel_setChannel_same _ _ _,
      fun d hdc => ?_, rfl⟩
    rw [channel_setChannel_other _ _ (Ne.symm hdc), channel_tickLowered]
  · intro order s c f hd htick hst hv ho hc hf hfc hst' hroom hfree hother hr
    refine ⟨_, tick_service order hd htick hst hv ho hc hf hfc hst' hroom hfree hother hr,
      ?_, channel_setChannel_same _ _ _, fun d hdc hdf => ?_,
      tickLowered_noticed_frame s c f _ _ _⟩
    · refine (channel_setChannel_other _ _ hfc).trans ?_
      exact channel_setChannel_same _ _ _
    · refine (channel_setChannel_other _ _ (Ne.symm hdf)).trans ?_
      rw [channel_setChannel_other _ _ (Ne.symm hdc), channel_tickLowered]
  · exact (exec_tick_running order hd hr).trans
      (congrArg Host.Outcome.next (takeAll_eq_tickExpired hs ho))
  · have key := exec_tick_response order hd ht htick hl
    have taken := takeAll_eq_tickExpired hs ho
    have device : (tickExpired order s).device = .running := by
      rw [← taken, takeAll_device]
      exact hd
    have queue : PrimingQueueLaw (tickExpired order s) := by
      rw [← taken]
      exact (takeAll_keepsLaws s _ _).queue hq
    exact ⟨_, key.trans (congrArg (fun u => Host.Outcome.next (takeResponseExpiry u)) taken),
      settle_stall_running .stall device queue⟩
  · exact (exec_tick_draining order hd ht htick hl).trans
      (congrArg Host.Outcome.next (settle_stall_draining .stall hd))

end

end Sys2Proof.Proofs

/-! SUPPORT and PROOFS. The alert lines and FAULT_N through every command, and the proofs of the
statements that cite chapter 5. -/

namespace Sys2Proof.Proofs

open Sys2Proof Sys2Proof.Machine Sys2Proof.Safety

section

variable {s t : State}

/-! ### The alert line of a channel behind each of its acts (R81) -/

/-- The alert line of a channel is the level of its state (R81). -/
def AlertFits (k : Channel) : Prop := k.alert = calls k.state

theorem alertFits_iff (k : Channel) :
    AlertFits k ↔ (k.alert = true ↔ k.state = .alerting ∨ k.state = .lapsed) := by
  have hcalls : calls k.state = true ↔ k.state = .alerting ∨ k.state = .lapsed := by
    cases k.state <;> simp [calls]
  rw [AlertFits, Bool.eq_iff_iff, hcalls]

theorem moveTo_alertFits (k : Channel) (st : ChannelState) : AlertFits (k.moveTo st) := rfl

theorem enterAlerting_alertFits (k : Channel) : AlertFits (enterAlerting k) := rfl

theorem leaveIdle_alertFits (k : Channel) : AlertFits (leaveIdle k) :=
  iteInduction (fun _ => enterAlerting_alertFits k) fun _ => rfl

theorem settleContent_alertFits (k : Channel) : AlertFits (settleContent k) :=
  iteInduction (fun _ => enterAlerting_alertFits k) fun _ => moveTo_alertFits k .idle

theorem enable_alertFits (k : Channel) : AlertFits (enable k) :=
  iteInduction (fun _ => leaveIdle_alertFits _) fun _ => moveTo_alertFits k .idle

theorem deliver_alertFits {k : Channel} (h : AlertFits k) : AlertFits (deliver k) := by
  rcases deliver_cases k with he | he | ⟨-, he⟩ <;> rw [he]
  · exact h
  · exact enterAlerting_alertFits k
  · rfl

theorem claimChannel_alertFits {k : Channel} (h : AlertFits k) : AlertFits (claimChannel k) :=
  iteInduction (fun _ => h) fun _ => rfl

theorem lapseChannel_alertFits (cause : LapseCause) (k : Channel) :
    AlertFits (lapseChannel cause k) := rfl

/-- Every act that changes a channel's state goes by `moveTo`, which sets the line, and no other act
touches either. -/
theorem ChannelMove.alertFits {k k' : Channel} (h : ChannelMove k k') (hk : AlertFits k) :
    AlertFits k' := by
  cases h with
  | delivered => exact deliver_alertFits hk
  | claimed _ => exact claimChannel_alertFits hk
  | returned _ n => exact settleContent_alertFits _
  | heldOff _ => exact enterAlerting_alertFits k
  | claimLapsed _ => exact lapseChannel_alertFits .claim k
  | serviceLapsed _ => exact lapseChannel_alertFits .service k
  | enabled _ => exact enable_alertFits k
  | disabled => rfl
  | reinstated _ => exact settleContent_alertFits k
  | kept => exact moveTo_alertFits k _
  | fresh => rfl
  | _ => exact hk

theorem alertsFollowState_iff (s : State) : AlertsFollowState s ↔ ∀ c, AlertFits (s.channel c) :=
  forall_congr' fun _ => (alertFits_iff _).symm

theorem step_keeps_alertFits (s t : State) :
    (∀ c, AlertFits (s.channel c)) → step s = .next t → ∀ c, AlertFits (t.channel c) := by
  refine step_keeps_tables (P := fun s => ∀ c, AlertFits (s.channel c)) (fun hm hs d => ?_)
    (fun _ _ _ hs d => ?_) (fun _ _ hs d => ?_) s t
  · exact keeps_of_chain (fun _ _ h => h.alertFits) (hm.channels d) (hs d)
  · obtain ⟨l, hd⟩ := defineEntry_channel _ _ _ d
    rw [hd]
    exact hs d
  · rw [defineChannel_channel]
    split
    next h => exact h ▸ hs d
    next => exact hs d

/-! ### The fault line behind each shared operation (R193, R195) -/

/-- The fault line is the one that R195 decides for the flags and the mask. -/
def LineFits (s : State) : Prop := s.faultLine = lineFor s.faultFlags s.faultMask

/-- The line is asserted where a flag and its enable are set. -/
theorem lineFor_iff (flags mask : BitVec 7) :
    lineFor flags mask = true ↔ ∃ f : Fin 7, flags[f.val] = true ∧ mask[f.val] = true := by
  have hzero : flags &&& mask = 0 ↔ ∀ i : Nat, ∀ h : i < 7, (flags &&& mask)[i] = false := by
    simp [BitVec.eq_of_getElem_eq_iff]
  rw [lineFor, bne_iff_ne, ne_eq, hzero]
  simp [Fin.exists_iff]

theorem lineFits_iff (s : State) : FaultLineFollows s ↔ LineFits s := by
  rw [FaultLineFollows, ← lineFor_iff]
  exact Bool.eq_iff_iff.symm

/-- The rule reads the flags, the mask and the line alone. -/
theorem lineFits_congr (hs : LineFits s) (hf : t.faultFlags = s.faultFlags)
    (hm : t.faultMask = s.faultMask) (hl : t.faultLine = s.faultLine) : LineFits t := by
  rw [LineFits, hf, hm, hl]
  exact hs

theorem withFaults_lineFits (s : State) (flags : BitVec 7) : LineFits (s.withFaults flags) := rfl

theorem raise_lineFits (s : State) (f : FaultFlag) : LineFits (s.raise f) := withFaults_lineFits s _

/-- What a response hands on reaches no flag. -/
theorem reports_lineFits (h : Reports s t) (hs : LineFits s) : LineFits t := by
  obtain ⟨_, _, _, _, rfl⟩ := h
  exact hs

/-- Either scope sets SOFT_RESET with the line behind it (R201, R202). -/
theorem applyScope_lineFits (sc : Scope) (s : State) : LineFits (applyScope sc s) := by
  cases sc with
  | full => exact withFaults_lineFits _ _
  | keepConfig => exact raise_lineFits _ .softReset

theorem endDrain_lineFits (hs : LineFits s) : LineFits (endDrain s) := by
  unfold endDrain
  split
  · exact iteInduction (fun _ => applyScope_lineFits _ s) fun _ => hs
  · exact hs

theorem settle_lineFits (hs : LineFits s) : LineFits (settle s) :=
  endDrain_lineFits (lineFits_congr hs rfl rfl rfl)

theorem stall_lineFits (hs : LineFits s) : LineFits (stall s) :=
  reports_lineFits (stall_reports s) (lineFits_congr hs rfl rfl rfl)

theorem takeResponseExpiry_lineFits (s : State) : LineFits (takeResponseExpiry s) :=
  settle_lineFits (stall_lineFits (raise_lineFits s .stall))

theorem takeValid_lineFits (k : Nat) (r : DownResponse) (hs : LineFits s) :
    LineFits (takeValid s k r) := by
  unfold takeValid
  dsimp only
  split
  · exact iteInduction
      (fun _ => reports_lineFits (handOn_reports _ _ r) (lineFits_congr hs rfl rfl rfl))
      fun _ => lineFits_congr hs rfl rfl rfl
  · exact lineFits_congr hs rfl rfl rfl

theorem checkOrder_lineFits (r : DownResponse) (hs : LineFits s) : LineFits (checkOrder s r) := by
  have invalid : LineFits (takeInvalid s) := stall_lineFits (raise_lineFits s .order)
  unfold checkOrder
  split
  · exact iteInduction (fun _ => takeValid_lineFits _ r hs) fun _ => invalid
  · exact invalid

theorem takeAccess_lineFits (c : ChannelIndex) (w : Nat) (q : Request) (hs : LineFits s) :
    LineFits (takeAccess s c w q).1 := by
  obtain ⟨es, cs, n, h⟩ := takeAccess_frame s c w q
  rw [h]
  exact lineFits_congr hs rfl rfl rfl

theorem offerRequest_lineFits (q : Request) (hs : LineFits s) : LineFits (offerRequest s q) := by
  rcases offerRequest_cases s q with h | ⟨-, resp, h⟩ | ⟨-, c, w, resp, h⟩ | ⟨-, -, h⟩ <;> rw [h]
  · exact hs
  · exact lineFits_congr hs rfl rfl rfl
  · exact lineFits_congr (takeAccess_lineFits c w q hs) rfl rfl rfl
  · exact lineFits_congr hs rfl rfl rfl

theorem offerAccess_lineFits (c : ChannelIndex) (n : Source) (w : Nat) (x : Payload)
    (hs : LineFits s) : LineFits (offerAccess s c n w x) := by
  rcases offerAccess_cases s c n w x with h | ⟨q, h⟩ <;> rw [h]
  · exact hs
  · exact offerRequest_lineFits q hs

theorem coverTick_lineFits (b : Bool) (u : State) (hs : LineFits s) : LineFits (coverTick b u s) :=
  lineFits_congr hs (coverTick_faultFlags u b s) (coverTick_faultMask u b s)
    (coverTick_faultLine u b s)

/-! ### The fault line behind lapses and ticks -/

theorem lapse_lineFits (c : ChannelIndex) (cause : LapseCause) (ts : Word) (hs : LineFits s) :
    LineFits (lapse s c cause ts) := by
  unfold lapse giveNotice
  split
  · exact raise_lineFits _ .lapseLost
  · exact iteInduction (fun _ => lineFits_congr hs rfl rfl rfl)
      fun _ => raise_lineFits _ .lapseLost

theorem takeHoldoffExpiry_lineFits (c : ChannelIndex) (hs : LineFits s) :
    LineFits (takeHoldoffExpiry s c) :=
  iteInduction (fun _ => lineFits_congr hs rfl rfl rfl) fun _ => hs

theorem takeClaimExpiry_lineFits (c : ChannelIndex) (ts : Word) (hs : LineFits s) :
    LineFits (takeClaimExpiry s c ts) :=
  iteInduction (fun _ => lapse_lineFits c .claim ts hs) fun _ => hs

theorem takeServiceExpiry_lineFits (c : ChannelIndex) (ts : Word) (hs : LineFits s) :
    LineFits (takeServiceExpiry s c ts) :=
  iteInduction (fun _ => lapse_lineFits c .service ts hs) fun _ => hs

theorem takeExpiries_lineFits (k : Channel) (c : ChannelIndex) (hs : LineFits s) :
    LineFits (takeExpiries k s c) := by
  have held : LineFits (if expiresNext k.holdoffTimer then takeHoldoffExpiry s c else s) :=
    iteInduction (fun _ => takeHoldoffExpiry_lineFits c hs) fun _ => hs
  have claimed := iteInduction (c := expiresNext k.claimTimer) (motive := LineFits)
    (fun _ => takeClaimExpiry_lineFits c s.tickCounter held) fun _ => held
  exact iteInduction (fun _ => takeServiceExpiry_lineFits c s.tickCounter claimed) fun _ => claimed

theorem execTick_lineFits {order : List ChannelIndex} (hs : LineFits s)
    (h : execTick order s = .next t) : LineFits t := by
  cases h
  have lowered : LineFits (lowerTimers (advanceTimebase s)) := lineFits_congr hs rfl rfl rfl
  split
  · exact hs
  have expired := iteInduction (c := s.device = .running) (motive := LineFits)
    (fun _ => List.foldlRecOn ((expiryOrder order).filter fun c => awaitsTick s (.channel c))
      (fun t c => takeExpiries (s.channel c) t c) lowered
      fun _ hu c _ => takeExpiries_lineFits _ c hu)
    fun _ => lowered
  exact iteInduction (fun _ => takeResponseExpiry_lineFits _) fun _ => expired

/-! ### The fault line behind the management port -/

theorem executeCommand_lineFits {cmd : Command} {args : List Byte}
    {body : State → Except ResultCode (State × List Byte)} (hs : LineFits s)
    (h : ∀ t bytes, body s = .ok (t, bytes) → LineFits t) :
    LineFits (executeCommand cmd args body s) := by
  rcases executeCommand_effect cmd args body s with ⟨m, he⟩ | ⟨t, bytes, m, hb, -, he⟩ <;> rw [he]
  · exact lineFits_congr hs rfl rfl rfl
  · exact lineFits_congr (h t bytes hb) rfl rfl rfl

theorem disableChannel_lineFits (c : ChannelIndex) (hs : LineFits s) :
    LineFits (disableChannel s c) :=
  iteInduction (fun _ => hs) fun _ => lineFits_congr hs rfl rfl rfl

theorem purgePending_lineFits (c : ChannelIndex) (hs : LineFits s) : LineFits (purgePending s c) := by
  obtain ⟨es, h, -⟩ := purgePending_spec s c
  rw [h]
  exact lineFits_congr hs rfl rfl rfl

theorem channelDisableBody_lineFits {channel purge : Byte} {bytes : List Byte} (hs : LineFits s)
    (h : channelDisableBody channel purge s = .ok (t, bytes)) : LineFits t := by
  obtain ⟨c, -, h⟩ := bind_eq_ok.1 h
  obtain ⟨purged, -, h⟩ := bind_eq_ok.1 h
  have disabled := disableChannel_lineFits c hs
  cases h
  cases purged with
  | false => exact disabled
  | true => exact purgePending_lineFits c (lineFits_congr disabled rfl rfl rfl)

theorem defineEntry_lineFits (i : EntryIndex) (e : Entry) (hs : LineFits s) :
    LineFits (defineEntry s i e) := by
  rw [defineEntry, enqueuePriming_eq]
  exact lineFits_congr hs rfl rfl rfl

/-- A frame discarded before its command executes sets MGMT_FRAME (R171). -/
theorem riseSelect_lineFits (hs : LineFits s) : LineFits (riseSelect s) :=
  iteInduction (fun _ => raise_lineFits _ .mgmtFrame) fun _ => lineFits_congr hs rfl rfl rfl

/-! ### Every command keeps the rule of FAULT_N -/

theorem exec_calm_lineFits {c : Instr} (hcalm : calm c = true) (hs : LineFits s)
    (h : exec c s = .next t) : LineFits t := by
  have taken : ∀ o, LineFits (s.takeTickAt o) := fun _ => lineFits_congr hs rfl rfl rfl
  cases c with
  | holdoffExpiry c =>
    cases h
    exact iteInduction (fun _ => takeHoldoffExpiry_lineFits c (taken _)) fun _ => hs
  | claimDeadlineExpiry c =>
    cases h
    exact iteInduction (fun _ => takeClaimExpiry_lineFits c _ (taken _)) fun _ => hs
  | serviceDeadlineExpiry c =>
    cases h
    exact iteInduction (fun _ => takeServiceExpiry_lineFits c _ (taken _)) fun _ => hs
  | watchRelease i | watchQuery i | channelQuery i =>
    cases h
    refine executeCommand_lineFits hs fun t bytes hb => ?_
    obtain ⟨i, -, hb⟩ := bind_eq_ok.1 hb
    cases hb
    exact lineFits_congr hs rfl rfl rfl
  | channelEnable c | channelReinstate c =>
    cases h
    refine executeCommand_lineFits hs fun t bytes hb => ?_
    obtain ⟨c, -, hb⟩ := bind_eq_ok.1 hb
    obtain ⟨-, -, hb⟩ := bind_eq_ok.1 hb
    cases hb
    exact lineFits_congr hs rfl rfl rfl
  | channelDisable | channelDisablePurge =>
    cases h
    exact executeCommand_lineFits hs fun _ _ => channelDisableBody_lineFits hs
  | faultMaskSet m =>
    cases h
    refine executeCommand_lineFits hs fun t bytes hb => ?_
    cases hb
    exact withFaultMask_faultLine s _
  | statusQuery =>
    cases h
    refine executeCommand_lineFits hs fun t bytes hb => ?_
    cases hb
    exact hs
  | faultCollect =>
    cases h
    refine executeCommand_lineFits hs fun t bytes hb => ?_
    cases hb
    exact withFaults_lineFits s 0
  | unknownCommand code =>
    cases h
    exact iteInduction (fun _ => lineFits_congr hs rfl rfl rfl) fun _ => hs
  | frameDiscard bits | frameCutAfterExecution bits =>
    cases h
    exact riseSelect_lineFits (lineFits_congr hs rfl rfl rfl)
  | frameBegin bits =>
    cases h
    exact iteInduction (fun _ => lineFits_congr hs rfl rfl rfl) fun _ => lineFits_congr hs rfl rfl rfl
  | _ => cases hcalm

theorem exec_lineFits {c : Instr} (hs : LineFits s) (h : exec c s = .next t) : LineFits t := by
  by_cases hcalm : calm c = true
  · exact exec_calm_lineFits hcalm hs h
  cases c with
  | resetNFall => cases h; exact withFaults_lineFits .reset 1
  | resetNRise =>
    cases h
    exact iteInduction (fun _ => lineFits_congr hs rfl rfl rfl) fun _ => hs
  | tick order => exact execTick_lineFits hs h
  | responseTimerExpiry =>
    cases h
    exact iteInduction (fun _ => takeResponseExpiry_lineFits _) fun _ => hs
  | requestAccept q b => cases h; exact coverTick_lineFits b s (offerRequest_lineFits q hs)
  | claim | record | returnService =>
    cases h
    exact coverTick_lineFits _ s (offerAccess_lineFits _ _ _ _ hs)
  | collect | refusedWindowAccess => cases h; exact offerAccess_lineFits _ _ _ _ hs
  | primingIssue | downstreamSend =>
    cases h
    split
    · split <;> exact lineFits_congr hs rfl rfl rfl
    · exact hs
  | downstreamResponse r b =>
    cases h
    refine coverTick_lineFits b s ?_
    split
    · exact hs
    · exact iteInduction (fun _ => raise_lineFits s .late)
        fun _ => settle_lineFits (checkOrder_lineFits r hs)
  | slotLeave =>
    cases h
    split
    · exact settle_lineFits (lineFits_congr hs rfl rfl rfl)
    · exact settle_lineFits hs
  | scopeFullApply => cases h; exact iteInduction (fun _ => applyScope_lineFits .full s) fun _ => hs
  | scopeKeepConfigApply =>
    cases h
    exact iteInduction (fun _ => applyScope_lineFits .keepConfig s) fun _ => hs
  | watchDefine a =>
    rcases exec_watchDefine_effect h with ⟨m, rfl⟩ | ⟨i, m, c, b, mg, -, -, -, rfl⟩
    · exact lineFits_congr hs rfl rfl rfl
    · exact lineFits_congr (defineEntry_lineFits i _ hs) rfl rfl rfl
  | channelDefine a =>
    rcases exec_channelDefine_effect h with ⟨m, rfl⟩ | ⟨c, cfg, mg, -, -, -, rfl⟩ <;>
      exact lineFits_congr hs rfl rfl rfl
  | timingSet d v =>
    cases h
    refine executeCommand_lineFits hs fun t bytes hb => ?_
    obtain ⟨rfl, -⟩ := timingSetBody_ok hb
    exact lineFits_congr hs rfl rfl rfl
  | linkResume =>
    cases h
    refine executeCommand_lineFits hs fun t bytes hb => ?_
    rw [linkResumeBody_ok hb]
    exact lineFits_congr hs rfl rfl rfl
  | deviceReset sc =>
    cases h
    refine executeCommand_lineFits hs fun t bytes hb => ?_
    obtain ⟨sc, rfl⟩ := deviceResetBody_ok hb
    exact endDrain_lineFits (lineFits_congr hs rfl rfl rfl)
  | _ => exact absurd rfl hcalm

/-- Settles O56: a channel's state moves by acts that set its line with it, and no flag and no mask is
stored but with the line behind it. -/
theorem alertAndFaultLinesKept : Obligations.AlertAndFaultLinesKept := by
  refine ⟨fun s t => ?_, fun s t => ?_⟩
  · rw [alertsFollowState_iff, alertsFollowState_iff]
    exact step_keeps_alertFits s t
  · rw [lineFits_iff, lineFits_iff]
    exact step_keeps (fun _ _ hs => lineFits_congr hs rfl rfl rfl) (fun _ _ _ => exec_lineFits) s t

/-! ### The rows of one tick: HOLDOFF_EXPIRY, and the rows that cover a tick (R85, R86, R114) -/

/-- Settles O9: an expiry that is due is the channel's entry to ALERTING. -/
theorem holdoffExpiryAlerts : Obligations.HoldoffExpiryAlerts := by
  refine ⟨fun c s hd hst ht htick => ?_, fun c s h => ?_⟩
  · have alerts : takeHoldoffExpiry (s.takeTickAt (.channel c)) c =
        (s.takeTickAt (.channel c)).setChannel c (enterAlerting (s.channel c)) := if_pos hst
    exact congrArg Host.Outcome.next ((if_pos (expiry_due hd hst ht htick)).trans alerts)
  · exact congrArg Host.Outcome.next (if_neg (expiry_not_due h))

/-- A tick that brings no channel an expiry takes none, in any order (R113). -/
theorem takeAll_unexpired (order : List ChannelIndex) (h : ∀ c, ChannelUnexpired s c) (t : State) :
    takeAll s ((expiryOrder order).filter fun c => awaitsTick s (.channel c)) t = t :=
  List.foldlRecOn (motive := (· = t)) _ _ rfl fun u hu c hc => by
    have awaits := (awaitsTick_iff s _).1 (List.mem_filter.1 hc).2
    obtain ⟨ho, hcl, hv⟩ := (h c).resolve_left awaits
    rw [takeExpiries_none ho hcl hv, hu]

/-- A row that covers its tick does what the row does, and covers the tick then (log entry 23). -/
theorem exec_covering {row covering : Instr} (h : Covers row covering) (s : State) :
    ∃ t, exec row s = .next t ∧ exec covering s = .next (coverTick true s t) := by
  cases h <;> exact ⟨_, rfl, rfl⟩

/-- Settles O6: a TICK with no expiry to take is the lowering of the timers, and a covering row is the
row with `coverTick` behind it. -/
theorem ticksAreTakenOnce : Obligations.TicksAreTakenOnce := by
  refine ⟨fun order s hd hc hr => ?_, fun row covering s h => ?_⟩
  · exact ⟨tickLowered s, (exec_tick_running order hd hr).trans
      (congrArg Host.Outcome.next (takeAll_unexpired order hc _)), channel_tickLowered s, rfl⟩
  · obtain ⟨t, hrow, hcovering⟩ := exec_covering h s
    obtain ⟨frame, taken⟩ := coverTick_true s t
    exact ⟨t, _, hrow, hcovering, frame, taken⟩

/-! ### Requests that wait (R87, R132, R140) -/

theorem offerRequest_waiting (h : Waits s) (q : Request) : offerRequest s q = s :=
  if_neg (by simp [(waits_iff s).1 h])

theorem offerAccess_waiting {c : ChannelIndex}
    (h : Waits s ∨ (s.channel c).config.windowBase = none) (n : Source) (w : Nat) (x : Payload) :
    offerAccess s c n w x = s := by
  unfold offerAccess
  split
  next hb => exact offerRequest_waiting (h.resolve_right (by simp [hb])) _
  next => rfl

/-- Settles O13: every upstream row is an offer of `offerRequest`, or of `offerAccess`. -/
theorem requestsWaitWithoutAGrant : Obligations.RequestsWaitWithoutAGrant := by
  refine ⟨fun s q h => congrArg Host.Outcome.next (offerRequest_waiting h q), fun s n c h => ?_⟩
  have waits := fun w x => congrArg (Host.Outcome.next (φ := Fault) (ρ := Refusal))
    (offerAccess_waiting h n w x)
  exact ⟨fun len => waits 0 _, waits 2 _, waits 8 _, fun count => waits 4 _,
    fun w p => waits w.val p⟩

/-! ### CLAIM (R91 to R94) -/

theorem wordAddress_zero (a : Word) : wordAddress a 0 = a := BitVec.add_zero a

theorem recognise_claim {len : BitVec 4} (h : len = 1 ∨ len = 2) :
    recognise 0 (.read len) = some (.claim len.toNat) := if_pos ⟨rfl, h⟩

/-- A CLAIM's length is not 0 and fits in its block (R128, R134). -/
theorem claim_fits {len : BitVec 4} (h : len = 1 ∨ len = 2) :
    payloadLength (.read len) ≠ 0 ∧ 0 % 8 + payloadLength (.read len) ≤ 8 := by
  rcases h with rfl | rfl <;> decide

/-- Out of DISABLED a channel serves the CLAIM of a permitted source (R89). -/
theorem serves_claim {k : Channel} {n : Source} (hp : k.config.permitted[n.val] = true)
    (hst : k.state ≠ .disabled) (length : Nat) : serves k n (.claim length) = true := by
  simp [serves, hp, hst]

theorem exec_claim_served {c : ChannelIndex} {base : Word} {n : Source} {len : BitVec 4}
    (hg : Granted s) (hw : WindowAt s c base) (hlen : len = 1 ∨ len = 2)
    (hp : (s.channel c).config.permitted[n.val] = true) (hst : (s.channel c).state ≠ .disabled) :
    exec (.claim n c len) s = .next { s.setChannel c (claimChannel (s.channel c)) with
      ring := s.ring ++ [.answered n false base len.toNat
        { status := .okay, data := claimData (s.channel c) len.toNat }] } := by
  obtain ⟨hl, hf⟩ := claim_fits hlen
  have key := offerAccess_served hg hw n (w := 0) hl (by decide) hf (recognise_claim hlen)
    (serves_claim hp hst _)
  rw [wordAddress_zero] at key
  exact congrArg Host.Outcome.next key

theorem summaryWord0_state (k : Channel) :
    (summaryWord0 k).extractLsb' 0 3 = channelStateCode k.state := by
  simp [summaryWord0, BitVec.extractLsb'_or, extract_field_same, extract_field_other]

/-- Settles O17: CLAIM is `serveClaim`, and each field of its summary is read back at its place. -/
theorem claimBeginsService : Obligations.ClaimBeginsService := by
  refine ⟨fun s n c len base hg hw hlen hp hst hserv => ?_, fun k => ?_⟩
  · have begun : claimChannel (s.channel c) = { s.channel c with
        state := .inService, alert := false, overflow := false, holdoffTimer := .stopped
        claimTimer := .stopped, serviceTimer := startTimer (s.channel c).config.serviceDeadline } :=
      if_neg hserv
    rw [exec_claim_served hg hw hlen hp hst, begun]
    rfl
  · refine ⟨(summaryWord0_state k).trans (by cases k.state <;> rfl), ?_⟩
    have flag : ∀ b : Bool, flagBit b = if b then 1 else 0 := fun _ => rfl
    simp [summaryWord0, summaryWord1, BitVec.extractLsb'_or, extract_field_same, extract_field_other,
      flag]

/-- Settles O18: in IN_SERVICE `claimChannel` only clears the flag and counts. -/
theorem claimRepeatedInService : Obligations.ClaimRepeatedInService := by
  intro s n c len base hg hw hlen hp hst
  have counted : claimChannel (s.channel c) = { s.channel c with
      overflow := false
      reclaims := if (s.channel c).reclaims = 255 then 255 else (s.channel c).reclaims + 1 } := by
    rw [claimChannel, if_pos hst, saturate_byte]
  rw [exec_claim_served hg hw hlen hp (by simp [hst]), counted]
  rfl

/-! ### COLLECT (R95) -/

theorem exec_collect_served {c : ChannelIndex} {base : Word} {n : Source} (hg : Granted s)
    (hw : WindowAt s c base) (hp : (s.channel c).config.permitted[n.val] = true)
    (hst : (s.channel c).state = .inService) :
    exec (.collect n c) s = .next { (serveCollect s c).1 with
      ring := (serveCollect s c).1.ring ++ [.answered n false (base + 8) 2
        { status := .okay, data := (serveCollect s c).2 }] } :=
  congrArg Host.Outcome.next (offerAccess_served hg hw n (w := 2) (x := .read 2) (a := .collect)
    (by decide) (by decide) (by decide) rfl (serves_inService hp hst _))

theorem collectWord0_mode (i : EntryIndex) (e : Entry) :
    (collectWord0 i e).extractLsb' 24 2 = modeCode e.mode := by
  simp [collectWord0, BitVec.extractLsb'_or, extract_field_same, extract_field_other]

/-- Settles O19: COLLECT in IN_SERVICE is `serveCollect`, which takes the front of the set. -/
theorem collectTakesLowestMember : Obligations.CollectTakesLowestMember := by
  refine ⟨fun s n c base hg hw hp hst => ⟨fun i rest hset hasc => ?_, fun hset => ?_⟩, fun i e => ?_⟩
  · rw [hset, List.pairwise_cons] at hasc
    refine ⟨hasc.1, (exec_collect_served hg hw hp hst).trans ?_⟩
    simp only [serveCollect, hset]
    rfl
  · refine (exec_collect_served hg hw hp hst).trans ?_
    simp only [serveCollect, hset]
  · refine ⟨?_, ?_, ?_, ?_, ?_, (collectWord0_mode i e).trans (by cases e.mode <;> rfl), ?_⟩ <;>
      simp [collectWord0, BitVec.extractLsb'_or, extract_field_same, extract_field_other, flagBit]

/-! ### A window access that its channel refuses (R89, R100) -/

/-- A channel serves nothing to a source that is not permitted, and nothing while DISABLED (R89). -/
theorem serves_shut {k : Channel} {n : Source}
    (h : k.config.permitted[n.val] = false ∨ k.state = .disabled) (a : WindowAccess) :
    serves k n a = false := by
  rcases h with h | h <;> simp [serves, h]

/-- Out of IN_SERVICE a channel serves no access but CLAIM (R89). -/
theorem serves_outOfService {k : Channel} {n : Source} {a : WindowAccess}
    (h : (k.config.permitted[n.val] = false ∨ k.state = .disabled) ∨ k.state ≠ .inService)
    (ha : ∀ length, a ≠ .claim length) : serves k n a = false := by
  rcases h with h | h
  · exact serves_shut h a
  · cases a with
    | claim length => exact absurd rfl (ha length)
    | _ => simp [serves, h]

/-- A row that names a word of channel `c`'s window, of a shape that is none of the four or that the
channel does not serve as it stands: the access is counted, and REFUSED stands in the slot at the tail. -/
theorem offerAccess_refused {c : ChannelIndex} {base : Word} (hg : Granted s) (hw : WindowAt s c base)
    (n : Source) {w : Nat} {x : Payload} (hl : payloadLength x ≠ 0) (hw' : w < 16)
    (hf : w % 8 + payloadLength x ≤ 8)
    (hs : ∀ a, recognise w x = some a → serves (s.channel c) n a = false) :
    offerAccess s c n w x = { s.setChannel c { s.channel c with
        refused := if (s.channel c).refused = 255 then 255 else (s.channel c).refused + 1 } with
      ring := s.ring ++ [.answered n (isWrite x) (wordAddress base w) (payloadLength x)
        { status := .refused, data := zeroWords x }] } := by
  have refused : takeAccess s c w ⟨n, wordAddress base w, x⟩ =
      (refuseAccess s c, blankResponse .refused x) := by
    cases hr : recognise w x with
    | none => exact takeAccess_unmatched hr
    | some a => exact takeAccess_refused hr (hs a hr)
  rw [offerAccess_taken hg hw n hl hw' hf, refused, ← saturate_byte]
  rfl

/-- Settles O22: each clause is `offerAccess_refused` at the row's word and shape. -/
theorem windowAccessRefused : Obligations.WindowAccessRefused := by
  intro s n c base hg hw shut u
  have recognised : ∀ {w : Nat} {x : Payload} {a : WindowAccess}, recognise w x = some a →
      serves (s.channel c) n a = false →
      ∀ b, recognise w x = some b → serves (s.channel c) n b = false :=
    fun ha hs b hb => Option.some.inj (ha.symm.trans hb) ▸ hs
  refine ⟨fun len hlen h => ?_, fun h => ?_, fun h => ?_, fun count h => ?_, fun w p hwf => ?_⟩
  · obtain ⟨hl, hf⟩ := claim_fits hlen
    have key := offerAccess_refused hg hw n (w := 0) hl (by decide) hf
      (recognised (recognise_claim hlen) (serves_shut h _))
    rw [wordAddress_zero] at key
    exact congrArg Host.Outcome.next key
  · exact congrArg Host.Outcome.next (offerAccess_refused hg hw n (w := 2) (x := .read 2)
      (by decide) (by decide) (by decide)
      (recognised (a := .collect) rfl (serves_outOfService h (by simp))))
  · exact congrArg Host.Outcome.next (offerAccess_refused hg hw n (w := 8) (x := .read 6)
      (by decide) (by decide) (by decide)
      (recognised (a := .record) rfl (serves_outOfService h (by simp))))
  · exact congrArg Host.Outcome.next (offerAccess_refused hg hw n (w := 4)
      (x := .write [{ data := count, enables := 0xF }])
      Nat.one_ne_zero (by decide) (show 4 + 1 ≤ 8 by decide)
      (recognised (a := .returnService count) rfl (serves_outOfService h (by simp))))
  · simp only [Instr.wellFormed, Bool.and_eq_true, bne_iff_ne, decide_eq_true_eq,
      Option.isNone_iff_eq_none] at hwf
    obtain ⟨⟨⟨-, hl⟩, hf⟩, hnone⟩ := hwf
    have key := offerAccess_refused hg hw n hl w.isLt hf (by simp [hnone])
    refine (congrArg Host.Outcome.next key).trans ?_
    cases p <;> rfl

/-! ### CHANNEL_ENABLE and CHANNEL_REINSTATE (R103, R125) -/

theorem hasContent_iff (k : Channel) :
    hasContent k = true ↔ k.queued ≠ [] ∨ k.pendingSet ≠ [] ∨ k.overflow = true := by
  simp only [hasContent, Bool.or_eq_true, Bool.not_eq_true', List.isEmpty_eq_false_iff, or_assoc]

/-- The end of a service or of a lapse, in the words of the statements (R97, R125). -/
theorem settleContent_eq (k : Channel) :
    settleContent k = if k.queued ≠ [] ∨ k.pendingSet ≠ [] ∨ k.overflow = true then
      { k with
        state := .alerting, alert := true, holdoffTimer := .stopped
        claimTimer := startTimer k.config.claimDeadline }
    else { k with state := .idle, alert := false } := by
  rw [settleContent]
  simp only [hasContent_iff]
  rfl

/-- An enable, in the words of the statements (R83, R103). -/
theorem enable_eq (k : Channel) :
    enable k = if k.queued ≠ [] ∨ k.pendingSet ≠ [] ∨ k.overflow = true then
      if k.config.holdoff = 0 ∨ k.config.watermark.toNat ≤ k.queued.length then
        { k with
          state := .alerting, alert := true, holdoffTimer := .stopped
          claimTimer := startTimer k.config.claimDeadline }
      else { k with
        state := .holdoff, alert := false, holdoffTimer := startTimer k.config.holdoff }
    else { k with state := .idle, alert := false } := by
  simp only [enable, hasContent_iff]
  rfl

theorem channelEnableBody_accepted {c : ChannelIndex} (h : (s.channel c).state = .disabled) :
    channelEnableBody (BitVec.ofNat 8 c.val) s = .ok (s.setChannel c (enable (s.channel c)), []) := by
  simp only [channelEnableBody, channelOf_number, orRefuse_some_bind, require_bind, h,
    beq_self_eq_true, if_true]
  rfl

theorem channelReinstateBody_accepted {c : ChannelIndex} (h : (s.channel c).state = .lapsed) :
    channelReinstateBody (BitVec.ofNat 8 c.val) s =
      .ok (s.setChannel c (settleContent (s.channel c)), []) := by
  simp only [channelReinstateBody, channelOf_number, orRefuse_some_bind, require_bind, h,
    beq_self_eq_true, if_true]
  rfl

/-- Settles O41: the two commands execute `enable` and `settleContent`. -/
theorem channelEnabledOrReinstated : Obligations.ChannelEnabledOrReinstated := by
  intro s c en re k content alerting
  refine ⟨fun hp hst => ?_, fun hp hst => ?_⟩
  · have key := executeCommand_accepted hp rfl (channelEnableBody_accepted hst)
    rw [enable_eq] at key
    exact congrArg Host.Outcome.next key
  · have key := executeCommand_accepted hp rfl (channelReinstateBody_accepted hst)
    rw [settleContent_eq] at key
    exact congrArg Host.Outcome.next key

end

end Sys2Proof.Proofs

/-! SUPPORT and PROOFS. A timer over several ticks, the tick of a drain, and the proofs of the statements
that cite chapter 6 and are not settled above. -/

namespace Sys2Proof.Proofs

open Sys2Proof Sys2Proof.Machine Sys2Proof.Safety

section

variable {s : State}

/-! ### While RESET_N is low (R111, R152, R166, R176, R197) -/

/-- Settles O4: a state that `ResetHolds` describes is `heldLow`, where a command moves the level of chip
select alone. -/
theorem resetHoldsThePart : Obligations.ResetHoldsThePart := by
  intro c s t hd hs hc h
  have low : s = heldLow s.pending s.management.selectLow := hs hd
  rw [low] at h
  obtain ⟨level, rfl⟩ := exec_heldLow hc _ _ h
  exact ⟨level, congrArg
    (fun u : State => { u with management := { u.management with selectLow := level } }) low.symm⟩

/-! ### A timer over several ticks (R113) -/

theorem lowerTimer_above_one {n : Nat} (h : 1 < n) : lowerTimer (.running n) = .running (n - 1) :=
  if_neg (Nat.not_le.2 h)

theorem lowerTimer_last : lowerTimer (.running 1) = .stopped := rfl

theorem expiresNext_running (n : Nat) : expiresNext (.running n) = true ↔ n ≤ 1 := decide_eq_true_iff

/-- A running timer counts a tick off at each tick before its last. -/
theorem lowerTimer_iterate {n k : Nat} (h : k < n) :
    lowerTimer^[k] (.running n) = .running (n - k) := by
  induction k with
  | zero => rfl
  | succ k ih =>
    rw [Function.iterate_succ_apply', ih (by omega), lowerTimer_above_one (by omega), Nat.sub_sub]

/-- A running timer is stopped by its last tick. -/
theorem lowerTimer_iterate_all (n : Nat) : lowerTimer^[n + 1] (.running (n + 1)) = .stopped := by
  rw [Function.iterate_succ_apply', lowerTimer_iterate n.lt_add_one, Nat.add_sub_cancel_left,
    lowerTimer_last]

/-- Settles O5: a start with a value above 0 runs as many ticks, counted by `lowerTimer_iterate`. -/
theorem timerExpiresAtItsTick : Obligations.TimerExpiresAtItsTick := by
  refine ⟨fun v k hk => ?_, fun v => ?_, startTimer_zero, rfl, rfl⟩
  · have started : startTimer v = .running v.toNat := startTimer_pos (by rintro rfl; simp at hk)
    rw [started, lowerTimer_iterate hk, expiresNext_running]
    exact ⟨rfl, by omega⟩
  · by_cases hv : v = 0
    · subst hv
      rfl
    · obtain ⟨n, hn⟩ : ∃ n, v.toNat = n + 1 :=
        Nat.exists_eq_succ_of_ne_zero fun h => hv (BitVec.eq_of_toNat_eq h)
      rw [startTimer_pos hv, hn, lowerTimer_iterate_all]

/-! ### The tick of a drain (R111, R114, R115, R158) -/

/-- Outside RUNNING a tick advances the timebase and counts on the response timer alone. -/
theorem lowerTimers_frozen (h : s.device ≠ .running) :
    lowerTimers (advanceTimebase s) = { s with
      tickCounter := s.tickCounter + 1
      tickPeriod := s.tickDivider
      tickTaken := []
      responseTimer := responseTicked s } := by
  have timer : tickResponse (advanceTimebase s) = responseTicked s :=
    lowerTimers_responseTimer (advanceTimebase s)
  rw [lowerTimers, timer, if_neg (by exact h)]
  rfl

/-- A tick that brings the port no expiry takes none there. -/
theorem portExpiry_not_due (h : ResponseUnexpired s) :
    ¬ (awaitsTick s .port && expiresNext s.responseTimer && s.link == .active) = true := by
  rw [Bool.and_eq_true, Bool.and_eq_true, awaitsTick_iff, beq_iff_eq]
  rintro ⟨⟨awaited, due⟩, active⟩
  rcases h with taken | notDue | stalled
  · exact awaited taken
  · simp [notDue] at due
  · simp [stalled] at active

/-- Settles O7: TICK in a drain takes no channel's expiry, and `ResponseUnexpired` leaves the port none. -/
theorem tickFreezesChannelTimersInDrain : Obligations.TickFreezesChannelTimersInDrain := by
  intro order s sc hd hr
  have frozen : s.device ≠ .running := by simp [hd]
  simp only [exec, execTick]
  rw [if_neg (by simp [hd]), if_neg (portExpiry_not_due hr), if_neg frozen, lowerTimers_frozen frozen]

/-! ### TIMING_SET and LINK_RESUME (R112, R164, R186, R190) -/

theorem timingSetBody_accepted {divider timeout : Half} (hd : 1 ≤ divider.toNat)
    (hle : divider.toNat ≤ 4096) (ht : 1 ≤ timeout.toNat) :
    timingSetBody divider timeout s =
      .ok ({ s with tickDivider := divider, responseTimeout := timeout }, []) := by
  have nonzero : ∀ v : Half, 1 ≤ v.toNat → v ≠ 0 := by
    rintro _ h rfl
    simp at h
  have inRange : (divider != 0 && divider.toNat ≤ 4096 && timeout != 0) = true := by
    simp only [Bool.and_eq_true, bne_iff_ne, decide_eq_true_eq]
    exact ⟨⟨nonzero divider hd, hle⟩, nonzero timeout ht⟩
  rw [timingSetBody, inRange]
  rfl

theorem linkResumeBody_accepted (h : s.link = .stalled) :
    linkResumeBody s = .ok ({ s with link := .active }, []) := by
  rw [linkResumeBody, h]
  rfl

/-- Settles O44: the tests of the two commands pass, and each stores its values alone. -/
theorem timingSetAndLinkResume : Obligations.TimingSetAndLinkResume := by
  refine ⟨fun s divider timeout hp hd hle ht => ?_, fun s hp hl => ?_⟩
  · exact congrArg Host.Outcome.next
      (executeCommand_accepted hp rfl (timingSetBody_accepted hd hle ht))
  · exact congrArg Host.Outcome.next (executeCommand_accepted hp rfl (linkResumeBody_accepted hl))

end

end Sys2Proof.Proofs

/-! SUPPORT and PROOFS. What sends nothing on the downstream port, a request granted its slot, the oldest
unsent request, and the proofs of the statements that cite chapter 7 and are not settled above. -/

namespace Sys2Proof.Proofs

open Sys2Proof Sys2Proof.Machine Sys2Proof.Safety

section

variable {s t u : State}

/-! ### Nothing is sent while the port is STALLED or RESET_N is low (R141, R161) -/

/-- From `s` to `t` no slot is marked sent and memory takes no request. -/
structure SendsNothing (s t : State) : Prop where
  sent : (t.ring.filter sentOutstanding).Sublist (s.ring.filter sentOutstanding)
  out : t.downstreamOut = s.downstreamOut

theorem SendsNothing.same (hr : t.ring = s.ring) (ho : t.downstreamOut = s.downstreamOut) :
    SendsNothing s t :=
  ⟨hr ▸ .refl _, ho⟩

theorem SendsNothing.refl (s : State) : SendsNothing s s := .same rfl rfl

theorem SendsNothing.trans (h : SendsNothing s t) (h' : SendsNothing t u) : SendsNothing s u :=
  ⟨h'.sent.trans h.sent, h'.out.trans h.out⟩

/-- A slot at the tail that has not been sent. -/
theorem allocate_sendsNothing (s : State) {x : Slot} (hx : sentOutstanding x = false) :
    SendsNothing s (allocate s x) := by
  refine ⟨?_, rfl⟩
  simp [hx]

theorem leaveSilently_sendsNothing (s : State) : SendsNothing s (leaveSilently s) :=
  ⟨(List.dropWhile_sublist _).filter _, rfl⟩

/-- Either scope empties the ring (R152, R201, R202). -/
theorem applyScope_sendsNothing (sc : Scope) (s : State) : SendsNothing s (applyScope sc s) := by
  cases sc <;> exact ⟨List.nil_sublist _, rfl⟩

theorem endDrain_sendsNothing (s : State) : SendsNothing s (endDrain s) := by
  unfold endDrain
  split
  · exact iteInduction (fun _ => applyScope_sendsNothing _ s) fun _ => .refl s
  · exact .refl s

theorem settle_sendsNothing (s : State) : SendsNothing s (settle s) :=
  (leaveSilently_sendsNothing s).trans (endDrain_sendsNothing _)

/-! ### Accesses and expiries that send nothing -/

theorem takeAccess_sendsNothing (s : State) (c : ChannelIndex) (w : Nat) (q : Request) :
    SendsNothing s (takeAccess s c w q).1 := by
  obtain ⟨es, cs, n, h⟩ := takeAccess_frame s c w q
  rw [h]
  exact .same rfl rfl

/-- An accepted request stands in its slot answered, or waits there to be sent (R137, R141). -/
theorem offerRequest_sendsNothing (s : State) (q : Request) : SendsNothing s (offerRequest s q) := by
  rcases offerRequest_cases s q with h | ⟨-, resp, h⟩ | ⟨-, c, w, resp, h⟩ | ⟨-, -, h⟩ <;> rw [h]
  · exact .refl s
  · exact allocate_sendsNothing s rfl
  · exact (takeAccess_sendsNothing s c w q).trans (allocate_sendsNothing _ rfl)
  · exact allocate_sendsNothing s rfl

theorem offerAccess_sendsNothing (s : State) (c : ChannelIndex) (n : Source) (w : Nat) (x : Payload) :
    SendsNothing s (offerAccess s c n w x) := by
  rcases offerAccess_cases s c n w x with h | ⟨q, h⟩ <;> rw [h]
  · exact .refl s
  · exact offerRequest_sendsNothing s q

theorem SendsNothing.covered (h : SendsNothing s t) (b : Bool) : SendsNothing s (coverTick b s t) :=
  h.trans (.same (coverTick_ring s b t) (coverTick_downstreamOut s b t))

theorem lapse_sendsNothing (s : State) (c : ChannelIndex) (cause : LapseCause) (ts : Word) :
    SendsNothing s (lapse s c cause ts) := by
  unfold lapse giveNotice
  split
  · exact .same rfl rfl
  · exact iteInduction (fun _ => .same rfl rfl) fun _ => .same rfl rfl

theorem takeHoldoffExpiry_sendsNothing (s : State) (c : ChannelIndex) :
    SendsNothing s (takeHoldoffExpiry s c) :=
  iteInduction (fun _ => .same rfl rfl) fun _ => .refl s

theorem takeClaimExpiry_sendsNothing (s : State) (c : ChannelIndex) (ts : Word) :
    SendsNothing s (takeClaimExpiry s c ts) :=
  iteInduction (fun _ => lapse_sendsNothing s c .claim ts) fun _ => .refl s

theorem takeServiceExpiry_sendsNothing (s : State) (c : ChannelIndex) (ts : Word) :
    SendsNothing s (takeServiceExpiry s c ts) :=
  iteInduction (fun _ => lapse_sendsNothing s c .service ts) fun _ => .refl s

theorem SendsNothing.stepIf (b : Bool) (h : SendsNothing s t) (h' : SendsNothing t u) :
    SendsNothing s (if b then u else t) :=
  iteInduction (fun _ => h.trans h') fun _ => h

theorem takeExpiries_sendsNothing (k : Channel) (s : State) (c : ChannelIndex) :
    SendsNothing s (takeExpiries k s c) :=
  (((SendsNothing.refl s).stepIf _ (takeHoldoffExpiry_sendsNothing s c)).stepIf _
    (takeClaimExpiry_sendsNothing _ c _)).stepIf _ (takeServiceExpiry_sendsNothing _ c _)

/-- With the port shut a TICK takes no expiry of the response timer (R159). -/
theorem execTick_sendsNothing {order : List ChannelIndex} (hs : s.link = .stalled ∨ s.device = .reset)
    (h : execTick order s = .next t) : SendsNothing s t := by
  cases h
  have lowered : SendsNothing s (lowerTimers (advanceTimebase s)) := .same rfl rfl
  refine iteInduction (fun _ => .refl s) fun hr => ?_
  have stalled : s.link = .stalled := hs.resolve_right hr
  rw [if_neg (by simp [stalled])]
  exact iteInduction
    (fun _ => List.foldlRecOn _ _ lowered fun u hu c _ => hu.trans (takeExpiries_sendsNothing _ u c))
    fun _ => lowered

/-! ### Management commands that send nothing -/

theorem executeCommand_sendsNothing {cmd : Command} {args : List Byte}
    {body : State → Except ResultCode (State × List Byte)}
    (h : ∀ t bytes, body s = .ok (t, bytes) → SendsNothing s t) :
    SendsNothing s (executeCommand cmd args body s) := by
  rcases executeCommand_effect cmd args body s with ⟨m, he⟩ | ⟨t, bytes, m, hb, -, he⟩ <;> rw [he]
  · exact .same rfl rfl
  · exact (h t bytes hb).trans (.same rfl rfl)

theorem disableChannel_sendsNothing (s : State) (c : ChannelIndex) :
    SendsNothing s (disableChannel s c) :=
  iteInduction (fun _ => .refl s) fun _ => .same rfl rfl

theorem purgeChannel_sendsNothing (s : State) (c : ChannelIndex) :
    SendsNothing s (purgeChannel s c) := by
  obtain ⟨es, h, -⟩ := purgePending_spec (freeQueue (disableChannel s c) c) c
  rw [purgeChannel, h]
  exact (disableChannel_sendsNothing s c).trans (.same rfl rfl)

theorem channelDisableBody_sendsNothing {channel purge : Byte} {bytes : List Byte}
    (h : channelDisableBody channel purge s = .ok (t, bytes)) : SendsNothing s t := by
  obtain ⟨c, -, h⟩ := bind_eq_ok.1 h
  obtain ⟨purged, -, h⟩ := bind_eq_ok.1 h
  cases h
  cases purged with
  | false => exact disableChannel_sendsNothing s c
  | true => exact purgeChannel_sendsNothing s c

theorem defineEntry_sendsNothing (s : State) (i : EntryIndex) (e : Entry) :
    SendsNothing s (defineEntry s i e) := by
  rw [defineEntry, enqueuePriming_eq]
  exact .same rfl rfl

theorem riseSelect_sendsNothing (s : State) : SendsNothing s (riseSelect s) :=
  .same (riseSelect_ring s) (riseSelect_downstreamOut s)

/-! ### Every command with the port shut -/

theorem exec_calm_sendsNothing {c : Instr} (hcalm : calm c = true) (h : exec c s = .next t) :
    SendsNothing s t := by
  have taken : ∀ o, SendsNothing s (s.takeTickAt o) := fun _ => .same rfl rfl
  cases c with
  | holdoffExpiry c =>
    cases h
    exact iteInduction (fun _ => (taken _).trans (takeHoldoffExpiry_sendsNothing _ c)) fun _ => .refl s
  | claimDeadlineExpiry c =>
    cases h
    exact iteInduction (fun _ => (taken _).trans (takeClaimExpiry_sendsNothing _ c _)) fun _ => .refl s
  | serviceDeadlineExpiry c =>
    cases h
    exact iteInduction (fun _ => (taken _).trans (takeServiceExpiry_sendsNothing _ c _))
      fun _ => .refl s
  | watchRelease i | watchQuery i | channelQuery i =>
    cases h
    refine executeCommand_sendsNothing fun t bytes hb => ?_
    obtain ⟨i, -, hb⟩ := bind_eq_ok.1 hb
    cases hb
    exact .same rfl rfl
  | channelEnable c | channelReinstate c =>
    cases h
    refine executeCommand_sendsNothing fun t bytes hb => ?_
    obtain ⟨c, -, hb⟩ := bind_eq_ok.1 hb
    obtain ⟨-, -, hb⟩ := bind_eq_ok.1 hb
    cases hb
    exact .same rfl rfl
  | channelDisable | channelDisablePurge =>
    cases h
    exact executeCommand_sendsNothing fun _ _ => channelDisableBody_sendsNothing
  | faultMaskSet | statusQuery | faultCollect =>
    cases h
    refine executeCommand_sendsNothing fun t bytes hb => ?_
    cases hb
    exact .same rfl rfl
  | unknownCommand code =>
    cases h
    exact iteInduction (fun _ => .same rfl rfl) fun _ => .refl s
  | frameDiscard bits | frameCutAfterExecution bits =>
    cases h
    have clocked : SendsNothing s (clockSelect s bits) := .same rfl rfl
    exact clocked.trans (riseSelect_sendsNothing _)
  | frameBegin bits =>
    cases h
    exact iteInduction (fun _ => .same rfl rfl) fun _ => .same rfl rfl
  | _ => cases hcalm

/-- The sending, the order check and the response timer's expiry need the port ACTIVE outside RESET. -/
theorem exec_sendsNothing {c : Instr} (hs : s.link = .stalled ∨ s.device = .reset)
    (hfall : c ≠ .resetNFall) (h : exec c s = .next t) : SendsNothing s t := by
  have shut : s.device ≠ .reset → s.link ≠ .active := fun hd => by simp [hs.resolve_right hd]
  by_cases hcalm : calm c = true
  · exact exec_calm_sendsNothing hcalm h
  cases c with
  | resetNFall => exact absurd rfl hfall
  | resetNRise => cases h; exact iteInduction (fun _ => .same rfl rfl) fun _ => .refl s
  | tick order => exact execTick_sendsNothing hs h
  | responseTimerExpiry =>
    cases h
    rw [if_neg fun ⟨hd, hl, _⟩ => shut hd hl]
    exact .refl s
  | requestAccept q b => cases h; exact (offerRequest_sendsNothing s q).covered b
  | claim | record | returnService => cases h; exact (offerAccess_sendsNothing s _ _ _ _).covered _
  | collect | refusedWindowAccess => cases h; exact offerAccess_sendsNothing s _ _ _ _
  | primingIssue =>
    cases h
    split
    · split
      next i rest _ =>
        exact (allocate_sendsNothing s (x := primingSlot s i) rfl).trans (.same rfl rfl)
      next => exact .refl s
    · exact .refl s
  | downstreamSend =>
    cases h
    rw [if_neg fun ⟨hd, hl⟩ => shut hd hl]
    exact .refl s
  | downstreamResponse r b =>
    cases h
    refine SendsNothing.covered (iteInduction (fun _ => .refl s) fun hd => ?_) b
    rw [if_pos (hs.resolve_right hd)]
    exact .same rfl rfl
  | slotLeave =>
    cases h
    split
    next n w a len resp rest hring =>
      have left : SendsNothing s
          { s with ring := rest, head := s.head + 1, upstreamOut := some resp } := by
        refine ⟨?_, rfl⟩
        rw [hring]
        exact (List.sublist_cons_self _ rest).filter _
      exact left.trans (settle_sendsNothing _)
    next => exact settle_sendsNothing s
  | scopeFullApply =>
    cases h
    exact iteInduction (fun _ => applyScope_sendsNothing .full s) fun _ => .refl s
  | scopeKeepConfigApply =>
    cases h
    exact iteInduction (fun _ => applyScope_sendsNothing .keepConfig s) fun _ => .refl s
  | watchDefine a =>
    rcases exec_watchDefine_effect h with ⟨m, rfl⟩ | ⟨i, m, c, b, mg, -, -, -, rfl⟩
    · exact .same rfl rfl
    · exact (defineEntry_sendsNothing s i _).trans (.same rfl rfl)
  | channelDefine a =>
    rcases exec_channelDefine_effect h with ⟨m, rfl⟩ | ⟨c, cfg, mg, -, -, -, rfl⟩ <;>
      exact .same rfl rfl
  | timingSet d v =>
    cases h
    refine executeCommand_sendsNothing fun t bytes hb => ?_
    obtain ⟨rfl, -⟩ := timingSetBody_ok hb
    exact .same rfl rfl
  | linkResume =>
    cases h
    refine executeCommand_sendsNothing fun t bytes hb => ?_
    rw [linkResumeBody_ok hb]
    exact .same rfl rfl
  | deviceReset sc =>
    cases h
    refine executeCommand_sendsNothing fun t bytes hb => ?_
    obtain ⟨sc, rfl⟩ := deviceResetBody_ok hb
    have drains : SendsNothing s { s with device := .draining sc } := .same rfl rfl
    exact drains.trans (endDrain_sendsNothing _)
  | _ => exact absurd rfl hcalm

/-- Settles O25: a fall of RESET_N empties the ring and clears the request memory last took, and every
other command sends nothing. -/
theorem nothingSentWhileStalledOrInReset : Obligations.NothingSentWhileStalledOrInReset := by
  intro c s t hs h
  by_cases hfall : c = .resetNFall
  · subst hfall
    cases h
    exact ⟨List.nil_sublist _, .inr ⟨rfl, rfl⟩⟩
  · obtain ⟨sent, out⟩ := exec_sendsNothing hs hfall h
    exact ⟨sent, .inl out⟩

/-! ### A request that is granted its slot (R133, R134, R136, R137) -/

theorem exec_requestAccept_granted (hg : Granted s) (q : Request) :
    exec (.requestAccept q) s = .next (classify s q) :=
  congrArg Host.Outcome.next (if_pos ((upstreamGranted_iff s).2 hg))

theorem classify_malformed {q : Request} (hm : MalformedRequest q) :
    classify s q = { s with
      ring := s.ring ++ [answeredSlot q (blankResponse .refused q.payload)] } :=
  (if_pos ((malformed_iff q).2 hm)).trans (allocate_answered s q _)

theorem classify_outside {q : Request} (hm : ¬ MalformedRequest q) (ho : OutsideWindows s q.address) :
    classify s q =
      if s.link = .stalled then allocate s (answeredSlot q (blankResponse .fault q.payload))
      else allocate s (.forwarded q false) := by
  rw [classify, if_neg (mt (malformed_iff q).1 hm), (windowAt_none_iff s _).2 ho]

theorem allocate_forwarded (s : State) (q : Request) :
    allocate s (.forwarded q false) = { s with
      ring := s.ring ++ [.forwarded q false]
      responseTimer :=
        if s.ring.any outstanding then s.responseTimer else startTimer s.responseTimeout } := by
  unfold allocate
  cases s.ring.any outstanding <;> rfl

/-- Settles O14: the first row of the classification. -/
theorem malformedRequestRefused : Obligations.MalformedRequestRefused := by
  intro s q hg hm
  rw [exec_requestAccept_granted hg, classify_malformed hm]
  rfl

/-- Settles O15: the last row of the classification at a STALLED port. -/
theorem stalledPortFailsRequest : Obligations.StalledPortFailsRequest := by
  intro s q hg hm ho hl
  rw [exec_requestAccept_granted hg, classify_outside hm ho, if_pos hl, allocate_answered]
  rfl

/-- Settles O16: the last row of the classification at an ACTIVE port. -/
theorem requestForwarded : Obligations.RequestForwarded := by
  intro s q hg hm ho hl
  rw [exec_requestAccept_granted hg, classify_outside hm ho, if_neg (by simp [hl]), allocate_forwarded]

/-! ### DOWNSTREAM_SEND (R129, R141) -/

theorem findIdx?_unsent_oldest {older : List Slot} {x : Slot}
    (ho : older.all (fun y => !unsent y) = true) (hx : unsent x = true) (younger : List Slot) :
    (older ++ x :: younger).findIdx? unsent = some older.length := by
  have allSent : older.findIdx? unsent = none := by simpa using ho
  simp [List.findIdx?_append, allSent, List.findIdx?_cons, hx]

/-- Memory takes the oldest unsent request, which is marked sent. -/
theorem exec_downstreamSend_oldest {older younger : List Slot} {x : Slot} (hd : s.device ≠ .reset)
    (hl : s.link = .active) (ho : older.all (fun y => !unsent y) = true) (hx : unsent x = true)
    (hring : s.ring = older ++ x :: younger) :
    exec .downstreamSend s = .next { s with
      ring := older ++ markSent x :: younger
      downstreamOut := downRequest (tagOf s older.length) x } := by
  have place : s.ring[older.length]? = some x := by simp [hring]
  have marked : s.ring.modify older.length markSent = older ++ markSent x :: younger := by
    rw [modify_eq_set _ place, hring, List.set_append_right _ _ le_rfl, Nat.sub_self, List.set_cons_zero]
  have oldest : s.ring.findIdx? unsent = some older.length := by
    rw [hring, findIdx?_unsent_oldest ho hx]
  simp only [exec, execDownstreamSend]
  rw [if_pos ⟨hd, hl⟩, oldest]
  simp only [marked, place]
  rfl

theorem exec_downstreamSend_none (h : s.ring.all (fun x => !unsent x) = true) :
    exec .downstreamSend s = .next s := by
  have allSent : s.ring.findIdx? unsent = none := by simpa using h
  simp only [exec, execDownstreamSend, allSent, ite_self]

/-- Settles O24: the oldest unsent slot holds a forwarded request, or a priming read. -/
theorem oldestRequestSent : Obligations.OldestRequestSent :=
  ⟨fun _ _ _ _ hd hl ho hring => exec_downstreamSend_oldest hd hl ho rfl hring,
    fun _ _ _ _ _ _ hd hl ho hring => exec_downstreamSend_oldest hd hl ho rfl hring,
    fun _ => exec_downstreamSend_none⟩

/-! ### SLOT_LEAVE (R139, R147) -/

/-- Where the laws of the ring hold, nothing is left to follow on a change of it. -/
theorem settle_of_ringLaw (h : RingLaw s) : settle s = s := by
  obtain ⟨-, loud, drains⟩ := h
  rw [settle, leaveSilently_of_loud loud, endDrain]
  split
  next sc hd =>
    have inUse : s.ring ≠ [] := drains ((isDraining_iff s).2 ⟨sc, hd⟩)
    exact if_neg (by simpa using inUse)
  next => rfl

/-- A head that is not answered leaves with no response. -/
theorem exec_slotLeave_outstanding (h : s.ring.head?.all outstanding = true) :
    exec .slotLeave s = .next (settle s) := by
  simp only [exec, execSlotLeave]
  split
  next hring => simp [hring, outstanding] at h
  next => rfl

/-- Settles O32: a RUNNING part frees the answered head, and no slot behind an OUTSTANDING one moves. -/
theorem headSlotLeaves : Obligations.HeadSlotLeaves := by
  refine ⟨fun s n w a len resp rest hd hring => ?_, fun s hs ho => ?_⟩
  · simp only [exec, execSlotLeave, hring]
    rw [settle_running (by exact hd)]
    rfl
  · rw [exec_slotLeave_outstanding ho, settle_of_ringLaw hs]

end

end Sys2Proof.Proofs

/-! SUPPORT and PROOFS. A response taken at a STALLED port, and the proof of the statement that cites
chapter 8 and is not settled above. -/

namespace Sys2Proof.Proofs

open Sys2Proof Sys2Proof.Machine Sys2Proof.Safety

section

variable {s : State}

/-! ### A late response (R163) -/

/-- No tag is compared and no slot is looked for: the flag LATE is the response's one effect. -/
theorem exec_downstreamResponse_stalled (r : DownResponse) (hd : s.device ≠ .reset)
    (hl : s.link = .stalled) : exec (.downstreamResponse r) s = .next (s.raise .late) := by
  simp only [exec, execDownstreamResponse, coverTick_false]
  rw [if_neg hd, if_pos hl]

/-- Settles O31: what raising LATE writes is the flag and the fault line. -/
theorem lateResponseDiscarded : Obligations.LateResponseDiscarded := by
  intro s r hd hl
  rw [exec_downstreamResponse_stalled r hd hl, raise_eq]
  rfl

end

end Sys2Proof.Proofs

/-! SUPPORT and PROOFS. The edges of RESET_N, what a management command answers where its tests refuse it,
and the proofs of the statements that cite chapter 9 about commands. -/

namespace Sys2Proof.Proofs

open Sys2Proof Sys2Proof.Machine Sys2Proof.Safety

section

variable {s : State}

/-! ### The edges of RESET_N (R176, R192, R197) -/

/-- Settles O3: a fall leaves `heldLow`, and a rise reads the device state alone. -/
theorem resetNEdges : Obligations.ResetNEdges := by
  refine ⟨fun s => ?_, fun s hd => ?_, fun s hd => ?_⟩
  · exact ⟨_, rfl, heldLow_resetHolds s.pending s.management.selectLow, rfl, rfl, rfl⟩
  · exact congrArg Host.Outcome.next (if_pos hd)
  · exact congrArg Host.Outcome.next (if_neg hd)

/-! ### FAULT_MASK_SET, FAULT_COLLECT and DEVICE_RESET (R187, R189, R191) -/

/-- Settles O45: neither command tests anything, and each writes the flags or the mask with the line. -/
theorem faultMaskAndCollect : Obligations.FaultMaskAndCollect := by
  refine fun s => ⟨fun mask hp => ?_, fun hp => ?_⟩
  · exact congrArg Host.Outcome.next
      (executeCommand_accepted (body := faultMaskSetBody mask) hp rfl rfl)
  · have line : lineFor 0 s.faultMask = false := by simp [lineFor]
    have key := executeCommand_accepted (body := faultCollectBody) hp rfl rfl
    rw [State.withFaults, line] at key
    exact congrArg Host.Outcome.next key

/-- The byte that DEVICE_RESET carries for a scope (R191, R207). -/
theorem deviceResetBody_accepted (sc : Scope) (s : State) :
    deviceResetBody (match sc with | .full => 0 | .keepConfig => 1) s =
      .ok (endDrain { s with device := .draining sc }, []) := by
  cases sc <;> rfl

theorem endDrain_busy {sc : Scope} (h : s.ring ≠ []) :
    endDrain { s with device := .draining sc } = { s with device := .draining sc } :=
  if_neg fun he => h (List.isEmpty_iff.1 he)

theorem endDrain_empty {sc : Scope} (h : s.ring = []) :
    endDrain { s with device := .draining sc } = applyScope sc s := by
  have now : endDrain { s with device := .draining sc } =
      applyScope sc { s with device := .draining sc } := if_pos (List.isEmpty_iff.2 h)
  rw [now]
  cases sc <;> rfl

/-- Settles O46: the drain that the command starts ends at once where the ring is empty. -/
theorem deviceResetStartsTheDrain : Obligations.DeviceResetStartsTheDrain := by
  intro s sc c hp
  have key := executeCommand_accepted hp rfl (deviceResetBody_accepted sc s)
  refine ⟨fun hr => ?_, fun hr => ?_⟩
  · rw [endDrain_busy hr] at key
    exact congrArg Host.Outcome.next key
  · rw [endDrain_empty hr, show (applyScope sc s).management = s.management by cases sc <;> rfl] at key
    exact congrArg Host.Outcome.next key

/-! ### The commands of the port and their frames (R169, R173) -/

theorem frameCounts_eq (cmd : Command) :
    (commandCode cmd, argumentCount cmd, responseCount cmd) = frameCounts cmd := by
  cases cmd <;> rfl

theorem frameCounts_code (cmd : Command) : (frameCounts cmd).1 = commandCode cmd :=
  congrArg Prod.fst (frameCounts_eq cmd).symm

theorem frameCounts_arguments (cmd : Command) : (frameCounts cmd).2.1 = argumentCount cmd :=
  congrArg (fun p => p.2.1) (frameCounts_eq cmd).symm

theorem frameCounts_response (cmd : Command) : (frameCounts cmd).2.2 = responseCount cmd :=
  congrArg (fun p => p.2.2) (frameCounts_eq cmd).symm

theorem commandOf_none_iff (code : Byte) :
    commandOf code = none ↔ ∀ cmd : Command, commandCode cmd ≠ code := by
  refine ⟨fun h cmd hc => ?_, fun h => ?_⟩
  · rw [← hc, commandOf_code] at h
    cases h
  · rw [commandOf, List.find?_eq_none]
    exact fun cmd _ => by simpa using h cmd

theorem argumentsOf_code (cmd : Command) : argumentsOf (commandCode cmd) = argumentCount cmd := by
  rw [argumentsOf, commandOf_code]

theorem argumentsOf_unknown {code : Byte} (h : commandOf code = none) : argumentsOf code = 0 := by
  rw [argumentsOf, h]

/-- A command that has a frame is a byte that names none, or one of the fourteen commands, with as many
argument bytes as R169 counts. -/
theorem exec_of_frame {c : Instr} {frame : List Byte} (hf : frameOf c = some frame) :
    (∃ code, c = .unknownCommand code ∧ frame = [code]) ∨
    ∃ cmd args body, frame = commandCode cmd :: args ∧ args.length = argumentCount cmd ∧
      ∀ s, exec c s = .next (executeCommand cmd args body s) := by
  cases c with
  | unknownCommand code => cases hf; exact .inl ⟨code, rfl, rfl⟩
  | watchDefine | watchRelease | watchQuery | channelDefine | channelEnable | channelDisable
  | channelDisablePurge | channelReinstate | channelQuery | timingSet | faultMaskSet | statusQuery
  | faultCollect | linkResume | deviceReset =>
    cases hf
    exact .inr ⟨_, _, _, rfl, rfl, fun _ => rfl⟩
  | _ => cases hf

theorem commandOf_unknown {code : Byte} (hw : (Instr.unknownCommand code).wellFormed = true) :
    commandOf code = none := Option.isNone_iff_eq_none.1 hw

theorem frame_arguments_length {c : Instr} {code : Byte} {args : List Byte}
    (hw : c.wellFormed = true) (hf : frameOf c = some (code :: args)) :
    args.length = argumentsOf code := by
  rcases exec_of_frame hf with ⟨_, rfl, hframe⟩ | ⟨cmd, _, _, hframe, hlen, -⟩
  · cases hframe
    exact (argumentsOf_unknown (commandOf_unknown hw)).symm
  · cases hframe
    rw [hlen, argumentsOf_code]

/-! ### Refusals (R169, R174, R175) -/

/-- A refusal's answer, in the words of the statements. -/
theorem refuse_eq {c : Instr} {cmd : Command} {args : List Byte}
    (hf : frameOf c = some (commandCode cmd :: args)) (r : ResultCode) (s : State) :
    refuse cmd args r s = { s with
      management := executed s.management c (commandCode cmd) r
        (List.replicate (responseCount cmd) 0) } := answer_eq hf r _ s

/-- Settles O47: BUSY is tested before the command's own tests. -/
theorem knownCommandsBusyInDrain : Obligations.KnownCommandsBusyInDrain := by
  refine ⟨frameCounts_eq, fun c cmd args s hd hp hw hf hc => ?_⟩
  rw [frameCounts_code] at hf
  rw [frameCounts_code, frameCounts_response]
  rcases exec_of_frame hf with ⟨code, rfl, hframe⟩ | ⟨cmd', args', body, hframe, -, hexec⟩
  · have known := commandOf_code cmd
    rw [(List.cons.inj hframe).1, commandOf_unknown hw] at known
    cases known
  · obtain ⟨hcode, rfl⟩ := List.cons.inj hframe
    obtain rfl := commandCode_injective hcode
    rw [hexec, executeCommand_busy hd hp hf hc, refuse_eq hf]

/-- A command whose tests refuse it changes nothing and answers its count of zero bytes. -/
theorem exec_refused (cmd : Command) {c : Instr} {args : List Byte}
    {body : State → Except ResultCode (State × List Byte)} {r : ResultCode}
    (hf : frameOf c = some (commandCode cmd :: args))
    (hexec : exec c s = .next (executeCommand cmd args body s)) (h : body s = .error r)
    (hp : AtExecutionPoint s c) :
    exec c s = .next { s with
      management := executed s.management c (commandCode cmd) r
        (List.replicate (responseCount cmd) 0) } := by
  rw [hexec, executeCommand_refused hp hf h, refuse_eq hf]

/-- An index byte that names no entry ends a command's tests, whatever follows (R178, R207). -/
theorem entry_badIndex {α : Type} {b : Byte} (h : 64 ≤ b.toNat)
    (f : EntryIndex → Except ResultCode α) :
    (orRefuse .badIndex (entryOf b) >>= f) = .error .badIndex := by
  rw [entryOf_above h, orRefuse_none_bind]

/-- A channel byte that names no channel ends a command's tests, whatever follows (R181, R207). -/
theorem channel_badIndex {α : Type} {b : Byte} (h : 8 ≤ b.toNat)
    (f : ChannelIndex → Except ResultCode α) :
    (orRefuse .badIndex (channelOf b) >>= f) = .error .badIndex := by
  rw [channelOf_above h, orRefuse_none_bind]

/-! ### The tests of WATCH_DEFINE (R178) -/

/-- The argument errors of WATCH_DEFINE. -/
abbrev WatchValuesBad (a : WatchDefineArgs) : Prop :=
  a.address.toNat % 4 ≠ 0 ∨ a.enableMask = 0 ∨ 3 ≤ a.mode.toNat ∨ 8 ≤ a.channel.toNat ∨
    2 ≤ a.reconcile.toNat ∨ (a.mode = 2 ∧ a.threshold = 0)

theorem modeOf_count_iff : ∀ b : Byte, modeOf b = some .count ↔ b = 2 := by decide

theorem channelOf_none_iff (b : Byte) : channelOf b = none ↔ 8 ≤ b.toNat := by
  rw [channelOf]
  split <;> simp <;> omega

theorem watchValues_bad {a : WatchDefineArgs} (h : WatchValuesBad a) :
    watchValues a = .error .badValue := by
  unfold watchValues
  cases hm : modeOf a.mode with
  | none => rfl
  | some m =>
    cases hc : channelOf a.channel with
    | none => rfl
    | some c =>
      cases hb : onOff a.reconcile with
      | none => rfl
      | some b =>
        rw [WatchValuesBad, ← modeOf_none_iff, ← channelOf_none_iff, ← onOff_none_iff,
          ← modeOf_count_iff, hm, hc, hb] at h
        refine require_bind_error _ _ _ (or_iff_not_imp_left.2 fun hfields => ?_)
        refine require_bind_error _ _ _ (.inl ?_)
        obtain ⟨aligned, enabled⟩ : a.address.toNat % 4 = 0 ∧ a.enableMask ≠ 0#32 := by
          simpa using hfields
        obtain ⟨hcount, hthreshold⟩ : m = .count ∧ a.threshold = 0 := by
          simpa [aligned, enabled] using h
        simp [hcount, hthreshold]

theorem watchValues_good {a : WatchDefineArgs} (h : ¬ WatchValuesBad a) :
    ∃ v, watchValues a = .ok v := by
  rw [WatchValuesBad, ← modeOf_none_iff, ← channelOf_none_iff, ← onOff_none_iff,
    ← modeOf_count_iff] at h
  push Not at h
  obtain ⟨hal, hen, hm, hc, hb, ht⟩ := h
  obtain ⟨m, hm⟩ := Option.ne_none_iff_exists'.1 hm
  obtain ⟨c, hc⟩ := Option.ne_none_iff_exists'.1 hc
  obtain ⟨b, hb⟩ := Option.ne_none_iff_exists'.1 hb
  exact ⟨_, watchValues_accepted hal hen hm hc hb fun hcount => ht (hcount ▸ hm)⟩

theorem entryOf_below {b : Byte} (h : b.toNat < 64) : entryOf b = some ⟨b.toNat, h⟩ := dif_pos h

theorem watchDefineBody_badValue {a : WatchDefineArgs} (hi : a.index.toNat < 64)
    (hv : WatchValuesBad a) : watchDefineBody a s = .error .badValue := by
  rw [watchDefineBody, entryOf_below hi, orRefuse_some_bind, watchValues_bad hv, error_bind]

theorem watchDefineBody_duplicate {a : WatchDefineArgs} (hi : a.index.toNat < 64)
    (hv : ¬ WatchValuesBad a) (hh : heldElsewhere s ⟨a.index.toNat, hi⟩ a.address = true) :
    watchDefineBody a s = .error .duplicate := by
  obtain ⟨v, hv⟩ := watchValues_good hv
  simp only [watchDefineBody, entryOf_below hi, orRefuse_some_bind, hv, ok_bind, hh]
  rfl

theorem watchDefineBody_overlap {a : WatchDefineArgs} (hi : a.index.toNat < 64)
    (hv : ¬ WatchValuesBad a) (hh : heldElsewhere s ⟨a.index.toNat, hi⟩ a.address = false)
    (hw : inAnyWindow s a.address = true) : watchDefineBody a s = .error .overlap := by
  obtain ⟨v, hv⟩ := watchValues_good hv
  simp only [watchDefineBody, entryOf_below hi, orRefuse_some_bind, hv, ok_bind, hh, hw]
  rfl

/-! ### The tests of CHANNEL_DEFINE (R181) -/

/-- The argument errors of CHANNEL_DEFINE of channel `c`. -/
abbrev ChannelValuesBad (c : ChannelIndex) (a : ChannelDefineArgs) : Prop :=
  2 ≤ a.windowPresent.toNat ∨ (a.windowPresent = 1 ∧ a.windowBase.toNat % 64 ≠ 0) ∨
    a.quota.toNat = 0 ∨ 128 < a.quota.toNat ∨ a.watermark.toNat = 0 ∨
    a.quota.toNat < a.watermark.toNat ∨
    a.fallback.toNat = c.val ∨ (8 ≤ a.fallback.toNat ∧ a.fallback ≠ 0xFF)

theorem onOff_true_iff : ∀ b : Byte, onOff b = some true ↔ b = 1 := by decide

theorem ne_zero_iff_toNat {n : Nat} (b : BitVec n) : (b != 0) = true ↔ b.toNat ≠ 0 := by
  rw [bne_iff_ne, ne_eq, ← BitVec.toNat_inj]
  rfl

theorem configOf_bad {c : ChannelIndex} {a : ChannelDefineArgs} (h : ChannelValuesBad c a) :
    configOf c a = .error .badValue := by
  unfold configOf
  cases hp : onOff a.windowPresent with
  | none => rfl
  | some present =>
    refine require_bind_error _ _ _ (or_iff_not_imp_left.2 fun hbase => ?_)
    refine require_bind_error _ _ _ (or_iff_not_imp_left.2 fun hquota => ?_)
    refine require_bind_error _ _ _ (or_iff_not_imp_left.2 fun hwatermark => ?_)
    refine orRefuse_bind_error _ _ _ (.inl ?_)
    rw [ChannelValuesBad, ← onOff_none_iff, ← onOff_true_iff, ← fallbackOf_none_iff, hp] at h
    rw [Bool.not_eq_false, Bool.and_eq_true, ne_zero_iff_toNat, decide_eq_true_eq] at hquota hwatermark
    rw [Bool.not_eq_false, Bool.or_eq_true, beq_iff_eq] at hbase
    obtain ⟨hq, hq'⟩ := hquota
    obtain ⟨hw, hw'⟩ := hwatermark
    rcases h with h | ⟨h, hmisaligned⟩ | h | h | h | h | h
    · cases h
    · cases h
      exact absurd (hbase.resolve_left Bool.false_ne_true) hmisaligned
    · exact absurd h hq
    · exact absurd hq' (Nat.not_le.2 h)
    · exact absurd h hw
    · exact absurd hw' (Nat.not_le.2 h)
    · exact h

theorem configOf_good {c : ChannelIndex} {a : ChannelDefineArgs} (h : ¬ ChannelValuesBad c a) :
    ∃ cfg, configOf c a = .ok cfg ∧ (a.windowPresent = 1 → cfg.windowBase = some a.windowBase) := by
  rw [ChannelValuesBad, ← onOff_none_iff, ← fallbackOf_none_iff] at h
  push Not at h
  obtain ⟨hp, hbase, hq, hq', hw, hw', hf⟩ := h
  obtain ⟨present, hp⟩ := Option.ne_none_iff_exists'.1 hp
  obtain ⟨fallback, hf⟩ := Option.ne_none_iff_exists'.1 hf
  have base : present = true → a.windowBase.toNat % 64 = 0 :=
    fun on => hbase ((onOff_true_iff _).1 (hp.trans (congrArg some on)))
  refine ⟨_, configOf_accepted hp base (Nat.pos_of_ne_zero hq) hq' (Nat.pos_of_ne_zero hw) hw' hf,
    fun on => if_pos ?_⟩
  exact Option.some.inj (hp.symm.trans ((onOff_true_iff _).2 on))

theorem channelOf_eq {b : Byte} {c : ChannelIndex} (h : b.toNat = c.val) : channelOf b = some c := by
  rw [channelOf, dif_pos (by omega)]
  exact congrArg some (Fin.ext h)

theorem channelDefineBody_badValue {a : ChannelDefineArgs} {c : ChannelIndex}
    (hc : a.channel.toNat = c.val) (hv : ChannelValuesBad c a) :
    channelDefineBody a s = .error .badValue := by
  rw [channelDefineBody, channelOf_eq hc, orRefuse_some_bind, configOf_bad hv, error_bind]

theorem channelDefineBody_wrongState {a : ChannelDefineArgs} {c : ChannelIndex}
    (hc : a.channel.toNat = c.val) (hv : ¬ ChannelValuesBad c a)
    (hs : (s.channel c).state ≠ .disabled) : channelDefineBody a s = .error .wrongState := by
  obtain ⟨cfg, hcfg, -⟩ := configOf_good hv
  simp only [channelDefineBody, channelOf_eq hc, orRefuse_some_bind, hcfg, ok_bind,
    beq_false_of_ne hs]
  rfl

theorem channelDefineBody_overlap {a : ChannelDefineArgs} {c : ChannelIndex}
    (hc : a.channel.toNat = c.val) (hv : ¬ ChannelValuesBad c a)
    (hs : (s.channel c).state = .disabled) (hp : a.windowPresent = 1)
    (hw : windowClashes s c a.windowBase = true) : channelDefineBody a s = .error .overlap := by
  obtain ⟨cfg, hcfg, hbase⟩ := configOf_good hv
  have hclash : clashes s c cfg = true := by rw [clashes, hbase hp]; exact hw
  simp only [channelDefineBody, channelOf_eq hc, orRefuse_some_bind, hcfg, ok_bind, hs, hclash]
  rfl

/-! ### The tests of the other commands (R179, R180, R182 to R186, R190, R191) -/

theorem channelDisableBody_badValue (c : ChannelIndex) {p : Byte} (h : 2 ≤ p.toNat) :
    channelDisableBody (BitVec.ofNat 8 c.val) p s = .error .badValue := by
  rw [channelDisableBody, channelOf_number, orRefuse_some_bind, (onOff_none_iff p).2 h,
    orRefuse_none_bind]

theorem channelEnableBody_wrongState {c : ChannelIndex} (h : (s.channel c).state ≠ .disabled) :
    channelEnableBody (BitVec.ofNat 8 c.val) s = .error .wrongState := by
  rw [channelEnableBody, channelOf_number, orRefuse_some_bind, beq_false_of_ne h]
  rfl

theorem channelReinstateBody_wrongState {c : ChannelIndex} (h : (s.channel c).state ≠ .lapsed) :
    channelReinstateBody (BitVec.ofNat 8 c.val) s = .error .wrongState := by
  rw [channelReinstateBody, channelOf_number, orRefuse_some_bind, beq_false_of_ne h]
  rfl

theorem timingSetBody_badValue {divider timeout : Half}
    (h : divider.toNat = 0 ∨ 4096 < divider.toNat ∨ timeout.toNat = 0) :
    timingSetBody divider timeout s = .error .badValue := by
  refine require_bind_error _ _ _ (.inl ?_)
  rw [Bool.eq_false_iff, ne_eq, Bool.and_eq_true, Bool.and_eq_true, ne_zero_iff_toNat,
    ne_zero_iff_toNat, decide_eq_true_eq]
  omega

theorem linkResumeBody_wrongState (h : s.link = .active) :
    linkResumeBody s = .error .wrongState := by
  rw [linkResumeBody, h]
  rfl

theorem deviceResetBody_badValue {sc : Byte} (h : 2 ≤ sc.toNat) :
    deviceResetBody sc s = .error .badValue := by
  rw [deviceResetBody, (scopeOf_none_iff sc).2 h, orRefuse_none_bind]

/-- Settles O48: each clause is the command's tests ending in the result named, by `exec_refused`. -/
theorem refusalsFollowTheOrder : Obligations.RefusalsFollowTheOrder := by
  intro s refuses
  refine ⟨fun a => ?_, fun i hi => ?_, fun a c => ?_, fun c hc => ?_, fun c p hp => ?_, fun c => ?_,
    fun divider timeout h => ?_, fun hl => ?_, fun sc hsc => ?_⟩
  · refine ⟨fun hi => ?_, fun hi hv => ?_, fun hi hv hh => ?_, fun hi hv hh hw => ?_⟩
    · exact exec_refused .watchDefine rfl rfl (entry_badIndex hi _)
    · exact exec_refused .watchDefine rfl rfl (watchDefineBody_badValue hi hv)
    · have held : heldElsewhere s ⟨a.index.toNat, hi⟩ a.address = true := by
        simpa only [heldElsewhere_iff, ne_eq, Fin.ext_iff] using hh
      exact exec_refused .watchDefine rfl rfl (watchDefineBody_duplicate hi hv held)
    · have free : heldElsewhere s ⟨a.index.toNat, hi⟩ a.address = false := by
        simpa only [Bool.eq_false_iff, heldElsewhere_iff, ne_eq, Fin.ext_iff] using hh
      exact exec_refused .watchDefine rfl rfl
        (watchDefineBody_overlap hi hv free ((inAnyWindow_iff s a.address).2 hw))
  · exact ⟨exec_refused .watchRelease rfl rfl (entry_badIndex hi _),
      exec_refused .watchQuery rfl rfl (entry_badIndex hi _)⟩
  · refine ⟨fun hc => ?_, fun hc hv => ?_, fun hc hv hs => ?_, fun hc hv hs hp hw => ?_⟩
    · exact exec_refused .channelDefine rfl rfl (channel_badIndex hc _)
    · exact exec_refused .channelDefine rfl rfl (channelDefineBody_badValue hc hv)
    · exact exec_refused .channelDefine rfl rfl (channelDefineBody_wrongState hc hv hs)
    · exact exec_refused .channelDefine rfl rfl
        (channelDefineBody_overlap hc hv hs hp ((windowClashes_iff s c a.windowBase).2 hw))
  · exact ⟨exec_refused .channelEnable rfl rfl (channel_badIndex hc _),
      exec_refused .channelReinstate rfl rfl (channel_badIndex hc _),
      exec_refused .channelQuery rfl rfl (channel_badIndex hc _),
      exec_refused .channelDisable rfl rfl (channel_badIndex hc _),
      fun p => exec_refused .channelDisable rfl rfl (channel_badIndex hc _)⟩
  · exact exec_refused .channelDisable rfl rfl (channelDisableBody_badValue c hp)
  · exact ⟨fun hs => exec_refused .channelEnable rfl rfl (channelEnableBody_wrongState hs),
      fun hs => exec_refused .channelReinstate rfl rfl (channelReinstateBody_wrongState hs)⟩
  · exact exec_refused .timingSet rfl rfl (timingSetBody_badValue h)
  · exact exec_refused .linkResume rfl rfl (linkResumeBody_wrongState hl)
  · exact exec_refused .deviceReset rfl rfl (deviceResetBody_badValue hsc)

end

end Sys2Proof.Proofs

/-! SUPPORT and PROOFS. The bits of a management frame one after another, the command that its bytes spell,
and the proofs of the statements that cite chapter 9 about frames. -/

namespace Sys2Proof.Proofs

open Sys2Proof Sys2Proof.Machine Sys2Proof.Safety

section

variable {s : State}

/-! ### The bytes of a frame and the command they spell (R169, R170, R173) -/

/-- The bytes of a frame spell its command, and those behind its last argument byte change nothing. -/
theorem commandOfFrame_frame {c : Instr} {frame : List Byte} (hw : c.wellFormed = true)
    (hf : frameOf c = some frame) (extra : List Byte) : commandOfFrame (frame ++ extra) = some c := by
  cases c with
  | unknownCommand code =>
    cases hf
    simp [commandOfFrame, commandOf_unknown hw]
  | watchDefine a =>
    cases hf
    simp only [List.cons_append, commandOfFrame, commandOf_code]
    simp [watchDefineBytes, wordBytes, halfBytes, withArguments, wordOf_bytes, halfOf_bytes]
  | channelDefine a =>
    cases hf
    simp only [List.cons_append, commandOfFrame, commandOf_code]
    simp [channelDefineBytes, wordBytes, halfBytes, withArguments, wordOf_bytes, halfOf_bytes]
  | timingSet d t =>
    cases hf
    simp only [List.cons_append, commandOfFrame, commandOf_code]
    simp [timingSetBytes, halfBytes, withArguments, halfOf_bytes]
  | channelDisable c p =>
    cases hf
    have hp : p ≠ 1 := bne_iff_ne.1 hw
    exact congrArg some (if_neg hp)
  | watchRelease | watchQuery | channelEnable | channelDisablePurge | channelReinstate | channelQuery
  | faultMaskSet | statusQuery | faultCollect | linkResume | deviceReset =>
    cases hf
    rfl
  | _ => cases hf

/-- A command does not execute while an argument byte of it is to come. -/
theorem withArguments_short {cmd : Command} {args : List Byte} (h : args.length < argumentCount cmd) :
    withArguments cmd args = none := by
  -- each layout but the last is as long as the command counts, so `h` shuts it out
  unfold withArguments
  split
  case h_15 => rfl
  all_goals
    simp only [argumentCount, List.length_cons] at h
    omega

theorem commandOfFrame_short {code : Byte} {args : List Byte} {n : Nat} (h : n ≤ args.length)
    (ha : args.length = argumentsOf code) : commandOfFrame ((code :: args).take n) = none := by
  cases n with
  | zero => rfl
  | succ k =>
    rw [List.take_succ_cons, commandOfFrame]
    cases hc : commandOf code with
    | none =>
      rw [argumentsOf_unknown hc] at ha
      omega
    | some cmd =>
      refine withArguments_short ?_
      have count : argumentsOf code = argumentCount cmd := by rw [argumentsOf, hc]
      rw [List.length_take]
      omega

/-! ### Clock edges up to the execution point (R168, R170, R176) -/

theorem heldBits_nil {m : ManagementPort} (h : heldBits m = []) : m.bits = [] := by
  unfold heldBits at h
  split at h
  · exact (List.append_eq_nil_iff.1 h).2
  · exact h

theorem port_eta {m : ManagementPort} {low : Bool} {l : List Bool} (hlow : m.selectLow = low)
    (hl : m.shifted = l) : { m with selectLow := low, shifted := l } = m := by
  subst hlow hl
  rfl

/-- The bits short of a frame's last, from any bits of it that the port holds already. -/
theorem clockIn_frameOf {c : Instr} {frame : List Byte} {m : ManagementPort} {l : List Bool}
    (hw : c.wellFormed = true) (hf : frameOf c = some frame) (h : awaitsCommand m = true)
    (hheld : heldBits m = []) (hp : l <+: frameBits frame) (hl : l.length < 8 * frame.length) :
    awaitsCommand (clockIn l m) = true ∧ heldBits (clockIn l m) = l ∧
      (clockIn l m).shifted = m.shifted ++ List.replicate l.length false := by
  cases frame with
  | nil => simp at hl
  | cons code args =>
    have key := clockIn_frame (frame_arguments_length hw hf) l m h (by simp [heldBits_nil hheld])
      (by rwa [hheld]) (by simpa [hheld] using hl)
    rwa [hheld] at key

/-- Settles O50: the bits by `clockIn_frameOf`, the bytes by `commandOfFrame_frame` and
`commandOfFrame_short`. -/
theorem framesRoundTrip : Obligations.FramesRoundTrip := by
  refine ⟨fun w h => ⟨rfl, rfl⟩, fun a => rfl, fun a => rfl, ?_, ?_⟩
  · intro s c frame n hw hf hd hlow hn bits
    have hlen : (bits.take n).length = n := by
      rw [List.length_take, show bits.length = 8 * frame.length from frameBits_length frame]
      omega
    have fell : exec (.frameBegin (bits.take n)) s =
        .next (clockSelect { s with management := selectFalls true } (bits.take n)) := by
      simp only [exec, execFrameBegin, hlow, bne_iff_ne.2 hd]
      rfl
    obtain ⟨awaits, held, shifted⟩ := clockIn_frameOf (m := selectFalls true) hw hf rfl rfl
      (List.take_prefix n bits) (by rw [hlen]; exact hn)
    rw [hlen] at shifted
    refine ⟨_, fell, ⟨awaits, ?_⟩, held, ?_⟩
    · simp only [clockSelect, hf, Option.any_some, held]
      exact List.isPrefixOf_iff_prefix.2 (List.take_prefix n bits)
    · exact congrArg (fun m => { s with management := m })
        (port_eta (clockIn_selectLow _ _) shifted).symm
  · intro c code args hw hf
    have ha := frame_arguments_length hw hf
    exact ⟨ha, commandOfFrame_frame hw hf, fun n hn => commandOfFrame_short hn ha⟩

/-! ### One clock edge (R168) -/

theorem shiftsOut_result (code : Byte) (r : ResultCode) (response : List Byte) :
    shiftsOut (.result code r response) = resultByte r := by
  cases r <;> rfl

/-- What a position shifts out, in the words of the statements. -/
theorem outputByte_eq {p : FramePhase} (h : p ≠ .noFrame) : outputByte p = some (shiftsOut p) := by
  cases p with
  | noFrame => exact absurd rfl h
  | result code r response => rw [shiftsOut_result]; rfl
  | response code left => cases left <;> rfl
  | command | arguments | turnaround | trailing => rfl

/-- The position behind the result byte, in the words of the statements. -/
theorem nextPosition_result (b code : Byte) (r : ResultCode) (l : List Byte) :
    nextPosition b (.result code r l) = if l = [] then .trailing code else .response code l := by
  cases l <;> rfl

/-- The position behind a response byte, in the words of the statements. -/
theorem nextPosition_response (b code : Byte) (l : List Byte) :
    nextPosition b (.response code l) =
      if l.length ≤ 1 then .trailing code else .response code l.tail := by
  match l with
  | [] => rfl
  | [_] => rfl
  | _ :: _ :: _ => simp [nextPosition]

/-- The command byte of a command with arguments is not its execution point (R170). -/
theorem byteExecutes_command {b : Byte} {cmd : Command} (hb : commandCode cmd = b)
    (h : argumentCount cmd ≠ 0) : byteExecutes b .command = false := by
  rw [← hb, byteExecutes, argumentsOf_code]
  exact beq_false_of_ne h

theorem byteExecutes_arguments {b : Byte} {cmd : Command} {args : List Byte}
    (h : args.length + 1 < argumentCount cmd) :
    byteExecutes b (.arguments (commandCode cmd) args) = false := by
  rw [byteExecutes, argumentsOf_code, decide_eq_false_iff_not]
  omega

theorem exec_frameBegin_edge {x : Bool} (hlow : s.management.selectLow = true)
    (hx : bitExecutes s.management x = false) :
    exec (.frameBegin [x]) s = .next { s with management := sampleBit s.management x } := by
  simp only [exec, execFrameBegin, hlow, if_true, clockSelect, clockIn, hx]
  rfl

/-- A bit that is not the last of its byte. -/
theorem exec_frameBegin_within {x : Bool} (hlow : s.management.selectLow = true)
    (hp : s.management.phase ≠ .noFrame) (hb : s.management.bits.length < 7) :
    exec (.frameBegin [x]) s = .next { s with management := { s.management with
      bits := s.management.bits ++ [x]
      shifted := s.management.shifted ++
        [(shiftsOut s.management.phase).getMsbD s.management.bits.length] } } := by
  have early : bitExecutes s.management x = false := by
    simp only [bitExecutes, Bool.and_eq_false_iff, decide_eq_false_iff_not]
    exact .inl (by omega)
  rw [exec_frameBegin_edge hlow early, sampleBit_within x (outputByte_eq hp) hb]

/-- The last bit of a byte at which no command executes. -/
theorem exec_frameBegin_last {b : Byte} (hlow : s.management.selectLow = true)
    (hp : s.management.phase ≠ .noFrame)
    (hb : s.management.bits = [b[7], b[6], b[5], b[4], b[3], b[2], b[1]])
    (hx : byteExecutes b s.management.phase = false) :
    exec (.frameBegin [b[0]]) s = .next { s with management := { s.management with
      phase := nextPosition b s.management.phase
      bits := []
      shifted := s.management.shifted ++ [(shiftsOut s.management.phase)[0]] } } := by
  have hbyte : byteOf (s.management.bits ++ [b[0]]) = b := by
    rw [hb]
    exact byteOf_byteBits b
  have hlen : s.management.bits.length = 7 := by rw [hb]; rfl
  have goesOn : bitExecutes s.management b[0] = false := by
    rw [bitExecutes, hbyte, hx, Bool.and_false]
  rw [exec_frameBegin_edge hlow goesOn, sampleBit_last _ (outputByte_eq hp) (by omega), hbyte, hlen]
  rfl

/-! ### The rise of chip select (R171, R172) -/

/-- An edge while a command is awaited leaves it awaited, with a bit held and a zero shifted out. -/
theorem sampleBit_holds {m : ManagementPort} (b : Bool) (h : awaitsCommand m = true) :
    awaitsCommand (sampleBit m b) = true ∧ heldBits (sampleBit m b) ≠ [] ∧
      (sampleBit m b).shifted = m.shifted ++ [false] := by
  by_cases h7 : m.bits.length < 7
  · obtain ⟨awaits, held, shifted, -⟩ := sampleBit_awaits b h (by omega)
    exact ⟨awaits, by simp [held], shifted⟩
  · obtain ⟨low, phase, bits, shifted⟩ := m
    cases phase with
    | command =>
      rw [sampleBit_last b rfl h7]
      exact ⟨rfl, List.cons_ne_nil _ _, by rw [getMsbD_zero]⟩
    | arguments code taken =>
      rw [sampleBit_last b rfl h7]
      exact ⟨rfl, List.cons_ne_nil _ _, by rw [getMsbD_zero]⟩
    | _ => cases h

theorem heldBits_of_bitExecutes {m : ManagementPort} {b : Bool} (h : bitExecutes m b = true) :
    heldBits m ≠ [] := by
  intro hheld
  simp [bitExecutes, heldBits_nil hheld] at h

/-- Edges while a command is awaited: the port samples them up to its execution point, shifting a zero
out at each, and holds a bit where any came. -/
theorem clockIn_awaits (l : List Bool) {m : ManagementPort} (h : awaitsCommand m = true)
    (hl : l ≠ [] ∨ heldBits m ≠ []) :
    ∃ n ≤ l.length, awaitsCommand (clockIn l m) = true ∧ heldBits (clockIn l m) ≠ [] ∧
      (clockIn l m).shifted = m.shifted ++ List.replicate n false := by
  induction l generalizing m with
  | nil => exact ⟨0, le_rfl, h, hl.resolve_left (absurd rfl), by simp [clockIn]⟩
  | cons b l ih =>
    by_cases hx : bitExecutes m b = true
    · rw [clockIn, if_pos hx]
      exact ⟨0, Nat.zero_le _, h, heldBits_of_bitExecutes hx, by simp⟩
    · rw [clockIn, if_neg hx]
      obtain ⟨awaits, held, out⟩ := sampleBit_holds b h
      obtain ⟨n, hn, awaits', held', out'⟩ := ih awaits (.inr held)
      exact ⟨n + 1, Nat.succ_le_succ hn, awaits', held',
        by rw [out', out, List.append_assoc, List.replicate_succ]; rfl⟩

theorem riseDiscards_of_held {m : ManagementPort} (h : awaitsCommand m = true)
    (hheld : heldBits m ≠ []) : riseDiscards m = true := by
  rw [riseDiscards, h, Bool.true_and, Bool.not_eq_true', List.isEmpty_eq_false_iff]
  exact hheld

theorem riseDiscards_of_executed {m : ManagementPort} (h : hasExecuted m.phase = true) :
    riseDiscards m = false := by
  unfold riseDiscards awaitsCommand
  cases hp : m.phase <;> simp_all [hasExecuted]

/-- A rise that discards a frame sets MGMT_FRAME (R171). -/
theorem riseSelect_discards (hd : s.device ≠ .reset) (h : riseDiscards s.management = true) :
    riseSelect s = { s with
      faultFlags := s.faultFlags ||| 0x40
      faultLine := (s.faultFlags ||| 0x40) &&& s.faultMask != 0
      management := selectRises s.management } := by
  simp only [riseSelect, bne_iff_ne.2 hd, h, Bool.and_self, if_true]
  rfl

theorem riseSelect_quiet (h : riseDiscards s.management = false) :
    riseSelect s = { s with management := selectRises s.management } := by
  simp [riseSelect, h]

theorem exec_frameDiscard_sampled {l : List Bool} (hd : s.device ≠ .reset)
    (h : awaitsCommand s.management = true) (hl : l ≠ [] ∨ heldBits s.management ≠ []) :
    ∃ n ≤ l.length,
      (clockIn l s.management).shifted = s.management.shifted ++ List.replicate n false ∧
      exec (.frameDiscard l) s = .next { s with
        faultFlags := s.faultFlags ||| 0x40
        faultLine := (s.faultFlags ||| 0x40) &&& s.faultMask != 0
        management := { selectLow := false, phase := .noFrame, bits := []
                        shifted := s.management.shifted ++ List.replicate n false } } := by
  obtain ⟨n, hn, awaits, held, out⟩ := clockIn_awaits l h hl
  refine ⟨n, hn, out, ?_⟩
  rw [← out]
  exact congrArg Host.Outcome.next
    (riseSelect_discards (s := clockSelect s l) hd (riseDiscards_of_held awaits held))

/-- A rise behind the execution point: the next bits of the turnaround, result and response bytes, and
then zeros, were shifted out (R168, R172). -/
theorem exec_frameCut_turnaround {code : Byte} {r : ResultCode} {response : List Byte} (l : List Bool)
    (hp : s.management.phase = .turnaround code r response) (hb : s.management.bits = []) :
    exec (.frameCutAfterExecution l) s = .next { s with
      management := { selectLow := false, phase := .noFrame, bits := []
                      shifted := s.management.shifted ++
                        (frameBits (0 :: resultByte r :: response ++
                          List.replicate l.length 0)).take l.length } } := by
  obtain ⟨behind, out⟩ := clockIn_executed l s.management l.length (by rw [hp]; rfl)
    (by rw [hb]; decide) (by rw [hb, List.length_nil]; omega)
  rw [hp, hb] at out
  have rises : exec (.frameCutAfterExecution l) s =
      .next { s with management := selectRises (clockIn l s.management) } :=
    congrArg Host.Outcome.next
      (riseSelect_quiet (s := clockSelect s l) (riseDiscards_of_executed behind))
  rw [rises, selectRises, out]
  rfl

/-- A byte that names no command, at its execution point outside RESET (R173). -/
theorem exec_unknownCommand_executes {code : Byte} (hd : s.device ≠ .reset)
    (hp : AwaitsFrame s (.unknownCommand code)) (hc : commandOf code = none) :
    exec (.unknownCommand code) s = .next { s with
      management := executed s.management (.unknownCommand code) code .badCommand [] } := by
  have taken : (takesFrame s code [] && (commandOf code).isNone) = true := by
    rw [takesFrame_of_awaits hd hp rfl, hc]
    rfl
  exact congrArg Host.Outcome.next ((if_pos taken).trans (answer_eq rfl .badCommand [] s))

/-- Settles O49: a fall, an edge, a byte, an unknown byte and the three rises, each by its lemma. -/
theorem frameEventsOfThePort : Obligations.FrameEventsOfThePort := by
  refine ⟨?_, fun s x => exec_frameBegin_within, ?_, ?_, ?_, ?_, ?_⟩
  · intro s l hd hlow t
    have fell : ∀ bits, exec (.frameBegin bits) s = .next (clockSelect t bits) := by
      intro bits
      simp only [exec, execFrameBegin, hlow, bne_iff_ne.2 hd]
      rfl
    exact ⟨fell [], fell l⟩
  · intro s b hlow hb taken
    have last : ∀ p, s.management.phase = p → p ≠ .noFrame → byteExecutes b p = false →
        taken (nextPosition b p) := by
      rintro _ rfl hp hx
      exact exec_frameBegin_last hlow hp hb hx
    refine ⟨fun hp ⟨cmd, hcode, hcount⟩ => ?_, fun cmd args hp hlen => ?_,
      fun code r l => ⟨fun hp => ?_, fun hp => ?_, fun hp => ?_, fun hp => ?_⟩⟩
    · rw [frameCounts_code] at hcode
      rw [frameCounts_arguments] at hcount
      exact last _ hp (by simp) (byteExecutes_command hcode hcount)
    · rw [frameCounts_code] at hp ⊢
      rw [frameCounts_arguments] at hlen
      exact last _ hp (by simp) (byteExecutes_arguments hlen)
    · exact last _ hp (by simp) rfl
    · rw [← nextPosition_result]
      exact last _ hp (by simp) rfl
    · rw [← nextPosition_response]
      exact last _ hp (by simp) rfl
    · exact last _ hp (by simp) rfl
  · intro s code hd hp hc
    refine exec_unknownCommand_executes hd hp ((commandOf_none_iff code).2 fun cmd => ?_)
    rw [← frameCounts_code]
    exact hc cmd
  · intro s l hd h hl
    obtain ⟨n, hn, out, hexec⟩ := exec_frameDiscard_sampled hd h hl
    refine ⟨n, hn, fun hheld c frame hw hf hp hlen => ?_, hexec⟩
    obtain ⟨-, -, whole⟩ := clockIn_frameOf hw hf h hheld hp hlen
    simpa using congrArg List.length (out.symm.trans whole)
  · intro s hp hb
    have quiet : riseDiscards s.management = false := by simp [riseDiscards, heldBits, hp, hb]
    refine congrArg Host.Outcome.next ((riseSelect_quiet (s := clockSelect s []) quiet).trans ?_)
    rw [clockSelect, clockIn, selectRises, ← hb]
  · intro s l code r response hp hb
    rw [shiftsOut_result]
    exact exec_frameCut_turnaround l hp hb

end

end Sys2Proof.Proofs

/-! SUPPORT and PROOFS. The two cases of a step, and the proof of the statement that ties a step to its
command. -/

namespace Sys2Proof.Proofs

open Sys2Proof Sys2Proof.Machine Sys2Proof.Safety

section

variable {s : State}

/-! ### The queue of commands decides the step (log entry 1) -/

/-- The command in front has left the queue by the time it runs. -/
theorem step_of_pending_cons {c : Instr} {rest : List Instr} (h : s.pending = c :: rest) :
    step s = exec c { s with pending := rest } := by
  simp only [step, h]

theorem step_of_pending_nil (h : s.pending = []) : step s = .next s := by
  simp only [step, h]

/-- Settles O1: the two cases of the queue. -/
theorem stepTakesFrontCommand : Obligations.StepTakesFrontCommand :=
  ⟨fun _ _ _ => step_of_pending_cons, fun _ => step_of_pending_nil⟩

end

end Sys2Proof.Proofs
